-- ==== Sys2Proof/Word.lean ====
section
/-! DEFINITION. The plain data that the manual treats as bits: bytes, words (R6) and 64-bit values, and the bit-field reads used by the encoding. -/
namespace Sys2Proof

/-- A byte; in a multi-byte value the byte at the lowest address is the least significant (R5). -/
abbrev Byte := BitVec 8
/-- A *word* is 32 bits (R6). -/
abbrev Word := BitVec 32
/-- A register pair, an address or a 64-bit register (R92). -/
abbrev DWord := BitVec 64

/-- Bits [lo+len-1:lo] of a number, as the manual writes a bit range (R5). -/
def bitsOf (w lo len : Nat) : Nat := w / 2 ^ lo % 2 ^ len

/-- A Bool as one bit. -/
def bit (b : Bool) : Nat := if b then 1 else 0

/-- One bit of a number as a Bool. -/
def bitAt (w i : Nat) : Bool := w / 2 ^ i % 2 == 1

end Sys2Proof
end

