-- ==== Sys2Proof/Syntax.lean ====
section
/-! DEFINITION. The instruction set as syntax: one constructor of Instr for each row of the opcode table. A word row carries its marker bits and its operand fields (R61, R66, R68, R202); a row of the table that is an event of another agent carries the names of what it acts on. -/
namespace Sys2Proof

/-- A vector register field, v0 to v63 (R8). -/
abbrev Reg := BitVec 6
/-- A predicate field, p0 to p15 (R8). -/
abbrev Pred := BitVec 4
/-- An accumulator tile field, team-relative (R202). -/
abbrev Tile := BitVec 6
/-- imm8 of format I, two's complement (R66). -/
abbrev Imm8 := BitVec 8
/-- The signed word offset of format B (R66). -/
abbrev Off20 := BitVec 20
abbrev Bits2 := BitVec 2
abbrev Bits3 := BitVec 3
abbrev Bits5 := BitVec 5
abbrev Bits6 := BitVec 6
abbrev Bits7 := BitVec 7
abbrev Bits8 := BitVec 8
abbrev Bits16 := BitVec 16
abbrev Bits21 := BitVec 21
abbrev Bits24 := BitVec 24

/-- The marker bits of a word: S (a regroup point before it issues), U (uniform) and Gd (obey the clause guard) (R61). -/
structure Ctl where
  s : Bool
  u : Bool
  gd : Bool
  deriving DecidableEq, Repr

/-- M of the arithmetic words (R127, R128, R130): wrap, or saturate as signed or unsigned. -/
inductive ArithMode where
  | wrap | satI | satN
  deriving DecidableEq, Repr

/-- M of mulhi (R127). -/
inductive MulhiTy where
  | ii | nn | inn
  deriving DecidableEq, Repr

/-- M of min and max (R127). -/
inductive IntTy where
  | i32 | n32
  deriving DecidableEq, Repr

/-- M of neg (R127). -/
inductive NegMode where
  | wrap | sat
  deriving DecidableEq, Repr

/-- Operand type of icmp (R137). -/
inductive CmpTy where
  | i32 | n32 | i64 | n64
  deriving DecidableEq, Repr

/-- Combine of format P (R66). -/
inductive Combine where
  | set | and | or | xor
  deriving DecidableEq, Repr

/-- Rounding mode (R102). -/
inductive Round where
  | rne | rtz | rdn | rup
  deriving DecidableEq, Repr

/-- M of ptest (R138). -/
inductive PtestMode where
  | nz | z
  deriving DecidableEq, Repr

/-- M of fmin and fmax (R171). -/
inductive NumMode where
  | num | nan
  deriving DecidableEq, Repr

/-- 16-bit float type in m (R181). -/
inductive HalfTy where
  | f16 | bf16
  deriving DecidableEq, Repr

/-- 16-bit float type in one bit (R182, R187). -/
inductive HalfTy1 where
  | f16 | bf16
  deriving DecidableEq, Repr

/-- Condition of fcmp and hcmp2 (R174, R182). -/
inductive FCond where
  | eq | lt | le | ne
  deriving DecidableEq, Repr

/-- Operation of xred and xscan (R193). -/
inductive LaneOp where
  | add | minI | maxI | minN | maxN | and | or | xor | fadd | fmin | fmax
  deriving DecidableEq, Repr

/-- Type codes of cvt (R185). -/
inductive TypeCode where
  | i8 | i16 | i32 | i64 | n8 | n16 | n32 | n64 | f32 | f16 | bf16 | e4m3 | e5m2
  deriving DecidableEq, Repr

/-- T of cvt4x8 (R188). -/
inductive ByteTy where
  | e4m3 | e5m2 | i8 | n8
  deriving DecidableEq, Repr

/-- Index mode of ldw and stw (R285). -/
inductive IndexMode where
  | none | zx | sx
  deriving DecidableEq, Repr

/-- Access type of ldw and stw (R285). -/
inductive MemTy where
  | n8 | i8 | n16 | i16 | n32 | n64 | n128
  deriving DecidableEq, Repr

/-- Atom operations (R288). -/
inductive AtomOp where
  | add | and | or | xor | minI | maxI | minN | maxN | exch | cas | fadd | incw
  deriving DecidableEq, Repr

/-- Scopes (R307, R313). -/
inductive Scope where
  | thread | group | team | pair | die | package | sys | fabric
  deriving DecidableEq, Repr

/-- Order of atom (R290). -/
inductive AtomOrder where
  | relaxed | acquire | release | acqrel
  deriving DecidableEq, Repr

/-- Order of fence (R307). -/
inductive FenceOrder where
  | acq | rel | acqrel | sc
  deriving DecidableEq, Repr

/-- Size of stna (R291). -/
inductive StnaSize where
  | n8 | n16 | n32 | n64
  deriving DecidableEq, Repr

/-- Size of lds (R298). -/
inductive LdsSize where
  | n32 | n64
  deriving DecidableEq, Repr

/-- Fusing mode of a single-core matrix word (R200). -/
inductive MxMode where
  | m32x32 | m32x64 | m64x64
  deriving DecidableEq, Repr

/-- A and B formats (R209). -/
inductive MxFmt where
  | bf16 | f16 | e4m3 | e5m2 | w4 | i8 | n8
  deriving DecidableEq, Repr

/-- M of accz (R220). -/
inductive AcczCount where
  | one | two | four
  deriving DecidableEq, Repr

/-- Target of acccvt (R222). -/
inductive CvtTarget where
  | f32 | f16 | bf16 | e4m3 | e5m2 | w4 | i8 | n8 | i32
  deriving DecidableEq, Repr

/-- M of pgsel (R236). -/
inductive PgselDim where
  | d32 | d64
  deriving DecidableEq, Repr

/-- Special register selectors (R122). -/
inductive SpecialReg where
  | tidX | tidY | tidZ | teamX | teamY | teamZ | launch | lane | width | coreid | dieid | clock | tenant | sp | fsr
  deriving DecidableEq, Repr

/-- The logical name of a team: launch identifier, team index (R11), and for a redundant launch which copy (R448). -/
structure TeamId where
  launch : Nat
  team : Nat
  shadow : Bool
  deriving DecidableEq, Repr

/-- A region by tenant, address space and descriptor index (R387). -/
structure RegionId where
  tenant : Nat
  asid : Nat
  idx : Nat
  deriving DecidableEq, Repr

/-- A channel: four per core, sixteen per die, two system channels per die (R334). -/
inductive ChanId where
  | core (core ch : Nat)
  | die (die ch : Nat)
  | system (die ch : Nat)
  deriving DecidableEq, Repr

/-- A Horwell load request (R81): the image bytes, and what the requester fixes with it, the address space and the address at which its native code stands (the manual gives no form of the request: DESIGN CHOICE, log entry 8). -/
structure LoadReq where
  tenant : Nat
  asid : Nat
  codeVa : Nat
  dataVa : Nat
  image : List Byte
  deriving DecidableEq, Repr

/-- An access of the host or a peer to module memory by physical address (R456), or its own write to memory of its own: the host's to host memory or, where a port is named, by whatever stands behind a CXL pool's port; a peer's to its module's memory (R240, R326). -/
inductive ExtAccess where
  | read (pa len : Nat)
  | write (pa : Nat) (bytes : List Byte)
  | atomic (pa : Nat) (op : AtomOp) (wide : Bool) (v cmp : Nat)
  | own (port : Option Nat) (addr : Nat) (bytes : List Byte)
  deriving DecidableEq, Repr

/-- The function of the host link through which an access to the management window comes: the host's physical function, or the virtual function assigned to a tenant (R453). -/
inductive HostFn where
  | physical
  | virtual (tenant : Nat)
  deriving DecidableEq, Repr

/-- The registers of the management window that have no row of their own in the opcode table (R453 to R455). Reads change nothing and need no step. -/
inductive HostReg where
  | wdesc | evsel | evctl | govctl | pwrcap
  | qbase (q : Nat) | qindex (q : Nat)
  | troot (tenant asid : Nat) | rgbase (tenant asid : Nat) | rgcount (tenant asid : Nat)
  | tinva (tenant : Nat) | snapcfg (tenant : Nat)
  | tvec (tenant asid : Nat) | tmask (tenant asid : Nat)
  | fcbase (tenant : Nat) | fcidx (tenant : Nat) | fresp (tenant : Nat)
  | dbgsel (tenant : Nat) | dbgctl (tenant : Nat) | ctxsize (tenant : Nat)
  | wdctl (tenant : Nat) | recctl (tenant : Nat)
  | mquota (tenant table : Nat)
  | poolcfg (tenant pool : Nat)
  | winlim (tenant w : Nat)
  | unassigned (offset : Nat)
  /-- a register as the virtual function assigned to a tenant addresses it -/
  | through (tenant : Nat) (r : HostReg)
  deriving DecidableEq, Repr

/-- The instruction set: one constructor for each row of the opcode table, in its order. -/
inductive Instr where
  /-- ADD: Adds two registers modulo 2^32 or with saturation selected by m (R127) -/
  | add (k : Ctl) (m : ArithMode) (d : Reg) (a : Reg) (b : Reg)
  /-- SUB: Subtracts two registers modulo 2^32 or with saturation selected by m (R127) -/
  | sub (k : Ctl) (m : ArithMode) (d : Reg) (a : Reg) (b : Reg)
  /-- MULLO: Writes the low 32 bits of a product, or the product saturated (R127) -/
  | mullo (k : Ctl) (m : ArithMode) (d : Reg) (a : Reg) (b : Reg)
  /-- MULHI: Writes bits 63:32 of a product under the operand types selected by m (R127) -/
  | mulhi (k : Ctl) (m : MulhiTy) (d : Reg) (a : Reg) (b : Reg)
  /-- MAD: Writes a times b plus c, modulo 2^32 or saturated, formed once (R128) -/
  | mad (k : Ctl) (m : ArithMode) (d : Reg) (a : Reg) (b : Reg) (c : Reg)
  /-- MIN: Writes the minimum of two registers as i32 or n32 (R127) -/
  | min (k : Ctl) (m : IntTy) (d : Reg) (a : Reg) (b : Reg)
  /-- MAX: Writes the maximum of two registers as i32 or n32 (R127) -/
  | max (k : Ctl) (m : IntTy) (d : Reg) (a : Reg) (b : Reg)
  /-- NEG: Writes 0 minus a, modulo 2^32 or saturated (R127) -/
  | neg (k : Ctl) (m : NegMode) (d : Reg) (a : Reg)
  /-- ADDI: Adds a sign-extended 8-bit immediate modulo 2^32 (R129) -/
  | addi (k : Ctl) (d : Reg) (a : Reg) (imm : Imm8)
  /-- MULI: Writes the low 32 bits of a times a sign-extended immediate (R129) -/
  | muli (k : Ctl) (d : Reg) (a : Reg) (imm : Imm8)
  /-- ADD64: Adds two register pairs modulo 2^64 or saturated (R130) -/
  | add64 (k : Ctl) (m : ArithMode) (d : Reg) (a : Reg) (b : Reg)
  /-- ADD64I: Adds a sign-extended immediate to a register pair modulo 2^64 (R130) -/
  | add64i (k : Ctl) (d : Reg) (a : Reg) (imm : Imm8)
  /-- SUB64: Subtracts two register pairs modulo 2^64 or saturated (R130) -/
  | sub64 (k : Ctl) (m : ArithMode) (d : Reg) (a : Reg) (b : Reg)
  /-- LEA64: Forms a 64-bit address from a pair, a shifted extended index and a displacement (R131) -/
  | lea64 (k : Ctl) (d : Reg) (a : Reg) (c : Reg) (sx : Bool) (shift : Bits3) (disp : Bits16)
  /-- AND: Writes the bitwise AND of two registers (R132) -/
  | and (k : Ctl) (d : Reg) (a : Reg) (b : Reg)
  /-- OR: Writes the bitwise OR of two registers (R132) -/
  | or (k : Ctl) (d : Reg) (a : Reg) (b : Reg)
  /-- XOR: Writes the bitwise exclusive OR of two registers (R132) -/
  | xor (k : Ctl) (d : Reg) (a : Reg) (b : Reg)
  /-- NOT: Writes the bitwise complement of a register (R132) -/
  | not (k : Ctl) (d : Reg) (a : Reg)
  /-- ANDI: ANDs a register with a sign-extended immediate (R132) -/
  | andi (k : Ctl) (d : Reg) (a : Reg) (imm : Imm8)
  /-- ORI: ORs a register with a sign-extended immediate (R132) -/
  | ori (k : Ctl) (d : Reg) (a : Reg) (imm : Imm8)
  /-- XORI: Exclusive-ORs a register with a sign-extended immediate (R132) -/
  | xori (k : Ctl) (d : Reg) (a : Reg) (imm : Imm8)
  /-- LOP3: Computes any three-input bitwise function given by an 8-bit table (R133) -/
  | lop3 (k : Ctl) (d : Reg) (a : Reg) (b : Reg) (c : Reg) (table : Bits8)
  /-- SHL: Shifts left by a register amount (R134) -/
  | shl (k : Ctl) (d : Reg) (a : Reg) (b : Reg)
  /-- SHR: Shifts right logically by a register amount (R134) -/
  | shr (k : Ctl) (d : Reg) (a : Reg) (b : Reg)
  /-- SRA: Shifts right arithmetically by a register amount (R134) -/
  | sra (k : Ctl) (d : Reg) (a : Reg) (b : Reg)
  /-- ROL: Rotates left by a register amount (R134) -/
  | rol (k : Ctl) (d : Reg) (a : Reg) (b : Reg)
  /-- SHLI: Shifts left by an immediate of 0 to 31 (R134) -/
  | shli (k : Ctl) (d : Reg) (a : Reg) (imm : Imm8)
  /-- SHRI: Shifts right logically by an immediate of 0 to 31 (R134) -/
  | shri (k : Ctl) (d : Reg) (a : Reg) (imm : Imm8)
  /-- SRAI: Shifts right arithmetically by an immediate of 0 to 31 (R134) -/
  | srai (k : Ctl) (d : Reg) (a : Reg) (imm : Imm8)
  /-- ROLI: Rotates left by an immediate of 0 to 31 (R134) -/
  | roli (k : Ctl) (d : Reg) (a : Reg) (imm : Imm8)
  /-- BFE: Extracts a bit field, zero- or sign-extended (R135) -/
  | bfe (k : Ctl) (d : Reg) (a : Reg) (sx : Bool) (len : Bits6) (pos : Bits5)
  /-- BFI: Inserts a bit field of b into a (R135) -/
  | bfi (k : Ctl) (d : Reg) (a : Reg) (b : Reg) (len : Bits6) (pos : Bits5)
  /-- POPC: Writes the number of 1 bits (R136) -/
  | popc (k : Ctl) (d : Reg) (a : Reg)
  /-- CLZ: Writes the number of leading zero bits (R136) -/
  | clz (k : Ctl) (d : Reg) (a : Reg)
  /-- BREV: Writes the register with its bits reversed (R136) -/
  | brev (k : Ctl) (d : Reg) (a : Reg)
  /-- FFS: Writes the index of the lowest 1 bit, or 32 (R136) -/
  | ffs (k : Ctl) (d : Reg) (a : Reg)
  /-- ICMP_EQ: Compares for equality and combines the result into a predicate (R137) -/
  | icmpEq (k : Ctl) (m : CmpTy) (comb : Combine) (pd : Pred) (a : Reg) (b : Reg)
  /-- ICMP_NE: Compares for inequality and combines the result into a predicate (R137) -/
  | icmpNe (k : Ctl) (m : CmpTy) (comb : Combine) (pd : Pred) (a : Reg) (b : Reg)
  /-- ICMP_LT: Compares less-than and combines the result into a predicate (R137) -/
  | icmpLt (k : Ctl) (m : CmpTy) (comb : Combine) (pd : Pred) (a : Reg) (b : Reg)
  /-- ICMP_LE: Compares less-or-equal and combines the result into a predicate (R137) -/
  | icmpLe (k : Ctl) (m : CmpTy) (comb : Combine) (pd : Pred) (a : Reg) (b : Reg)
  /-- ICMP_GT: Compares greater-than and combines the result into a predicate (R137) -/
  | icmpGt (k : Ctl) (m : CmpTy) (comb : Combine) (pd : Pred) (a : Reg) (b : Reg)
  /-- ICMP_GE: Compares greater-or-equal and combines the result into a predicate (R137) -/
  | icmpGe (k : Ctl) (m : CmpTy) (comb : Combine) (pd : Pred) (a : Reg) (b : Reg)
  /-- PTEST: Tests a AND b for nonzero or zero into a predicate (R138) -/
  | ptest (k : Ctl) (m : PtestMode) (comb : Combine) (pd : Pred) (a : Reg) (b : Reg)
  /-- PAND: ANDs two optionally complemented predicates (R139) -/
  | pand (k : Ctl) (na : Bool) (nb : Bool) (comb : Combine) (pd : Pred) (pa : Pred) (pb : Pred)
  /-- POR: ORs two optionally complemented predicates (R139) -/
  | por (k : Ctl) (na : Bool) (nb : Bool) (comb : Combine) (pd : Pred) (pa : Pred) (pb : Pred)
  /-- PXOR: Exclusive-ORs two optionally complemented predicates (R139) -/
  | pxor (k : Ctl) (na : Bool) (nb : Bool) (comb : Combine) (pd : Pred) (pa : Pred) (pb : Pred)
  /-- PNOT: Writes the complement of a predicate (R139) -/
  | pnot (k : Ctl) (comb : Combine) (pd : Pred) (pa : Pred)
  /-- P2V: Writes one predicate as 1 or 0 to a register (R140) -/
  | p2v (k : Ctl) (d : Reg) (pa : Pred)
  /-- P2V_ALL: Writes all sixteen predicates to bits 15:0 of a register (R140) -/
  | p2vAll (k : Ctl) (d : Reg)
  /-- V2P: Combines register-nonzero into a predicate (R140) -/
  | v2p (k : Ctl) (comb : Combine) (pd : Pred) (a : Reg)
  /-- V2P_ALL: Sets all sixteen predicates from bits 15:0 of a register (R140) -/
  | v2pAll (k : Ctl) (a : Reg)
  /-- SEL: Selects one of two registers by a predicate (R141) -/
  | sel (k : Ctl) (d : Reg) (a : Reg) (b : Reg) (pc : Pred) (ng : Bool)
  /-- MOV: Copies one register (R142) -/
  | mov (k : Ctl) (d : Reg) (a : Reg)
  /-- MOV_64: Copies one register pair (R142) -/
  | mov64 (k : Ctl) (d : Reg) (a : Reg)
  /-- XSHF_IDX: Shuffles values from a lane given by index (R191) -/
  | xshfIdx (k : Ctl) (d : Reg) (a : Reg) (b : Reg)
  /-- XSHF_UP: Shuffles values from a lane k below (R191) -/
  | xshfUp (k : Ctl) (d : Reg) (a : Reg) (b : Reg)
  /-- XSHF_DOWN: Shuffles values from a lane k above (R191) -/
  | xshfDown (k : Ctl) (d : Reg) (a : Reg) (b : Reg)
  /-- XSHF_XOR: Shuffles values from the lane l xor k (R191) -/
  | xshfXor (k : Ctl) (d : Reg) (a : Reg) (b : Reg)
  /-- XBCAST_LANE: Broadcasts a value from a fixed lane (R192) -/
  | xbcastLane (k : Ctl) (d : Reg) (a : Reg) (n : Bits6)
  /-- XBCAST_REG: Broadcasts a value from the lane named by the leading member's register (R192) -/
  | xbcastReg (k : Ctl) (d : Reg) (a : Reg) (b : Reg)
  /-- XBCAST_LEAD: Broadcasts the leading member's value (R192) -/
  | xbcastLead (k : Ctl) (d : Reg) (a : Reg)
  /-- XRED: Reduces participants' values in ascending lane order and writes the result to each (R194) -/
  | xred (k : Ctl) (rm : Round) (d : Reg) (a : Reg) (o : LaneOp)
  /-- XSCAN: Writes an inclusive or exclusive scan over participants in lane order (R194) -/
  | xscan (k : Ctl) (rm : Round) (d : Reg) (a : Reg) (excl : Bool) (o : LaneOp)
  /-- XVOTE_ANY: Votes true if any participant's predicate is 1 (R195) -/
  | xvoteAny (k : Ctl) (comb : Combine) (pd : Pred) (pa : Pred)
  /-- XVOTE_ALL: Votes true if every participant's predicate is 1 (R195) -/
  | xvoteAll (k : Ctl) (comb : Combine) (pd : Pred) (pa : Pred)
  /-- XVOTE_UNI: Votes true if all participants' predicates are equal (R195) -/
  | xvoteUni (k : Ctl) (comb : Combine) (pd : Pred) (pa : Pred)
  /-- XMATCH_EQ: Writes the mask of participants with an equal value (R196) -/
  | xmatchEq (k : Ctl) (d : Reg) (a : Reg)
  /-- XMATCH_BALLOT: Writes the mask of participants whose predicate is 1 (R196) -/
  | xmatchBallot (k : Ctl) (d : Reg) (pa : Pred)
  /-- XMATCH_MEMBERS: Writes the mask of all group members (R196) -/
  | xmatchMembers (k : Ctl) (d : Reg)
  /-- MOVI: Writes a 32-bit constant (R142) -/
  | movi (k : Ctl) (d : Reg) (hi6 : Bits6) (mid2 : Bits2) (lo24 : Bits24)
  /-- FADD: Adds two f32 values with one rounding in mode m (R169) -/
  | fadd (k : Ctl) (m : Round) (d : Reg) (a : Reg) (b : Reg)
  /-- FSUB: Subtracts two f32 values with one rounding in mode m (R169) -/
  | fsub (k : Ctl) (m : Round) (d : Reg) (a : Reg) (b : Reg)
  /-- FMUL: Multiplies two f32 values with one rounding in mode m (R169) -/
  | fmul (k : Ctl) (m : Round) (d : Reg) (a : Reg) (b : Reg)
  /-- FFMA: Computes a fused multiply-add with optional negations and one rounding (R170) -/
  | ffma (k : Ctl) (np : Bool) (nc : Bool) (rnd : Round) (d : Reg) (a : Reg) (b : Reg) (c : Reg)
  /-- FMIN: Writes the f32 minimum, number-preferring or NaN-propagating (R171) -/
  | fmin (k : Ctl) (m : NumMode) (d : Reg) (a : Reg) (b : Reg)
  /-- FMAX: Writes the f32 maximum, number-preferring or NaN-propagating (R171) -/
  | fmax (k : Ctl) (m : NumMode) (d : Reg) (a : Reg) (b : Reg)
  /-- FABS: Clears the sign bit (R172) -/
  | fabs (k : Ctl) (d : Reg) (a : Reg)
  /-- FNEG: Inverts the sign bit (R172) -/
  | fneg (k : Ctl) (d : Reg) (a : Reg)
  /-- FCMP_EQ: Compares two f32 values for equality into a predicate (R174) -/
  | fcmpEq (k : Ctl) (comb : Combine) (pd : Pred) (a : Reg) (b : Reg)
  /-- FCMP_LT: Compares two f32 values less-than into a predicate (R174) -/
  | fcmpLt (k : Ctl) (comb : Combine) (pd : Pred) (a : Reg) (b : Reg)
  /-- FCMP_LE: Compares two f32 values less-or-equal into a predicate (R174) -/
  | fcmpLe (k : Ctl) (comb : Combine) (pd : Pred) (a : Reg) (b : Reg)
  /-- FCMP_NE: Compares two f32 values for inequality into a predicate (R174) -/
  | fcmpNe (k : Ctl) (comb : Combine) (pd : Pred) (a : Reg) (b : Reg)
  /-- FCLASS: Tests the class of an f32 value against a mask into a predicate (R175) -/
  | fclass (k : Ctl) (khi : Bits2) (comb : Combine) (pd : Pred) (a : Reg) (klo : Bits6)
  /-- FRINT: Rounds to an integral f32 value in mode m (R176) -/
  | frint (k : Ctl) (m : Round) (d : Reg) (a : Reg)
  /-- FSAT_UNIT: Clamps to +0 through 1.0 (R173) -/
  | fsatUnit (k : Ctl) (d : Reg) (a : Reg)
  /-- FSAT_SYM: Clamps to -1.0 through 1.0 (R173) -/
  | fsatSym (k : Ctl) (d : Reg) (a : Reg)
  /-- EXPINS: Scales an f32 value by 2^n with one rounding (R177) -/
  | expins (k : Ctl) (m : Round) (d : Reg) (a : Reg) (b : Reg)
  /-- EXPEXT_EXP: Writes floor(log2 |a|) as an i32 (R178) -/
  | expextExp (k : Ctl) (d : Reg) (a : Reg)
  /-- EXPEXT_SIG: Writes the significand of a scaled into [1, 2) (R178) -/
  | expextSig (k : Ctl) (d : Reg) (a : Reg)
  /-- FEXP: Computes 2^a on the SFU (R179) -/
  | fexp (k : Ctl) (d : Reg) (a : Reg)
  /-- FLOG: Computes log2 a on the SFU (R179) -/
  | flog (k : Ctl) (d : Reg) (a : Reg)
  /-- FRCP: Computes 1/a on the SFU (R179) -/
  | frcp (k : Ctl) (d : Reg) (a : Reg)
  /-- FRSQ: Computes 1/sqrt(a) on the SFU (R179) -/
  | frsq (k : Ctl) (d : Reg) (a : Reg)
  /-- FSQRT: Computes sqrt(a), correctly rounded in mode m (R179) -/
  | fsqrt (k : Ctl) (m : Round) (d : Reg) (a : Reg)
  /-- FSIN: Computes sin of a half-turn argument (R179) -/
  | fsin (k : Ctl) (d : Reg) (a : Reg)
  /-- FCOS: Computes cos of a half-turn argument (R179) -/
  | fcos (k : Ctl) (d : Reg) (a : Reg)
  /-- HADD2: Adds packed 16-bit float pairs (R181) -/
  | hadd2 (k : Ctl) (m : HalfTy) (d : Reg) (a : Reg) (b : Reg)
  /-- HSUB2: Subtracts packed 16-bit float pairs (R181) -/
  | hsub2 (k : Ctl) (m : HalfTy) (d : Reg) (a : Reg) (b : Reg)
  /-- HMUL2: Multiplies packed 16-bit float pairs (R181) -/
  | hmul2 (k : Ctl) (m : HalfTy) (d : Reg) (a : Reg) (b : Reg)
  /-- HFMA2: Fused multiply-add on packed 16-bit float pairs (R181) -/
  | hfma2 (k : Ctl) (m : HalfTy) (rnd : Round) (d : Reg) (a : Reg) (b : Reg) (c : Reg)
  /-- HMIN2: Minimum of packed 16-bit float pairs (R181) -/
  | hmin2 (k : Ctl) (m : HalfTy) (d : Reg) (a : Reg) (b : Reg)
  /-- HMAX2: Maximum of packed 16-bit float pairs (R181) -/
  | hmax2 (k : Ctl) (m : HalfTy) (d : Reg) (a : Reg) (b : Reg)
  /-- HCMP2: Compares packed 16-bit pairs into a predicate pair (R182) -/
  | hcmp2 (k : Ctl) (cc : FCond) (comb : Combine) (pk : Bits3) (ty : HalfTy1) (a : Reg) (b : Reg)
  /-- CVT: Converts one element between types with a single rounding (R186) -/
  | cvt (k : Ctl) (d : Reg) (a : Reg) (rnd : Round) (sat : Bool) (delem : Bits2) (selem : Bits2) (dst : TypeCode) (src : TypeCode)
  /-- PACK2: Converts two f32 values into a 16-bit pair (R187) -/
  | pack2 (k : Ctl) (d : Reg) (a : Reg) (b : Reg) (rnd : Round) (sat : Bool) (ty : HalfTy1)
  /-- UNPACK2: Widens a 16-bit pair into two f32 registers (R187) -/
  | unpack2 (k : Ctl) (m : HalfTy) (d : Reg) (a : Reg)
  /-- CVT4X8_PACK: Converts four f32 registers into four 8-bit elements (R188) -/
  | cvt4x8Pack (k : Ctl) (d : Reg) (a : Reg) (rnd : Round) (sat : Bool) (ty : ByteTy)
  /-- CVT4X8_UNPACK: Widens four 8-bit elements into four f32 registers (R188) -/
  | cvt4x8Unpack (k : Ctl) (d : Reg) (a : Reg) (ty : ByteTy)
  /-- DP4: Computes a four-way 8-bit integer dot product plus c (R184) -/
  | dp4 (k : Ctl) (sa : Bool) (sb : Bool) (d : Reg) (a : Reg) (b : Reg) (c : Reg) (sat : Bool)
  /-- FDOT2: Computes a two-term 16-bit dot product plus c in f32 (R183) -/
  | fdot2 (k : Ctl) (m : HalfTy) (rnd : Round) (d : Reg) (a : Reg) (b : Reg) (c : Reg)
  /-- LD_N8: Loads a byte zero-extended (R284) -/
  | ldN8 (k : Ctl) (d : Reg) (a : Reg) (imm : Imm8)
  /-- LD_I8: Loads a byte sign-extended (R284) -/
  | ldI8 (k : Ctl) (d : Reg) (a : Reg) (imm : Imm8)
  /-- LD_N16: Loads 16 bits zero-extended (R284) -/
  | ldN16 (k : Ctl) (d : Reg) (a : Reg) (imm : Imm8)
  /-- LD_I16: Loads 16 bits sign-extended (R284) -/
  | ldI16 (k : Ctl) (d : Reg) (a : Reg) (imm : Imm8)
  /-- LD_N32: Loads 32 bits (R284) -/
  | ldN32 (k : Ctl) (d : Reg) (a : Reg) (imm : Imm8)
  /-- LD_N64: Loads 64 bits into a pair (R284) -/
  | ldN64 (k : Ctl) (d : Reg) (a : Reg) (imm : Imm8)
  /-- LD_N128: Loads 128 bits into a quad (R284) -/
  | ldN128 (k : Ctl) (d : Reg) (a : Reg) (imm : Imm8)
  /-- LDW: Loads with a scaled index and a 21-bit displacement (R285) -/
  | ldw (k : Ctl) (m : IndexMode) (d : Reg) (a : Reg) (b : Reg) (ty : MemTy) (disp : Bits21)
  /-- ST_N8: Stores a byte (R284) -/
  | stN8 (k : Ctl) (d : Reg) (a : Reg) (imm : Imm8)
  /-- ST_N16: Stores 16 bits (R284) -/
  | stN16 (k : Ctl) (d : Reg) (a : Reg) (imm : Imm8)
  /-- ST_N32: Stores 32 bits (R284) -/
  | stN32 (k : Ctl) (d : Reg) (a : Reg) (imm : Imm8)
  /-- ST_N64: Stores 64 bits from a pair (R284) -/
  | stN64 (k : Ctl) (d : Reg) (a : Reg) (imm : Imm8)
  /-- ST_N128: Stores 128 bits from a quad (R284) -/
  | stN128 (k : Ctl) (d : Reg) (a : Reg) (imm : Imm8)
  /-- STW: Stores with a scaled index and a 21-bit displacement (R285) -/
  | stw (k : Ctl) (m : IndexMode) (d : Reg) (a : Reg) (b : Reg) (ty : MemTy) (disp : Bits21)
  /-- LDLINE: Loads words of whole lines spread over lanes (R286) -/
  | ldline (k : Ctl) (d : Reg) (a : Reg) (imm : Imm8)
  /-- STLINE: Stores lanes' words into whole lines (R286) -/
  | stline (k : Ctl) (d : Reg) (a : Reg) (imm : Imm8)
  /-- LDSC: Loads an aligned scratchpad word (R287) -/
  | ldsc (k : Ctl) (d : Reg) (a : Reg) (imm : Imm8)
  /-- STSC: Stores an aligned scratchpad word as a fill write (R287) -/
  | stsc (k : Ctl) (d : Reg) (a : Reg) (imm : Imm8)
  /-- ATOM: Performs an atomic read-modify-write at home with an order and scope (R288) -/
  | atom (k : Ctl) (noret : Bool) (d : Reg) (a : Reg) (b : Reg) (c : Reg) (op : AtomOp) (wide : Bool) (scope : Scope) (order : AtomOrder)
  /-- STNA: Stores without an ALLOC fault, reporting performance in a predicate (R291) -/
  | stna (k : Ctl) (m : StnaSize) (d : Reg) (a : Reg) (disp : Bits16) (pd : Pred)
  /-- LDS: Loads a word and moors a scratchpad slot on it (R298) -/
  | lds (k : Ctl) (sz : LdsSize) (d : Reg) (a : Reg) (pd : Pred)
  /-- UNSL: Removes the mooring of a slot at home (R301) -/
  | unsl (k : Ctl) (a : Reg)
  /-- ENUMPG_NEXT: Finds the next backed page of a region and counts backed pages (R292) -/
  | enumpgNext (k : Ctl) (d : Reg) (a : Reg) (b : Reg)
  /-- ENUMPG_MAP: Writes a bitmap of backed pages to scratchpad (R292) -/
  | enumpgMap (k : Ctl) (a : Reg) (b : Reg) (c : Reg) (words : Bits8)
  /-- PGQ: Writes the backing and class status of a page (R293) -/
  | pgq (k : Ctl) (d : Reg) (a : Reg)
  /-- APPEND: Makes one claim for the issue and writes participants' bytes into an APPEND region (R295) -/
  | append (k : Ctl) (d : Reg) (a : Reg) (b : Reg) (c : Reg)
  /-- SEAL: Requests the seal of an APPEND region (R296) -/
  | sealRegion (k : Ctl) (a : Reg)
  /-- FREE: Requests the free of an APPEND region (R296) -/
  | freeRegion (k : Ctl) (a : Reg)
  /-- TLOOK: Looks up a key in the team's tag entries (R304) -/
  | tlook (k : Ctl) (d : Reg) (a : Reg)
  /-- TSET: Writes a valid tag entry (R304) -/
  | tset (k : Ctl) (d : Reg) (a : Reg) (b : Reg)
  /-- TCLR: Invalidates one tag entry (R304) -/
  | tclr (k : Ctl) (a : Reg)
  /-- TCLR_ALL: Invalidates every tag entry of the team (R304) -/
  | tclrAll (k : Ctl)
  /-- BUFDECL: Declares a scratchpad buffer and returns its handle (R305) -/
  | bufdecl (k : Ctl) (d : Reg) (a : Reg) (b : Reg) (rot : Bits3) (cmp : Bool)
  /-- BUFDECL_REL: Ends a declared buffer (R305) -/
  | bufdeclRel (k : Ctl) (a : Reg)
  /-- BUFMARK_FILL: Moves a buffer to FILLING (R253) -/
  | bufmarkFill (k : Ctl) (a : Reg)
  /-- BUFMARK_FULL: Moves a buffer to FULL once its fill writes have landed, as a team-scope release (R254) -/
  | bufmarkFull (k : Ctl) (a : Reg)
  /-- BUFMARK_EMPTY: Moves a buffer to EMPTY once its consume reads have completed (R253) -/
  | bufmarkEmpty (k : Ctl) (a : Reg)
  /-- BUFQ: Writes the status of a declared buffer (R306) -/
  | bufq (k : Ctl) (d : Reg) (a : Reg)
  /-- FENCE: Acts as an acquire, release, acqrel or sc fence at a scope (R307) -/
  | fence (k : Ctl) (order : FenceOrder) (scope : Scope)
  /-- WLD: Records a binding and latches B blocks into sub-arrays (R213) -/
  | wld (k : Ctl) (m : MxMode) (a : Reg) (sel : Bits2) (fmt : MxFmt)
  /-- WLDPR: Latches B across both arrays of a core pair (R213) -/
  | wldpr (k : Ctl) (a : Reg) (fmt : MxFmt)
  /-- MMA: Streams A rows past latched B and accumulates into tiles (R214) -/
  | mma (k : Ctl) (m : MxMode) (t : Tile) (a : Reg) (z : Bool) (src : Bool) (sel : Bits2) (fmt : MxFmt)
  /-- MMAPR: Multiply-accumulate spanning both arrays of a pair (R214) -/
  | mmapr (k : Ctl) (t : Tile) (a : Reg) (z : Bool) (src : Bool) (fmt : MxFmt)
  /-- ACCZ: Zeroes 1, 2 or 4 accumulator tiles (R220) -/
  | accz (k : Ctl) (m : AcczCount) (t : Tile)
  /-- ACCLD: Loads raw tile rows from scratchpad (R221) -/
  | accld (k : Ctl) (t : Tile) (a : Reg)
  /-- ACCST: Stores raw tile rows to scratchpad (R221) -/
  | accst (k : Ctl) (t : Tile) (a : Reg)
  /-- ACCCVT: Converts tile rows to a target format in scratchpad (R222) -/
  | acccvt (k : Ctl) (t : Tile) (a : Reg) (rnd : Round) (isI : Bool) (wt : Bits2) (sat : Bool) (tgt : CvtTarget)
  /-- ACCMOV_GET: Reads a tile element into a register per lane (R223) -/
  | accmovGet (k : Ctl) (t : Tile) (a : Reg) (b : Reg)
  /-- ACCMOV_PUT: Writes a register into a tile element per lane (R223) -/
  | accmovPut (k : Ctl) (t : Tile) (a : Reg) (b : Reg)
  /-- ACCADD: Adds one tile into another element by element (R224) -/
  | accadd (k : Ctl) (m : Round) (t : Tile) (s : Tile) (isI : Bool)
  /-- ACCTR: Transposes a tile into another (R225) -/
  | acctr (k : Ctl) (t : Tile) (s : Tile)
  /-- MSTAT_STAT: Reads MXSTAT (R235) -/
  | mstatStat (k : Ctl) (a : Reg)
  /-- MSTAT_BIND: Reads the team's bindings per logical sub-array (R235) -/
  | mstatBind (k : Ctl) (a : Reg)
  /-- MSTAT_THETA: Reads the skip threshold of the launch's class (R235) -/
  | mstatTheta (k : Ctl) (a : Reg)
  /-- PGSEL: Scores summary vectors against a query and writes the top k (R236) -/
  | pgsel (k : Ctl) (m : PgselDim) (a : Reg) (b : Reg) (c : Reg) (scores : Bool) (kn : Bits7)
  /-- QAPPEND: Claims a queue slot and writes a packet into it (R371) -/
  | qappend (k : Ctl) (d : Reg) (a : Reg) (b : Reg) (pd : Pred)
  /-- COPY: Submits a copy from registers to a core channel (R372) -/
  | copy (k : Ctl) (d : Reg) (a : Reg) (ch : Bits2)
  /-- COPYM: Submits a multicast copy to a core channel (R372) -/
  | copym (k : Ctl) (d : Reg) (a : Reg) (ch : Bits2)
  /-- XFORM: Submits a transform job tracked by a core channel (R372) -/
  | xform (k : Ctl) (d : Reg) (a : Reg) (ch : Bits2)
  /-- RELSLOT: Adds to a sender's free-slot counter (R373) -/
  | relslot (k : Ctl) (a : Reg) (b : Reg)
  /-- WPTR: Reads a core channel's write pointer and sequence number (R373) -/
  | wptr (k : Ctl) (d : Reg) (a : Reg)
  /-- TLRD_Q: Reads a queue timeline counter (R373) -/
  | tlrdQ (k : Ctl) (d : Reg) (a : Reg)
  /-- TLRD_CH: Reads a core channel timeline counter (R373) -/
  | tlrdCh (k : Ctl) (d : Reg) (a : Reg)
  /-- TLRD_DCH: Reads a die channel timeline counter (R373) -/
  | tlrdDch (k : Ctl) (d : Reg) (a : Reg)
  /-- CHQ: Reads a core channel's status (R374) -/
  | chq (k : Ctl) (d : Reg) (a : Reg)
  /-- BRA: Branches active members to a relative target (R143) -/
  | bra (k : Ctl) (off : Off20)
  /-- CALL: Pushes a return address and branches (R144) -/
  | call (k : Ctl) (off : Off20)
  /-- RET: Pops a return address and branches to it (R145) -/
  | ret (k : Ctl)
  /-- BRX: Branches to a per-member target from a pair (R145) -/
  | brx (k : Ctl) (a : Reg)
  /-- CALLX: Pushes a return address and branches to a per-member target (R145) -/
  | callx (k : Ctl) (a : Reg)
  /-- EXIT: Ends each active member and removes it from the join masks (R149) -/
  | exit (k : Ctl)
  /-- SPADJ: Adds 8 times an immediate to sp (R148) -/
  | spadj (k : Ctl) (imm : Imm8)
  /-- NOP: Takes one issue cycle and changes nothing (R149) -/
  | nop (k : Ctl)
  /-- JSET: Adds active members to both sets of a join mask (R24) -/
  | jset (k : Ctl) (j : Bits3)
  /-- JWAIT: Removes issuing threads from a pending set and makes them wait on the mask (R25) -/
  | jwait (k : Ctl) (j : Bits3)
  /-- TBAR: Makes active members wait at the team barrier (R151) -/
  | tbar (k : Ctl)
  /-- PBAR: Makes active members wait at the pair barrier, also for matrix retirement (R153) -/
  | pbar (k : Ctl)
  /-- MWAIT_SLOT: Waits until a mooring slot's update count differs from a value (R155) -/
  | mwaitSlot (k : Ctl) (a : Reg) (b : Reg)
  /-- MWAIT_GE: Waits until an 8-byte word is at least a value (R155) -/
  | mwaitGe (k : Ctl) (a : Reg) (b : Reg)
  /-- MWAIT_NE: Waits until an 8-byte word differs from a value (R155) -/
  | mwaitNe (k : Ctl) (a : Reg) (b : Reg)
  /-- WAITTL_Q: Waits until a queue timeline reaches n (R158) -/
  | waittlQ (k : Ctl) (a : Reg) (b : Reg)
  /-- WAITTL_CH: Waits until a core channel timeline reaches n (R158) -/
  | waittlCh (k : Ctl) (a : Reg) (b : Reg)
  /-- WAITTL_DCH: Waits until a die channel timeline reaches n (R158) -/
  | waittlDch (k : Ctl) (a : Reg) (b : Reg)
  /-- YIELD: Bridle prefix that places the next instruction first in a clause with Y = 1 (R75) -/
  | yield
  /-- GUARD: Bridle prefix that guards the next instruction by a predicate (R74) -/
  | guard (ng : Bool) (pd : Pred)
  /-- ICSYNC: Ends the capture of the quadrant's loop buffer (R161) -/
  | icsync (k : Ctl)
  /-- SREAD: Reads a special register (R426) -/
  | sread (k : Ctl) (d : Reg) (sr : SpecialReg)
  /-- SWRITE: Writes sp or fsr (R426) -/
  | swrite (k : Ctl) (sr : SpecialReg) (a : Reg)
  /-- TRAP: Parks active members with class TRAP for delivery (R428) -/
  | trap (k : Ctl) (code : Bits6)
  /-- BRK: Halts the team under a debugger, or acts as trap with class BRK (R430) -/
  | brk (k : Ctl) (code : Bits6)
  /-- TRET_RETRY: Returns from a handler and reissues the pending word (R427) -/
  | tretRetry (k : Ctl)
  /-- TRET_SKIP: Returns from a handler past the pending word (R427) -/
  | tretSkip (k : Ctl)
  /-- ICINV: Invalidates instruction cache lines on every core of the die (R429) -/
  | icinv (k : Ctl) (a : Reg) (b : Reg)
  /-- EVRD: Reads an event running total (R431) -/
  | evrd (k : Ctl) (d : Reg) (a : Reg)
  /-- DCINV: Sends dirty L1 lines of a range home and drops them (R429) -/
  | dcinv (k : Ctl) (a : Reg) (b : Reg)
  /-- DCFLUSH: Sends dirty L1 lines of a range home and keeps them clean (R429) -/
  | dcflush (k : Ctl) (a : Reg) (b : Reg)
  /-- GROUP_FORM: The picker forms a group from a ready key of loose threads (R20) -/
  | groupForm (quad : Nat)
  /-- FAIRNESS_DEMOTION: The fairness timer reaching T demotes the holder (R33) -/
  | fairnessDemotion (quad : Nat)
  /-- SUB_GROUP_RESUME: A parked sub-group whose flags are clear resumes and reissues its pending word (R40) -/
  | subGroupResume (sid : Nat)
  /-- VARIABLE_OP_COMPLETE: A variable-latency operation completes, writing its result and clearing its clause flag when last (R57) -/
  | variableOpComplete (op : Nat)
  /-- MWAIT_PERIODIC_CHECK: A monitor wait condition is re-evaluated at least every 4,096 cycles (R156) -/
  | mwaitPeriodicCheck (team : TeamId) (thread : Nat)
  /-- TEAM_PULL: A core with room takes the next team index from its die's ticket counter (R45) -/
  | teamPull (core : Nat)
  /-- TEAM_START: A pulled team starts once the stagger timer allows (R47) -/
  | teamStart (core : Nat)
  /-- TEAM_END: A team ends when its home groups retired and its operations completed, freeing resources (R50) -/
  | teamEnd (team : TeamId)
  /-- HOME_READ: A home serves a read or atomic once it has applied every write in its vector (R314) -/
  | homeRead (op : Nat)
  /-- HOME_WRITE: A write is applied at its home in home order, updating DEFAULT counts (R260) -/
  | homeWrite (w : Nat)
  /-- SNAPSHOT_COPY_DONE: A completed snapshot copy releases the held write (R396) -/
  | snapshotCopyDone (launch : Nat) (page : Nat)
  /-- ATOM_PERFORM: An atomic is performed at home as one indivisible step (R289) -/
  | atomPerform (op : Nat)
  /-- APPEND_CLAIM: A claim at home checks the region and advances the claimed tail (R269) -/
  | appendClaim (op : Nat)
  /-- TAIL_ADVANCE: The committed tail advances over fully written ranges as one pushed store (R270) -/
  | tailAdvance (r : RegionId)
  /-- SEAL_REACHED: A sealing region reaches SEALED once T = C and stores the sealed tail word (R273) -/
  | sealReached (r : RegionId)
  /-- FREE_DONE: A free completes when every replica is dropped, returning the region to OPEN (R276) -/
  | freeDone (r : RegionId)
  /-- REPLICA_DROP: The device drops a replica silently when it needs memory (R275) -/
  | replicaDrop (die : Nat) (page : Nat)
  /-- PUSH_LAND: A ferry push lands causally in its slot or is dropped (R300) -/
  | pushLand (push : Nat)
  /-- UNSL_DONE: An unmooring completes and clears the slot's moored bit (R301) -/
  | unslDone (op : Nat)
  /-- BUFFER_TRANSITION: A held bufmark takes its transition once its condition holds (R253) -/
  | bufferTransition (gid : Nat)
  /-- L1_CLEAN_TIMEOUT: A clean L1 line is dropped no later than 65,536 cycles after fill (R318) -/
  | l1CleanTimeout (core : Nat) (line : Nat)
  /-- L1_DIRTY_WRITEBACK: A dirty L1 line is sent home within 65,536 cycles or at eviction (R318) -/
  | l1DirtyWriteback (core : Nat) (line : Nat)
  /-- WATERMARK_REPORT: An origin reports its watermark to a home at least every 1,024 cycles or on request (R314) -/
  | watermarkReport (origin : Nat) (home : Nat)
  /-- MATRIX_RETIRE: A matrix word retires when its last effect has landed (R218) -/
  | matrixRetire (op : Nat)
  /-- SELF_TEST: The sequencer injects a self-test product into each sub-array at least every 65,536 cycles (R232) -/
  | selfTest (core : Nat) (sub : Nat) (fails : Nat)
  /-- QCTL_WRITE: A QCTL write enables or disables a queue, refusing bad enables (R336) -/
  | qctlWrite (q : Nat) (v : DWord)
  /-- PACKET_TAKE: The command processor takes a published packet, clears its type byte and raises the read index (R338) -/
  | packetTake (q : Nat)
  /-- LAUNCH: A LAUNCH packet starts a kernel launch on its dies (R345) -/
  | launch (q : Nat)
  /-- COPY_PACKET: A queue-fed COPY is placed on a die channel and run (R348) -/
  | copyPacket (q : Nat)
  /-- COPYM_PACKET: A queue-fed multicast copy is run to its receivers (R355) -/
  | copymPacket (q : Nat)
  /-- XFORM_PACKET: A queue-fed transform job is run on a transducer lane (R358) -/
  | xformPacket (q : Nat)
  /-- TABLE: A TABLE packet loads a transition or entropy table (R360) -/
  | table (q : Nat)
  /-- SIGNAL: A SIGNAL packet stores or adds to a word at home after earlier packets complete (R366) -/
  | signal (q : Nat)
  /-- WAIT_PACKET: A WAIT packet blocks its queue until a timeline or word condition holds (R367) -/
  | waitPacket (q : Nat)
  /-- WAIT_PACKET_DONE: A WAIT packet whose condition holds completes with an acquire (R367) -/
  | waitPacketDone (q : Nat)
  /-- SEAL_PACKET: A SEAL packet seals or frees an APPEND region (R368) -/
  | sealPacket (q : Nat)
  /-- MIGRATE: A MIGRATE packet checks and starts moving a page to another die or tier (R398) -/
  | migrate (q : Nat)
  /-- MIGRATION_COPY_DONE: The migration copy finishes; moorings move and the leaf is rewritten (R399) -/
  | migrationCopyDone (q : Nat)
  /-- PACKET_COMPLETE: A packet completes, writing its completion record and advancing its timeline (R342) -/
  | packetComplete (q : Nat) (seq : Nat)
  /-- CHANNEL_OP_COMPLETE: A channel operation completes in order and advances the channel timeline (R351) -/
  | channelOpComplete (ch : ChanId)
  /-- OUTRIDER_FAULT: The outrider meets a translation or permission fault and the channel waits for the handler (R352) -/
  | outriderFault (ch : ChanId)
  /-- TRANSDUCER_JOB_END: A transducer job ends on an accepting or rejecting state (R359) -/
  | transducerJobEnd (lane : Nat)
  /-- TABLE_FILL_DONE: A table bank fill completes and the bank becomes current (R360) -/
  | tableFillDone (lane : Nat)
  /-- PREEMPT_CHECK: After 4,096 hub cycles without a start, a lower-priority team is saved (R347) -/
  | preemptCheck (launch : Nat)
  /-- TINV_COMMAND: A TINVCTL GO invalidates cached translations of a range (R385) -/
  | tinvCommand (tenant : Nat) (v : DWord)
  /-- REGION_LOAD: REGCMD load checks a descriptor, writes placeholders and activates it (R388) -/
  | regionLoad (tenant : Nat) (v : DWord)
  /-- REGION_REMOVE: REGCMD remove invalidates a region's placeholders and deactivates it (R388) -/
  | regionRemove (tenant : Nat) (v : DWord)
  /-- WATCHDOG_SPIN: The spin count reaching its limit raises WATCHDOG to the issuing group (R441) -/
  | watchdogSpin (quad : Nat)
  /-- WATCHDOG_WAIT: The wait count reaching its limit raises WATCHDOG to the waiting threads (R441) -/
  | watchdogWait (team : TeamId) (hg : Nat)
  /-- WATCHDOG_HANDLER: The handler count reaching its limit writes a kind 10 record (R404) -/
  | watchdogHandler (gid : Nat)
  /-- LEVEL_2_COUNT_DECAY: The level-2 count clears after 2^24 cycles without an expiry (R405) -/
  | level2CountDecay (cluster : Nat)
  /-- LEVEL_3_COUNT_DECAY: The level-3 count clears after 2^28 hub cycles without an escalation (R405) -/
  | level3CountDecay (cp : Nat)
  /-- SCHEDULING_LOOP_STALL: A period of 2^20 hub cycles without a scheduling pass raises the level-3 count (R442) -/
  | schedulingLoopStall (cp : Nat)
  /-- GROOM_SWEEP: The sweeper adds a counter into its total and clears it (R411) -/
  | groomSweep (unit : Nat) (code : Nat)
  /-- TRAP_ENTRY: A sub-group enters the trap handler, writing a frame and setting fsr (R424) -/
  | trapEntry (sid : Nat)
  /-- FAULT_RECORD_RETRY: Held records are retried at least every 2^20 hub cycles (R421) -/
  | faultRecordRetry (tenant : Nat)
  /-- FCCTL_WRITE: An FCCTL write enables the fault channel and flushes held records (R422) -/
  | fcctlWrite (tenant : Nat) (v : DWord)
  /-- FRESP_RETRY: An answer of retry resumes the sub-group, outrider or queue reader (R423) -/
  | frespRetry (tenant : Nat) (seq : Nat)
  /-- FRESP_SKIP: An answer of skip continues the sub-group past the pending word (R423) -/
  | frespSkip (tenant : Nat) (seq : Nat)
  /-- FRESP_ABORT: An answer of abort aborts the launch, copy or queue (R423) -/
  | frespAbort (tenant : Nat) (seq : Nat)
  /-- LAUNCH_ROLLBACK: A launch is stopped, its snapshots applied and it is started again (R445) -/
  | launchRollback (launch : Nat) (cls : Nat)
  /-- SIGNATURE_COMPARE: Both copies of a redundant team compare signatures and release or roll back (R449) -/
  | signatureCompare (launch : Nat) (team : Nat)
  /-- HALT: DBGCTL op 1 halts the selected teams at clause boundaries (R433) -/
  | halt (tenant : Nat)
  /-- RESUME: DBGCTL op 2 clears the halted flags (R433) -/
  | resume (tenant : Nat)
  /-- ATTACH: DBGCTL op 3 attaches a debugger to the launch (R432) -/
  | attach (tenant : Nat)
  /-- DETACH: DBGCTL op 4 detaches the debugger (R432) -/
  | detach (tenant : Nat)
  /-- SAVE_HALTED_TEAM: DBGCTL op 5 saves a halted team to an image (R433) -/
  | saveHaltedTeam (tenant : Nat)
  /-- HALT_REACHED: When every selected thread has stopped, HALTED is set and a kind 9 record written (R433) -/
  | haltReached (tenant : Nat)
  /-- CONTEXT_SAVE: The command processor stops a team and writes its image (R435) -/
  | contextSave (team : TeamId)
  /-- CONTEXT_RESTORE: The command processor restores an image, all or nothing (R438) -/
  | contextRestore (team : TeamId) (core : Nat)
  /-- CTXBASE_WRITE: A CTXBASE write enables the context area, refusing bad enables (R417) -/
  | ctxbaseWrite (tenant : Nat) (v : DWord)
  /-- WINBASE_WRITE: A WINBASE write enables a frame window, refusing bad enables (R456) -/
  | winbaseWrite (tenant : Nat) (w : Nat) (v : DWord)
  /-- POOLADD: A POOLADD write adds a frame to a pool or sets ERR (R457) -/
  | poolAdd (tenant : Nat) (p : Nat) (v : DWord)
  /-- TRESET: Writing TRESET resets one tenant's state (R458) -/
  | treset (tenant : Nat)
  /-- ARBUMP: An ARBUMP request raises a family's anti-rollback minimum (R462) -/
  | arBump (v : DWord)
  /-- LOAD_REQUEST: Horwell checks, translates and stores a harness image (R81) -/
  | loadRequest (r : LoadReq)
  /-- HOST_CXL_MEM_ACCESS: A host CXL.mem access reaches module memory inside an allowed window (R456) -/
  | hostCxlMemAccess (a : ExtAccess)
  /-- PEER_ROUTE_TIMEOUT: A peer access with no working route for 2^20 hub cycles raises ECC_UNCORR (R459) -/
  | peerRouteTimeout (sid : Nat)
  /-- GOVERNOR_UPDATE: Once per microsecond the governor sets each die's clock and delta (R464) -/
  | governorUpdate (die : Nat) (tj : Nat) (power : Nat)
  /-- THERMAL_THROTTLE: Tj reaching 105 C holds the die at 0.80 GHz (R465) -/
  | thermalThrottle (die : Nat)
  /-- THERMAL_TRIP: Tj reaching 115 C stops all work and resets the module (R465) -/
  | thermalTrip
  /-- BOOT: Power good starts the boot sequence through to command processor start (R463) -/
  | boot
  /-- REGISTER_WRITE: A write to a register with no row of its own sets its fields by their access codes (R7) -/
  | registerWrite (r : HostReg) (v : DWord)
  /-- STALL_EVENT: On a cycle in which no group of a quadrant is eligible, the quadrant charges exactly one stall event and the histogram event 0x08 (R409) -/
  | stallEvent (quad : Nat)
  /-- PEER_ACCESS: An access from a peer module arrives at the hub over a crossing link, is checked against the P bit of the frame windows, and is stamped with origin X in arrival order (R326) -/
  | peerAccess (peer : Nat) (a : ExtAccess)
  /-- CXL_CACHE_SNOOP: A CXL.cache request from the host acts on device-held lines of host memory so that they stay coherent with the host's caches (R326) -/
  | cxlCacheSnoop (addr : Nat) (inv : Bool)
  /-- SUPPLY_DROOP: A supply droop on a die is flagged or unflagged, which changes GOVCTL.DROOP and the k term of the die's delta (R464) -/
  | supplyDroop (die : Nat) (flagged : Bool)
  /-- POWER_LOSS: Module power is lost, leaving each anti-rollback minimum at its old or its new value even during an ARBUMP request (R462) -/
  | powerLoss
  deriving DecidableEq, Repr

end Sys2Proof
end

