-- ==== Sys2Proof/WellFormed.lean ====
section
/-! DEFINITION. The well-formed instructions: the conditions that an entry sets on a word beyond the width of its fields (R67, R68 and the entries), and for an event that the parts it names exist (R4, R10). Conditions that need the running kernel (its register count, W, a pair launch) are checked where the word issues. -/
namespace Sys2Proof

/-- A register or tile number that names a pair: even (R67). -/
def pairOk (r : BitVec 6) : Bool := decide (r.toNat % 2 = 0)
/-- A register number that names a quad: a multiple of four (R67). -/
def quadOk (r : BitVec 6) : Bool := decide (r.toNat % 4 = 0)
/-- pos and len of bfe and bfi (R135). -/
def fieldOk (pos : Bits5) (len : Bits6) : Bool := decide (1 ≤ len.toNat) && decide (pos.toNat + len.toNat ≤ 32)
/-- Width of a type in bits (R185). -/
def TypeCode.width : TypeCode → Nat
  | .i8 => 8
  | .n8 => 8
  | .e4m3 => 8
  | .e5m2 => 8
  | .i16 => 16
  | .n16 => 16
  | .f16 => 16
  | .bf16 => 16
  | .i32 => 32
  | .n32 => 32
  | .f32 => 32
  | .i64 => 64
  | .n64 => 64
/-- Elements of a type in one register (R185); a 64-bit type fills a pair. -/
def TypeCode.elems (t : TypeCode) : Nat := if 32 ≤ t.width then 1 else 32 / t.width
/-- An element number (R186). -/
def elemFits (t : TypeCode) (e : Bits2) : Bool := decide (e.toNat < t.elems)
/-- The register of an element (R186). -/
def elemRegOk (t : TypeCode) (r : Reg) : Bool := decide (t.width ≠ 64) || pairOk r
/-- The 64-bit types of icmp (R137). -/
def CmpTy.wide : CmpTy → Bool
  | .i32 => false
  | .n32 => false
  | .i64 => true
  | .n64 => true
/-- b is reserved in an access with no index (R285). -/
def indexOk (m : IndexMode) (b : Reg) : Bool := decide (m ≠ .none) || decide (b = 0)
/-- The data register of an access (R284). -/
def MemTy.regOk (t : MemTy) (d : Reg) : Bool :=
  match t with
  | .n64 => pairOk d
  | .n128 => quadOk d
  | _ => true
/-- sel under a fusing mode (R213). -/
def selOk (m : MxMode) (sel : Bits2) : Bool :=
  match m with
  | .m32x32 => true
  | .m32x64 => decide (sel.toNat < 2)
  | .m64x64 => decide (sel = 0)
/-- The tiles accz clears (R220). -/
def AcczCount.count : AcczCount → Nat
  | .one => 1
  | .two => 2
  | .four => 4
/-- The region's tenant and address space exist. -/
def RegionId.ok (r : RegionId) : Bool := decide (r.tenant < 16) && decide (r.asid < 16)
/-- The channel exists (R334). -/
def ChanId.ok : ChanId → Bool
  | .core c n => decide (c < 768) && decide (n < 4)
  | .die d n => decide (d < 4) && decide (n < 16)
  | .system d n => decide (d < 4) && decide (n < 2)
/-- The register exists (R453 to R455). -/
def HostReg.ok : HostReg → Bool
  | .unassigned o => decide (o < 2 ^ 21)
  | .through n r => decide (n < 16) && HostReg.ok r
  | .wdesc => true
  | .evsel => true
  | .evctl => true
  | .govctl => true
  | .pwrcap => true
  | .qbase q => decide (q < 2048)
  | .qindex q => decide (q < 2048)
  | .troot t a => decide (t < 16) && decide (a < 16)
  | .rgbase t a => decide (t < 16) && decide (a < 16)
  | .rgcount t a => decide (t < 16) && decide (a < 16)
  | .tvec t a => decide (t < 16) && decide (a < 16)
  | .tmask t a => decide (t < 16) && decide (a < 16)
  | .tinva t => decide (t < 16)
  | .snapcfg t => decide (t < 16)
  | .fcbase t => decide (t < 16)
  | .fcidx t => decide (t < 16)
  | .fresp t => decide (t < 16)
  | .dbgsel t => decide (t < 16)
  | .dbgctl t => decide (t < 16)
  | .ctxsize t => decide (t < 16)
  | .wdctl t => decide (t < 16)
  | .recctl t => decide (t < 16)
  | .mquota t n => decide (t < 16) && decide (n < 5)
  | .poolcfg t p => decide (t < 16) && decide (p < 16)
  | .winlim t w => decide (t < 16) && decide (w < 8)

/-- The fields other than vector registers hold what their entry admits (R68 and the entries); the parts that an event names exist. -/
def fieldsOk : Instr → Bool
  | .add _ _ _ _ _ => true
  | .sub _ _ _ _ _ => true
  | .mullo _ _ _ _ _ => true
  | .mulhi _ _ _ _ _ => true
  | .mad _ _ _ _ _ _ => true
  | .min _ _ _ _ _ => true
  | .max _ _ _ _ _ => true
  | .neg _ _ _ _ => true
  | .addi _ _ _ _ => true
  | .muli _ _ _ _ => true
  | .add64 _ _ _ _ _ => true
  | .add64i _ _ _ _ => true
  | .sub64 _ _ _ _ _ => true
  | .lea64 _ _ _ _ _ _ _ => true
  | .and _ _ _ _ => true
  | .or _ _ _ _ => true
  | .xor _ _ _ _ => true
  | .not _ _ _ => true
  | .andi _ _ _ _ => true
  | .ori _ _ _ _ => true
  | .xori _ _ _ _ => true
  | .lop3 _ _ _ _ _ _ => true
  | .shl _ _ _ _ => true
  | .shr _ _ _ _ => true
  | .sra _ _ _ _ => true
  | .rol _ _ _ _ => true
  | .shli _ _ _ imm => decide (imm.toNat < 32)
  | .shri _ _ _ imm => decide (imm.toNat < 32)
  | .srai _ _ _ imm => decide (imm.toNat < 32)
  | .roli _ _ _ imm => decide (imm.toNat < 32)
  | .bfe _ _ _ _ len pos => fieldOk pos len
  | .bfi _ _ _ _ len pos => fieldOk pos len
  | .popc _ _ _ => true
  | .clz _ _ _ => true
  | .brev _ _ _ => true
  | .ffs _ _ _ => true
  | .icmpEq _ _ _ _ _ _ => true
  | .icmpNe _ _ _ _ _ _ => true
  | .icmpLt _ _ _ _ _ _ => true
  | .icmpLe _ _ _ _ _ _ => true
  | .icmpGt _ _ _ _ _ _ => true
  | .icmpGe _ _ _ _ _ _ => true
  | .ptest _ _ _ _ _ _ => true
  | .pand _ _ _ _ _ _ _ => true
  | .por _ _ _ _ _ _ _ => true
  | .pxor _ _ _ _ _ _ _ => true
  | .pnot _ _ _ _ => true
  | .p2v _ _ _ => true
  | .p2vAll _ _ => true
  | .v2p _ _ _ _ => true
  | .v2pAll _ _ => true
  | .sel _ _ _ _ _ _ => true
  | .mov _ _ _ => true
  | .mov64 _ _ _ => true
  | .xshfIdx _ _ _ _ => true
  | .xshfUp _ _ _ _ => true
  | .xshfDown _ _ _ _ => true
  | .xshfXor _ _ _ _ => true
  | .xbcastLane _ _ _ _ => true
  | .xbcastReg _ _ _ _ => true
  | .xbcastLead _ _ _ => true
  | .xred _ rm _ _ o => decide (o = .fadd) || decide (rm = .rne)
  | .xscan _ rm _ _ _ o => decide (o = .fadd) || decide (rm = .rne)
  | .xvoteAny _ _ _ _ => true
  | .xvoteAll _ _ _ _ => true
  | .xvoteUni _ _ _ _ => true
  | .xmatchEq _ _ _ => true
  | .xmatchBallot _ _ _ => true
  | .xmatchMembers _ _ => true
  | .movi _ _ _ _ _ => true
  | .fadd _ _ _ _ _ => true
  | .fsub _ _ _ _ _ => true
  | .fmul _ _ _ _ _ => true
  | .ffma _ _ _ _ _ _ _ _ => true
  | .fmin _ _ _ _ _ => true
  | .fmax _ _ _ _ _ => true
  | .fabs _ _ _ => true
  | .fneg _ _ _ => true
  | .fcmpEq _ _ _ _ _ => true
  | .fcmpLt _ _ _ _ _ => true
  | .fcmpLe _ _ _ _ _ => true
  | .fcmpNe _ _ _ _ _ => true
  | .fclass _ _ _ _ _ _ => true
  | .frint _ _ _ _ => true
  | .fsatUnit _ _ _ => true
  | .fsatSym _ _ _ => true
  | .expins _ _ _ _ _ => true
  | .expextExp _ _ _ => true
  | .expextSig _ _ _ => true
  | .fexp _ _ _ => true
  | .flog _ _ _ => true
  | .frcp _ _ _ => true
  | .frsq _ _ _ => true
  | .fsqrt _ _ _ _ => true
  | .fsin _ _ _ => true
  | .fcos _ _ _ => true
  | .hadd2 _ _ _ _ _ => true
  | .hsub2 _ _ _ _ _ => true
  | .hmul2 _ _ _ _ _ => true
  | .hfma2 _ _ _ _ _ _ _ => true
  | .hmin2 _ _ _ _ _ => true
  | .hmax2 _ _ _ _ _ => true
  | .hcmp2 _ _ _ _ _ _ _ => true
  | .cvt _ _ _ _ _ delem selem dst src => elemFits dst delem && elemFits src selem
  | .pack2 _ _ _ _ _ _ _ => true
  | .unpack2 _ _ _ _ => true
  | .cvt4x8Pack _ _ _ _ _ _ => true
  | .cvt4x8Unpack _ _ _ _ => true
  | .dp4 _ _ _ _ _ _ _ _ => true
  | .fdot2 _ _ _ _ _ _ _ => true
  | .ldN8 _ _ _ _ => true
  | .ldI8 _ _ _ _ => true
  | .ldN16 _ _ _ _ => true
  | .ldI16 _ _ _ _ => true
  | .ldN32 _ _ _ _ => true
  | .ldN64 _ _ _ _ => true
  | .ldN128 _ _ _ _ => true
  | .ldw _ m _ _ b _ _ => indexOk m b
  | .stN8 _ _ _ _ => true
  | .stN16 _ _ _ _ => true
  | .stN32 _ _ _ _ => true
  | .stN64 _ _ _ _ => true
  | .stN128 _ _ _ _ => true
  | .stw _ m _ _ b ty _ => indexOk m b && decide (ty ≠ .i8) && decide (ty ≠ .i16)
  | .ldline _ _ _ _ => true
  | .stline _ _ _ _ => true
  | .ldsc _ _ _ _ => true
  | .stsc _ _ _ _ => true
  | .atom _ noret d _ _ c op wide scope order => (!noret || decide (d = 0)) && (decide (op = .cas) || decide (c = 0)) && (decide (op ≠ .fadd) || !wide) && (decide (order ≠ .relaxed) || decide (scope = .thread))
  | .stna _ _ _ _ _ _ => true
  | .lds _ _ _ _ _ => true
  | .unsl _ _ => true
  | .enumpgNext _ _ _ _ => true
  | .enumpgMap _ _ _ _ _ => true
  | .pgq _ _ _ => true
  | .append _ _ _ _ _ => true
  | .sealRegion _ _ => true
  | .freeRegion _ _ => true
  | .tlook _ _ _ => true
  | .tset _ _ _ _ => true
  | .tclr _ _ => true
  | .tclrAll _ => true
  | .bufdecl _ _ _ _ _ _ => true
  | .bufdeclRel _ _ => true
  | .bufmarkFill _ _ => true
  | .bufmarkFull _ _ => true
  | .bufmarkEmpty _ _ => true
  | .bufq _ _ _ => true
  | .fence _ _ _ => true
  | .wld _ m _ sel _ => selOk m sel
  | .wldpr _ _ _ => true
  | .mma _ m t _ _ _ sel _ => selOk m sel && (decide (m ≠ .m64x64) || pairOk t)
  | .mmapr _ t _ _ _ _ => pairOk t
  | .accz _ m t => decide (t.toNat % m.count = 0)
  | .accld _ _ _ => true
  | .accst _ _ _ => true
  | .acccvt _ _ _ _ _ wt sat tgt => if tgt = .w4 then !sat else decide (wt = 0)
  | .accmovGet _ _ _ _ => true
  | .accmovPut _ _ _ _ => true
  | .accadd _ m _ _ isI => !isI || decide (m = .rne)
  | .acctr _ _ _ => true
  | .mstatStat _ _ => true
  | .mstatBind _ _ => true
  | .mstatTheta _ _ => true
  | .pgsel _ _ _ _ _ _ kn => decide (1 ≤ kn.toNat) && decide (kn.toNat ≤ 64)
  | .qappend _ _ _ _ _ => true
  | .copy _ _ _ _ => true
  | .copym _ _ _ _ => true
  | .xform _ _ _ _ => true
  | .relslot _ _ _ => true
  | .wptr _ _ _ => true
  | .tlrdQ _ _ _ => true
  | .tlrdCh _ _ _ => true
  | .tlrdDch _ _ _ => true
  | .chq _ _ _ => true
  | .bra _ _ => true
  | .call _ _ => true
  | .ret _ => true
  | .brx _ _ => true
  | .callx _ _ => true
  | .exit _ => true
  | .spadj _ _ => true
  | .nop _ => true
  | .jset _ _ => true
  | .jwait _ _ => true
  | .tbar _ => true
  | .pbar _ => true
  | .mwaitSlot _ _ _ => true
  | .mwaitGe _ _ _ => true
  | .mwaitNe _ _ _ => true
  | .waittlQ _ _ _ => true
  | .waittlCh _ _ _ => true
  | .waittlDch _ _ _ => true
  | .yield => true
  | .guard _ _ => true
  | .icsync _ => true
  | .sread _ _ _ => true
  | .swrite _ sr _ => decide (sr = .fsr) || decide (sr = .sp)
  | .trap _ _ => true
  | .brk _ _ => true
  | .tretRetry _ => true
  | .tretSkip _ => true
  | .icinv _ _ _ => true
  | .evrd _ _ _ => true
  | .dcinv _ _ _ => true
  | .dcflush _ _ _ => true
  | .groupForm quad => decide (quad < 3072)
  | .fairnessDemotion quad => decide (quad < 3072)
  | .subGroupResume _ => true
  | .variableOpComplete _ => true
  | .mwaitPeriodicCheck _ _ => true
  | .teamPull core => decide (core < 768)
  | .teamStart core => decide (core < 768)
  | .teamEnd _ => true
  | .homeRead _ => true
  | .homeWrite _ => true
  | .snapshotCopyDone _ _ => true
  | .atomPerform _ => true
  | .appendClaim _ => true
  | .tailAdvance r => r.ok
  | .sealReached r => r.ok
  | .freeDone r => r.ok
  | .replicaDrop die _ => decide (die < 4)
  | .pushLand _ => true
  | .unslDone _ => true
  | .bufferTransition _ => true
  | .l1CleanTimeout core _ => decide (core < 768)
  | .l1DirtyWriteback core _ => decide (core < 768)
  | .watermarkReport origin home => decide (origin < 5) && decide (home < 5)
  | .matrixRetire _ => true
  | .selfTest core sub _ => decide (core < 768) && decide (sub < 4)
  | .qctlWrite q _ => decide (q < 2048)
  | .packetTake q => decide (q < 2048)
  | .launch q => decide (q < 2048)
  | .copyPacket q => decide (q < 2048)
  | .copymPacket q => decide (q < 2048)
  | .xformPacket q => decide (q < 2048)
  | .table q => decide (q < 2048)
  | .signal q => decide (q < 2048)
  | .waitPacket q => decide (q < 2048)
  | .waitPacketDone q => decide (q < 2048)
  | .sealPacket q => decide (q < 2048)
  | .migrate q => decide (q < 2048)
  | .migrationCopyDone q => decide (q < 2048)
  | .packetComplete q _ => decide (q < 2048)
  | .channelOpComplete ch => ch.ok
  | .outriderFault ch => ch.ok
  | .transducerJobEnd lane => decide (lane < 64)
  | .tableFillDone lane => decide (lane < 64)
  | .preemptCheck _ => true
  | .tinvCommand tenant _ => decide (tenant < 16)
  | .regionLoad tenant _ => decide (tenant < 16)
  | .regionRemove tenant _ => decide (tenant < 16)
  | .watchdogSpin quad => decide (quad < 3072)
  | .watchdogWait _ _ => true
  | .watchdogHandler _ => true
  | .level2CountDecay cluster => decide (cluster < 96)
  | .level3CountDecay cp => decide (cp < 8)
  | .schedulingLoopStall cp => decide (cp < 8)
  | .groomSweep _ _ => true
  | .trapEntry _ => true
  | .faultRecordRetry tenant => decide (tenant < 16)
  | .fcctlWrite tenant _ => decide (tenant < 16)
  | .frespRetry tenant _ => decide (tenant < 16)
  | .frespSkip tenant _ => decide (tenant < 16)
  | .frespAbort tenant _ => decide (tenant < 16)
  | .launchRollback _ _ => true
  | .signatureCompare _ _ => true
  | .halt tenant => decide (tenant < 16)
  | .resume tenant => decide (tenant < 16)
  | .attach tenant => decide (tenant < 16)
  | .detach tenant => decide (tenant < 16)
  | .saveHaltedTeam tenant => decide (tenant < 16)
  | .haltReached tenant => decide (tenant < 16)
  | .contextSave _ => true
  | .contextRestore _ core => decide (core < 768)
  | .ctxbaseWrite tenant _ => decide (tenant < 16)
  | .winbaseWrite tenant w _ => decide (tenant < 16) && decide (w < 8)
  | .poolAdd tenant p _ => decide (tenant < 16) && decide (p < 16)
  | .treset tenant => decide (tenant < 16)
  | .arBump _ => true
  | .loadRequest r => decide (r.tenant < 16) && decide (r.asid < 16)
  | .hostCxlMemAccess _ => true
  | .peerRouteTimeout _ => true
  | .governorUpdate die _ _ => decide (die < 4)
  | .thermalThrottle die => decide (die < 4)
  | .thermalTrip => true
  | .boot => true
  | .registerWrite r _ => r.ok
  | .stallEvent quad => decide (quad < 3072)
  | .peerAccess _ _ => true
  | .cxlCacheSnoop _ _ => true
  | .supplyDroop die _ => decide (die < 4)
  | .powerLoss => true

/-- The vector register fields that name a pair or a quad are aligned (R67). -/
def regsOk : Instr → Bool
  | .add _ _ _ _ _ => true
  | .sub _ _ _ _ _ => true
  | .mullo _ _ _ _ _ => true
  | .mulhi _ _ _ _ _ => true
  | .mad _ _ _ _ _ _ => true
  | .min _ _ _ _ _ => true
  | .max _ _ _ _ _ => true
  | .neg _ _ _ _ => true
  | .addi _ _ _ _ => true
  | .muli _ _ _ _ => true
  | .add64 _ _ d a b => pairOk d && pairOk a && pairOk b
  | .add64i _ d a _ => pairOk d && pairOk a
  | .sub64 _ _ d a b => pairOk d && pairOk a && pairOk b
  | .lea64 _ d a _ _ _ _ => pairOk d && pairOk a
  | .and _ _ _ _ => true
  | .or _ _ _ _ => true
  | .xor _ _ _ _ => true
  | .not _ _ _ => true
  | .andi _ _ _ _ => true
  | .ori _ _ _ _ => true
  | .xori _ _ _ _ => true
  | .lop3 _ _ _ _ _ _ => true
  | .shl _ _ _ _ => true
  | .shr _ _ _ _ => true
  | .sra _ _ _ _ => true
  | .rol _ _ _ _ => true
  | .shli _ _ _ _ => true
  | .shri _ _ _ _ => true
  | .srai _ _ _ _ => true
  | .roli _ _ _ _ => true
  | .bfe _ _ _ _ _ _ => true
  | .bfi _ _ _ _ _ _ => true
  | .popc _ _ _ => true
  | .clz _ _ _ => true
  | .brev _ _ _ => true
  | .ffs _ _ _ => true
  | .icmpEq _ m _ _ a b => !m.wide || (pairOk a && pairOk b)
  | .icmpNe _ m _ _ a b => !m.wide || (pairOk a && pairOk b)
  | .icmpLt _ m _ _ a b => !m.wide || (pairOk a && pairOk b)
  | .icmpLe _ m _ _ a b => !m.wide || (pairOk a && pairOk b)
  | .icmpGt _ m _ _ a b => !m.wide || (pairOk a && pairOk b)
  | .icmpGe _ m _ _ a b => !m.wide || (pairOk a && pairOk b)
  | .ptest _ _ _ _ _ _ => true
  | .pand _ _ _ _ _ _ _ => true
  | .por _ _ _ _ _ _ _ => true
  | .pxor _ _ _ _ _ _ _ => true
  | .pnot _ _ _ _ => true
  | .p2v _ _ _ => true
  | .p2vAll _ _ => true
  | .v2p _ _ _ _ => true
  | .v2pAll _ _ => true
  | .sel _ _ _ _ _ _ => true
  | .mov _ _ _ => true
  | .mov64 _ d a => pairOk d && pairOk a
  | .xshfIdx _ _ _ _ => true
  | .xshfUp _ _ _ _ => true
  | .xshfDown _ _ _ _ => true
  | .xshfXor _ _ _ _ => true
  | .xbcastLane _ _ _ _ => true
  | .xbcastReg _ _ _ _ => true
  | .xbcastLead _ _ _ => true
  | .xred _ _ _ _ _ => true
  | .xscan _ _ _ _ _ _ => true
  | .xvoteAny _ _ _ _ => true
  | .xvoteAll _ _ _ _ => true
  | .xvoteUni _ _ _ _ => true
  | .xmatchEq _ _ _ => true
  | .xmatchBallot _ _ _ => true
  | .xmatchMembers _ _ => true
  | .movi _ _ _ _ _ => true
  | .fadd _ _ _ _ _ => true
  | .fsub _ _ _ _ _ => true
  | .fmul _ _ _ _ _ => true
  | .ffma _ _ _ _ _ _ _ _ => true
  | .fmin _ _ _ _ _ => true
  | .fmax _ _ _ _ _ => true
  | .fabs _ _ _ => true
  | .fneg _ _ _ => true
  | .fcmpEq _ _ _ _ _ => true
  | .fcmpLt _ _ _ _ _ => true
  | .fcmpLe _ _ _ _ _ => true
  | .fcmpNe _ _ _ _ _ => true
  | .fclass _ _ _ _ _ _ => true
  | .frint _ _ _ _ => true
  | .fsatUnit _ _ _ => true
  | .fsatSym _ _ _ => true
  | .expins _ _ _ _ _ => true
  | .expextExp _ _ _ => true
  | .expextSig _ _ _ => true
  | .fexp _ _ _ => true
  | .flog _ _ _ => true
  | .frcp _ _ _ => true
  | .frsq _ _ _ => true
  | .fsqrt _ _ _ _ => true
  | .fsin _ _ _ => true
  | .fcos _ _ _ => true
  | .hadd2 _ _ _ _ _ => true
  | .hsub2 _ _ _ _ _ => true
  | .hmul2 _ _ _ _ _ => true
  | .hfma2 _ _ _ _ _ _ _ => true
  | .hmin2 _ _ _ _ _ => true
  | .hmax2 _ _ _ _ _ => true
  | .hcmp2 _ _ _ _ _ _ _ => true
  | .cvt _ d a _ _ _ _ dst src => elemRegOk dst d && elemRegOk src a
  | .pack2 _ _ _ _ _ _ _ => true
  | .unpack2 _ _ d _ => pairOk d
  | .cvt4x8Pack _ _ a _ _ _ => quadOk a
  | .cvt4x8Unpack _ d _ _ => quadOk d
  | .dp4 _ _ _ _ _ _ _ _ => true
  | .fdot2 _ _ _ _ _ _ _ => true
  | .ldN8 _ _ a _ => pairOk a
  | .ldI8 _ _ a _ => pairOk a
  | .ldN16 _ _ a _ => pairOk a
  | .ldI16 _ _ a _ => pairOk a
  | .ldN32 _ _ a _ => pairOk a
  | .ldN64 _ d a _ => pairOk a && pairOk d
  | .ldN128 _ d a _ => pairOk a && quadOk d
  | .ldw _ _ d a _ ty _ => pairOk a && ty.regOk d
  | .stN8 _ _ a _ => pairOk a
  | .stN16 _ _ a _ => pairOk a
  | .stN32 _ _ a _ => pairOk a
  | .stN64 _ d a _ => pairOk a && pairOk d
  | .stN128 _ d a _ => pairOk a && quadOk d
  | .stw _ _ d a _ ty _ => pairOk a && ty.regOk d
  | .ldline _ _ a _ => pairOk a
  | .stline _ _ a _ => pairOk a
  | .ldsc _ _ _ _ => true
  | .stsc _ _ _ _ => true
  | .atom _ _ d a b c _ wide _ _ => pairOk a && (!wide || (pairOk d && pairOk b && pairOk c))
  | .stna _ m d a _ _ => pairOk a && (decide (m ≠ .n64) || pairOk d)
  | .lds _ sz d a _ => pairOk a && (decide (sz ≠ .n64) || pairOk d)
  | .unsl _ _ => true
  | .enumpgNext _ d a _ => pairOk d && pairOk a
  | .enumpgMap _ a _ _ _ => pairOk a
  | .pgq _ d a => pairOk d && pairOk a
  | .append _ d a b _ => pairOk d && pairOk a && quadOk b
  | .sealRegion _ a => pairOk a
  | .freeRegion _ a => pairOk a
  | .tlook _ _ a => pairOk a
  | .tset _ _ a _ => pairOk a
  | .tclr _ _ => true
  | .tclrAll _ => true
  | .bufdecl _ _ _ _ _ _ => true
  | .bufdeclRel _ _ => true
  | .bufmarkFill _ _ => true
  | .bufmarkFull _ _ => true
  | .bufmarkEmpty _ _ => true
  | .bufq _ _ _ => true
  | .fence _ _ _ => true
  | .wld _ _ a _ _ => pairOk a
  | .wldpr _ a _ => pairOk a
  | .mma _ _ _ a _ src _ _ => if src then pairOk a else quadOk a
  | .mmapr _ _ a _ src _ => if src then pairOk a else quadOk a
  | .accz _ _ _ => true
  | .accld _ _ a => pairOk a
  | .accst _ _ a => pairOk a
  | .acccvt _ _ a _ _ _ _ _ => pairOk a
  | .accmovGet _ _ _ _ => true
  | .accmovPut _ _ _ _ => true
  | .accadd _ _ _ _ _ => true
  | .acctr _ _ _ => true
  | .mstatStat _ _ => true
  | .mstatBind _ _ => true
  | .mstatTheta _ _ => true
  | .pgsel _ _ a _ c _ _ => pairOk a && pairOk c
  | .qappend _ d _ b _ => pairOk d && quadOk b
  | .copy _ d a _ => pairOk d && quadOk a
  | .copym _ d a _ => pairOk d && quadOk a
  | .xform _ d a _ => pairOk d && quadOk a
  | .relslot _ _ _ => true
  | .wptr _ d _ => pairOk d
  | .tlrdQ _ d _ => pairOk d
  | .tlrdCh _ d _ => pairOk d
  | .tlrdDch _ d _ => pairOk d
  | .chq _ _ _ => true
  | .bra _ _ => true
  | .call _ _ => true
  | .ret _ => true
  | .brx _ a => pairOk a
  | .callx _ a => pairOk a
  | .exit _ => true
  | .spadj _ _ => true
  | .nop _ => true
  | .jset _ _ => true
  | .jwait _ _ => true
  | .tbar _ => true
  | .pbar _ => true
  | .mwaitSlot _ _ _ => true
  | .mwaitGe _ a b => pairOk a && pairOk b
  | .mwaitNe _ a b => pairOk a && pairOk b
  | .waittlQ _ _ b => pairOk b
  | .waittlCh _ _ b => pairOk b
  | .waittlDch _ _ b => pairOk b
  | .yield => true
  | .guard _ _ => true
  | .icsync _ => true
  | .sread _ d sr => !(decide (sr = .clock) || decide (sr = .sp)) || pairOk d
  | .swrite _ sr a => decide (sr ≠ .sp) || pairOk a
  | .trap _ _ => true
  | .brk _ _ => true
  | .tretRetry _ => true
  | .tretSkip _ => true
  | .icinv _ a _ => pairOk a
  | .evrd _ d _ => pairOk d
  | .dcinv _ a _ => pairOk a
  | .dcflush _ a _ => pairOk a
  | .groupForm _ => true
  | .fairnessDemotion _ => true
  | .subGroupResume _ => true
  | .variableOpComplete _ => true
  | .mwaitPeriodicCheck _ _ => true
  | .teamPull _ => true
  | .teamStart _ => true
  | .teamEnd _ => true
  | .homeRead _ => true
  | .homeWrite _ => true
  | .snapshotCopyDone _ _ => true
  | .atomPerform _ => true
  | .appendClaim _ => true
  | .tailAdvance _ => true
  | .sealReached _ => true
  | .freeDone _ => true
  | .replicaDrop _ _ => true
  | .pushLand _ => true
  | .unslDone _ => true
  | .bufferTransition _ => true
  | .l1CleanTimeout _ _ => true
  | .l1DirtyWriteback _ _ => true
  | .watermarkReport _ _ => true
  | .matrixRetire _ => true
  | .selfTest _ _ _ => true
  | .qctlWrite _ _ => true
  | .packetTake _ => true
  | .launch _ => true
  | .copyPacket _ => true
  | .copymPacket _ => true
  | .xformPacket _ => true
  | .table _ => true
  | .signal _ => true
  | .waitPacket _ => true
  | .waitPacketDone _ => true
  | .sealPacket _ => true
  | .migrate _ => true
  | .migrationCopyDone _ => true
  | .packetComplete _ _ => true
  | .channelOpComplete _ => true
  | .outriderFault _ => true
  | .transducerJobEnd _ => true
  | .tableFillDone _ => true
  | .preemptCheck _ => true
  | .tinvCommand _ _ => true
  | .regionLoad _ _ => true
  | .regionRemove _ _ => true
  | .watchdogSpin _ => true
  | .watchdogWait _ _ => true
  | .watchdogHandler _ => true
  | .level2CountDecay _ => true
  | .level3CountDecay _ => true
  | .schedulingLoopStall _ => true
  | .groomSweep _ _ => true
  | .trapEntry _ => true
  | .faultRecordRetry _ => true
  | .fcctlWrite _ _ => true
  | .frespRetry _ _ => true
  | .frespSkip _ _ => true
  | .frespAbort _ _ => true
  | .launchRollback _ _ => true
  | .signatureCompare _ _ => true
  | .halt _ => true
  | .resume _ => true
  | .attach _ => true
  | .detach _ => true
  | .saveHaltedTeam _ => true
  | .haltReached _ => true
  | .contextSave _ => true
  | .contextRestore _ _ => true
  | .ctxbaseWrite _ _ => true
  | .winbaseWrite _ _ _ => true
  | .poolAdd _ _ _ => true
  | .treset _ => true
  | .arBump _ => true
  | .loadRequest _ => true
  | .hostCxlMemAccess _ => true
  | .peerRouteTimeout _ => true
  | .governorUpdate _ _ _ => true
  | .thermalThrottle _ => true
  | .thermalTrip => true
  | .boot => true
  | .registerWrite _ _ => true
  | .stallEvent _ => true
  | .peerAccess _ _ => true
  | .cxlCacheSnoop _ _ => true
  | .supplyDroop _ _ => true
  | .powerLoss => true

/-- The well-formed instructions. -/
def wellFormed (i : Instr) : Bool := fieldsOk i && regsOk i

/-- The instructions that are words of a program, the others being events of the machine's other agents. -/
def isWord : Instr → Bool
  | .add _ _ _ _ _ => true
  | .sub _ _ _ _ _ => true
  | .mullo _ _ _ _ _ => true
  | .mulhi _ _ _ _ _ => true
  | .mad _ _ _ _ _ _ => true
  | .min _ _ _ _ _ => true
  | .max _ _ _ _ _ => true
  | .neg _ _ _ _ => true
  | .addi _ _ _ _ => true
  | .muli _ _ _ _ => true
  | .add64 _ _ _ _ _ => true
  | .add64i _ _ _ _ => true
  | .sub64 _ _ _ _ _ => true
  | .lea64 _ _ _ _ _ _ _ => true
  | .and _ _ _ _ => true
  | .or _ _ _ _ => true
  | .xor _ _ _ _ => true
  | .not _ _ _ => true
  | .andi _ _ _ _ => true
  | .ori _ _ _ _ => true
  | .xori _ _ _ _ => true
  | .lop3 _ _ _ _ _ _ => true
  | .shl _ _ _ _ => true
  | .shr _ _ _ _ => true
  | .sra _ _ _ _ => true
  | .rol _ _ _ _ => true
  | .shli _ _ _ _ => true
  | .shri _ _ _ _ => true
  | .srai _ _ _ _ => true
  | .roli _ _ _ _ => true
  | .bfe _ _ _ _ _ _ => true
  | .bfi _ _ _ _ _ _ => true
  | .popc _ _ _ => true
  | .clz _ _ _ => true
  | .brev _ _ _ => true
  | .ffs _ _ _ => true
  | .icmpEq _ _ _ _ _ _ => true
  | .icmpNe _ _ _ _ _ _ => true
  | .icmpLt _ _ _ _ _ _ => true
  | .icmpLe _ _ _ _ _ _ => true
  | .icmpGt _ _ _ _ _ _ => true
  | .icmpGe _ _ _ _ _ _ => true
  | .ptest _ _ _ _ _ _ => true
  | .pand _ _ _ _ _ _ _ => true
  | .por _ _ _ _ _ _ _ => true
  | .pxor _ _ _ _ _ _ _ => true
  | .pnot _ _ _ _ => true
  | .p2v _ _ _ => true
  | .p2vAll _ _ => true
  | .v2p _ _ _ _ => true
  | .v2pAll _ _ => true
  | .sel _ _ _ _ _ _ => true
  | .mov _ _ _ => true
  | .mov64 _ _ _ => true
  | .xshfIdx _ _ _ _ => true
  | .xshfUp _ _ _ _ => true
  | .xshfDown _ _ _ _ => true
  | .xshfXor _ _ _ _ => true
  | .xbcastLane _ _ _ _ => true
  | .xbcastReg _ _ _ _ => true
  | .xbcastLead _ _ _ => true
  | .xred _ _ _ _ _ => true
  | .xscan _ _ _ _ _ _ => true
  | .xvoteAny _ _ _ _ => true
  | .xvoteAll _ _ _ _ => true
  | .xvoteUni _ _ _ _ => true
  | .xmatchEq _ _ _ => true
  | .xmatchBallot _ _ _ => true
  | .xmatchMembers _ _ => true
  | .movi _ _ _ _ _ => true
  | .fadd _ _ _ _ _ => true
  | .fsub _ _ _ _ _ => true
  | .fmul _ _ _ _ _ => true
  | .ffma _ _ _ _ _ _ _ _ => true
  | .fmin _ _ _ _ _ => true
  | .fmax _ _ _ _ _ => true
  | .fabs _ _ _ => true
  | .fneg _ _ _ => true
  | .fcmpEq _ _ _ _ _ => true
  | .fcmpLt _ _ _ _ _ => true
  | .fcmpLe _ _ _ _ _ => true
  | .fcmpNe _ _ _ _ _ => true
  | .fclass _ _ _ _ _ _ => true
  | .frint _ _ _ _ => true
  | .fsatUnit _ _ _ => true
  | .fsatSym _ _ _ => true
  | .expins _ _ _ _ _ => true
  | .expextExp _ _ _ => true
  | .expextSig _ _ _ => true
  | .fexp _ _ _ => true
  | .flog _ _ _ => true
  | .frcp _ _ _ => true
  | .frsq _ _ _ => true
  | .fsqrt _ _ _ _ => true
  | .fsin _ _ _ => true
  | .fcos _ _ _ => true
  | .hadd2 _ _ _ _ _ => true
  | .hsub2 _ _ _ _ _ => true
  | .hmul2 _ _ _ _ _ => true
  | .hfma2 _ _ _ _ _ _ _ => true
  | .hmin2 _ _ _ _ _ => true
  | .hmax2 _ _ _ _ _ => true
  | .hcmp2 _ _ _ _ _ _ _ => true
  | .cvt _ _ _ _ _ _ _ _ _ => true
  | .pack2 _ _ _ _ _ _ _ => true
  | .unpack2 _ _ _ _ => true
  | .cvt4x8Pack _ _ _ _ _ _ => true
  | .cvt4x8Unpack _ _ _ _ => true
  | .dp4 _ _ _ _ _ _ _ _ => true
  | .fdot2 _ _ _ _ _ _ _ => true
  | .ldN8 _ _ _ _ => true
  | .ldI8 _ _ _ _ => true
  | .ldN16 _ _ _ _ => true
  | .ldI16 _ _ _ _ => true
  | .ldN32 _ _ _ _ => true
  | .ldN64 _ _ _ _ => true
  | .ldN128 _ _ _ _ => true
  | .ldw _ _ _ _ _ _ _ => true
  | .stN8 _ _ _ _ => true
  | .stN16 _ _ _ _ => true
  | .stN32 _ _ _ _ => true
  | .stN64 _ _ _ _ => true
  | .stN128 _ _ _ _ => true
  | .stw _ _ _ _ _ _ _ => true
  | .ldline _ _ _ _ => true
  | .stline _ _ _ _ => true
  | .ldsc _ _ _ _ => true
  | .stsc _ _ _ _ => true
  | .atom _ _ _ _ _ _ _ _ _ _ => true
  | .stna _ _ _ _ _ _ => true
  | .lds _ _ _ _ _ => true
  | .unsl _ _ => true
  | .enumpgNext _ _ _ _ => true
  | .enumpgMap _ _ _ _ _ => true
  | .pgq _ _ _ => true
  | .append _ _ _ _ _ => true
  | .sealRegion _ _ => true
  | .freeRegion _ _ => true
  | .tlook _ _ _ => true
  | .tset _ _ _ _ => true
  | .tclr _ _ => true
  | .tclrAll _ => true
  | .bufdecl _ _ _ _ _ _ => true
  | .bufdeclRel _ _ => true
  | .bufmarkFill _ _ => true
  | .bufmarkFull _ _ => true
  | .bufmarkEmpty _ _ => true
  | .bufq _ _ _ => true
  | .fence _ _ _ => true
  | .wld _ _ _ _ _ => true
  | .wldpr _ _ _ => true
  | .mma _ _ _ _ _ _ _ _ => true
  | .mmapr _ _ _ _ _ _ => true
  | .accz _ _ _ => true
  | .accld _ _ _ => true
  | .accst _ _ _ => true
  | .acccvt _ _ _ _ _ _ _ _ => true
  | .accmovGet _ _ _ _ => true
  | .accmovPut _ _ _ _ => true
  | .accadd _ _ _ _ _ => true
  | .acctr _ _ _ => true
  | .mstatStat _ _ => true
  | .mstatBind _ _ => true
  | .mstatTheta _ _ => true
  | .pgsel _ _ _ _ _ _ _ => true
  | .qappend _ _ _ _ _ => true
  | .copy _ _ _ _ => true
  | .copym _ _ _ _ => true
  | .xform _ _ _ _ => true
  | .relslot _ _ _ => true
  | .wptr _ _ _ => true
  | .tlrdQ _ _ _ => true
  | .tlrdCh _ _ _ => true
  | .tlrdDch _ _ _ => true
  | .chq _ _ _ => true
  | .bra _ _ => true
  | .call _ _ => true
  | .ret _ => true
  | .brx _ _ => true
  | .callx _ _ => true
  | .exit _ => true
  | .spadj _ _ => true
  | .nop _ => true
  | .jset _ _ => true
  | .jwait _ _ => true
  | .tbar _ => true
  | .pbar _ => true
  | .mwaitSlot _ _ _ => true
  | .mwaitGe _ _ _ => true
  | .mwaitNe _ _ _ => true
  | .waittlQ _ _ _ => true
  | .waittlCh _ _ _ => true
  | .waittlDch _ _ _ => true
  | .yield => true
  | .guard _ _ => true
  | .icsync _ => true
  | .sread _ _ _ => true
  | .swrite _ _ _ => true
  | .trap _ _ => true
  | .brk _ _ => true
  | .tretRetry _ => true
  | .tretSkip _ => true
  | .icinv _ _ _ => true
  | .evrd _ _ _ => true
  | .dcinv _ _ _ => true
  | .dcflush _ _ _ => true
  | .groupForm _ => false
  | .fairnessDemotion _ => false
  | .subGroupResume _ => false
  | .variableOpComplete _ => false
  | .mwaitPeriodicCheck _ _ => false
  | .teamPull _ => false
  | .teamStart _ => false
  | .teamEnd _ => false
  | .homeRead _ => false
  | .homeWrite _ => false
  | .snapshotCopyDone _ _ => false
  | .atomPerform _ => false
  | .appendClaim _ => false
  | .tailAdvance _ => false
  | .sealReached _ => false
  | .freeDone _ => false
  | .replicaDrop _ _ => false
  | .pushLand _ => false
  | .unslDone _ => false
  | .bufferTransition _ => false
  | .l1CleanTimeout _ _ => false
  | .l1DirtyWriteback _ _ => false
  | .watermarkReport _ _ => false
  | .matrixRetire _ => false
  | .selfTest _ _ _ => false
  | .qctlWrite _ _ => false
  | .packetTake _ => false
  | .launch _ => false
  | .copyPacket _ => false
  | .copymPacket _ => false
  | .xformPacket _ => false
  | .table _ => false
  | .signal _ => false
  | .waitPacket _ => false
  | .waitPacketDone _ => false
  | .sealPacket _ => false
  | .migrate _ => false
  | .migrationCopyDone _ => false
  | .packetComplete _ _ => false
  | .channelOpComplete _ => false
  | .outriderFault _ => false
  | .transducerJobEnd _ => false
  | .tableFillDone _ => false
  | .preemptCheck _ => false
  | .tinvCommand _ _ => false
  | .regionLoad _ _ => false
  | .regionRemove _ _ => false
  | .watchdogSpin _ => false
  | .watchdogWait _ _ => false
  | .watchdogHandler _ => false
  | .level2CountDecay _ => false
  | .level3CountDecay _ => false
  | .schedulingLoopStall _ => false
  | .groomSweep _ _ => false
  | .trapEntry _ => false
  | .faultRecordRetry _ => false
  | .fcctlWrite _ _ => false
  | .frespRetry _ _ => false
  | .frespSkip _ _ => false
  | .frespAbort _ _ => false
  | .launchRollback _ _ => false
  | .signatureCompare _ _ => false
  | .halt _ => false
  | .resume _ => false
  | .attach _ => false
  | .detach _ => false
  | .saveHaltedTeam _ => false
  | .haltReached _ => false
  | .contextSave _ => false
  | .contextRestore _ _ => false
  | .ctxbaseWrite _ _ => false
  | .winbaseWrite _ _ _ => false
  | .poolAdd _ _ _ => false
  | .treset _ => false
  | .arBump _ => false
  | .loadRequest _ => false
  | .hostCxlMemAccess _ => false
  | .peerRouteTimeout _ => false
  | .governorUpdate _ _ _ => false
  | .thermalThrottle _ => false
  | .thermalTrip => false
  | .boot => false
  | .registerWrite _ _ => false
  | .stallEvent _ => false
  | .peerAccess _ _ => false
  | .cxlCacheSnoop _ _ => false
  | .supplyDroop _ _ => false
  | .powerLoss => false

end Sys2Proof
end

