-- ==== Sys2Proof/Decode.lean ====
section
/-! DEFINITION. The encoding tables (R61, R66, R68, R72, R202 and each entry) as an encoder, and a decoder that accepts a word exactly where the encoder gives it back: so a reserved bit, an unused modifier or an unassigned cell is never read as a neighbour. -/
namespace Sys2Proof

/-! ### Codes of the modifier fields -/

/-- The code of a ArithMode field. -/
def ArithMode.code : ArithMode → Nat
  | .wrap => 0
  | .satI => 1
  | .satN => 2
/-- The ArithMode a code stands for. -/
def ArithMode.ofCode : Nat → Option ArithMode
  | 0 => some .wrap
  | 1 => some .satI
  | 2 => some .satN
  | _ => none

/-- The code of a MulhiTy field. -/
def MulhiTy.code : MulhiTy → Nat
  | .ii => 0
  | .nn => 1
  | .inn => 2
/-- The MulhiTy a code stands for. -/
def MulhiTy.ofCode : Nat → Option MulhiTy
  | 0 => some .ii
  | 1 => some .nn
  | 2 => some .inn
  | _ => none

/-- The code of a IntTy field. -/
def IntTy.code : IntTy → Nat
  | .i32 => 0
  | .n32 => 1
/-- The IntTy a code stands for. -/
def IntTy.ofCode : Nat → Option IntTy
  | 0 => some .i32
  | 1 => some .n32
  | _ => none

/-- The code of a NegMode field. -/
def NegMode.code : NegMode → Nat
  | .wrap => 0
  | .sat => 1
/-- The NegMode a code stands for. -/
def NegMode.ofCode : Nat → Option NegMode
  | 0 => some .wrap
  | 1 => some .sat
  | _ => none

/-- The code of a CmpTy field. -/
def CmpTy.code : CmpTy → Nat
  | .i32 => 0
  | .n32 => 1
  | .i64 => 2
  | .n64 => 3
/-- The CmpTy a code stands for. -/
def CmpTy.ofCode : Nat → Option CmpTy
  | 0 => some .i32
  | 1 => some .n32
  | 2 => some .i64
  | 3 => some .n64
  | _ => none

/-- The code of a Combine field. -/
def Combine.code : Combine → Nat
  | .set => 0
  | .and => 1
  | .or => 2
  | .xor => 3
/-- The Combine a code stands for. -/
def Combine.ofCode : Nat → Option Combine
  | 0 => some .set
  | 1 => some .and
  | 2 => some .or
  | 3 => some .xor
  | _ => none

/-- The code of a Round field. -/
def Round.code : Round → Nat
  | .rne => 0
  | .rtz => 1
  | .rdn => 2
  | .rup => 3
/-- The Round a code stands for. -/
def Round.ofCode : Nat → Option Round
  | 0 => some .rne
  | 1 => some .rtz
  | 2 => some .rdn
  | 3 => some .rup
  | _ => none

/-- The code of a PtestMode field. -/
def PtestMode.code : PtestMode → Nat
  | .nz => 0
  | .z => 1
/-- The PtestMode a code stands for. -/
def PtestMode.ofCode : Nat → Option PtestMode
  | 0 => some .nz
  | 1 => some .z
  | _ => none

/-- The code of a NumMode field. -/
def NumMode.code : NumMode → Nat
  | .num => 0
  | .nan => 1
/-- The NumMode a code stands for. -/
def NumMode.ofCode : Nat → Option NumMode
  | 0 => some .num
  | 1 => some .nan
  | _ => none

/-- The code of a HalfTy field. -/
def HalfTy.code : HalfTy → Nat
  | .f16 => 0
  | .bf16 => 1
/-- The HalfTy a code stands for. -/
def HalfTy.ofCode : Nat → Option HalfTy
  | 0 => some .f16
  | 1 => some .bf16
  | _ => none

/-- The code of a HalfTy1 field. -/
def HalfTy1.code : HalfTy1 → Nat
  | .f16 => 0
  | .bf16 => 1
/-- The HalfTy1 a code stands for. -/
def HalfTy1.ofCode : Nat → Option HalfTy1
  | 0 => some .f16
  | 1 => some .bf16
  | _ => none

/-- The code of a FCond field. -/
def FCond.code : FCond → Nat
  | .eq => 0
  | .lt => 1
  | .le => 2
  | .ne => 3
/-- The FCond a code stands for. -/
def FCond.ofCode : Nat → Option FCond
  | 0 => some .eq
  | 1 => some .lt
  | 2 => some .le
  | 3 => some .ne
  | _ => none

/-- The code of a LaneOp field. -/
def LaneOp.code : LaneOp → Nat
  | .add => 0
  | .minI => 1
  | .maxI => 2
  | .minN => 3
  | .maxN => 4
  | .and => 5
  | .or => 6
  | .xor => 7
  | .fadd => 8
  | .fmin => 9
  | .fmax => 10
/-- The LaneOp a code stands for. -/
def LaneOp.ofCode : Nat → Option LaneOp
  | 0 => some .add
  | 1 => some .minI
  | 2 => some .maxI
  | 3 => some .minN
  | 4 => some .maxN
  | 5 => some .and
  | 6 => some .or
  | 7 => some .xor
  | 8 => some .fadd
  | 9 => some .fmin
  | 10 => some .fmax
  | _ => none

/-- The code of a TypeCode field. -/
def TypeCode.code : TypeCode → Nat
  | .i8 => 0
  | .i16 => 1
  | .i32 => 2
  | .i64 => 3
  | .n8 => 4
  | .n16 => 5
  | .n32 => 6
  | .n64 => 7
  | .f32 => 8
  | .f16 => 9
  | .bf16 => 10
  | .e4m3 => 11
  | .e5m2 => 12
/-- The TypeCode a code stands for. -/
def TypeCode.ofCode : Nat → Option TypeCode
  | 0 => some .i8
  | 1 => some .i16
  | 2 => some .i32
  | 3 => some .i64
  | 4 => some .n8
  | 5 => some .n16
  | 6 => some .n32
  | 7 => some .n64
  | 8 => some .f32
  | 9 => some .f16
  | 10 => some .bf16
  | 11 => some .e4m3
  | 12 => some .e5m2
  | _ => none

/-- The code of a ByteTy field. -/
def ByteTy.code : ByteTy → Nat
  | .e4m3 => 0
  | .e5m2 => 1
  | .i8 => 2
  | .n8 => 3
/-- The ByteTy a code stands for. -/
def ByteTy.ofCode : Nat → Option ByteTy
  | 0 => some .e4m3
  | 1 => some .e5m2
  | 2 => some .i8
  | 3 => some .n8
  | _ => none

/-- The code of a IndexMode field. -/
def IndexMode.code : IndexMode → Nat
  | .none => 0
  | .zx => 1
  | .sx => 2
/-- The IndexMode a code stands for. -/
def IndexMode.ofCode : Nat → Option IndexMode
  | 0 => some .none
  | 1 => some .zx
  | 2 => some .sx
  | _ => none

/-- The code of a MemTy field. -/
def MemTy.code : MemTy → Nat
  | .n8 => 0
  | .i8 => 1
  | .n16 => 2
  | .i16 => 3
  | .n32 => 4
  | .n64 => 5
  | .n128 => 6
/-- The MemTy a code stands for. -/
def MemTy.ofCode : Nat → Option MemTy
  | 0 => some .n8
  | 1 => some .i8
  | 2 => some .n16
  | 3 => some .i16
  | 4 => some .n32
  | 5 => some .n64
  | 6 => some .n128
  | _ => none

/-- The code of a AtomOp field. -/
def AtomOp.code : AtomOp → Nat
  | .add => 0
  | .and => 1
  | .or => 2
  | .xor => 3
  | .minI => 4
  | .maxI => 5
  | .minN => 6
  | .maxN => 7
  | .exch => 8
  | .cas => 9
  | .fadd => 10
  | .incw => 11
/-- The AtomOp a code stands for. -/
def AtomOp.ofCode : Nat → Option AtomOp
  | 0 => some .add
  | 1 => some .and
  | 2 => some .or
  | 3 => some .xor
  | 4 => some .minI
  | 5 => some .maxI
  | 6 => some .minN
  | 7 => some .maxN
  | 8 => some .exch
  | 9 => some .cas
  | 10 => some .fadd
  | 11 => some .incw
  | _ => none

/-- The code of a Scope field. -/
def Scope.code : Scope → Nat
  | .thread => 0
  | .group => 1
  | .team => 2
  | .pair => 3
  | .die => 4
  | .package => 5
  | .sys => 6
  | .fabric => 7
/-- The Scope a code stands for. -/
def Scope.ofCode : Nat → Option Scope
  | 0 => some .thread
  | 1 => some .group
  | 2 => some .team
  | 3 => some .pair
  | 4 => some .die
  | 5 => some .package
  | 6 => some .sys
  | 7 => some .fabric
  | _ => none

/-- The code of a AtomOrder field. -/
def AtomOrder.code : AtomOrder → Nat
  | .relaxed => 0
  | .acquire => 1
  | .release => 2
  | .acqrel => 3
/-- The AtomOrder a code stands for. -/
def AtomOrder.ofCode : Nat → Option AtomOrder
  | 0 => some .relaxed
  | 1 => some .acquire
  | 2 => some .release
  | 3 => some .acqrel
  | _ => none

/-- The code of a FenceOrder field. -/
def FenceOrder.code : FenceOrder → Nat
  | .acq => 0
  | .rel => 1
  | .acqrel => 2
  | .sc => 3
/-- The FenceOrder a code stands for. -/
def FenceOrder.ofCode : Nat → Option FenceOrder
  | 0 => some .acq
  | 1 => some .rel
  | 2 => some .acqrel
  | 3 => some .sc
  | _ => none

/-- The code of a StnaSize field. -/
def StnaSize.code : StnaSize → Nat
  | .n8 => 0
  | .n16 => 1
  | .n32 => 2
  | .n64 => 3
/-- The StnaSize a code stands for. -/
def StnaSize.ofCode : Nat → Option StnaSize
  | 0 => some .n8
  | 1 => some .n16
  | 2 => some .n32
  | 3 => some .n64
  | _ => none

/-- The code of a LdsSize field. -/
def LdsSize.code : LdsSize → Nat
  | .n32 => 0
  | .n64 => 1
/-- The LdsSize a code stands for. -/
def LdsSize.ofCode : Nat → Option LdsSize
  | 0 => some .n32
  | 1 => some .n64
  | _ => none

/-- The code of a MxMode field. -/
def MxMode.code : MxMode → Nat
  | .m32x32 => 0
  | .m32x64 => 1
  | .m64x64 => 2
/-- The MxMode a code stands for. -/
def MxMode.ofCode : Nat → Option MxMode
  | 0 => some .m32x32
  | 1 => some .m32x64
  | 2 => some .m64x64
  | _ => none

/-- The code of a MxFmt field. -/
def MxFmt.code : MxFmt → Nat
  | .bf16 => 0
  | .f16 => 1
  | .e4m3 => 2
  | .e5m2 => 3
  | .w4 => 4
  | .i8 => 5
  | .n8 => 6
/-- The MxFmt a code stands for. -/
def MxFmt.ofCode : Nat → Option MxFmt
  | 0 => some .bf16
  | 1 => some .f16
  | 2 => some .e4m3
  | 3 => some .e5m2
  | 4 => some .w4
  | 5 => some .i8
  | 6 => some .n8
  | _ => none

/-- The code of a AcczCount field. -/
def AcczCount.code : AcczCount → Nat
  | .one => 0
  | .two => 1
  | .four => 2
/-- The AcczCount a code stands for. -/
def AcczCount.ofCode : Nat → Option AcczCount
  | 0 => some .one
  | 1 => some .two
  | 2 => some .four
  | _ => none

/-- The code of a CvtTarget field. -/
def CvtTarget.code : CvtTarget → Nat
  | .f32 => 0
  | .f16 => 1
  | .bf16 => 2
  | .e4m3 => 3
  | .e5m2 => 4
  | .w4 => 5
  | .i8 => 6
  | .n8 => 7
  | .i32 => 8
/-- The CvtTarget a code stands for. -/
def CvtTarget.ofCode : Nat → Option CvtTarget
  | 0 => some .f32
  | 1 => some .f16
  | 2 => some .bf16
  | 3 => some .e4m3
  | 4 => some .e5m2
  | 5 => some .w4
  | 6 => some .i8
  | 7 => some .n8
  | 8 => some .i32
  | _ => none

/-- The code of a PgselDim field. -/
def PgselDim.code : PgselDim → Nat
  | .d32 => 0
  | .d64 => 1
/-- The PgselDim a code stands for. -/
def PgselDim.ofCode : Nat → Option PgselDim
  | 0 => some .d32
  | 1 => some .d64
  | _ => none

/-- The code of a SpecialReg field. -/
def SpecialReg.code : SpecialReg → Nat
  | .tidX => 0
  | .tidY => 1
  | .tidZ => 2
  | .teamX => 3
  | .teamY => 4
  | .teamZ => 5
  | .launch => 6
  | .lane => 7
  | .width => 8
  | .coreid => 9
  | .dieid => 10
  | .clock => 11
  | .tenant => 12
  | .sp => 13
  | .fsr => 14
/-- The SpecialReg a code stands for. -/
def SpecialReg.ofCode : Nat → Option SpecialReg
  | 0 => some .tidX
  | 1 => some .tidY
  | 2 => some .tidZ
  | 3 => some .teamX
  | 4 => some .teamY
  | 5 => some .teamZ
  | 6 => some .launch
  | 7 => some .lane
  | 8 => some .width
  | 9 => some .coreid
  | 10 => some .dieid
  | 11 => some .clock
  | 12 => some .tenant
  | 13 => some .sp
  | 14 => some .fsr
  | _ => none

/-! ### Fields -/

/-- The marker bits of a first word (R61). -/
def Ctl.bits (k : Ctl) : Nat := bit k.s * 2 ^ 31 + bit k.u * 2 ^ 30 + bit k.gd * 2 ^ 29
/-- The marker bits read from a first word (R61). -/
def ctlOf (w : Nat) : Ctl := ⟨bitAt w 31, bitAt w 30, bitAt w 29⟩
/-- imm8 of format I, split over [19:18] and [5:0] (R66). -/
def imm8Bits (i : Imm8) : Nat := i.toNat / 64 * 2 ^ 18 + i.toNat % 64
/-- imm8 read from a word of format I (R66). -/
def imm8Of (w : Nat) : Imm8 := BitVec.ofNat 8 (bitsOf w 18 2 * 64 + bitsOf w 0 6)
/-- [19:0] of format A (R66): m, d, a and b. -/
def fmtA (m d a b : Nat) : Nat := m * 2 ^ 18 + d * 2 ^ 12 + a * 2 ^ 6 + b
/-- [19:0] of format P (R66): m, combine, predicate destination, a and b. -/
def fmtP (m comb pd a b : Nat) : Nat := m * 2 ^ 18 + comb * 2 ^ 16 + pd * 2 ^ 12 + a * 2 ^ 6 + b
/-- [19:0] of format I (R66): imm8, d and a. -/
def fmtI (imm : Imm8) (d a : Nat) : Nat := imm8Bits imm + d * 2 ^ 12 + a * 2 ^ 6
/-- A first word (R61). -/
def word1 (k : Ctl) (op x : Nat) : Nat := k.bits + op * 2 ^ 20 + x
/-- A first word with no marker bits, the prefixes' form (R74, R75). -/
def word1p (op x : Nat) : Nat := op * 2 ^ 20 + x
/-- A second word (R68). -/
def word2 (c round x : Nat) : Nat := c * 2 ^ 26 + round * 2 ^ 24 + x
/-- A field of n bits at a position. -/
def field (n w lo : Nat) : BitVec n := BitVec.ofNat n (bitsOf w lo n)

/-! ### The encoder -/

/-- The words of an instruction, first word first; an event has none. -/
def encode : Instr → List Nat
  | .add k m d a b => [word1 k 0x000 (fmtA m.code d.toNat a.toNat b.toNat)]
  | .sub k m d a b => [word1 k 0x001 (fmtA m.code d.toNat a.toNat b.toNat)]
  | .mullo k m d a b => [word1 k 0x002 (fmtA m.code d.toNat a.toNat b.toNat)]
  | .mulhi k m d a b => [word1 k 0x003 (fmtA m.code d.toNat a.toNat b.toNat)]
  | .mad k m d a b c => [word1 k 0x004 (fmtA m.code d.toNat a.toNat b.toNat), word2 c.toNat 0 0]
  | .min k m d a b => [word1 k 0x005 (fmtA m.code d.toNat a.toNat b.toNat)]
  | .max k m d a b => [word1 k 0x006 (fmtA m.code d.toNat a.toNat b.toNat)]
  | .neg k m d a => [word1 k 0x007 (fmtA m.code d.toNat a.toNat 0)]
  | .addi k d a imm => [word1 k 0x008 (fmtI imm d.toNat a.toNat)]
  | .muli k d a imm => [word1 k 0x009 (fmtI imm d.toNat a.toNat)]
  | .add64 k m d a b => [word1 k 0x00a (fmtA m.code d.toNat a.toNat b.toNat)]
  | .add64i k d a imm => [word1 k 0x00b (fmtI imm d.toNat a.toNat)]
  | .sub64 k m d a b => [word1 k 0x00c (fmtA m.code d.toNat a.toNat b.toNat)]
  | .lea64 k d a c sx shift disp => [word1 k 0x00d (fmtA 0 d.toNat a.toNat 0), word2 c.toNat 0 (bit sx * 2 ^ 23 + shift.toNat * 2 ^ 20 + disp.toNat)]
  | .and k d a b => [word1 k 0x010 (fmtA 0 d.toNat a.toNat b.toNat)]
  | .or k d a b => [word1 k 0x011 (fmtA 0 d.toNat a.toNat b.toNat)]
  | .xor k d a b => [word1 k 0x012 (fmtA 0 d.toNat a.toNat b.toNat)]
  | .not k d a => [word1 k 0x013 (fmtA 0 d.toNat a.toNat 0)]
  | .andi k d a imm => [word1 k 0x014 (fmtI imm d.toNat a.toNat)]
  | .ori k d a imm => [word1 k 0x015 (fmtI imm d.toNat a.toNat)]
  | .xori k d a imm => [word1 k 0x016 (fmtI imm d.toNat a.toNat)]
  | .lop3 k d a b c table => [word1 k 0x017 (fmtA 0 d.toNat a.toNat b.toNat), word2 c.toNat 0 table.toNat]
  | .shl k d a b => [word1 k 0x018 (fmtA 0 d.toNat a.toNat b.toNat)]
  | .shr k d a b => [word1 k 0x019 (fmtA 0 d.toNat a.toNat b.toNat)]
  | .sra k d a b => [word1 k 0x01a (fmtA 0 d.toNat a.toNat b.toNat)]
  | .rol k d a b => [word1 k 0x01b (fmtA 0 d.toNat a.toNat b.toNat)]
  | .shli k d a imm => [word1 k 0x01c (fmtI imm d.toNat a.toNat)]
  | .shri k d a imm => [word1 k 0x01d (fmtI imm d.toNat a.toNat)]
  | .srai k d a imm => [word1 k 0x01e (fmtI imm d.toNat a.toNat)]
  | .roli k d a imm => [word1 k 0x01f (fmtI imm d.toNat a.toNat)]
  | .bfe k d a sx len pos => [word1 k 0x020 (fmtA 0 d.toNat a.toNat 0), word2 0 0 (bit sx * 2 ^ 23 + len.toNat * 2 ^ 5 + pos.toNat)]
  | .bfi k d a b len pos => [word1 k 0x021 (fmtA 0 d.toNat a.toNat b.toNat), word2 0 0 (len.toNat * 2 ^ 5 + pos.toNat)]
  | .popc k d a => [word1 k 0x022 (fmtA 0 d.toNat a.toNat 0)]
  | .clz k d a => [word1 k 0x023 (fmtA 0 d.toNat a.toNat 0)]
  | .brev k d a => [word1 k 0x024 (fmtA 0 d.toNat a.toNat 0)]
  | .ffs k d a => [word1 k 0x025 (fmtA 0 d.toNat a.toNat 0)]
  | .icmpEq k m comb pd a b => [word1 k 0x028 (fmtP m.code comb.code pd.toNat a.toNat b.toNat)]
  | .icmpNe k m comb pd a b => [word1 k 0x029 (fmtP m.code comb.code pd.toNat a.toNat b.toNat)]
  | .icmpLt k m comb pd a b => [word1 k 0x02a (fmtP m.code comb.code pd.toNat a.toNat b.toNat)]
  | .icmpLe k m comb pd a b => [word1 k 0x02b (fmtP m.code comb.code pd.toNat a.toNat b.toNat)]
  | .icmpGt k m comb pd a b => [word1 k 0x02c (fmtP m.code comb.code pd.toNat a.toNat b.toNat)]
  | .icmpGe k m comb pd a b => [word1 k 0x02d (fmtP m.code comb.code pd.toNat a.toNat b.toNat)]
  | .ptest k m comb pd a b => [word1 k 0x02e (fmtP m.code comb.code pd.toNat a.toNat b.toNat)]
  | .pand k na nb comb pd pa pb => [word1 k 0x030 (fmtP (bit na * 2 ^ 1 + bit nb) comb.code pd.toNat pa.toNat pb.toNat)]
  | .por k na nb comb pd pa pb => [word1 k 0x031 (fmtP (bit na * 2 ^ 1 + bit nb) comb.code pd.toNat pa.toNat pb.toNat)]
  | .pxor k na nb comb pd pa pb => [word1 k 0x032 (fmtP (bit na * 2 ^ 1 + bit nb) comb.code pd.toNat pa.toNat pb.toNat)]
  | .pnot k comb pd pa => [word1 k 0x033 (fmtP 0 comb.code pd.toNat pa.toNat 0)]
  | .p2v k d pa => [word1 k 0x034 (fmtA 0 d.toNat pa.toNat 0)]
  | .p2vAll k d => [word1 k 0x034 (fmtA 1 d.toNat 0 0)]
  | .v2p k comb pd a => [word1 k 0x035 (fmtP 0 comb.code pd.toNat a.toNat 0)]
  | .v2pAll k a => [word1 k 0x035 (fmtA 1 0 a.toNat 0)]
  | .sel k d a b pc ng => [word1 k 0x036 (fmtA 0 d.toNat a.toNat b.toNat), word2 pc.toNat 0 (bit ng)]
  | .mov k d a => [word1 k 0x037 (fmtA 0 d.toNat a.toNat 0)]
  | .mov64 k d a => [word1 k 0x037 (fmtA 1 d.toNat a.toNat 0)]
  | .xshfIdx k d a b => [word1 k 0x038 (fmtA 0 d.toNat a.toNat b.toNat)]
  | .xshfUp k d a b => [word1 k 0x038 (fmtA 1 d.toNat a.toNat b.toNat)]
  | .xshfDown k d a b => [word1 k 0x038 (fmtA 2 d.toNat a.toNat b.toNat)]
  | .xshfXor k d a b => [word1 k 0x038 (fmtA 3 d.toNat a.toNat b.toNat)]
  | .xbcastLane k d a n => [word1 k 0x039 (fmtA 0 d.toNat a.toNat n.toNat)]
  | .xbcastReg k d a b => [word1 k 0x039 (fmtA 1 d.toNat a.toNat b.toNat)]
  | .xbcastLead k d a => [word1 k 0x039 (fmtA 2 d.toNat a.toNat 0)]
  | .xred k rm d a o => [word1 k 0x03a (fmtA rm.code d.toNat a.toNat o.code)]
  | .xscan k rm d a excl o => [word1 k 0x03b (fmtA rm.code d.toNat a.toNat (bit excl * 2 ^ 5 + o.code))]
  | .xvoteAny k comb pd pa => [word1 k 0x03c (fmtP 0 comb.code pd.toNat pa.toNat 0)]
  | .xvoteAll k comb pd pa => [word1 k 0x03c (fmtP 1 comb.code pd.toNat pa.toNat 0)]
  | .xvoteUni k comb pd pa => [word1 k 0x03c (fmtP 2 comb.code pd.toNat pa.toNat 0)]
  | .xmatchEq k d a => [word1 k 0x03d (fmtA 0 d.toNat a.toNat 0)]
  | .xmatchBallot k d pa => [word1 k 0x03d (fmtA 1 d.toNat pa.toNat 0)]
  | .xmatchMembers k d => [word1 k 0x03d (fmtA 2 d.toNat 0 0)]
  | .movi k d hi6 mid2 lo24 => [word1 k 0x03e (fmtA mid2.toNat d.toNat 0 0), word2 hi6.toNat 0 lo24.toNat]
  | .fadd k m d a b => [word1 k 0x040 (fmtA m.code d.toNat a.toNat b.toNat)]
  | .fsub k m d a b => [word1 k 0x041 (fmtA m.code d.toNat a.toNat b.toNat)]
  | .fmul k m d a b => [word1 k 0x042 (fmtA m.code d.toNat a.toNat b.toNat)]
  | .ffma k np nc rnd d a b c => [word1 k 0x043 (fmtA (bit np * 2 ^ 1 + bit nc) d.toNat a.toNat b.toNat), word2 c.toNat rnd.code 0]
  | .fmin k m d a b => [word1 k 0x044 (fmtA m.code d.toNat a.toNat b.toNat)]
  | .fmax k m d a b => [word1 k 0x045 (fmtA m.code d.toNat a.toNat b.toNat)]
  | .fabs k d a => [word1 k 0x046 (fmtA 0 d.toNat a.toNat 0)]
  | .fneg k d a => [word1 k 0x047 (fmtA 0 d.toNat a.toNat 0)]
  | .fcmpEq k comb pd a b => [word1 k 0x048 (fmtP 0 comb.code pd.toNat a.toNat b.toNat)]
  | .fcmpLt k comb pd a b => [word1 k 0x048 (fmtP 1 comb.code pd.toNat a.toNat b.toNat)]
  | .fcmpLe k comb pd a b => [word1 k 0x048 (fmtP 2 comb.code pd.toNat a.toNat b.toNat)]
  | .fcmpNe k comb pd a b => [word1 k 0x048 (fmtP 3 comb.code pd.toNat a.toNat b.toNat)]
  | .fclass k khi comb pd a klo => [word1 k 0x049 (fmtP khi.toNat comb.code pd.toNat a.toNat klo.toNat)]
  | .frint k m d a => [word1 k 0x04a (fmtA m.code d.toNat a.toNat 0)]
  | .fsatUnit k d a => [word1 k 0x04b (fmtA 0 d.toNat a.toNat 0)]
  | .fsatSym k d a => [word1 k 0x04b (fmtA 1 d.toNat a.toNat 0)]
  | .expins k m d a b => [word1 k 0x04c (fmtA m.code d.toNat a.toNat b.toNat)]
  | .expextExp k d a => [word1 k 0x04d (fmtA 0 d.toNat a.toNat 0)]
  | .expextSig k d a => [word1 k 0x04d (fmtA 1 d.toNat a.toNat 0)]
  | .fexp k d a => [word1 k 0x050 (fmtA 0 d.toNat a.toNat 0)]
  | .flog k d a => [word1 k 0x051 (fmtA 0 d.toNat a.toNat 0)]
  | .frcp k d a => [word1 k 0x052 (fmtA 0 d.toNat a.toNat 0)]
  | .frsq k d a => [word1 k 0x053 (fmtA 0 d.toNat a.toNat 0)]
  | .fsqrt k m d a => [word1 k 0x054 (fmtA m.code d.toNat a.toNat 0)]
  | .fsin k d a => [word1 k 0x055 (fmtA 0 d.toNat a.toNat 0)]
  | .fcos k d a => [word1 k 0x056 (fmtA 0 d.toNat a.toNat 0)]
  | .hadd2 k m d a b => [word1 k 0x058 (fmtA m.code d.toNat a.toNat b.toNat)]
  | .hsub2 k m d a b => [word1 k 0x059 (fmtA m.code d.toNat a.toNat b.toNat)]
  | .hmul2 k m d a b => [word1 k 0x05a (fmtA m.code d.toNat a.toNat b.toNat)]
  | .hfma2 k m rnd d a b c => [word1 k 0x05b (fmtA m.code d.toNat a.toNat b.toNat), word2 c.toNat rnd.code 0]
  | .hmin2 k m d a b => [word1 k 0x05c (fmtA m.code d.toNat a.toNat b.toNat)]
  | .hmax2 k m d a b => [word1 k 0x05d (fmtA m.code d.toNat a.toNat b.toNat)]
  | .hcmp2 k cc comb pk ty a b => [word1 k 0x05e (fmtP cc.code comb.code (pk.toNat * 2 ^ 1 + ty.code) a.toNat b.toNat)]
  | .cvt k d a rnd sat delem selem dst src => [word1 k 0x060 (fmtA 0 d.toNat a.toNat 0), word2 0 rnd.code (bit sat * 2 ^ 15 + delem.toNat * 2 ^ 13 + selem.toNat * 2 ^ 11 + dst.code * 2 ^ 4 + src.code)]
  | .pack2 k d a b rnd sat ty => [word1 k 0x061 (fmtA 0 d.toNat a.toNat b.toNat), word2 0 rnd.code (bit sat * 2 ^ 1 + ty.code)]
  | .unpack2 k m d a => [word1 k 0x062 (fmtA m.code d.toNat a.toNat 0)]
  | .cvt4x8Pack k d a rnd sat ty => [word1 k 0x063 (fmtA 0 d.toNat a.toNat 0), word2 0 rnd.code (bit sat * 2 ^ 2 + ty.code)]
  | .cvt4x8Unpack k d a ty => [word1 k 0x063 (fmtA 0 d.toNat a.toNat 0), word2 0 0 (1 * 2 ^ 3 + ty.code)]
  | .dp4 k sa sb d a b c sat => [word1 k 0x064 (fmtA (bit sa * 2 ^ 1 + bit sb) d.toNat a.toNat b.toNat), word2 c.toNat 0 (bit sat)]
  | .fdot2 k m rnd d a b c => [word1 k 0x065 (fmtA m.code d.toNat a.toNat b.toNat), word2 c.toNat rnd.code 0]
  | .ldN8 k d a imm => [word1 k 0x080 (fmtI imm d.toNat a.toNat)]
  | .ldI8 k d a imm => [word1 k 0x081 (fmtI imm d.toNat a.toNat)]
  | .ldN16 k d a imm => [word1 k 0x082 (fmtI imm d.toNat a.toNat)]
  | .ldI16 k d a imm => [word1 k 0x083 (fmtI imm d.toNat a.toNat)]
  | .ldN32 k d a imm => [word1 k 0x084 (fmtI imm d.toNat a.toNat)]
  | .ldN64 k d a imm => [word1 k 0x085 (fmtI imm d.toNat a.toNat)]
  | .ldN128 k d a imm => [word1 k 0x086 (fmtI imm d.toNat a.toNat)]
  | .ldw k m d a b ty disp => [word1 k 0x087 (fmtA m.code d.toNat a.toNat b.toNat), word2 0 0 (ty.code * 2 ^ 21 + disp.toNat)]
  | .stN8 k d a imm => [word1 k 0x088 (fmtI imm d.toNat a.toNat)]
  | .stN16 k d a imm => [word1 k 0x089 (fmtI imm d.toNat a.toNat)]
  | .stN32 k d a imm => [word1 k 0x08a (fmtI imm d.toNat a.toNat)]
  | .stN64 k d a imm => [word1 k 0x08b (fmtI imm d.toNat a.toNat)]
  | .stN128 k d a imm => [word1 k 0x08c (fmtI imm d.toNat a.toNat)]
  | .stw k m d a b ty disp => [word1 k 0x08d (fmtA m.code d.toNat a.toNat b.toNat), word2 0 0 (ty.code * 2 ^ 21 + disp.toNat)]
  | .ldline k d a imm => [word1 k 0x08e (fmtI imm d.toNat a.toNat)]
  | .stline k d a imm => [word1 k 0x08f (fmtI imm d.toNat a.toNat)]
  | .ldsc k d a imm => [word1 k 0x090 (fmtI imm d.toNat a.toNat)]
  | .stsc k d a imm => [word1 k 0x091 (fmtI imm d.toNat a.toNat)]
  | .atom k noret d a b c op wide scope order => [word1 k 0x092 (fmtA (bit noret) d.toNat a.toNat b.toNat), word2 c.toNat 0 (op.code * 2 ^ 20 + bit wide * 2 ^ 19 + scope.code * 2 ^ 16 + order.code * 2 ^ 14)]
  | .stna k m d a disp pd => [word1 k 0x093 (fmtA m.code d.toNat a.toNat 0), word2 0 0 (disp.toNat * 2 ^ 8 + pd.toNat)]
  | .lds k sz d a pd => [word1 k 0x094 (fmtA sz.code d.toNat a.toNat pd.toNat)]
  | .unsl k a => [word1 k 0x095 (fmtA 0 0 a.toNat 0)]
  | .enumpgNext k d a b => [word1 k 0x098 (fmtA 0 d.toNat a.toNat b.toNat), word2 0 0 0]
  | .enumpgMap k a b c words => [word1 k 0x098 (fmtA 1 0 a.toNat b.toNat), word2 c.toNat 0 (words.toNat * 2 ^ 16)]
  | .pgq k d a => [word1 k 0x099 (fmtA 0 d.toNat a.toNat 0)]
  | .append k d a b c => [word1 k 0x09a (fmtA 0 d.toNat a.toNat b.toNat), word2 c.toNat 0 0]
  | .sealRegion k a => [word1 k 0x09b (fmtA 0 0 a.toNat 0)]
  | .freeRegion k a => [word1 k 0x09c (fmtA 0 0 a.toNat 0)]
  | .tlook k d a => [word1 k 0x0a0 (fmtA 0 d.toNat a.toNat 0)]
  | .tset k d a b => [word1 k 0x0a1 (fmtA 0 d.toNat a.toNat b.toNat)]
  | .tclr k a => [word1 k 0x0a2 (fmtA 0 0 a.toNat 0)]
  | .tclrAll k => [word1 k 0x0a2 (fmtA 1 0 0 0)]
  | .bufdecl k d a b rot cmp => [word1 k 0x0a3 (fmtA 0 d.toNat a.toNat b.toNat), word2 0 0 (rot.toNat * 2 ^ 1 + bit cmp)]
  | .bufdeclRel k a => [word1 k 0x0a3 (fmtA 1 0 a.toNat 0), word2 0 0 0]
  | .bufmarkFill k a => [word1 k 0x0a4 (fmtA 0 0 a.toNat 0)]
  | .bufmarkFull k a => [word1 k 0x0a4 (fmtA 1 0 a.toNat 0)]
  | .bufmarkEmpty k a => [word1 k 0x0a4 (fmtA 2 0 a.toNat 0)]
  | .bufq k d a => [word1 k 0x0a5 (fmtA 0 d.toNat a.toNat 0)]
  | .fence k order scope => [word1 k 0x0a6 (fmtA order.code scope.code 0 0)]
  | .wld k m a sel fmt => [word1 k 0x0c0 (fmtA m.code 0 a.toNat 0), word2 0 0 (sel.toNat * 2 ^ 3 + fmt.code)]
  | .wldpr k a fmt => [word1 k 0x0c1 (fmtA 0 0 a.toNat 0), word2 0 0 fmt.code]
  | .mma k m t a z src sel fmt => [word1 k 0x0c2 (fmtA m.code t.toNat a.toNat 0), word2 0 0 (bit z * 2 ^ 6 + bit src * 2 ^ 5 + sel.toNat * 2 ^ 3 + fmt.code)]
  | .mmapr k t a z src fmt => [word1 k 0x0c3 (fmtA 0 t.toNat a.toNat 0), word2 0 0 (bit z * 2 ^ 6 + bit src * 2 ^ 5 + fmt.code)]
  | .accz k m t => [word1 k 0x0c4 (fmtA m.code t.toNat 0 0)]
  | .accld k t a => [word1 k 0x0c5 (fmtA 0 t.toNat a.toNat 0)]
  | .accst k t a => [word1 k 0x0c6 (fmtA 0 t.toNat a.toNat 0)]
  | .acccvt k t a rnd isI wt sat tgt => [word1 k 0x0c7 (fmtA 0 t.toNat a.toNat 0), word2 0 rnd.code (bit isI * 2 ^ 7 + wt.toNat * 2 ^ 5 + bit sat * 2 ^ 4 + tgt.code)]
  | .accmovGet k t a b => [word1 k 0x0c8 (fmtA 0 t.toNat a.toNat b.toNat)]
  | .accmovPut k t a b => [word1 k 0x0c8 (fmtA 1 t.toNat a.toNat b.toNat)]
  | .accadd k m t s isI => [word1 k 0x0c9 (fmtA m.code t.toNat s.toNat (bit isI))]
  | .acctr k t s => [word1 k 0x0ca (fmtA 0 t.toNat s.toNat 0)]
  | .mstatStat k a => [word1 k 0x0cb (fmtA 0 0 a.toNat 0)]
  | .mstatBind k a => [word1 k 0x0cb (fmtA 1 0 a.toNat 0)]
  | .mstatTheta k a => [word1 k 0x0cb (fmtA 2 0 a.toNat 0)]
  | .pgsel k m a b c scores kn => [word1 k 0x0cc (fmtA m.code 0 a.toNat b.toNat), word2 c.toNat 0 (bit scores * 2 ^ 7 + kn.toNat)]
  | .qappend k d a b pd => [word1 k 0x100 (fmtA 0 d.toNat a.toNat b.toNat), word2 0 0 pd.toNat]
  | .copy k d a ch => [word1 k 0x101 (fmtA 0 d.toNat a.toNat 0), word2 0 0 ch.toNat]
  | .copym k d a ch => [word1 k 0x102 (fmtA 0 d.toNat a.toNat 0), word2 0 0 ch.toNat]
  | .xform k d a ch => [word1 k 0x103 (fmtA 0 d.toNat a.toNat 0), word2 0 0 ch.toNat]
  | .relslot k a b => [word1 k 0x104 (fmtA 0 0 a.toNat b.toNat)]
  | .wptr k d a => [word1 k 0x105 (fmtA 0 d.toNat a.toNat 0)]
  | .tlrdQ k d a => [word1 k 0x106 (fmtA 0 d.toNat a.toNat 0)]
  | .tlrdCh k d a => [word1 k 0x106 (fmtA 1 d.toNat a.toNat 0)]
  | .tlrdDch k d a => [word1 k 0x106 (fmtA 2 d.toNat a.toNat 0)]
  | .chq k d a => [word1 k 0x107 (fmtA 0 d.toNat a.toNat 0)]
  | .bra k off => [word1 k 0x140 off.toNat]
  | .call k off => [word1 k 0x141 off.toNat]
  | .ret k => [word1 k 0x142 (fmtA 0 0 0 0)]
  | .brx k a => [word1 k 0x143 (fmtA 0 0 a.toNat 0)]
  | .callx k a => [word1 k 0x144 (fmtA 0 0 a.toNat 0)]
  | .exit k => [word1 k 0x145 (fmtA 0 0 0 0)]
  | .spadj k imm => [word1 k 0x146 (fmtI imm 0 0)]
  | .nop k => [word1 k 0x147 (fmtA 0 0 0 0)]
  | .jset k j => [word1 k 0x148 (fmtA 0 0 j.toNat 0)]
  | .jwait k j => [word1 k 0x149 (fmtA 0 0 j.toNat 0)]
  | .tbar k => [word1 k 0x14a (fmtA 0 0 0 0)]
  | .pbar k => [word1 k 0x14b (fmtA 0 0 0 0)]
  | .mwaitSlot k a b => [word1 k 0x14c (fmtA 0 0 a.toNat b.toNat)]
  | .mwaitGe k a b => [word1 k 0x14c (fmtA 1 0 a.toNat b.toNat)]
  | .mwaitNe k a b => [word1 k 0x14c (fmtA 2 0 a.toNat b.toNat)]
  | .waittlQ k a b => [word1 k 0x14d (fmtA 0 0 a.toNat b.toNat)]
  | .waittlCh k a b => [word1 k 0x14d (fmtA 1 0 a.toNat b.toNat)]
  | .waittlDch k a b => [word1 k 0x14d (fmtA 2 0 a.toNat b.toNat)]
  | .yield => [word1p 0x14e (fmtA 0 0 0 0)]
  | .guard ng pd => [word1p 0x14f (fmtA (bit ng) pd.toNat 0 0)]
  | .icsync k => [word1 k 0x150 (fmtA 0 0 0 0)]
  | .sread k d sr => [word1 k 0x180 (fmtA 0 d.toNat sr.code 0)]
  | .swrite k sr a => [word1 k 0x181 (fmtA 0 sr.code a.toNat 0)]
  | .trap k code => [word1 k 0x182 (fmtA 0 0 0 code.toNat)]
  | .brk k code => [word1 k 0x183 (fmtA 0 0 0 code.toNat)]
  | .tretRetry k => [word1 k 0x184 (fmtA 0 0 0 0)]
  | .tretSkip k => [word1 k 0x184 (fmtA 1 0 0 0)]
  | .icinv k a b => [word1 k 0x185 (fmtA 0 0 a.toNat b.toNat)]
  | .evrd k d a => [word1 k 0x186 (fmtA 0 d.toNat a.toNat 0)]
  | .dcinv k a b => [word1 k 0x188 (fmtA 0 0 a.toNat b.toNat)]
  | .dcflush k a b => [word1 k 0x189 (fmtA 0 0 a.toNat b.toNat)]
  | .groupForm _ => []
  | .fairnessDemotion _ => []
  | .subGroupResume _ => []
  | .variableOpComplete _ => []
  | .mwaitPeriodicCheck _ _ => []
  | .teamPull _ => []
  | .teamStart _ => []
  | .teamEnd _ => []
  | .homeRead _ => []
  | .homeWrite _ => []
  | .snapshotCopyDone _ _ => []
  | .atomPerform _ => []
  | .appendClaim _ => []
  | .tailAdvance _ => []
  | .sealReached _ => []
  | .freeDone _ => []
  | .replicaDrop _ _ => []
  | .pushLand _ => []
  | .unslDone _ => []
  | .bufferTransition _ => []
  | .l1CleanTimeout _ _ => []
  | .l1DirtyWriteback _ _ => []
  | .watermarkReport _ _ => []
  | .matrixRetire _ => []
  | .selfTest _ _ _ => []
  | .qctlWrite _ _ => []
  | .packetTake _ => []
  | .launch _ => []
  | .copyPacket _ => []
  | .copymPacket _ => []
  | .xformPacket _ => []
  | .table _ => []
  | .signal _ => []
  | .waitPacket _ => []
  | .waitPacketDone _ => []
  | .sealPacket _ => []
  | .migrate _ => []
  | .migrationCopyDone _ => []
  | .packetComplete _ _ => []
  | .channelOpComplete _ => []
  | .outriderFault _ => []
  | .transducerJobEnd _ => []
  | .tableFillDone _ => []
  | .preemptCheck _ => []
  | .tinvCommand _ _ => []
  | .regionLoad _ _ => []
  | .regionRemove _ _ => []
  | .watchdogSpin _ => []
  | .watchdogWait _ _ => []
  | .watchdogHandler _ => []
  | .level2CountDecay _ => []
  | .level3CountDecay _ => []
  | .schedulingLoopStall _ => []
  | .groomSweep _ _ => []
  | .trapEntry _ => []
  | .faultRecordRetry _ => []
  | .fcctlWrite _ _ => []
  | .frespRetry _ _ => []
  | .frespSkip _ _ => []
  | .frespAbort _ _ => []
  | .launchRollback _ _ => []
  | .signatureCompare _ _ => []
  | .halt _ => []
  | .resume _ => []
  | .attach _ => []
  | .detach _ => []
  | .saveHaltedTeam _ => []
  | .haltReached _ => []
  | .contextSave _ => []
  | .contextRestore _ _ => []
  | .ctxbaseWrite _ _ => []
  | .winbaseWrite _ _ _ => []
  | .poolAdd _ _ _ => []
  | .treset _ => []
  | .arBump _ => []
  | .loadRequest _ => []
  | .hostCxlMemAccess _ => []
  | .peerRouteTimeout _ => []
  | .governorUpdate _ _ _ => []
  | .thermalThrottle _ => []
  | .thermalTrip => []
  | .boot => []
  | .registerWrite _ _ => []
  | .stallEvent _ => []
  | .peerAccess _ _ => []
  | .cxlCacheSnoop _ _ => []
  | .supplyDroop _ _ => []
  | .powerLoss => []

/-! ### The decoder -/

/-- Why a sequence of words is not an instruction. -/
inductive DecErr where
  /-- the second word is missing -/
  | truncated
  /-- opcode bits [28:26] are 0b111 (R70) -/
  | classSeven
  /-- the opcode cell is marked with a dash (R72) -/
  | unassigned
  /-- a reserved field is not zero, or a field holds a value its entry excludes (R70) -/
  | reserved
  /-- a register field is not aligned as its pair or quad asks (R67) -/
  | misaligned
  deriving DecidableEq, Repr

/-- The candidate for an opcode of class 0, from its words. -/
def candidate0 (op w v : Nat) : Option Instr :=
  match op with
  | 0x000 => (ArithMode.ofCode (bitsOf w 18 2)).map fun m => .add (ctlOf w) m (field 6 w 12) (field 6 w 6) (field 6 w 0)
  | 0x001 => (ArithMode.ofCode (bitsOf w 18 2)).map fun m => .sub (ctlOf w) m (field 6 w 12) (field 6 w 6) (field 6 w 0)
  | 0x002 => (ArithMode.ofCode (bitsOf w 18 2)).map fun m => .mullo (ctlOf w) m (field 6 w 12) (field 6 w 6) (field 6 w 0)
  | 0x003 => (MulhiTy.ofCode (bitsOf w 18 2)).map fun m => .mulhi (ctlOf w) m (field 6 w 12) (field 6 w 6) (field 6 w 0)
  | 0x004 => (ArithMode.ofCode (bitsOf w 18 2)).map fun m => .mad (ctlOf w) m (field 6 w 12) (field 6 w 6) (field 6 w 0) (field 6 v 26)
  | 0x005 => (IntTy.ofCode (bitsOf w 18 2)).map fun m => .min (ctlOf w) m (field 6 w 12) (field 6 w 6) (field 6 w 0)
  | 0x006 => (IntTy.ofCode (bitsOf w 18 2)).map fun m => .max (ctlOf w) m (field 6 w 12) (field 6 w 6) (field 6 w 0)
  | 0x007 => (NegMode.ofCode (bitsOf w 18 2)).map fun m => .neg (ctlOf w) m (field 6 w 12) (field 6 w 6)
  | 0x008 => some (.addi (ctlOf w) (field 6 w 12) (field 6 w 6) (imm8Of w))
  | 0x009 => some (.muli (ctlOf w) (field 6 w 12) (field 6 w 6) (imm8Of w))
  | 0x00a => (ArithMode.ofCode (bitsOf w 18 2)).map fun m => .add64 (ctlOf w) m (field 6 w 12) (field 6 w 6) (field 6 w 0)
  | 0x00b => some (.add64i (ctlOf w) (field 6 w 12) (field 6 w 6) (imm8Of w))
  | 0x00c => (ArithMode.ofCode (bitsOf w 18 2)).map fun m => .sub64 (ctlOf w) m (field 6 w 12) (field 6 w 6) (field 6 w 0)
  | 0x00d => some (.lea64 (ctlOf w) (field 6 w 12) (field 6 w 6) (field 6 v 26) (bitAt v 23) (field 3 v 20) (field 16 v 0))
  | 0x010 => some (.and (ctlOf w) (field 6 w 12) (field 6 w 6) (field 6 w 0))
  | 0x011 => some (.or (ctlOf w) (field 6 w 12) (field 6 w 6) (field 6 w 0))
  | 0x012 => some (.xor (ctlOf w) (field 6 w 12) (field 6 w 6) (field 6 w 0))
  | 0x013 => some (.not (ctlOf w) (field 6 w 12) (field 6 w 6))
  | 0x014 => some (.andi (ctlOf w) (field 6 w 12) (field 6 w 6) (imm8Of w))
  | 0x015 => some (.ori (ctlOf w) (field 6 w 12) (field 6 w 6) (imm8Of w))
  | 0x016 => some (.xori (ctlOf w) (field 6 w 12) (field 6 w 6) (imm8Of w))
  | 0x017 => some (.lop3 (ctlOf w) (field 6 w 12) (field 6 w 6) (field 6 w 0) (field 6 v 26) (field 8 v 0))
  | 0x018 => some (.shl (ctlOf w) (field 6 w 12) (field 6 w 6) (field 6 w 0))
  | 0x019 => some (.shr (ctlOf w) (field 6 w 12) (field 6 w 6) (field 6 w 0))
  | 0x01a => some (.sra (ctlOf w) (field 6 w 12) (field 6 w 6) (field 6 w 0))
  | 0x01b => some (.rol (ctlOf w) (field 6 w 12) (field 6 w 6) (field 6 w 0))
  | 0x01c => some (.shli (ctlOf w) (field 6 w 12) (field 6 w 6) (imm8Of w))
  | 0x01d => some (.shri (ctlOf w) (field 6 w 12) (field 6 w 6) (imm8Of w))
  | 0x01e => some (.srai (ctlOf w) (field 6 w 12) (field 6 w 6) (imm8Of w))
  | 0x01f => some (.roli (ctlOf w) (field 6 w 12) (field 6 w 6) (imm8Of w))
  | 0x020 => some (.bfe (ctlOf w) (field 6 w 12) (field 6 w 6) (bitAt v 23) (field 6 v 5) (field 5 v 0))
  | 0x021 => some (.bfi (ctlOf w) (field 6 w 12) (field 6 w 6) (field 6 w 0) (field 6 v 5) (field 5 v 0))
  | 0x022 => some (.popc (ctlOf w) (field 6 w 12) (field 6 w 6))
  | 0x023 => some (.clz (ctlOf w) (field 6 w 12) (field 6 w 6))
  | 0x024 => some (.brev (ctlOf w) (field 6 w 12) (field 6 w 6))
  | 0x025 => some (.ffs (ctlOf w) (field 6 w 12) (field 6 w 6))
  | 0x028 => (CmpTy.ofCode (bitsOf w 18 2)).bind fun m => (Combine.ofCode (bitsOf w 16 2)).map fun comb => .icmpEq (ctlOf w) m comb (field 4 w 12) (field 6 w 6) (field 6 w 0)
  | 0x029 => (CmpTy.ofCode (bitsOf w 18 2)).bind fun m => (Combine.ofCode (bitsOf w 16 2)).map fun comb => .icmpNe (ctlOf w) m comb (field 4 w 12) (field 6 w 6) (field 6 w 0)
  | 0x02a => (CmpTy.ofCode (bitsOf w 18 2)).bind fun m => (Combine.ofCode (bitsOf w 16 2)).map fun comb => .icmpLt (ctlOf w) m comb (field 4 w 12) (field 6 w 6) (field 6 w 0)
  | 0x02b => (CmpTy.ofCode (bitsOf w 18 2)).bind fun m => (Combine.ofCode (bitsOf w 16 2)).map fun comb => .icmpLe (ctlOf w) m comb (field 4 w 12) (field 6 w 6) (field 6 w 0)
  | 0x02c => (CmpTy.ofCode (bitsOf w 18 2)).bind fun m => (Combine.ofCode (bitsOf w 16 2)).map fun comb => .icmpGt (ctlOf w) m comb (field 4 w 12) (field 6 w 6) (field 6 w 0)
  | 0x02d => (CmpTy.ofCode (bitsOf w 18 2)).bind fun m => (Combine.ofCode (bitsOf w 16 2)).map fun comb => .icmpGe (ctlOf w) m comb (field 4 w 12) (field 6 w 6) (field 6 w 0)
  | 0x02e => (PtestMode.ofCode (bitsOf w 18 2)).bind fun m => (Combine.ofCode (bitsOf w 16 2)).map fun comb => .ptest (ctlOf w) m comb (field 4 w 12) (field 6 w 6) (field 6 w 0)
  | 0x030 => (Combine.ofCode (bitsOf w 16 2)).map fun comb => .pand (ctlOf w) (bitAt w 19) (bitAt w 18) comb (field 4 w 12) (field 4 w 6) (field 4 w 0)
  | 0x031 => (Combine.ofCode (bitsOf w 16 2)).map fun comb => .por (ctlOf w) (bitAt w 19) (bitAt w 18) comb (field 4 w 12) (field 4 w 6) (field 4 w 0)
  | 0x032 => (Combine.ofCode (bitsOf w 16 2)).map fun comb => .pxor (ctlOf w) (bitAt w 19) (bitAt w 18) comb (field 4 w 12) (field 4 w 6) (field 4 w 0)
  | 0x033 => (Combine.ofCode (bitsOf w 16 2)).map fun comb => .pnot (ctlOf w) comb (field 4 w 12) (field 4 w 6)
  | 0x034 =>
    match bitsOf w 18 2 with
    | 0 => some (.p2v (ctlOf w) (field 6 w 12) (field 4 w 6))
    | 1 => some (.p2vAll (ctlOf w) (field 6 w 12))
    | _ => none
  | 0x035 =>
    match bitsOf w 18 2 with
    | 0 => (Combine.ofCode (bitsOf w 16 2)).map fun comb => .v2p (ctlOf w) comb (field 4 w 12) (field 6 w 6)
    | 1 => some (.v2pAll (ctlOf w) (field 6 w 6))
    | _ => none
  | 0x036 => some (.sel (ctlOf w) (field 6 w 12) (field 6 w 6) (field 6 w 0) (field 4 v 26) (bitAt v 0))
  | 0x037 =>
    match bitsOf w 18 2 with
    | 0 => some (.mov (ctlOf w) (field 6 w 12) (field 6 w 6))
    | 1 => some (.mov64 (ctlOf w) (field 6 w 12) (field 6 w 6))
    | _ => none
  | 0x038 =>
    match bitsOf w 18 2 with
    | 0 => some (.xshfIdx (ctlOf w) (field 6 w 12) (field 6 w 6) (field 6 w 0))
    | 1 => some (.xshfUp (ctlOf w) (field 6 w 12) (field 6 w 6) (field 6 w 0))
    | 2 => some (.xshfDown (ctlOf w) (field 6 w 12) (field 6 w 6) (field 6 w 0))
    | 3 => some (.xshfXor (ctlOf w) (field 6 w 12) (field 6 w 6) (field 6 w 0))
    | _ => none
  | 0x039 =>
    match bitsOf w 18 2 with
    | 0 => some (.xbcastLane (ctlOf w) (field 6 w 12) (field 6 w 6) (field 6 w 0))
    | 1 => some (.xbcastReg (ctlOf w) (field 6 w 12) (field 6 w 6) (field 6 w 0))
    | 2 => some (.xbcastLead (ctlOf w) (field 6 w 12) (field 6 w 6))
    | _ => none
  | 0x03a => (Round.ofCode (bitsOf w 18 2)).bind fun rm => (LaneOp.ofCode (bitsOf w 0 5)).map fun o => .xred (ctlOf w) rm (field 6 w 12) (field 6 w 6) o
  | 0x03b => (Round.ofCode (bitsOf w 18 2)).bind fun rm => (LaneOp.ofCode (bitsOf w 0 5)).map fun o => .xscan (ctlOf w) rm (field 6 w 12) (field 6 w 6) (bitAt w 5) o
  | 0x03c =>
    match bitsOf w 18 2 with
    | 0 => (Combine.ofCode (bitsOf w 16 2)).map fun comb => .xvoteAny (ctlOf w) comb (field 4 w 12) (field 4 w 6)
    | 1 => (Combine.ofCode (bitsOf w 16 2)).map fun comb => .xvoteAll (ctlOf w) comb (field 4 w 12) (field 4 w 6)
    | 2 => (Combine.ofCode (bitsOf w 16 2)).map fun comb => .xvoteUni (ctlOf w) comb (field 4 w 12) (field 4 w 6)
    | _ => none
  | 0x03d =>
    match bitsOf w 18 2 with
    | 0 => some (.xmatchEq (ctlOf w) (field 6 w 12) (field 6 w 6))
    | 1 => some (.xmatchBallot (ctlOf w) (field 6 w 12) (field 4 w 6))
    | 2 => some (.xmatchMembers (ctlOf w) (field 6 w 12))
    | _ => none
  | 0x03e => some (.movi (ctlOf w) (field 6 w 12) (field 6 v 26) (field 2 w 18) (field 24 v 0))
  | _ => none

/-- The candidate for an opcode of class 1, from its words. -/
def candidate1 (op w v : Nat) : Option Instr :=
  match op with
  | 0x040 => (Round.ofCode (bitsOf w 18 2)).map fun m => .fadd (ctlOf w) m (field 6 w 12) (field 6 w 6) (field 6 w 0)
  | 0x041 => (Round.ofCode (bitsOf w 18 2)).map fun m => .fsub (ctlOf w) m (field 6 w 12) (field 6 w 6) (field 6 w 0)
  | 0x042 => (Round.ofCode (bitsOf w 18 2)).map fun m => .fmul (ctlOf w) m (field 6 w 12) (field 6 w 6) (field 6 w 0)
  | 0x043 => (Round.ofCode (bitsOf v 24 2)).map fun rnd => .ffma (ctlOf w) (bitAt w 19) (bitAt w 18) rnd (field 6 w 12) (field 6 w 6) (field 6 w 0) (field 6 v 26)
  | 0x044 => (NumMode.ofCode (bitsOf w 18 2)).map fun m => .fmin (ctlOf w) m (field 6 w 12) (field 6 w 6) (field 6 w 0)
  | 0x045 => (NumMode.ofCode (bitsOf w 18 2)).map fun m => .fmax (ctlOf w) m (field 6 w 12) (field 6 w 6) (field 6 w 0)
  | 0x046 => some (.fabs (ctlOf w) (field 6 w 12) (field 6 w 6))
  | 0x047 => some (.fneg (ctlOf w) (field 6 w 12) (field 6 w 6))
  | 0x048 =>
    match bitsOf w 18 2 with
    | 0 => (Combine.ofCode (bitsOf w 16 2)).map fun comb => .fcmpEq (ctlOf w) comb (field 4 w 12) (field 6 w 6) (field 6 w 0)
    | 1 => (Combine.ofCode (bitsOf w 16 2)).map fun comb => .fcmpLt (ctlOf w) comb (field 4 w 12) (field 6 w 6) (field 6 w 0)
    | 2 => (Combine.ofCode (bitsOf w 16 2)).map fun comb => .fcmpLe (ctlOf w) comb (field 4 w 12) (field 6 w 6) (field 6 w 0)
    | 3 => (Combine.ofCode (bitsOf w 16 2)).map fun comb => .fcmpNe (ctlOf w) comb (field 4 w 12) (field 6 w 6) (field 6 w 0)
    | _ => none
  | 0x049 => (Combine.ofCode (bitsOf w 16 2)).map fun comb => .fclass (ctlOf w) (field 2 w 18) comb (field 4 w 12) (field 6 w 6) (field 6 w 0)
  | 0x04a => (Round.ofCode (bitsOf w 18 2)).map fun m => .frint (ctlOf w) m (field 6 w 12) (field 6 w 6)
  | 0x04b =>
    match bitsOf w 18 2 with
    | 0 => some (.fsatUnit (ctlOf w) (field 6 w 12) (field 6 w 6))
    | 1 => some (.fsatSym (ctlOf w) (field 6 w 12) (field 6 w 6))
    | _ => none
  | 0x04c => (Round.ofCode (bitsOf w 18 2)).map fun m => .expins (ctlOf w) m (field 6 w 12) (field 6 w 6) (field 6 w 0)
  | 0x04d =>
    match bitsOf w 18 2 with
    | 0 => some (.expextExp (ctlOf w) (field 6 w 12) (field 6 w 6))
    | 1 => some (.expextSig (ctlOf w) (field 6 w 12) (field 6 w 6))
    | _ => none
  | 0x050 => some (.fexp (ctlOf w) (field 6 w 12) (field 6 w 6))
  | 0x051 => some (.flog (ctlOf w) (field 6 w 12) (field 6 w 6))
  | 0x052 => some (.frcp (ctlOf w) (field 6 w 12) (field 6 w 6))
  | 0x053 => some (.frsq (ctlOf w) (field 6 w 12) (field 6 w 6))
  | 0x054 => (Round.ofCode (bitsOf w 18 2)).map fun m => .fsqrt (ctlOf w) m (field 6 w 12) (field 6 w 6)
  | 0x055 => some (.fsin (ctlOf w) (field 6 w 12) (field 6 w 6))
  | 0x056 => some (.fcos (ctlOf w) (field 6 w 12) (field 6 w 6))
  | 0x058 => (HalfTy.ofCode (bitsOf w 18 2)).map fun m => .hadd2 (ctlOf w) m (field 6 w 12) (field 6 w 6) (field 6 w 0)
  | 0x059 => (HalfTy.ofCode (bitsOf w 18 2)).map fun m => .hsub2 (ctlOf w) m (field 6 w 12) (field 6 w 6) (field 6 w 0)
  | 0x05a => (HalfTy.ofCode (bitsOf w 18 2)).map fun m => .hmul2 (ctlOf w) m (field 6 w 12) (field 6 w 6) (field 6 w 0)
  | 0x05b => (HalfTy.ofCode (bitsOf w 18 2)).bind fun m => (Round.ofCode (bitsOf v 24 2)).map fun rnd => .hfma2 (ctlOf w) m rnd (field 6 w 12) (field 6 w 6) (field 6 w 0) (field 6 v 26)
  | 0x05c => (HalfTy.ofCode (bitsOf w 18 2)).map fun m => .hmin2 (ctlOf w) m (field 6 w 12) (field 6 w 6) (field 6 w 0)
  | 0x05d => (HalfTy.ofCode (bitsOf w 18 2)).map fun m => .hmax2 (ctlOf w) m (field 6 w 12) (field 6 w 6) (field 6 w 0)
  | 0x05e => (FCond.ofCode (bitsOf w 18 2)).bind fun cc => (Combine.ofCode (bitsOf w 16 2)).bind fun comb => (HalfTy1.ofCode (bitsOf w 12 1)).map fun ty => .hcmp2 (ctlOf w) cc comb (field 3 w 13) ty (field 6 w 6) (field 6 w 0)
  | 0x060 => (Round.ofCode (bitsOf v 24 2)).bind fun rnd => (TypeCode.ofCode (bitsOf v 4 4)).bind fun dst => (TypeCode.ofCode (bitsOf v 0 4)).map fun src => .cvt (ctlOf w) (field 6 w 12) (field 6 w 6) rnd (bitAt v 15) (field 2 v 13) (field 2 v 11) dst src
  | 0x061 => (Round.ofCode (bitsOf v 24 2)).bind fun rnd => (HalfTy1.ofCode (bitsOf v 0 1)).map fun ty => .pack2 (ctlOf w) (field 6 w 12) (field 6 w 6) (field 6 w 0) rnd (bitAt v 1) ty
  | 0x062 => (HalfTy.ofCode (bitsOf w 18 2)).map fun m => .unpack2 (ctlOf w) m (field 6 w 12) (field 6 w 6)
  | 0x063 =>
    match bitsOf v 3 1 with
    | 0 => (Round.ofCode (bitsOf v 24 2)).bind fun rnd => (ByteTy.ofCode (bitsOf v 0 2)).map fun ty => .cvt4x8Pack (ctlOf w) (field 6 w 12) (field 6 w 6) rnd (bitAt v 2) ty
    | 1 => (ByteTy.ofCode (bitsOf v 0 2)).map fun ty => .cvt4x8Unpack (ctlOf w) (field 6 w 12) (field 6 w 6) ty
    | _ => none
  | 0x064 => some (.dp4 (ctlOf w) (bitAt w 19) (bitAt w 18) (field 6 w 12) (field 6 w 6) (field 6 w 0) (field 6 v 26) (bitAt v 0))
  | 0x065 => (HalfTy.ofCode (bitsOf w 18 2)).bind fun m => (Round.ofCode (bitsOf v 24 2)).map fun rnd => .fdot2 (ctlOf w) m rnd (field 6 w 12) (field 6 w 6) (field 6 w 0) (field 6 v 26)
  | _ => none

/-- The candidate for an opcode of class 2, from its words. -/
def candidate2 (op w v : Nat) : Option Instr :=
  match op with
  | 0x080 => some (.ldN8 (ctlOf w) (field 6 w 12) (field 6 w 6) (imm8Of w))
  | 0x081 => some (.ldI8 (ctlOf w) (field 6 w 12) (field 6 w 6) (imm8Of w))
  | 0x082 => some (.ldN16 (ctlOf w) (field 6 w 12) (field 6 w 6) (imm8Of w))
  | 0x083 => some (.ldI16 (ctlOf w) (field 6 w 12) (field 6 w 6) (imm8Of w))
  | 0x084 => some (.ldN32 (ctlOf w) (field 6 w 12) (field 6 w 6) (imm8Of w))
  | 0x085 => some (.ldN64 (ctlOf w) (field 6 w 12) (field 6 w 6) (imm8Of w))
  | 0x086 => some (.ldN128 (ctlOf w) (field 6 w 12) (field 6 w 6) (imm8Of w))
  | 0x087 => (IndexMode.ofCode (bitsOf w 18 2)).bind fun m => (MemTy.ofCode (bitsOf v 21 3)).map fun ty => .ldw (ctlOf w) m (field 6 w 12) (field 6 w 6) (field 6 w 0) ty (field 21 v 0)
  | 0x088 => some (.stN8 (ctlOf w) (field 6 w 12) (field 6 w 6) (imm8Of w))
  | 0x089 => some (.stN16 (ctlOf w) (field 6 w 12) (field 6 w 6) (imm8Of w))
  | 0x08a => some (.stN32 (ctlOf w) (field 6 w 12) (field 6 w 6) (imm8Of w))
  | 0x08b => some (.stN64 (ctlOf w) (field 6 w 12) (field 6 w 6) (imm8Of w))
  | 0x08c => some (.stN128 (ctlOf w) (field 6 w 12) (field 6 w 6) (imm8Of w))
  | 0x08d => (IndexMode.ofCode (bitsOf w 18 2)).bind fun m => (MemTy.ofCode (bitsOf v 21 3)).map fun ty => .stw (ctlOf w) m (field 6 w 12) (field 6 w 6) (field 6 w 0) ty (field 21 v 0)
  | 0x08e => some (.ldline (ctlOf w) (field 6 w 12) (field 6 w 6) (imm8Of w))
  | 0x08f => some (.stline (ctlOf w) (field 6 w 12) (field 6 w 6) (imm8Of w))
  | 0x090 => some (.ldsc (ctlOf w) (field 6 w 12) (field 6 w 6) (imm8Of w))
  | 0x091 => some (.stsc (ctlOf w) (field 6 w 12) (field 6 w 6) (imm8Of w))
  | 0x092 => (AtomOp.ofCode (bitsOf v 20 4)).bind fun op => (Scope.ofCode (bitsOf v 16 3)).bind fun scope => (AtomOrder.ofCode (bitsOf v 14 2)).map fun order => .atom (ctlOf w) (bitAt w 18) (field 6 w 12) (field 6 w 6) (field 6 w 0) (field 6 v 26) op (bitAt v 19) scope order
  | 0x093 => (StnaSize.ofCode (bitsOf w 18 2)).map fun m => .stna (ctlOf w) m (field 6 w 12) (field 6 w 6) (field 16 v 8) (field 4 v 0)
  | 0x094 => (LdsSize.ofCode (bitsOf w 18 2)).map fun sz => .lds (ctlOf w) sz (field 6 w 12) (field 6 w 6) (field 4 w 0)
  | 0x095 => some (.unsl (ctlOf w) (field 6 w 6))
  | 0x098 =>
    match bitsOf w 18 2 with
    | 0 => some (.enumpgNext (ctlOf w) (field 6 w 12) (field 6 w 6) (field 6 w 0))
    | 1 => some (.enumpgMap (ctlOf w) (field 6 w 6) (field 6 w 0) (field 6 v 26) (field 8 v 16))
    | _ => none
  | 0x099 => some (.pgq (ctlOf w) (field 6 w 12) (field 6 w 6))
  | 0x09a => some (.append (ctlOf w) (field 6 w 12) (field 6 w 6) (field 6 w 0) (field 6 v 26))
  | 0x09b => some (.sealRegion (ctlOf w) (field 6 w 6))
  | 0x09c => some (.freeRegion (ctlOf w) (field 6 w 6))
  | 0x0a0 => some (.tlook (ctlOf w) (field 6 w 12) (field 6 w 6))
  | 0x0a1 => some (.tset (ctlOf w) (field 6 w 12) (field 6 w 6) (field 6 w 0))
  | 0x0a2 =>
    match bitsOf w 18 2 with
    | 0 => some (.tclr (ctlOf w) (field 6 w 6))
    | 1 => some (.tclrAll (ctlOf w))
    | _ => none
  | 0x0a3 =>
    match bitsOf w 18 2 with
    | 0 => some (.bufdecl (ctlOf w) (field 6 w 12) (field 6 w 6) (field 6 w 0) (field 3 v 1) (bitAt v 0))
    | 1 => some (.bufdeclRel (ctlOf w) (field 6 w 6))
    | _ => none
  | 0x0a4 =>
    match bitsOf w 18 2 with
    | 0 => some (.bufmarkFill (ctlOf w) (field 6 w 6))
    | 1 => some (.bufmarkFull (ctlOf w) (field 6 w 6))
    | 2 => some (.bufmarkEmpty (ctlOf w) (field 6 w 6))
    | _ => none
  | 0x0a5 => some (.bufq (ctlOf w) (field 6 w 12) (field 6 w 6))
  | 0x0a6 => (FenceOrder.ofCode (bitsOf w 18 2)).bind fun order => (Scope.ofCode (bitsOf w 12 3)).map fun scope => .fence (ctlOf w) order scope
  | _ => none

/-- The candidate for an opcode of class 3, from its words. -/
def candidate3 (op w v : Nat) : Option Instr :=
  match op with
  | 0x0c0 => (MxMode.ofCode (bitsOf w 18 2)).bind fun m => (MxFmt.ofCode (bitsOf v 0 3)).map fun fmt => .wld (ctlOf w) m (field 6 w 6) (field 2 v 3) fmt
  | 0x0c1 => (MxFmt.ofCode (bitsOf v 0 3)).map fun fmt => .wldpr (ctlOf w) (field 6 w 6) fmt
  | 0x0c2 => (MxMode.ofCode (bitsOf w 18 2)).bind fun m => (MxFmt.ofCode (bitsOf v 0 3)).map fun fmt => .mma (ctlOf w) m (field 6 w 12) (field 6 w 6) (bitAt v 6) (bitAt v 5) (field 2 v 3) fmt
  | 0x0c3 => (MxFmt.ofCode (bitsOf v 0 3)).map fun fmt => .mmapr (ctlOf w) (field 6 w 12) (field 6 w 6) (bitAt v 6) (bitAt v 5) fmt
  | 0x0c4 => (AcczCount.ofCode (bitsOf w 18 2)).map fun m => .accz (ctlOf w) m (field 6 w 12)
  | 0x0c5 => some (.accld (ctlOf w) (field 6 w 12) (field 6 w 6))
  | 0x0c6 => some (.accst (ctlOf w) (field 6 w 12) (field 6 w 6))
  | 0x0c7 => (Round.ofCode (bitsOf v 24 2)).bind fun rnd => (CvtTarget.ofCode (bitsOf v 0 4)).map fun tgt => .acccvt (ctlOf w) (field 6 w 12) (field 6 w 6) rnd (bitAt v 7) (field 2 v 5) (bitAt v 4) tgt
  | 0x0c8 =>
    match bitsOf w 18 2 with
    | 0 => some (.accmovGet (ctlOf w) (field 6 w 12) (field 6 w 6) (field 6 w 0))
    | 1 => some (.accmovPut (ctlOf w) (field 6 w 12) (field 6 w 6) (field 6 w 0))
    | _ => none
  | 0x0c9 => (Round.ofCode (bitsOf w 18 2)).map fun m => .accadd (ctlOf w) m (field 6 w 12) (field 6 w 6) (bitAt w 0)
  | 0x0ca => some (.acctr (ctlOf w) (field 6 w 12) (field 6 w 6))
  | 0x0cb =>
    match bitsOf w 18 2 with
    | 0 => some (.mstatStat (ctlOf w) (field 6 w 6))
    | 1 => some (.mstatBind (ctlOf w) (field 6 w 6))
    | 2 => some (.mstatTheta (ctlOf w) (field 6 w 6))
    | _ => none
  | 0x0cc => (PgselDim.ofCode (bitsOf w 18 2)).map fun m => .pgsel (ctlOf w) m (field 6 w 6) (field 6 w 0) (field 6 v 26) (bitAt v 7) (field 7 v 0)
  | _ => none

/-- The candidate for an opcode of class 4, from its words. -/
def candidate4 (op w v : Nat) : Option Instr :=
  match op with
  | 0x100 => some (.qappend (ctlOf w) (field 6 w 12) (field 6 w 6) (field 6 w 0) (field 4 v 0))
  | 0x101 => some (.copy (ctlOf w) (field 6 w 12) (field 6 w 6) (field 2 v 0))
  | 0x102 => some (.copym (ctlOf w) (field 6 w 12) (field 6 w 6) (field 2 v 0))
  | 0x103 => some (.xform (ctlOf w) (field 6 w 12) (field 6 w 6) (field 2 v 0))
  | 0x104 => some (.relslot (ctlOf w) (field 6 w 6) (field 6 w 0))
  | 0x105 => some (.wptr (ctlOf w) (field 6 w 12) (field 6 w 6))
  | 0x106 =>
    match bitsOf w 18 2 with
    | 0 => some (.tlrdQ (ctlOf w) (field 6 w 12) (field 6 w 6))
    | 1 => some (.tlrdCh (ctlOf w) (field 6 w 12) (field 6 w 6))
    | 2 => some (.tlrdDch (ctlOf w) (field 6 w 12) (field 6 w 6))
    | _ => none
  | 0x107 => some (.chq (ctlOf w) (field 6 w 12) (field 6 w 6))
  | _ => none

/-- The candidate for an opcode of class 5, from its words. -/
def candidate5 (op w : Nat) : Option Instr :=
  match op with
  | 0x140 => some (.bra (ctlOf w) (field 20 w 0))
  | 0x141 => some (.call (ctlOf w) (field 20 w 0))
  | 0x142 => some (.ret (ctlOf w))
  | 0x143 => some (.brx (ctlOf w) (field 6 w 6))
  | 0x144 => some (.callx (ctlOf w) (field 6 w 6))
  | 0x145 => some (.exit (ctlOf w))
  | 0x146 => some (.spadj (ctlOf w) (imm8Of w))
  | 0x147 => some (.nop (ctlOf w))
  | 0x148 => some (.jset (ctlOf w) (field 3 w 6))
  | 0x149 => some (.jwait (ctlOf w) (field 3 w 6))
  | 0x14a => some (.tbar (ctlOf w))
  | 0x14b => some (.pbar (ctlOf w))
  | 0x14c =>
    match bitsOf w 18 2 with
    | 0 => some (.mwaitSlot (ctlOf w) (field 6 w 6) (field 6 w 0))
    | 1 => some (.mwaitGe (ctlOf w) (field 6 w 6) (field 6 w 0))
    | 2 => some (.mwaitNe (ctlOf w) (field 6 w 6) (field 6 w 0))
    | _ => none
  | 0x14d =>
    match bitsOf w 18 2 with
    | 0 => some (.waittlQ (ctlOf w) (field 6 w 6) (field 6 w 0))
    | 1 => some (.waittlCh (ctlOf w) (field 6 w 6) (field 6 w 0))
    | 2 => some (.waittlDch (ctlOf w) (field 6 w 6) (field 6 w 0))
    | _ => none
  | 0x14e => some (.yield)
  | 0x14f => some (.guard (bitAt w 18) (field 4 w 12))
  | 0x150 => some (.icsync (ctlOf w))
  | _ => none

/-- The candidate for an opcode of class 6, from its words. -/
def candidate6 (op w : Nat) : Option Instr :=
  match op with
  | 0x180 => (SpecialReg.ofCode (bitsOf w 6 6)).map fun sr => .sread (ctlOf w) (field 6 w 12) sr
  | 0x181 => (SpecialReg.ofCode (bitsOf w 12 6)).map fun sr => .swrite (ctlOf w) sr (field 6 w 6)
  | 0x182 => some (.trap (ctlOf w) (field 6 w 0))
  | 0x183 => some (.brk (ctlOf w) (field 6 w 0))
  | 0x184 =>
    match bitsOf w 18 2 with
    | 0 => some (.tretRetry (ctlOf w))
    | 1 => some (.tretSkip (ctlOf w))
    | _ => none
  | 0x185 => some (.icinv (ctlOf w) (field 6 w 6) (field 6 w 0))
  | 0x186 => some (.evrd (ctlOf w) (field 6 w 12) (field 6 w 6))
  | 0x188 => some (.dcinv (ctlOf w) (field 6 w 6) (field 6 w 0))
  | 0x189 => some (.dcflush (ctlOf w) (field 6 w 6) (field 6 w 0))
  | _ => none

/-- The candidate for a first word and a second word (R61, R72). -/
def candidate (w v : Nat) : Option Instr :=
  match bitsOf w 26 3 with
  | 0 => candidate0 (bitsOf w 20 9) w v
  | 1 => candidate1 (bitsOf w 20 9) w v
  | 2 => candidate2 (bitsOf w 20 9) w v
  | 3 => candidate3 (bitsOf w 20 9) w v
  | 4 => candidate4 (bitsOf w 20 9) w v
  | 5 => candidate5 (bitsOf w 20 9) w
  | 6 => candidate6 (bitsOf w 20 9) w
  | _ => none

/-- The opcodes of the assigned cells of R72. -/
def assignedOps : List Nat :=
  [0x000, 0x001, 0x002, 0x003, 0x004, 0x005, 0x006, 0x007, 0x008, 0x009, 0x00a, 0x00b, 0x00c, 0x00d, 0x010, 0x011, 0x012, 0x013, 0x014, 0x015] ++
  [0x016, 0x017, 0x018, 0x019, 0x01a, 0x01b, 0x01c, 0x01d, 0x01e, 0x01f, 0x020, 0x021, 0x022, 0x023, 0x024, 0x025, 0x028, 0x029, 0x02a, 0x02b] ++
  [0x02c, 0x02d, 0x02e, 0x030, 0x031, 0x032, 0x033, 0x034, 0x035, 0x036, 0x037, 0x038, 0x039, 0x03a, 0x03b, 0x03c, 0x03d, 0x03e, 0x040, 0x041] ++
  [0x042, 0x043, 0x044, 0x045, 0x046, 0x047, 0x048, 0x049, 0x04a, 0x04b, 0x04c, 0x04d, 0x050, 0x051, 0x052, 0x053, 0x054, 0x055, 0x056, 0x058] ++
  [0x059, 0x05a, 0x05b, 0x05c, 0x05d, 0x05e, 0x060, 0x061, 0x062, 0x063, 0x064, 0x065, 0x080, 0x081, 0x082, 0x083, 0x084, 0x085, 0x086, 0x087] ++
  [0x088, 0x089, 0x08a, 0x08b, 0x08c, 0x08d, 0x08e, 0x08f, 0x090, 0x091, 0x092, 0x093, 0x094, 0x095, 0x098, 0x099, 0x09a, 0x09b, 0x09c, 0x0a0] ++
  [0x0a1, 0x0a2, 0x0a3, 0x0a4, 0x0a5, 0x0a6, 0x0c0, 0x0c1, 0x0c2, 0x0c3, 0x0c4, 0x0c5, 0x0c6, 0x0c7, 0x0c8, 0x0c9, 0x0ca, 0x0cb, 0x0cc, 0x100] ++
  [0x101, 0x102, 0x103, 0x104, 0x105, 0x106, 0x107, 0x140, 0x141, 0x142, 0x143, 0x144, 0x145, 0x146, 0x147, 0x148, 0x149, 0x14a, 0x14b, 0x14c] ++
  [0x14d, 0x14e, 0x14f, 0x150, 0x180, 0x181, 0x182, 0x183, 0x184, 0x185, 0x186, 0x188, 0x189]

/-- The opcodes whose instruction has two words (format L and long M, R68, R202). -/
def longOps : List Nat :=
  [0x004, 0x00d, 0x017, 0x020, 0x021, 0x036, 0x03e, 0x043, 0x05b, 0x060, 0x061, 0x063, 0x064, 0x065, 0x087, 0x08d, 0x092, 0x093, 0x098, 0x09a] ++
  [0x0a3, 0x0c0, 0x0c1, 0x0c2, 0x0c3, 0x0c7, 0x0cc, 0x100, 0x101, 0x102, 0x103]

/-- The opcode of a first word (R61). -/
def opcodeOf (w : Nat) : Nat := bitsOf w 20 9

/-- Whether a first word begins a long instruction. -/
def isLong (w : Nat) : Bool := longOps.contains (opcodeOf w)

/-- Accept a candidate that is well formed and encodes to exactly the words read. -/
def accept (c : Option Instr) (ws rest : List Nat) : Except DecErr (Instr × List Nat) :=
  match c with
  | none => .error .reserved
  | some i =>
    if wellFormed i && encode i == ws then .ok (i, rest)
    else .error (if fieldsOk i && encode i == ws then .misaligned else .reserved)

/-- Decode the instruction at the head of a list of words. -/
def decode : List Nat → Except DecErr (Instr × List Nat)
  | [] => .error .truncated
  | w :: r =>
    if bitsOf w 26 3 = 7 then .error .classSeven
    else if !assignedOps.contains (opcodeOf w) then .error .unassigned
    else if isLong w then
      match r with
      | [] => .error .truncated
      | v :: r' => accept (candidate w v) [w, v] r'
    else accept (candidate w 0) [w] r

/-- Bytes as words, four at a time, the byte at the lowest address least significant (R5); bytes past the last whole word are no word. -/
def wordsOfBytes : List Byte → List Nat
  | a :: b :: c :: d :: r => (a.toNat + 256 * b.toNat + 65536 * c.toNat + 16777216 * d.toNat) :: wordsOfBytes r
  | _ => []

/-- Decode from bytes as memory holds them. -/
def decodeBytes (bs : List Byte) : Except DecErr (Instr × List Nat) := decode (wordsOfBytes bs)

/-- The words of an instruction whose bits are w, numbered from bit 0 of the first word. -/
def tableWords (w : Nat) : List Nat := [w % 2 ^ 32, w / 2 ^ 32 % 2 ^ 32]

/-- The instruction read from a word of the opcode table, operand words it gives no bits being zero. -/
def decodeTableWord (nbits w : Nat) : Option Instr :=
  if nbits = 0 then none
  else
    match decode (tableWords (w % 2 ^ nbits)) with
    | .ok (i, _) => some i
    | .error _ => none

end Sys2Proof
end

