-- ==== Sys2Proof/Config.lean ====
section
/-! DEFINITION. What this part fixes, and the values the manual leaves open as constants without a body. -/
namespace Sys2Proof.Config

/-- The generation identifier of the WM-4640 (R77). -/
def generation : Nat := 0x46400001
/-- The Bridle minor version accepted (R73). -/
def bridleMinor : Nat := 2
/-- The fixed latency of every fixed word (R84). -/
def latency : Nat := 4
/-- Bytes of an L1 and an instruction cache line (R240). -/
def lineBytes : Nat := 128
/-- Lines of a core's L1 data cache, 128 KiB (R240). -/
def l1Lines : Nat := 1024
/-- Lines of a core's instruction cache, 64 KiB (R240). -/
def icLines : Nat := 512
/-- Cycles within which a clean L1 line is dropped after its fill, and a dirty one sent home after its write (R318). -/
def l1Bound : Nat := 65536
/-- Lines that a channel's data pass writes in one move of the model (DESIGN CHOICE, log entry 16). -/
def passLines : Nat := 1
/-- Lines that a system channel copies in one move of the model (DESIGN CHOICE, log entry 16). -/
def sysLines : Nat := 16
/-- Lines of a die's L2, 96 MiB (R240). -/
def l2Lines : Nat := 786432
/-- The frame in which a die keeps a replica of a page, in memory outside every pool: the part's own place (R275; DESIGN CHOICE, log entry 31). -/
opaque replicaFrame : Nat → Nat → Nat
/-- Words of a loop buffer (R60). -/
def loopWords : Nat := 256

/-- Whether a reader that issues too early sees the new value (R65): free in the reading, the thread and the register (DESIGN CHOICE, log entry 2). -/
opaque freeBit : Nat → Nat → Nat → Bool
/-- The four key slots of the root of trust, each the SHA-512 digest of a public key, fused at manufacture (R461): the part's own (DESIGN CHOICE, log entry 4). -/
opaque keySlot : Nat → BitVec 512
/-- Modulus and exponent of the public key that the root of trust is shown for a slot (R461): from where, the manual does not say (DESIGN CHOICE, log entry 4). -/
opaque publicKey : Nat → Nat × Nat
/-- The fabric number that the route table gives this module (R455, R459; DESIGN CHOICE, log entry 4). -/
opaque fabricNumber : BitVec 6
/-- The sub-arrays of a core that fail their self-test at boot: the part's own (R233, R463; DESIGN CHOICE, log entry 6). -/
opaque bootFails : Nat → BitVec 4
/-- Whether the hub firmware in ROM verifies at boot (R463; DESIGN CHOICE, log entry 2). -/
opaque firmwareVerifies : Bool
/-- The clock that the governor would choose for a die from the gated lane-cycles that it reads, counted from its least, where nothing fixes it (R17, R464; DESIGN CHOICE, log entry 2). -/
opaque governorChoice : Nat → Nat → Nat
/-- The hottest junction of a die in °C, and its power in watts before gated lane-cycles are credited, as the governor finds them (R464; DESIGN CHOICE, log entry 2). -/
opaque sensorTj : Nat → Nat → Nat
opaque sensorPower : Nat → Nat → Nat
/-- The watts by which gated lane-cycles lower the power that the governor estimates (R17, R464; DESIGN CHOICE, log entry 2). -/
opaque gatedPower : Nat → Nat
/-- How many of a self-test's two products come out wrong (R232; DESIGN CHOICE, log entry 6). -/
opaque testFails : Nat → Nat
/-- Whether a working route to a peer, or a link of a CXL port, stands in the route table at boot (R459, R460; DESIGN CHOICE, log entry 4). -/
opaque routeUp : Nat → Bool
/-- The crossing link by which the route table reaches a peer of the fabric, if it names the peer (R459; DESIGN CHOICE, log entry 4). -/
opaque routeLink : Nat → Option (BitVec 4)
/-- The code of a 256-byte block under an entropy table, whose coding the manual does not give beyond its bit order (R363); a code of more than seven sectors is not used (DESIGN CHOICE, log entry 2). -/
opaque entropyCode : List Byte → List Byte → List Byte
/-- The 256 bytes that a coded block expands to under an entropy table (R363; DESIGN CHOICE, log entry 2). -/
opaque entropyExpand : List Byte → List Byte → List Byte
/-- The 256 bytes that a block held by one leaf expands to where another CMP or META reads it: other bytes, the manual says, and not which (R382; DESIGN CHOICE, log entry 5). -/
opaque otherBlock : Nat → Nat → List Byte → List Byte
/-- A byte of host, peer or CXL pool memory that this device has not written: its contents are set by the surroundings (R240; DESIGN CHOICE, log entry 7). -/
opaque outsideByte : Nat → Byte

/-- What a soft error strikes (R240, R241): a location of module memory, a region's tail word among them, a location or line that a core's caches hold, the registers of a thread, a byte of the scratchpad or a word of the tiles of one of the teams, counted as they are resident, or the state of a command processor. -/
inductive Strike where
  | memory (loc : Nat)
  | l1 (core loc : Nat)
  | code (core line : Nat)
  | registers (nth thread : Nat)
  | scratchpad (nth byte : Nat)
  | tiles (nth word : Nat)
  /-- the uniform mark of a granule, and a declared buffer's state, of one of the teams -/
  | mark (nth granule : Nat)
  | buffer (nth i : Nat)
  /-- pools, counts and claims that a home keeps -/
  | kept (die : Nat)
  | commands (cp : Nat)
  deriving DecidableEq, Repr

/-- What a soft error strikes as a cycle ends, if anything, and whether it is uncorrectable (R241; DESIGN CHOICE, log entry 57). -/
opaque strike : Nat → Option (Strike × Bool)

/-- Whether what a word, a packet or a write has left under way goes on later, and a quadrant issues first: no rule orders the two (R9; DESIGN CHOICE, log entry 16). -/
opaque putsOff : Nat → Bool
/-- Which of the moves under way is made first, where no rule orders them (R9; DESIGN CHOICE, log entry 16). -/
opaque turnOf : Nat → Nat

end Sys2Proof.Config
end

