-- ==== Sys2Proof/Machine/Store.lean ====
section
/-! DEFINITION. Sparse plain data keyed by a number, in one canonical form: keys strictly rising and no entry equal to what an unlisted key reads as. Memory, register files, scratchpads and tiles are all held so. -/
namespace Sys2Proof.Machine

/-- A sparse map; what an unlisted key reads as is given where it is read. -/
abbrev Store (α : Type) := List (Nat × α)

/-- The value at key k, z where none is listed. -/
def Store.get {α : Type} (z : α) : Store α → Nat → α
  | [], _ => z
  | (k, v) :: r, i => if i = k then v else if i < k then z else Store.get z r i

/-- Write key i; writing z removes the entry. -/
def Store.set {α : Type} [DecidableEq α] (z : α) : Store α → Nat → α → Store α
  | [], i, x => if x = z then [] else [(i, x)]
  | (k, v) :: r, i, x =>
    if i < k then (if x = z then (k, v) :: r else (i, x) :: (k, v) :: r)
    else if i = k then (if x = z then r else (i, x) :: r)
    else (k, v) :: Store.set z r i x

/-- Every key is at least lo, keys rise strictly, no entry is z. -/
def Store.wfFrom {α : Type} [DecidableEq α] (z : α) : Nat → Store α → Bool
  | _, [] => true
  | lo, (k, v) :: r => decide (lo ≤ k) && decide (v ≠ z) && Store.wfFrom z (k + 1) r

/-- The canonical form. -/
def Store.wf {α : Type} [DecidableEq α] (z : α) (m : Store α) : Bool := Store.wfFrom z 0 m

/-- Change the value at a key. -/
def Store.upd {α : Type} [DecidableEq α] (z : α) (m : Store α) (i : Nat) (f : α → α) : Store α :=
  Store.set z m i (f (Store.get z m i))

/-- Drop the entries whose keys satisfy p. -/
def Store.dropKeys {α : Type} (m : Store α) (p : Nat → Bool) : Store α := m.filter fun e => !p e.1

/-- Replace the entries of the keys from lo up to hi by those of a list. -/
def Store.splice {α : Type} [DecidableEq α] (z : α) (m : Store α) (lo hi : Nat) (es : Store α) : Store α :=
  ((m.filter fun e => decide (e.1 < lo)) ++ es).foldr (fun e r => Store.set z r e.1 e.2) (m.filter fun e => decide (hi ≤ e.1))

/-- The n bytes from address a, lowest first. -/
def readBytes (m : Store Byte) (a : Nat) : Nat → List Byte
  | 0 => []
  | n + 1 => Store.get 0 m a :: readBytes m (a + 1) n

/-- Write bytes from address a upward. -/
def writeBytes (m : Store Byte) (a : Nat) : List Byte → Store Byte
  | [] => m
  | b :: r => writeBytes (Store.set 0 m a b) (a + 1) r

/-- A list of bytes as a number, the first least significant (R5). -/
def leNat : List Byte → Nat
  | [] => 0
  | b :: r => b.toNat + 256 * leNat r

/-- The low n bytes of a number, least significant first (R5). -/
def leBytes (v : Nat) : Nat → List Byte
  | 0 => []
  | n + 1 => BitVec.ofNat 8 v :: leBytes (v / 256) n

/-- The first value of a list of pairs under a key that satisfies a test on the value. -/
def findBy {α : Type} (p : α → Bool) : List α → Option α
  | [] => none
  | x :: r => if p x then some x else findBy p r

/-- Change every element that satisfies the test. -/
def mapIf {α : Type} (p : α → Bool) (f : α → α) : List α → List α
  | [] => []
  | x :: r => (if p x then f x else x) :: mapIf p f r

end Sys2Proof.Machine
end

