-- ==== Sys2Proof/Machine/State.lean ====
section
/-! DEFINITION. The state of the module as plain data, and the state after reset (R10, R120, R198, R240, R334, R376, R401, R416). What an agent holds is kept under the number of that agent in a Store whose unlisted entry is the reset value. -/
namespace Sys2Proof.Machine

/-- A vector clock: one component per origin, the compute dies and the hub (R311). -/
structure VC where
  d0 : Nat := 0
  d1 : Nat := 0
  d2 : Nat := 0
  d3 : Nat := 0
  x : Nat := 0
  deriving DecidableEq, Repr

/-- A result on its way to a thread's register, to n bits of one from a bit on, to a predicate or the stack pointer. -/
inductive Dst where
  | reg (r : Nat)
  | part (r lo n : Nat)
  | pred (p : Nat)
  | sp
  deriving DecidableEq, Repr

/-- A value for a destination. -/
structure Wr where
  dst : Dst
  val : Nat
  deriving DecidableEq, Repr

/-- A fixed-latency result that has not landed: the cycle it lands in and the clause issue that made it (R65). -/
structure Pend where
  land : Nat
  clause : Nat
  wr : Wr
  deriving DecidableEq, Repr

/-- What a WAITING thread waits for (R24 to R28, R151 to R158). -/
inductive WaitKind where
  | join (j : Nat)
  | tbar
  | pbar
  | slot (s : Nat) (count : Nat)
  | wordGe (va n : Nat)
  | wordNe (va n : Nat)
  | queue (q n : Nat)
  | coreChan (ch n : Nat)
  | dieChan (ch n : Nat)
  deriving DecidableEq, Repr

/-- The thread states of R10; LOOSE keeps the cycle at which it began. -/
inductive ThSt where
  | issuing (gid : Nat)
  | loose (since : Nat)
  | waiting (k : WaitKind) (next : Nat)
  | parked (gid : Nat)
  | exited
  deriving DecidableEq, Repr

/-- A thread's registers and position (R10, R120). -/
structure Thread where
  idx : Nat
  pc : Nat
  /-- words of the clause already passed; 0 before its first word -/
  word : Nat := 0
  st : ThSt
  regs : Store Word := []
  preds : BitVec 16 := 0
  sp : DWord
  fsr : Word := 0
  /-- the guard sampled at the clause's first word (R59) -/
  guard : Bool := true
  /-- its guard is already that of the clause it stands at the head of: a pending word keeps it (R40, R427) -/
  keepGuard : Bool := false
  inHandler : Bool := false
  halted : Bool := false
  haltedInHandler : Bool := false
  haltPending : Bool := false
  /-- a seal or free that a save left pending at home (R308, R437) -/
  sealPending : Bool := false
  obs : VC := {}
  pend : List Pend := []
  /-- earliest cycle of its next issue: the gap of the clause it last issued (R58, R84) -/
  due : Nat := 0
  /-- the store signature of a redundant copy (R448) -/
  sig : Nat := 0
  /-- the header and words fetched for the clause in whose middle it left its group (R161) -/
  words : List Nat := []
  /-- the handler count that it takes along from the group it left to the group it joins (R404) -/
  handlerCount : BitVec 32 := 0
  /-- results of its primary that a copy of a redundant team has asked for or made (R309) -/
  asked : Nat := 0
  /-- its register file carries an uncorrectable error (R241, R444) -/
  bad : Bool := false
  deriving DecidableEq, Repr

/-- A parked sub-group's fault and its delivery (R37, R419, R421, R423). -/
structure Park where
  cls : Nat
  detail : Nat
  addr : Nat
  /-- the sequence of its record, 0 while none is written -/
  seq : Nat := 0
  /-- raised by trap, or by brk acting as trap (R428, R430) -/
  byTrap : Bool := false
  /-- it enters the handler rather than waiting for an answer -/
  toTrap : Bool := false
  /-- an answer has come: 0 none, 1 retry, 2 skip -/
  answer : Nat := 0
  /-- words of the pending instruction -/
  len : Nat := 1
  /-- the thread its record names, where that is not the lowest (R146) -/
  who : Option Nat := none
  /-- always reported, with the double-fault flag (R427) -/
  double : Bool := false
  /-- a wait expiry: each thread's wait, to return to, and the clause after the wait word (R441) -/
  wait : Option (List (Nat × WaitKind) × Nat) := none
  /-- its access found no route to a peer: the hub cycle at which that becomes its fault (R459) -/
  route : Option Nat := none
  deriving DecidableEq, Repr

/-- A group or, when park is present, a parked sub-group (R15, R37). -/
structure Grp where
  gid : Nat
  team : TeamId
  /-- quadrant of the module, core × 4 + quadrant -/
  quad : Nat
  /-- thread indices, ascending home lane -/
  members : List Nat
  pc : Nat
  word : Nat := 0
  flags : BitVec 12 := 0
  /-- engine class of the clause that set each flag (R409) -/
  flagCls : Store Nat := []
  demoted : Bool := false
  /-- earliest cycle of the next clause's first word (R58) -/
  readyAt : Nat := 0
  /-- a name for this issue of a clause (R65); 0 between clauses -/
  clause : Nat := 0
  /-- header of the clause in progress -/
  header : Nat := 0
  /-- the header and the words fetched for the clause that its first word has begun (R161); none between clauses -/
  words : List Nat := []
  /-- the group waits to pass a regroup point (R19): dissolve when its flags are clear -/
  regroup : Bool := false
  /-- participants of the held word that have acted (R370), or the participant list of a word being reissued -/
  doneLanes : List Nat := []
  /-- the next word issues again as the pending word of a resumed sub-group (R40) -/
  resumed : Bool := false
  /-- formed by the picker and not yet issued: its regroup point is behind it (R18, R20) -/
  fresh : Bool := false
  /-- why its word gave up the quadrant (R55): 0 not, 7 the accumulator interlock, 8 channel places, 10 a declared buffer's state, 11 the held stores of a redundant team -/
  held : Nat := 0
  park : Option Park := none
  /-- cycles that its threads have run inside a trap handler (R401, R404) -/
  handler : BitVec 32 := 0
  deriving DecidableEq, Repr

/-- A binding (R198, R211): the issuing core, the descriptor, B format code, mode code (3 for pair) and selector; the B bytes as latched, row after row, and the rows found uniform at the last latching (R227). -/
structure Binding where
  /-- a name for the word that made it -/
  serial : Nat
  core : Nat
  lo : Nat
  hi : Nat
  fmt : Nat
  mode : Nat
  sel : Nat
  data : List Byte := []
  skip : List Bool := []
  deriving DecidableEq, Repr

/-- A declared buffer (R251); state 0 EMPTY, 1 FILLING, 2 FULL, 3 DRAINING. -/
structure Buf where
  handle : Nat
  core : Nat
  base : Nat
  len : Nat
  rot : Nat
  cmp : Bool
  st : Nat
  deriving DecidableEq, Repr

/-- A scratchpad tag entry (R389). -/
structure Tag where
  key : Nat
  val : Nat
  deriving DecidableEq, Repr

/-- A store held until a comparison point (R449): the writing thread, virtual address, bytes. -/
structure Held where
  /-- its place in the order of issue -/
  id : Nat := 0
  thread : Nat
  va : Nat
  bytes : List Byte
  /-- a class 4 submission in place of bytes: the word's type code and channel (R375) -/
  submit : Option (Nat × Nat) := none
  /-- the issue of the stline that it is a word of (R286) -/
  line : Option Nat := none
  deriving DecidableEq, Repr

/-- Where a saved team's image lies (R435). -/
structure Saved where
  addr : Nat
  size : Nat
  halted : Bool
  deriving DecidableEq, Repr

/-- A resident or saved team (R10, R198, R240, R416). Scratchpad, tiles and tags of the follower core of a pair stand above those of the leader. -/
structure Team where
  id : TeamId
  core : Nat
  stamp : Nat
  threads : List Thread
  rejoin : List (List Nat) := []
  pending : List (List Nat) := []
  /-- groups of released threads that the picker forms next (R26) -/
  toForm : List (List Nat) := []
  bindings : List Binding := []
  scratch : Store Byte := []
  marks : Store Bool := []
  /-- clock of the push that last landed in each slot (R323) -/
  slotClk : Store VC := []
  /-- the mooring or lds that last wrote each slot's record (R298, R301) -/
  slotMid : Store Nat := []
  bufs : List Buf := []
  tiles : Store Word := []
  /-- scratchpad bytes and tile words that carry an uncorrectable error (R241, R444) -/
  badScratch : Store Bool := []
  badTiles : Store Bool := []
  tags : Store (Option Tag) := []
  /-- the first entry of its tags on each of its cores -/
  tagFirst : List Nat := []
  held : List Held := []
  /-- a copy that has reached a comparison point: 0 none, 1 all threads, 2 + t thread t (R449) -/
  atCompare : Nat := 0
  /-- results the primary made for the shadow to receive: thread, which of its results, the values (R309) -/
  fed : List (Nat × Nat × List Nat) := []
  waitCount : Store (BitVec 32) := []
  /-- the command processor is stopping it for a context save (R435) -/
  saving : Bool := false
  saved : Option Saved := none
  deriving DecidableEq, Repr

/-- A backed page of a region: its frame and non-default count (R259). -/
structure Page where
  frame : Nat
  count : Nat := 0
  /-- its bytes by offset, each XORed with the byte the default has there -/
  data : Store Byte := []
  deriving DecidableEq, Repr

/-- A claimed range of an APPEND region and the bytes of it not yet written (R269, R270). -/
structure Claim where
  lo : Nat
  hi : Nat
  left : Nat
  deriving DecidableEq, Repr

/-- A fact kept of a page or region before the launch changed it (R395). -/
inductive Snap where
  | copy (page frame pool : Nat) (size : Nat) (r : Option (RegionId × Nat)) (count : Nat) (bytes : Store Byte)
  | allocated (r : RegionId) (page : Nat)
  | released (r : RegionId) (page frame : Nat)
  /-- the pages are those that the launch's first free gave up -/
  | append (r : RegionId) (c t st : Nat) (marked : Bool) (claims : List Claim) (pages : Store (Option Page))
  deriving DecidableEq, Repr

/-- A launch (R44, R345, R395, R416). -/
structure Launch where
  id : Nat
  q : Nat
  seq : Nat
  tenant : Nat
  asid : Nat
  prio : Nat
  /-- the packet's 64 bytes -/
  body : List Byte
  w : Nat
  nregs : Nat
  entry : Nat
  /-- ticket counters, next and end, of each die -/
  tickets : Store (Nat × Nat) := []
  /-- team indices pulled by a core and not yet started: core, team, whether restored -/
  pulled : List (Nat × Nat) := []
  running : Nat := 0
  /-- the clocks observed by threads of its ended teams (R320, R324) -/
  endClk : VC := {}
  startedAt : Nat := 0
  anyTeam : Bool := false
  lastPreempt : Nat := 0
  replays : Nat := 0
  snaps : List Snap := []
  /-- frames that its set keeps beyond those of its entries, each with its pool (R265, R276) -/
  keptFrames : List (Nat × Nat) := []
  /-- locations and lengths of the packets that its qappends have appended and of their queues' index words, which a rollback does not take back (R375) -/
  appended : List (Nat × Nat) := []
  incomplete : Bool := false
  /-- aborted, with a class; it completes once its submitted operations have (R443) -/
  aborted : Option Nat := none
  attached : Bool := false
  /-- core and physical sub-array on which a matrix word of it retired since the last passing self-test (R450) -/
  used : List (Nat × Nat) := []
  /-- frames reserved at home for held stores of its redundant teams (R309) -/
  reserved : List (RegionId × Nat × Nat) := []
  deriving DecidableEq, Repr

/-- One lane's access of a memory operation. -/
structure Acc where
  thread : Nat
  va : Nat
  /-- memory key: physical address, location and node -/
  key : Nat
  size : Nat
  home : Nat
  vec : VC
  region : Option RegionId := none
  done : Bool := false
  val : Nat := 0
  clk : VC := {}
  /-- operand of an atom, data of a store -/
  opnd : Nat := 0
  cmp : Nat := 0
  d : Nat := 0
  /-- writes it has in flight -/
  ws : List Nat := []
  /-- the fault its home answered with -/
  fault : Nat := 0
  ok : Bool := true
  /-- which result of its thread a copy of a redundant team receives (R309) -/
  nth : Nat := 0
  /-- bytes of the page it lies in -/
  psize : Nat := 65536
  deriving DecidableEq, Repr

/-- What an outstanding variable-latency operation does. -/
inductive OpKind where
  /-- its results are ready (row 0b000_111, the SFU row, system words) -/
  | ready
  | load (size : Nat) (signed : Bool)
  | line
  | store
  /-- the push of a call that its home judges: each member, its target, and whether it is active (R147) -/
  | push (moves : List (Nat × Nat × Bool))
  /-- the load of a ret: each acting member moves to the address it reads (R145, R147) -/
  | pop (u : Bool)
  /-- the four loads of a tret for each member: the members return by the frames they read (R427) -/
  | frame (u retry : Bool)
  | stna
  | atom (op : AtomOp) (wide : Bool) (rel acq : Bool) (scope : Nat) (noret : Bool)
  | lds (wide : Bool)
  | unsl
  | enumNext
  | enumMap (words : Nat)
  | pgq
  | append
  | seal (r : RegionId)
  | free (r : RegionId)
  | fence (order scope : Nat)
  | matrix (i : Instr)
  | qappend
  /-- the writes it sent home, and the location ranges whose lines it then drops, none for all of them where it drops (R429) -/
  | flush (ws : List Nat) (drop : Bool) (spans : Option (List (Nat × Nat)))
  deriving DecidableEq, Repr

/-- An outstanding variable-latency operation (R57, R278). -/
structure Op where
  id : Nat
  team : TeamId
  core : Nat
  /-- the groups and sub-groups in whose flags it counts (R39) -/
  gids : List Nat
  flag : Option Nat
  cls : Nat
  kind : OpKind
  accs : List Acc := []
  d : Nat := 0
  pd : Nat := 0
  /-- under U = 1 the members that receive the leading member's result -/
  all : List Nat := []
  results : List (Nat × Wr) := []
  isReady : Bool := false
  /-- its group waits at the word for this operation's verdict (R282) -/
  verdict : Bool := false
  /-- words of the instruction -/
  len : Nat := 1
  /-- the binding a matrix word uses, as it stood at issue -/
  bind : Option Binding := none
  /-- that binding with the bytes of its range, and which rows were uniform, at issue: what a reload latches (R211, R212); none where the binding's own word had yet to start, whose latched bytes a reload then takes -/
  rebind : Option Binding := none
  deriving DecidableEq, Repr

/-- A write that its home has not applied: dirty in a core's L1, or under way (R245, R311, R314). -/
structure Write where
  id : Nat
  key : Nat
  bytes : List Byte
  origin : Nat
  stamp : Nat
  clk : VC
  home : Nat
  /-- the core whose L1 holds it dirty -/
  l1 : Option Nat
  since : Nat := 0
  region : Option RegionId := none
  tenant : Nat := 0
  launch : Option Nat := none
  /-- bytes of the page it lies in -/
  psize : Nat := 65536
  /-- offset and length of the runs of bytes it writes; none listed for all of them (R286) -/
  segs : List (Nat × Nat) := []
  /-- the access from outside that it stands for (R326) -/
  ext : Option ExtAccess := none
  /-- the thread that issued it, and the bytes it will write where its home decides them -/
  by_ : Option (TeamId × Nat) := none
  size : Nat := 0
  deriving DecidableEq, Repr

/-- A mooring (R390). -/
structure Mooring where
  mid : Nat
  home : Nat
  key : Nat
  size : Nat
  tenant : Nat
  core : Nat
  team : TeamId
  slot : Nat
  dormant : Bool := false
  shadow : Nat := 0
  count : Nat := 0
  /-- the queue whose reader it serves, in place of a team (R338, R390) -/
  reader : Option Nat := none
  deriving DecidableEq, Repr

/-- A ferry push under way (R299). -/
structure Push where
  pid : Nat
  mid : Nat
  team : TeamId
  core : Nat
  slot : Nat
  val : Nat
  count : Nat
  clk : VC
  /-- the origin and the stamp of its store (R312, R323) -/
  origin : Nat := 0
  stamp : Nat := 0
  /-- the sealing push, which ends its mooring (R274) -/
  last : Bool := false
  deriving DecidableEq, Repr

/-- An active region copy (R387, R388) with its backing and tails; st 0 OPEN, 1 SEALING, 2 SEALED, 3 FREEING. -/
structure Region where
  id : RegionId
  cls : Nat
  base : Nat
  len : Nat
  psize : Nat
  elem : Nat
  pool : Nat
  leaf : Nat
  dflt : Nat
  home : Nat
  pages : Store (Option Page) := []
  c : Nat := 128
  t : Nat := 128
  st : Nat := 0
  claims : List Claim := []
  /-- a free waits for the state it needs (R273) -/
  freeWait : Bool := false
  tailClk : VC := {}
  /-- clocks of the claims and data the tail covers (R325) -/
  dataClk : VC := {}
  freeLaunch : Option Nat := none
  /-- bit [63] of the tail word as the home last stored it (R268, R273) -/
  marked : Bool := false
  /-- clock of its last free, a write to every byte (R325) -/
  freeClk : VC := {}
  deriving DecidableEq, Repr

/-- An operation of a channel (R334, R348 to R358). -/
structure ChOp where
  bytes : List Byte
  seq : Nat
  tenant : Nat
  asid : Nat
  launch : Nat
  team : TeamId
  core : Nat
  /-- the thread that submitted it -/
  thread : Nat := 0
  obs : VC
  /-- it found no route to a peer: the hub cycle at which that ends it (R459) -/
  route : Option Nat := none
  /-- the queue and sequence number of a queue-fed packet -/
  pkt : Option (Nat × Nat) := none
  /-- destination bytes written -/
  done : Nat := 0
  /-- the outrider waits for an answer to this record -/
  waitSeq : Nat := 0
  /-- pages that the outrider has cleared (R352) -/
  page : Nat := 0
  /-- offset from the destination that the write pointer shows (R250) -/
  pos : Nat := 0
  /-- scratchpad bytes it wrote so far from unbacked zero pages (R250) -/
  zeros : Store Bool := []
  /-- claimed offset in an APPEND region (R354) -/
  claim : Option Nat := none
  /-- it ended with this status and detail, and waits for its turn to complete -/
  ended : Option (Nat × Nat) := none
  /-- transducer lane and captured bank of an XFORM -/
  lane : Option Nat := none
  deriving DecidableEq, Repr

/-- The work of a system channel (R334, R353): the COPY entry of a page, a rollback's restore, the copy of a MIGRATE, a context image written or read. -/
inductive SysJob where
  | snapshot (launch page : Nat)
  | undo (launch : Nat)
  | move (q seq : Nat)
  | save (team : TeamId)
  | back (team : TeamId) (core : Nat)
  deriving DecidableEq, Repr

/-- An operation of one of a die's two system channels: the locations it reads from and how far it has come (R353). -/
structure SysOp where
  die : Nat
  chan : Nat
  job : SysJob
  tenant : Nat
  src : Nat
  size : Nat
  done : Nat := 0
  /-- the record of the fault at which it waits -/
  waitSeq : Nat := 0
  /-- an answer has ended it -/
  ended : Bool := false
  deriving DecidableEq, Repr

/-- A channel (R334). -/
structure Chan where
  ops : List ChOp := []
  lastSeq : Nat := 0
  timeline : Nat := 0
  tlClk : VC := {}
  status : Nat := 0
  wptr : Nat := 0xFFFFFFFF
  deriving DecidableEq, Repr

/-- A transducer lane (R334, R359, R360). -/
structure Lane where
  bank0 : Store DWord := []
  bank1 : Store DWord := []
  cur : Nat := 0
  /-- the last 64 KiB of output of the expander job it runs (R361) -/
  window : List Byte := []
  /-- jobs in order of arrival: the channel that tracks each, and its captured bank once started -/
  jobs : List (ChanId × Nat × Option Nat) := []
  /-- loads in order of arrival: queue, packet sequence, and the bank being filled -/
  fills : List (Nat × Nat × Option Nat) := []
  deriving DecidableEq, Repr

/-- A packet taken and not completed (R338, R343). -/
structure Pkt where
  seq : Nat
  bytes : List Byte
  clk : VC
  started : Bool := false
  /-- the result once the effect has ended: status, detail, count -/
  result : Option (Nat × Nat × Nat) := none
  /-- lanes still to be loaded by a TABLE; the operation that a SEAL waits for -/
  left : Nat := 0
  /-- one above the frame that a MIGRATE moves its page to, and the name below which lie the writes translated before (R399) -/
  frame : Nat := 0
  mark : Nat := 0
  deriving DecidableEq, Repr

/-- A queue (R336). -/
structure Queue where
  qctl : DWord := 0
  qbase : DWord := 0
  qindex : DWord := 0
  rpos : Nat := 0
  timeline : Nat := 0
  tlClk : VC := {}
  /-- clocks acquired by the queue's WAIT packets (R311) -/
  clk : VC := {}
  pkts : List Pkt := []
  /-- completions above the timeline, waiting for those below -/
  fin : List Nat := []
  /-- the record of a read fault that awaits an answer (R513) -/
  faultSeq : Nat := 0
  /-- a push has come, or the reader has not yet looked (R338) -/
  due : Bool := true
  /-- what the packet last taken has left to store: nothing, its type byte, the read index word; and the clock that these stores follow (R338, R513) -/
  step : Nat := 0
  stepClk : VC := {}
  deriving DecidableEq, Repr

/-- A pool (R457). -/
structure Pool where
  cfg : DWord := 0
  frames : List Nat := []
  noticed : Bool := false
  deriving DecidableEq, Repr

/-- A fault record held at the hub (R421, R422). -/
structure Rec where
  seq : Nat
  bytes : List Byte
  deriving DecidableEq, Repr

/-- A tenant's registers and tables (R376, R416, R454). -/
structure Tenant where
  troot : Store DWord := []
  /-- the table and enable in effect of each address space: a new ROOT waits for an invalidation while EN stays 1 (R377) -/
  roots : Store DWord := []
  rgbase : Store DWord := []
  rgcount : Store DWord := []
  regcmd : DWord := 0
  tinva : DWord := 0
  tinvctl : DWord := 0
  /-- the address with which the invalidation under way began (R385) -/
  tinvVa : Nat := 0
  snapcfg : DWord := 0
  tvec : Store DWord := []
  tmask : Store DWord := []
  fcbase : DWord := 0
  fcidx : DWord := 0
  fcctl : DWord := 0
  fresp : DWord := 0
  recSeq : Nat := 0
  recs : List Rec := []
  recLost : Bool := false
  dbgsel : DWord := 0
  dbgctl : DWord := 0
  ctxbase : DWord := 0
  ctxsize : DWord := 0
  wdctl : DWord := 0x0000400001000000
  recctl : DWord := 3
  /-- entries it may hold in the mooring table of each die and of the hub, 4 (R391) -/
  quota : Store Nat := []
  pools : Store Pool := []
  winbase : Store DWord := []
  winlim : Store DWord := []
  busy : Bool := false
  /-- images of teams saved for a debugger, which stay resident: launch, address, size (R433) -/
  kept : List (Nat × Nat × Nat) := []
  entropy : Store (List Byte) := []
  deriving DecidableEq, Repr

/-- A line of an L1 data cache: clean bytes with the clocks of their writes, and the fill vector (R315). -/
structure L1Line where
  bytes : List Byte := []
  clks : List VC := []
  fill : VC := {}
  /-- the cycle of its fill (R318) -/
  at_ : Nat := 0
  deriving DecidableEq, Repr

/-- How the blocks of a page are held: twice the CMP of the leaf that it was last used through and its META, the tenant whose entropy tables it names, and the leaf's level (R363, R382). -/
structure Form where
  code : Nat
  tenant : Nat
  level : Nat
  deriving DecidableEq, Repr

/-- A cached translation: the entry and its level (R384). -/
structure Xlat where
  entry : Nat
  level : Nat
  /-- the fill vector of a placeholder -/
  fill : VC := {}
  /-- the page's blocks have been read as this leaf holds them (R382) -/
  seen : Bool := false
  deriving DecidableEq, Repr

/-- A core's own state (R10, R198, R240, R334). -/
structure Core where
  /-- gated lane-cycles since the governor last read them (R17) -/
  gated : Word := 0
  /-- the cycle in which it last pulled a team index (R45) -/
  pullAt : Nat := 0
  fenced : BitVec 4 := 0
  fcount : Nat := 0
  /-- the team and the name of the binding whose B each physical sub-array latches -/
  latch : Store (Option (TeamId × Nat)) := []
  slaved : Bool := false
  l1 : Store (Option L1Line) := []
  ic : Store (Option (List Nat)) := []
  /-- locations in its L1 and lines of its instruction cache that carry an uncorrectable error (R241) -/
  badL1 : Store Bool := []
  badIc : Store Bool := []
  tlb : Store (Option Xlat) := []
  free : Store Nat := []
  deriving DecidableEq, Repr

/-- A captured loop range: first word's address, the words, and the address space it belongs to (R60). -/
structure LoopBuf where
  base : Nat
  words : List Nat
  tenant : Nat
  asid : Nat
  deriving DecidableEq, Repr

/-- A quadrant's own state (R10, R401). -/
structure Quad where
  holder : Option (TeamId × List Nat) := none
  fair : Nat := 0
  spin : Nat := 0
  prev : Option (TeamId × List Nat) := none
  /-- the group that holds the quadrant within a clause (R55) -/
  mid : Option Nat := none
  loop : Option LoopBuf := none
  /-- members of dissolved demoted groups (R34) -/
  demote : List (TeamId × List Nat) := []
  /-- the group whose spin expiry takes effect at the end of its clause (R441) -/
  expired : Option (TeamId × List Nat) := none
  /-- the last cycle of its die's clock in which it has issued or stalled -/
  spent : Nat := 0
  /-- the issue cycles still to come of the word it has issued: active lanes and gated columns of each (R16, R30) -/
  rest : List (Nat × Nat) := []
  /-- the cycle from which its picker may form its next group (R20) -/
  formed : Nat := 0
  /-- LOOSE threads of keys that have become ready in a cycle without an eligible group, and stay so (R20, R500) -/
  ready : List (TeamId × Nat) := []
  deriving DecidableEq, Repr

/-- A die's own state. -/
structure Die where
  clock : Nat := 0
  /-- how far its next clock edge has come, in fiftieths (R3) -/
  phase : Nat := 0
  stagger : Nat := 0
  delta : Nat := 0
  counter : Nat := 0
  sc : VC := {}
  tlb : Store (Option Xlat) := []
  /-- pages of which a replica stands on the die, and its frame (R376) -/
  replicas : List (Nat × Nat) := []
  /-- lines of its L2, oldest first (R240, R244) -/
  l2 : List Nat := []
  clk : Nat := 42
  tj : Nat := 25
  droop : Bool := false
  throttled : Bool := false
  deriving DecidableEq, Repr

/-- A native image that Horwell holds (R79, R81). Header and kernel tables are those of its code sections. -/
structure Image where
  no : Nat
  tenant : Nat
  asid : Nat
  /-- the SHA-512 digest of the image it was made from -/
  digest : List Byte
  codeVa : Nat
  code : List Nat
  headers : List Nat
  /-- entry offset in bytes, W code, registers, pair permitted -/
  kernels : List (Nat × Nat × Nat × Bool)
  /-- its data sections: address and bytes -/
  data : List (Nat × List Byte) := []
  /-- a further address space that uses the code stored for another (R83) -/
  shared : Bool := false
  deriving DecidableEq, Repr

/-- A place in a harness image that a diagnostic names: section, offset in it, and for a relocation the symbol (R82). -/
structure Site where
  sec : Nat := 0
  off : Nat := 0
  sym : Nat := 0
  deriving DecidableEq, Repr

/-- Level-2 count of a cluster, and level-3 count of a command processor with the cycle of its last rise (R405). -/
structure Level where
  count : Nat := 0
  last : Nat := 0
  lastLaunch : Nat := 0
  deriving DecidableEq, Repr

/-- A machine never stops: the spec gives every word an effect. Raised by exec alone, for a word issued with no issuing group, a state that no step reaches (safe: it claims nothing). -/
inductive Fault where
  | noIssuingGroup
  deriving DecidableEq, Repr

/-- Raised by an arm of the dispatch whose instruction has no meaning yet (safe). -/
inductive Refusal where
  | notModelled (mnemonic : String)
  deriving DecidableEq, Repr

/-- What the device last answered to an access of the host or a peer: nothing yet, that a write is done, the bytes read, or an error response (R452, R456). -/
inductive Reply where
  | quiet
  | done
  | data (bytes : List Byte)
  | error
  deriving DecidableEq, Repr

/-- The module. -/
structure State where
  /-- the moves that the machine's agents and its surroundings make next, oldest first: the model's own schedule (DESIGN CHOICE, log entry 1) -/
  agenda : List Instr := []
  /-- the group whose word is being issued: the model's own -/
  current : Option Nat := none
  freeCtr : Nat := 0
  nextId : Nat := 1
  bootStep : Nat := 0
  bootFail : Nat := 0
  hub : Nat := 0
  /-- how far the hub's next clock edge has come, in fiftieths (R6) -/
  hubPhase : Nat := 0
  hubCounter : Nat := 0
  scPackage : VC := {}
  scFabric : VC := {}
  wdesc : Word := 0x00040010
  evsel : DWord := 0
  evctl : DWord := 0
  govFix : Bool := false
  govFreq : Nat := 42
  pwrcap : Nat := 2400
  fabId : Nat := 0
  /-- peers without a route, and CXL ports (64 + n) whose link is down, as boot found them (R459, R460, R463) -/
  downLinks : List Nat := []
  /-- the route table that boot loads: the peers of the fabric, and the crossing link to each (R459) -/
  routes : List (Nat × Nat) := []
  arBump : DWord := 0
  arMin : Store Nat := []
  verified : List (Nat × Nat) := []
  images : List Image := []
  /-- the diagnostic of the last load request: 0 none yet, 1 to 13 for L0001 to L0013, 256 + image number when done -/
  loadResult : Nat := 0
  /-- the first failing site that the diagnostic names (R82) -/
  loadSite : Site := {}
  dies : Store Die := []
  cores : Store Core := []
  quads : Store Quad := []
  lanes : Store Lane := []
  chans : List (ChanId × Chan) := []
  /-- operations of the system channels, in the order in which they joined -/
  sys : List SysOp := []
  tenants : Store Tenant := []
  queues : Store Queue := []
  lastQueue : Store (Option Nat) := []
  /-- the hub cycle from which each command processor may start its next packet (R344) -/
  cpNext : Store Nat := []
  level2 : Store Level := []
  level3 : Store Level := []
  launches : List Launch := []
  /-- launches whose rollback a fault has called for, with its class (R419, R445) -/
  rollbacks : List (Nat × Nat) := []
  /-- completed launches that used a sub-array since its last passing self-test: identifier, tenant, core and sub-array (R450) -/
  doneUses : List (Nat × Nat × Nat × Nat) := []
  teams : List Team := []
  groups : List Grp := []
  ops : List Op := []
  mem : Store Byte := []
  /-- host, peer and CXL pool memory as this device has written it (R240) -/
  outMem : Store (Option Byte) := []
  /-- bytes that carry an uncorrectable error, and bytes that carry a single-bit error not yet read (R241); a write clears both -/
  poison : Store Bool := []
  flips : Store Bool := []
  /-- how the blocks of a page are held, by the first 64 KiB unit of its frame (R363, R382) -/
  forms : Store (Option Form) := []
  clks : Store VC := []
  writes : List Write := []
  watermark : Store Nat := []
  moorings : List Mooring := []
  pushes : List Push := []
  regions : List Region := []
  /-- increments of the event counters that have not been made yet: those of the cycle under way, and what exceeds the most of a cycle (R410, R412) -/
  evNow : Store Nat := []
  evLive : Store Nat := []
  evTotal : Store Nat := []
  evSwept : Store Nat := []
  reply : Reply := .quiet
  deriving DecidableEq, Repr

/-- The module right after reset (R10, R120, R198, R240, R334, R376, R401, R416, R453 to R465): no step of boot done, memory listing nothing. -/
def State.reset : State := {}

/-- Memory in its canonical form: addresses strictly rising, no entry that equals what an unlisted byte reads as. -/
def Memory.wf (m : Store Byte) : Bool := Store.wf 0 m

end Sys2Proof.Machine
end

