-- ==== Sys2Proof/Machine/Access.lean ====
section
/-! DEFINITION. Reading and changing the parts of the state by the number of the agent that holds them, vector clocks, launch packet fields, homes of threads, and the passing of time. -/
namespace Sys2Proof.Machine

/-- The three outcomes of a step of this machine. -/
abbrev Out := Host.Outcome State Fault Refusal

/-! ### Vector clocks (R311) -/

/-- The component of an origin; 4 stands for the hub. -/
def VC.get (v : VC) : Nat → Nat
  | 0 => v.d0
  | 1 => v.d1
  | 2 => v.d2
  | 3 => v.d3
  | _ => v.x
/-- Replace a component. -/
def VC.set (v : VC) (o n : Nat) : VC :=
  match o with
  | 0 => { v with d0 := n }
  | 1 => { v with d1 := n }
  | 2 => { v with d2 := n }
  | 3 => { v with d3 := n }
  | _ => { v with x := n }
/-- The component-wise maximum. -/
def VC.max (a b : VC) : VC := ⟨Nat.max a.d0 b.d0, Nat.max a.d1 b.d1, Nat.max a.d2 b.d2, Nat.max a.d3 b.d3, Nat.max a.x b.x⟩
/-- Component-wise at most. -/
def VC.le (a b : VC) : Bool := decide (a.d0 ≤ b.d0) && decide (a.d1 ≤ b.d1) && decide (a.d2 ≤ b.d2) && decide (a.d3 ≤ b.d3) && decide (a.x ≤ b.x)
/-- The maximum of a list. -/
def VC.maxAll (l : List VC) : VC := l.foldl VC.max {}
/-- The clock whose every component is n. -/
def VC.all (n : Nat) : VC := ⟨n, n, n, n, n⟩

/-! ### Agents by number -/

/-- The launch that no packet started, read where a name names none. -/
def Launch.absent : Launch := { id := 0, q := 0, seq := 0, tenant := 0, asid := 0, prio := 0, body := [], w := 32, nregs := 64, entry := 0 }
/-- The team read where a name names none. -/
def Team.absent (id : TeamId) : Team := { id := id, core := 0, stamp := 0, threads := [] }
/-- The thread read where an index names none. -/
def Thread.absent (i : Nat) : Thread := { idx := i, pc := 0, st := .exited, sp := 0 }
/-- The group read where a name names none. -/
def Grp.absent (gid : Nat) : Grp := { gid := gid, team := ⟨0, 0, false⟩, quad := 0, members := [], pc := 0 }

def State.die (s : State) (d : Nat) : Die := Store.get {} s.dies d
def State.updDie (s : State) (d : Nat) (f : Die → Die) : State := { s with dies := Store.upd {} s.dies d f }
def State.core (s : State) (c : Nat) : Core := Store.get {} s.cores c
def State.updCore (s : State) (c : Nat) (f : Core → Core) : State := { s with cores := Store.upd {} s.cores c f }
def State.quad (s : State) (q : Nat) : Quad := Store.get {} s.quads q
def State.updQuad (s : State) (q : Nat) (f : Quad → Quad) : State := { s with quads := Store.upd {} s.quads q f }
def State.lane (s : State) (l : Nat) : Lane := Store.get {} s.lanes l
def State.updLane (s : State) (l : Nat) (f : Lane → Lane) : State := { s with lanes := Store.upd {} s.lanes l f }
def State.tenant (s : State) (t : Nat) : Tenant := Store.get {} s.tenants t
def State.updTenant (s : State) (t : Nat) (f : Tenant → Tenant) : State := { s with tenants := Store.upd {} s.tenants t f }
def State.queue (s : State) (q : Nat) : Queue := Store.get {} s.queues q
def State.updQueue (s : State) (q : Nat) (f : Queue → Queue) : State := { s with queues := Store.upd {} s.queues q f }
def State.pool (s : State) (t p : Nat) : Pool := Store.get {} (s.tenant t).pools p
def State.updPool (s : State) (t p : Nat) (f : Pool → Pool) : State :=
  s.updTenant t fun x => { x with pools := Store.upd {} x.pools p f }

def State.findLaunch (s : State) (id : Nat) : Option Launch := findBy (fun l => l.id == id) s.launches
def State.launch (s : State) (id : Nat) : Launch := (s.findLaunch id).getD Launch.absent
def State.updLaunch (s : State) (id : Nat) (f : Launch → Launch) : State :=
  { s with launches := mapIf (fun l => l.id == id) f s.launches }
def State.findTeam (s : State) (id : TeamId) : Option Team := findBy (fun t => t.id == id) s.teams
def State.team (s : State) (id : TeamId) : Team := (s.findTeam id).getD (Team.absent id)
def State.updTeam (s : State) (id : TeamId) (f : Team → Team) : State :=
  { s with teams := mapIf (fun t => t.id == id) f s.teams }
def Team.thread (t : Team) (i : Nat) : Thread := (findBy (fun h => h.idx == i) t.threads).getD (Thread.absent i)
def State.thread (s : State) (id : TeamId) (i : Nat) : Thread := (s.team id).thread i
def State.updThread (s : State) (id : TeamId) (i : Nat) (f : Thread → Thread) : State :=
  s.updTeam id fun t => { t with threads := mapIf (fun h => h.idx == i) f t.threads }
/-- Change the threads of a list of indices. -/
def State.updThreads (s : State) (id : TeamId) (is : List Nat) (f : Thread → Thread) : State :=
  s.updTeam id fun t => { t with threads := mapIf (fun h => is.contains h.idx) f t.threads }
def State.findGrp (s : State) (gid : Nat) : Option Grp := findBy (fun g => g.gid == gid) s.groups
def State.grp (s : State) (gid : Nat) : Grp := (s.findGrp gid).getD (Grp.absent gid)
def State.updGrp (s : State) (gid : Nat) (f : Grp → Grp) : State :=
  { s with groups := mapIf (fun g => g.gid == gid) f s.groups }
def State.dropGrp (s : State) (gid : Nat) : State := { s with groups := s.groups.filter fun g => g.gid != gid }
def State.findOp (s : State) (id : Nat) : Option Op := findBy (fun o => o.id == id) s.ops
def State.updOp (s : State) (id : Nat) (f : Op → Op) : State := { s with ops := mapIf (fun o => o.id == id) f s.ops }
def State.findRegion (s : State) (r : RegionId) : Option Region := findBy (fun x => x.id == r) s.regions
def State.updRegion (s : State) (r : RegionId) (f : Region → Region) : State :=
  { s with regions := mapIf (fun x => x.id == r) f s.regions }
def State.chan (s : State) (c : ChanId) : Chan := ((findBy (fun x : ChanId × Chan => x.1 == c) s.chans).map (·.2)).getD {}
def State.setChan (s : State) (c : ChanId) (v : Chan) : State :=
  match findBy (fun x : ChanId × Chan => x.1 == c) s.chans with
  | some _ => { s with chans := mapIf (fun x => x.1 == c) (fun x => (x.1, v)) s.chans }
  | none => { s with chans := s.chans ++ [(c, v)] }
def State.updChan (s : State) (c : ChanId) (f : Chan → Chan) : State := s.setChan c (f (s.chan c))
/-- A fresh name. -/
def State.fresh (s : State) : Nat × State := (s.nextId, { s with nextId := s.nextId + 1 })

/-! ### Launch packet fields (R339, R345) -/

/-- A little-endian field of a packet. -/
def fieldAt (body : List Byte) (off len : Nat) : Nat := leNat ((body.drop off).take len)

def Launch.word14 (l : Launch) : Nat := fieldAt l.body 0x14 4
def Launch.dieMask (l : Launch) : Nat := bitsOf l.word14 0 4
def Launch.cls (l : Launch) : Nat := bitsOf l.word14 4 2
def Launch.pair (l : Launch) : Bool := bitAt l.word14 6
def Launch.promise (l : Launch) : Bool := bitAt l.word14 7
def Launch.skipUniform (l : Launch) : Bool := bitAt l.word14 8
def Launch.redundant (l : Launch) : Bool := bitAt l.word14 9
/-- A redundant launch takes snapshots as if its replayable bit were set (R447). -/
def Launch.replayable (l : Launch) : Bool := bitAt l.word14 10 || l.redundant
def Launch.stagger (l : Launch) : Nat := bitsOf l.word14 12 13
def Launch.tiles (l : Launch) : Nat := bitsOf l.word14 25 7
def Launch.fairT (l : Launch) : Nat := let t := bitsOf (fieldAt l.body 0x18 4) 0 17; if t = 0 then 512 else t
def Launch.tagCount (l : Launch) : Nat := bitsOf (fieldAt l.body 0x18 4) 17 10
def Launch.slots (l : Launch) : Nat := bitsOf (fieldAt l.body 0x1C 4) 0 9
/-- Scratchpad bytes per team and core. -/
def Launch.scratch (l : Launch) : Nat := bitsOf (fieldAt l.body 0x1C 4) 9 13 * 128
def Launch.arg (l : Launch) : Nat := fieldAt l.body 0x20 8
def Launch.stackBase (l : Launch) : Nat := let w := fieldAt l.body 0x28 8; w / 65536 * 65536
def Launch.stackSize (l : Launch) : Nat := bitsOf (fieldAt l.body 0x28 8) 0 16 * 16
def Launch.gx (l : Launch) : Nat := fieldAt l.body 0x30 4
def Launch.gy (l : Launch) : Nat := fieldAt l.body 0x34 2
def Launch.gz (l : Launch) : Nat := fieldAt l.body 0x36 2
def Launch.teams (l : Launch) : Nat := l.gx * l.gy * l.gz
def Launch.dx (l : Launch) : Nat := bitsOf (fieldAt l.body 0x38 8) 0 12
def Launch.dy (l : Launch) : Nat := bitsOf (fieldAt l.body 0x38 8) 12 12
def Launch.dz (l : Launch) : Nat := bitsOf (fieldAt l.body 0x38 8) 24 12
/-- The team size (R12). -/
def Launch.size (l : Launch) : Nat := l.dx * l.dy * l.dz
/-- Cores of a team: 2 for a pair launch (R13). -/
def Launch.cores (l : Launch) : Nat := if l.pair then 2 else 1

/-! ### Homes of threads (R13, R14) -/

def Launch.homeGroup (l : Launch) (t : Nat) : Nat := t / l.w
def Launch.laneOf (l : Launch) (t : Nat) : Nat := t % l.w
/-- 0 on the leader core, 1 on the follower. -/
def Launch.half (l : Launch) (t : Nat) : Nat := l.homeGroup t / 4 % l.cores
/-- The quadrant of the module on which a thread of a team that stands on a core sits. -/
def Launch.quadOf (l : Launch) (core t : Nat) : Nat := (core + l.half t) * 4 + l.homeGroup t % 4
/-- The column of a thread, for W = 64 within its issue half. -/
def Launch.column (l : Launch) (t : Nat) : Nat :=
  if l.w = 16 then 16 * (l.homeGroup t / (4 * l.cores) % 2) + t % 16 else t % 32
def dieOfCore (c : Nat) : Nat := c / 192
def coreOfQuad (q : Nat) : Nat := q / 4
def dieOfQuad (q : Nat) : Nat := dieOfCore (coreOfQuad q)
/-- The cluster of the module in which a core lies. -/
def clusterOf (core : Nat) : Nat := core / 8
/-- The initial stack pointer of a thread (R14). -/
def Launch.stackTop (l : Launch) (team t : Nat) : DWord := BitVec.ofNat 64 (l.stackBase + (team * l.size + t + 1) * l.stackSize)

/-! ### Registers in flight (R65) -/

/-- A register as it has landed. -/
def Thread.raw (t : Thread) (r : Nat) : Word := Store.get 0 t.regs r

/-- Write a destination. -/
def Thread.put (t : Thread) (w : Wr) : Thread :=
  match w.dst with
  | .reg r => { t with regs := Store.set 0 t.regs r (BitVec.ofNat 32 w.val) }
  | .part r lo n => { t with regs := Store.set 0 t.regs r (BitVec.ofNat 32 ((t.raw r).toNat - bitsOf (t.raw r).toNat lo n * 2 ^ lo + w.val % 2 ^ n * 2 ^ lo)) }
  | .pred p => { t with preds := BitVec.ofNat 16 (t.preds.toNat - bit (t.preds.getLsbD p) * 2 ^ p + w.val % 2 * 2 ^ p) }
  | .sp => { t with sp := BitVec.ofNat 64 w.val }

/-- Write several destinations, in order. -/
def Thread.puts (t : Thread) (ws : List Wr) : Thread := ws.foldl Thread.put t

/-- Land every result whose cycle has come. -/
def Thread.landed (t : Thread) (now : Nat) : Thread :=
  let t' := (t.pend.filter fun p => decide (p.land ≤ now)).foldl (fun x p => x.put p.wr) t
  { t' with pend := t.pend.filter fun p => !decide (p.land ≤ now) }

/-- Land every result, where more time passes than any fixed latency. -/
def Thread.settled (t : Thread) : Thread := { (t.puts (t.pend.map (·.wr))) with pend := [] }

/-- A thread as a word of a clause reads it: results of the same clause that have not landed read old; those of other clauses read old or new, free (R65). -/
def Thread.view (ctr clause : Nat) (t : Thread) : Thread :=
  t.pend.foldl (fun x p =>
    let key := match p.wr.dst with | .reg r => r | .part r _ _ => r | .pred q => 64 + q | .sp => 80
    if p.clause != clause && Config.freeBit ctr t.idx key then x.put p.wr else x) t

/-- A code address as 64 bits: bits [63:57] copy bit 56 (R242). -/
def canonOf (pc : Nat) : Nat := pc % 2 ^ 57 + (if bitAt pc 56 then 127 * 2 ^ 57 else 0)

/-! ### Time -/

/-- The most that an event counter rises in one cycle (R410). -/
def eventMost (code : Nat) : Nat :=
  if code = 0x02 || code = 0x03 then 32
  else if code = 0x42 then 8
  else if code = 0x43 then 16
  else if code = 0x44 || code = 0x45 || (0x47 ≤ code && code ≤ 0x4E) then 4
  else if code = 0x80 || code = 0x81 || code = 0x8B then 64
  else if code = 0x86 || code = 0x89 || code = 0x8A then 16
  else if code = 0x87 || code = 0x88 then 8
  else 1

/-- Add to an event counter of a unit, quadrants from 0, cores from 4096, dies from 8192: the increments are made as the cycles pass (R410, R412). -/
def State.count (s : State) (unit code n : Nat) : State :=
  if n = 0 then s else { s with evNow := Store.upd 0 s.evNow (unit * 256 + code) (· + n) }

/-- The die of the unit of a counter. -/
def dieOfUnit (unit : Nat) : Nat :=
  if unit < 4096 then dieOfQuad unit else if unit < 8192 then dieOfCore (unit - 4096) else unit - 8192

/-- A thread is WAITING or PARKED. -/
def Thread.stalled (h : Thread) : Bool := match h.st with
  | .waiting _ _ => true
  | .parked _ => true
  | _ => false

/-- A thread has stopped for a halt: its flag is set, and its group stands between clauses (R433). -/
def State.haltedStill (s : State) (h : Thread) : Bool := (h.halted || h.haltedInHandler) && (match h.st with
  | .issuing gid => (s.grp gid).clause == 0
  | _ => true)

/-- The wait count of a home group after a cycle: it rises where a thread is left and each is WAITING or PARKED, returns to 0 where one is ISSUING or LOOSE, and stays where those that neither wait nor are parked are halted (R404, R433). It has 32 bits, and no limit holds it where the tenant has none: it then stays at its largest (R401, R440; DESIGN CHOICE, log entry 70). -/
def waitAfter (halted : Thread → Bool) (ts : List Thread) (n : BitVec 32) : BitVec 32 :=
  if ts.any fun h => !h.stalled && !halted h then 0
  else if !ts.isEmpty && ts.all Thread.stalled && n != BitVec.allOnes 32 then n + 1 else n

/-- The home groups a team has. -/
def Launch.homeGroups (l : Launch) : Nat := (l.size + l.w - 1) / l.w

/-- The wait counts of a team after a cycle (R404). -/
def Team.tickWait (l : Launch) (halted : Thread → Bool) (t : Team) : Team :=
  if t.saved.isSome then t
  else { t with waitCount := (List.range l.homeGroups).foldl (fun m hg =>
      Store.upd 0 m hg (waitAfter halted (t.threads.filter fun h => l.homeGroup h.idx == hg && h.st != .exited))) t.waitCount }

/-- A group or parked sub-group after a cycle: its handler count rises while its threads run inside a trap handler (R404). -/
def Grp.tick (t : Team) (g : Grp) : Grp :=
  if t.saved.isNone && g.members.any fun i => (t.thread i).inHandler then { g with handler := g.handler + 1 } else g

/-- A die after a cycle of its clock: the stagger timer runs down (R47). -/
def Die.tick (d : Die) : Die := { d with clock := d.clock + 1, stagger := d.stagger - 1 }

/-- The increments of a cycle are made: of each counter no more than the most of a cycle, the rest in the cycles that follow (R410). -/
def bookCounts (p : Nat → Bool) : Store Nat → Store Nat → Store Nat × Store Nat
  | [], live => ([], live)
  | e :: r, live =>
    let rest := bookCounts p r live
    if p (dieOfUnit (e.1 / 256)) then
      let n := Nat.min e.2 (eventMost (e.1 % 256))
      (if e.2 = n then rest.1 else (e.1, e.2 - n) :: rest.1, Store.upd 0 rest.2 e.1 (· + n))
    else (e :: rest.1, rest.2)

/-- A die whose clock edge comes: its cycle ends (R401, R404, R410). -/
def State.tickDie (d : Nat) (s : State) : State :=
  let s := s.updDie d Die.tick
  let b := bookCounts (fun x => x == d) s.evNow s.evLive
  { s with
    evNow := b.1
    evLive := b.2
    groups := s.groups.map fun g => if dieOfQuad g.quad = d then g.tick (s.team g.team) else g
    teams := s.teams.map fun t => if dieOfCore t.core = d then t.tickWait (s.launch t.id.launch) s.haltedStill else t }

/-- A fiftieth-step of a clock that advances by some fiftieths: where it stands, and whether its edge comes. -/
def edge (phase step : Nat) : Nat × Bool := if 50 ≤ phase + step then (phase + step - 50, true) else (phase + step, false)

/-- One cycle of the fastest clock, 1.25 GHz, passes: a die's clock advances by its setting in steps of 25 MHz, the hub's by 1.00 GHz (R3, R6; the phases are a DESIGN CHOICE, log entry 46). -/
def State.tick (s : State) : State :=
  let h := edge s.hubPhase 40
  let s := { s with hubPhase := h.1, hub := s.hub + bit h.2, freeCtr := s.freeCtr + 1 }
  (List.range 4).foldl (fun s d =>
    let e := edge (s.die d).phase (s.die d).clk
    let s := s.updDie d fun x => { x with phase := e.1 }
    if e.2 then s.tickDie d else s) s

/-- The cycle of its die's clock that a quadrant is in. -/
def State.now (s : State) (quad : Nat) : Nat := Nat.max (s.die (dieOfQuad quad)).clock (s.quad quad).spent
/-- A quadrant issues or stalls for a cycle. -/
def State.spendQuad (s : State) (quad : Nat) : State :=
  let t := s.now quad + 1
  s.updQuad quad fun q => { q with spent := t }

end Sys2Proof.Machine
end

