-- ==== Sys2Proof/Machine/Memory.lean ====
section
/-! DEFINITION. Memory: where a byte lies and which agent is its home (R242, R243), page-table walks and their checks (R377 to R383, R281), the region classes as a home reads them (R258, R268, R271), and the bytes themselves. A location is a number: a physical byte as its address with LOC and NODE above it, a byte of a DEFAULT or APPEND region as its virtual address under its address space. -/
namespace Sys2Proof.Machine

/-! ### Physical memory (R240, R242; the division of the physical space is a DESIGN CHOICE, log entry 9) -/

/-- GDDR-7 of a die: 16 devices, 96 GB in all, decimal as every capacity of a module (R1, R3, R6). -/
def gddrBytes : Nat := 96 * 10 ^ 9
/-- LPDDR-6 of a die: 4 modules of 256 GB (R1, R3, R6). -/
def lpddrBytes : Nat := 1024 * 10 ^ 9
def dieOfPa (pa : Nat) : Nat := pa / 2 ^ 50 % 4
def tierOfPa (pa : Nat) : Nat := pa / 2 ^ 49 % 2
/-- A physical byte of the module exists. -/
def paExists (pa : Nat) : Bool :=
  decide (pa < 2 ^ 52) && decide (pa % 2 ^ 49 < if tierOfPa pa = 0 then gddrBytes else lpddrBytes)
/-- The protected code area that Horwell fills: the GDDR-7 of C0 from 84 GiB up (DESIGN CHOICE, log entry 10). -/
def protectedBase : Nat := 84 * 2 ^ 30
def isProtected (pa : Nat) : Bool := decide (protectedBase ≤ pa) && decide (pa < gddrBytes)

/-- The first location that lies in a region. -/
def regionKeyBase : Nat := 2 ^ 60
/-- The location of a byte of a region. -/
def regionKey (tenant asid va : Nat) : Nat := regionKeyBase + (tenant * 16 + asid) * 2 ^ 57 + va % 2 ^ 57
def isRegionKey (k : Nat) : Bool := decide (regionKeyBase ≤ k)
def keyVa (k : Nat) : Nat := (k - regionKeyBase) % 2 ^ 57
def keySpace (k : Nat) : Nat := (k - regionKeyBase) / 2 ^ 57
/-- The location of a physical byte. -/
def physKey (pa loc node : Nat) : Nat := pa + loc * 2 ^ 52 + node * 2 ^ 54
def keyLoc (k : Nat) : Nat := k / 2 ^ 52 % 4

def pageBytes : Nat → Nat
  | 0 => 2 ^ 16
  | 1 => 2 ^ 21
  | _ => 2 ^ 30
/-- The level of the leaf of a page size (R378). -/
def pageLevel : Nat → Nat
  | 0 => 0
  | 1 => 1
  | _ => 2

/-- Element size in bytes from its code (R387). -/
def Region.elemBytes (r : Region) : Nat := 2 ^ r.elem
/-- The byte of the default at a byte offset (R258). -/
def Region.dfltByte (r : Region) (off : Nat) : Byte := BitVec.ofNat 8 (r.dflt / 256 ^ (off % r.elemBytes))
def Region.pageOf (r : Region) (va : Nat) : Nat := (va - r.base) / pageBytes r.psize
def Region.page (r : Region) (i : Nat) : Option Page := Store.get none r.pages i
def Region.npages (r : Region) : Nat := r.len / pageBytes r.psize
def Region.covers (r : Region) (va : Nat) : Bool := decide (r.base ≤ va) && decide (va < r.base + r.len)
/-- The tail word: T, with bit [63] once sealed (R268). -/
def Region.tailWord (r : Region) : Nat := r.t + (if r.marked then 2 ^ 63 else 0)

/-- The active region, if any, that covers an address. -/
def State.regionAt (s : State) (tenant asid va : Nat) : Option Region :=
  findBy (fun r => r.id.tenant == tenant && r.id.asid == asid && r.covers va) s.regions
/-- The DEFAULT or APPEND region of a location. -/
def State.regionOfKey (s : State) (k : Nat) : Option Region :=
  if isRegionKey k then s.regionAt (keySpace k / 16) (keySpace k % 16) (keyVa k) else none

/-- The bytes of a page of a region as stored, by offset. -/
def Region.pageByte (r : Region) (p : Page) (off : Nat) : Byte := Store.get 0 p.data off ^^^ r.dfltByte off

/-- The region page whose frame holds a physical byte. -/
def frameOwner (pa : Nat) : List Region → Option (Region × Nat × Page)
  | [] => none
  | r :: rs =>
    match findBy (fun e : Nat × Option Page => match e.2 with
        | some p => decide (p.frame ≤ pa) && decide (pa < p.frame + pageBytes r.psize)
        | none => false) r.pages with
    | some (i, some p) => some (r, i, p)
    | _ => frameOwner pa rs

/-- A physical byte as its home holds it. -/
def State.physByte (s : State) (k : Nat) : Byte :=
  if keyLoc k = 0 then
    match frameOwner k s.regions with
    | some (r, _, p) => r.pageByte p (k - p.frame)
    | none => Store.get 0 s.mem k
  else (Store.get none s.outMem k).getD (Config.outsideByte k)

/-- Write a physical byte. -/
def State.setPhys (s : State) (k : Nat) (b : Byte) : State :=
  if keyLoc k = 0 then
    match frameOwner k s.regions with
    | some (r, i, p) => s.updRegion r.id fun x =>
        { x with pages := Store.set none x.pages i (some { p with data := Store.set 0 p.data (k - p.frame) (b ^^^ r.dfltByte (k - p.frame)) }) }
    | none => { s with mem := Store.set 0 s.mem k b }
  else { s with outMem := Store.set none s.outMem k (some b) }

/-- A byte of a region as its home reads it: the default where unbacked (R258), zero at or above T and the tail word below 128 in an APPEND region (R268, R271). -/
def Region.byteAt (r : Region) (va : Nat) : Byte :=
  let off := va - r.base
  let stored := match r.page (r.pageOf va) with
    | some p => r.pageByte p (off % pageBytes r.psize)
    | none => if r.cls = 1 then r.dfltByte off else 0
  if r.cls = 2 then
    if off < 8 then BitVec.ofNat 8 (r.tailWord / 256 ^ off)
    else if off < 128 then 0
    else if off < r.t then stored else 0
  else stored

/-- A byte as its home reads it. -/
def State.locByte (s : State) (k : Nat) : Byte :=
  if isRegionKey k then
    match s.regionOfKey k with
    | some r => r.byteAt (keyVa k)
    | none => 0
  else s.physByte k

/-- The clock of a byte's last write (R311). -/
def State.locClk (s : State) (k : Nat) : VC :=
  match s.regionOfKey k with
  | some r =>
    let off := keyVa k - r.base
    if r.cls = 2 && ((decide (8 ≤ off) && decide (off < 128)) || decide (r.t ≤ off)) then r.freeClk else Store.get {} s.clks k
  | none => Store.get {} s.clks k

/-- A location's peer has no route, or its CXL port's link is down (R459, R460). -/
def State.linkDown (s : State) (k : Nat) : Bool :=
  !isRegionKey k && ((keyLoc k == 2 && s.downLinks.contains (k / 2 ^ 54 % 64)) || (keyLoc k == 3 && s.downLinks.contains (64 + k / 2 ^ 54 % 4)))

/-- A location of a peer that no working route reaches: an access to it waits before it fails (R459). -/
def State.noPeer (s : State) (k : Nat) : Bool := s.linkDown k && keyLoc k == 2

/-- n bytes from a location. -/
def State.locBytes (s : State) (k : Nat) : Nat → List Byte
  | 0 => []
  | n + 1 => s.locByte k :: State.locBytes s (k + 1) n

/-- A little-endian number of n bytes. -/
def State.locNat (s : State) (k n : Nat) : Nat := leNat (s.locBytes k n)

/-- The clocks of n bytes from a location, merged. -/
def State.locClks (s : State) (k n : Nat) : VC := VC.maxAll ((List.range n).map fun i => s.locClk (k + i))

/-- The home of a location: a die, or 4 for the hub (R243). -/
def State.homeOf (s : State) (k : Nat) : Nat :=
  match s.regionOfKey k with
  | some r => r.home
  | none => if keyLoc k = 0 then dieOfPa k else 4

/-- The writes of each origin that a home is known to have, as a vector (R314, R315). -/
def State.appliedAt (s : State) (home : Nat) : VC :=
  let n := fun o => Store.get 0 s.watermark (home * 5 + o)
  ⟨n 0, n 1, n 2, n 3, n 4⟩

/-! ### Frame windows (R456) -/

/-- The first 64 KiB unit above the enabled windows of a tenant that hold a unit; the unit itself where none does. -/
def Tenant.windowEnd (t : Tenant) (u : Nat) : Nat :=
  (List.range 8).foldl (fun n w =>
    let b := (Store.get 0 t.winbase w).toNat
    let l := (Store.get 0 t.winlim w).toNat
    if bitAt b 0 && decide (bitsOf b 16 36 ≤ u) && decide (u ≤ bitsOf l 16 36) then Nat.max n (bitsOf l 16 36 + 1) else n) u

/-- Enabled windows of a tenant, one or several that adjoin, hold the 64 KiB units from one up to another. -/
def Tenant.covers (t : Tenant) (hi : Nat) : Nat → Nat → Bool
  | 0, u => decide (hi ≤ u)
  | n + 1, u => decide (hi ≤ u) || (decide (u < t.windowEnd u) && Tenant.covers t hi n (t.windowEnd u))

/-- The enabled windows of a tenant hold a range of physical addresses (R456). -/
def State.inWindows (s : State) (tenant pa len : Nat) : Bool := (s.tenant tenant).covers ((pa + len - 1) / 65536 + 1) 8 (pa / 65536)

/-- They hold a range of module memory. -/
def State.inWindow (s : State) (tenant pa len : Nat) : Bool := paExists pa && paExists (pa + len - 1) && s.inWindows tenant pa len

/-! ### Walks (R377 to R383) -/

/-- What a translation allows and names. -/
structure Tr where
  /-- the location of the byte -/
  key : Nat
  /-- the page's leaf or placeholder entry, and its level -/
  entry : Nat
  level : Nat
  region : Option Region
  backed : Bool
  r : Bool
  w : Bool
  x : Bool
  moving : Bool
  /-- the byte lies in the metadata tail of a compressed page (R382) -/
  metadata : Bool
  deriving DecidableEq, Repr

/-- Fault class codes (R418). -/
def clsEnc : Nat := 1
def clsMismatch : Nat := 2
def clsTarget : Nat := 3
def clsCombo : Nat := 4
def clsSwizzle : Nat := 5
def clsTranslation : Nat := 6
def clsPermission : Nat := 7
def clsMisalign : Nat := 8
def clsAlloc : Nat := 9
def clsAppendOrder : Nat := 10
def clsSealedWrite : Nat := 11
def clsBufState : Nat := 12
def clsEcc : Nat := 13
def clsSignature : Nat := 14
def clsWatchdog : Nat := 15
def clsCapacity : Nat := 16
def clsTrap : Nat := 17
def clsBrk : Nat := 18

/-- Bits of the address below a level's page. -/
def levelShift : Nat → Nat
  | 0 => 16
  | 1 => 21
  | 2 => 30
  | 3 => 39
  | _ => 48
/-- The index of an address at a level (R378). -/
def levelIndex (lv va : Nat) : Nat := va / 2 ^ levelShift lv % (if lv = 0 then 32 else 512)

/-- A leaf entry is well formed at its level (R380, R381). -/
def leafOk (e lv : Nat) : Bool :=
  let loc := bitsOf e 53 2
  decide (lv ≤ 2) && decide (bitsOf e 12 3 = 0) && decide (bitsOf e 16 36 * 65536 % 2 ^ levelShift lv = 0) &&
  decide (bitsOf e 56 3 ≠ 3) && (decide (bitsOf e 56 3 = 0) || decide (loc = 0)) &&
  (!bitAt e 55 || (decide (loc = 0) && decide (tierOfPa (bitsOf e 16 36 * 65536) = 0) && paExists (bitsOf e 16 36 * 65536))) &&
  (bitAt e 15 || (if loc = 2 then decide (bitsOf e 6 6 = 0) else if loc = 3 then decide (bitsOf e 2 10 = 0) else decide (bitsOf e 0 12 = 0)))

/-- Bytes at their home carry an uncorrectable error. -/
def State.badAt (s : State) (key size : Nat) : Bool := s.poison.any fun e => e.2 && decide (key ≤ e.1) && decide (e.1 < key + size)

/-- Walk from a table downward; an entry that carries an uncorrectable error is consumed by the access that walks (R241). The answer is the entry and its level, or a fault class. -/
def State.walkFrom (s : State) (tenant va : Nat) : Nat → Nat → Except Nat (Nat × Nat)
  | lv, table =>
    if !s.inWindow tenant table (if lv = 0 then 256 else 4096) then .error clsPermission
    else
      let e := s.locNat (table + 8 * levelIndex lv va) 8
      if s.badAt (table + 8 * levelIndex lv va) 8 then .error clsEcc else
      match e / 2 ^ 62 with
      | 0 => .error clsTranslation
      | 1 => if bitsOf e 12 50 = 0 then .ok (e, lv) else .error clsTranslation
      | 2 =>
        match lv with
        | 0 => .error clsTranslation
        | lv' + 1 =>
          if bitsOf e 52 10 ≠ 0 || e % 256 ≠ 0 || (lv ≠ 1 && bitsOf e 8 4 ≠ 0) then .error clsTranslation
          else State.walkFrom s tenant va lv' (bitsOf e 8 44 * 256)
      | _ => if leafOk e lv then .ok (e, lv) else .error clsTranslation

/-- The key of a cached leaf or placeholder of an address. -/
def tlbKey (tenant asid va : Nat) : Nat := (tenant * 16 + asid) * 2 ^ 41 + va % 2 ^ 57 / 65536

/-- The key of a cached table pointer that a walk to an address reads at a level above 0. -/
def pointerKey (tenant asid va lv : Nat) : Nat := lv * 2 ^ 60 + tlbKey tenant asid (va / 2 ^ levelShift lv * 2 ^ levelShift lv)

/-- Where a walk begins: below the lowest table pointer that is cached, else at the root (R377, R384). -/
def State.walkStart (s : State) (tlb : Store (Option Xlat)) (tenant asid va : Nat) : Option (Nat × Nat) :=
  match [1, 2, 3, 4].findSome? fun lv => (Store.get none tlb (pointerKey tenant asid va lv)).map fun x => (lv - 1, bitsOf x.entry 8 44 * 256) with
  | some x => some x
  | none =>
    let root := (Store.get 0 (s.tenant tenant).roots asid).toNat
    if bitAt root 0 then some (4, bitsOf root 12 40 * 4096) else none

/-- The entry that translates an address: a cached one, else by a walk (R377, R384). -/
def State.walk (s : State) (tlb : Store (Option Xlat)) (tenant asid va : Nat) : Except Nat (Nat × Nat) :=
  match Store.get none tlb (tlbKey tenant asid va) with
  | some x => .ok (x.entry, x.level)
  | none =>
    match s.walkStart tlb tenant asid (va % 2 ^ 57) with
    | some (lv, table) => s.walkFrom tenant (va % 2 ^ 57) lv table
    | none => .error clsTranslation

/-- Bits [63:57] of an address are copies of bit 56 (R242). -/
def canonical (va : Nat) : Bool :=
  decide (va < 2 ^ 64) && decide (va / 2 ^ 57 = if bitAt va 56 then 127 else 0)

/-- A walk's cache as an access that has observed some writes may use it: without a placeholder whose fill vector lies below (R384). -/
def usable (tlb : Store (Option Xlat)) (tenant asid va : Nat) (v : VC) : Store (Option Xlat) :=
  match Store.get none tlb (tlbKey tenant asid va) with
  | some x => if x.entry / 2 ^ 62 = 1 && !v.le x.fill then Store.set none tlb (tlbKey tenant asid va) none else tlb
  | none => tlb

/-- Translate an address: R242, then the walk with the checks of R381 that do not depend on the access. A cached leaf has passed the frame windows, which a walk alone reads (R456). -/
def State.translate (s : State) (tlb : Store (Option Xlat)) (tenant asid va : Nat) : Except Nat Tr :=
  if !canonical va then .error clsTranslation
  else
    let v := va % 2 ^ 57
    match s.walk tlb tenant asid v with
    | .error c => .error c
    | .ok (e, lv) =>
      let region := s.regionAt tenant asid v
      let leaf := decide (e / 2 ^ 62 = 3)
      let named := if leaf then bitAt e 15 else true
      let idxOk := match region with
        | some r => decide (pageLevel r.psize = lv) && (if r.cls = 0 then !named else named && decide (e % 4096 = r.id.idx))
        | none => !named
      if !idxOk then .error clsTranslation
      else
        let loc := bitsOf e 53 2
        let size := 2 ^ levelShift lv
        let pa := bitsOf e 16 36 * 65536 + v % size
        let frame := bitsOf e 16 36 * 65536
        let special := region.isSome && (region.map (·.cls)) ≠ some 0
        let key := if special then regionKey tenant asid v else physKey pa loc (if loc = 0 then 0 else e % 64)
        let onlyX := bitAt e 59 && !bitAt e 61 && !bitAt e 60
        let window := (Store.get none tlb (tlbKey tenant asid v)).isSome || if loc = 0 then s.inWindow tenant frame size || (onlyX && isProtected frame) else s.inWindows tenant frame size
        let bits := (region.map (·.leaf)).getD 0
        let cmp := bitsOf e 56 3
        .ok { key := key, entry := e, level := lv, region := if special then region else none, backed := leaf
              r := if leaf then bitAt e 61 && window else bitAt bits 0
              w := if leaf then bitAt e 60 && window && !(decide (loc = 0) && isProtected pa) else bitAt bits 1
              x := leaf && bitAt e 59 && window
              moving := leaf && bitAt e 52
              metadata := leaf && decide (cmp ≠ 0) && !bitAt e 55 && decide (size - size / 256 ≤ v % size) }

/-- The part of a run of bytes that begins at an address and reaches no further than the page that lies before the page's metadata (R382). -/
def Tr.plainRun (tr : Tr) (va m : Nat) : Nat :=
  let size := 2 ^ levelShift tr.level
  if tr.backed && decide (bitsOf tr.entry 56 3 ≠ 0) && !bitAt tr.entry 55 then Nat.min m (Nat.max 1 (size - size / 256 - va % size)) else m

/-- What an access wants to do. -/
inductive Access where
  | read
  | write
  | atomic
  | fetch
  deriving DecidableEq, Repr

/-- Checks 1 to 4 of R281 on an access of some bytes (a line access has align 1). -/
def State.check (s : State) (tlb : Store (Option Xlat)) (tenant asid va align : Nat) (a : Access) : Except Nat Tr :=
  if va % align ≠ 0 then .error clsMisalign
  else
    match s.translate tlb tenant asid va with
    | .error c => .error c
    | .ok t =>
      let allowed := match a with
        | .read => t.r && !t.metadata
        | .write => t.w && !t.metadata
        | .atomic => t.r && t.w && !t.metadata
        | .fetch => t.x && !t.metadata
      if !allowed then .error clsPermission
      else
        match t.region with
        | some r => if (a = .write || a = .atomic) && r.cls = 2 then .error (if 2 ≤ r.st then clsSealedWrite else clsAppendOrder) else .ok t
        | none => .ok t

/-- A check for a claim, seal or free: a write that an APPEND region does not refuse (R295, R296). -/
def State.checkAppend (s : State) (tlb : Store (Option Xlat)) (tenant asid va : Nat) : Except Nat Tr :=
  match s.translate tlb tenant asid va with
  | .error c => .error c
  | .ok t =>
    if !t.w || t.metadata then .error clsPermission
    else
      match t.region with
      | some r => if r.cls = 2 then .ok t else .error clsPermission
      | none => .error clsPermission

/-- The table pointers that a walk passes from a table downward, with their levels. -/
def State.pointers (s : State) (va target : Nat) : Nat → Nat → List (Nat × Nat)
  | lv, table =>
    match lv with
    | 0 => []
    | lv' + 1 =>
      if lv' + 1 ≤ target then []
      else let e := s.locNat (table + 8 * levelIndex (lv' + 1) va) 8; (e, lv' + 1) :: State.pointers s va target lv' (bitsOf e 8 44 * 256)

/-- The places of the entries that a walk reads from a table downward to a level. -/
def State.walkAddrs (s : State) (va target : Nat) : Nat → Nat → List Nat
  | lv, table =>
    let a := table + 8 * levelIndex lv va
    a :: (match lv with
      | 0 => []
      | lv' + 1 => if lv' + 1 ≤ target then [] else State.walkAddrs s va target lv' (bitsOf (s.locNat a 8) 8 44 * 256))

/-- A cache with what a walk to an address has read: the table pointers, and the leaf or placeholder with the fill vector of its home (R384). -/
def State.walked (s : State) (tlb : Store (Option Xlat)) (tenant asid va : Nat) (t : Tr) : Store (Option Xlat) :=
  let ps := match s.walkStart tlb tenant asid va with
    | some (lv, table) => s.pointers va t.level lv table
    | none => []
  let tlb := ps.foldl (fun m p => Store.set none m (pointerKey tenant asid va p.2) (some { entry := p.1, level := p.2 })) tlb
  Store.set none tlb (tlbKey tenant asid va) (some { entry := t.entry, level := t.level, fill := s.appliedAt (t.region.elim 4 Region.home) })

/-- An access that has observed some writes may be served from a cache: a placeholder only under its fill vector (R384). -/
def cacheServes (tlb : Store (Option Xlat)) (tenant asid va : Nat) (v : VC) : Bool :=
  match Store.get none tlb (tlbKey tenant asid va) with
  | some x => decide (x.entry / 2 ^ 62 ≠ 1) || v.le x.fill
  | none => false

/-! ### How a page's blocks are held (R363, R382) -/

/-- How a leaf holds the blocks of its page: uncompressed, or its CMP and META. -/
def formOf (e : Nat) : Nat := if bitsOf e 56 3 = 0 then 0 else 2 * bitsOf e 56 3 + bit (bitAt e 55)

/-- The blocks of a page, those of its tail included. -/
def dataBlocks (frame size : Nat) : List Nat := (List.range (size / 256)).map (· + frame / 256)

/-- The blocks of a page read in another form: each expands to other bytes, which are free (R382; DESIGN CHOICE, log entry 5). -/
def otherForm (old new : Nat) (m : Store Byte) (frame size : Nat) : Store Byte :=
  (dataBlocks frame size).foldl (fun n b => writeBytes n (256 * b) ((Config.otherBlock old new (readBytes m (256 * b) 256)).take 256)) m

/-- The forms of pages where a frame takes a page held in a form: no other frame in its range has one. -/
def takeForms (m : Store (Option Form)) (frame size : Nat) (f : Option Form) : Store (Option Form) :=
  Store.set none (Store.dropKeys m fun u => decide (frame / 65536 ≤ u) && decide (u < (frame + size) / 65536)) (frame / 65536) f

/-- A page of an ordinary leaf is used as the leaf holds it. -/
def State.useForm (s : State) (tenant e level : Nat) : State :=
  if e / 2 ^ 62 = 3 ∧ bitsOf e 53 2 = 0 ∧ bitAt e 15 = false then
    let u := bitsOf e 16 36
    let t := { s with forms := Store.set none s.forms u (some ⟨formOf e, tenant, level⟩) }
    match Store.get none s.forms u with
    | some f => if f.code = formOf e then s else { t with mem := otherForm f.code (formOf e) s.mem (u * 65536) (2 ^ levelShift level) }
    | none => t
  else s

/-- The first cached entry that no page has been read by. -/
def unseen (tlb : Store (Option Xlat)) : Option (Nat × Xlat) :=
  tlb.findSome? fun e => e.2.bind fun x => if x.seen then none else some (e.1, x)

/-- A cached entry by which its page has been read. -/
def sawEntry (tlb : Store (Option Xlat)) (k : Nat) (x : Xlat) : Store (Option Xlat) := Store.set none tlb k (some { x with seen := true })

/-- The tenant of a cached entry's key. -/
def keyTenant (k : Nat) : Nat := k % 2 ^ 60 / 2 ^ 45

/-- A leaf that a core or die has newly cached: the page's blocks expand as it says (R382). -/
def State.formMove (s : State) : Option State :=
  match s.cores.findSome? fun c => (unseen c.2.tlb).map fun x => (c.1, x) with
  | some (c, k, x) => some ((s.useForm (keyTenant k) x.entry x.level).updCore c fun y => { y with tlb := sawEntry y.tlb k x })
  | none =>
    match s.dies.findSome? fun d => (unseen d.2.tlb).map fun x => (d.1, x) with
    | some (d, k, x) => some ((s.useForm (keyTenant k) x.entry x.level).updDie d fun y => { y with tlb := sawEntry y.tlb k x })
    | none => none

/-- A cached entry, a leaf or placeholder or a table pointer, covers part of a range of pages of an address space: it covers all of the page of its level. -/
def inXlatRange (tenant asid va len : Nat) (e : Nat × Option Xlat) : Bool :=
  let size := 2 ^ levelShift ((e.2.map (·.level)).getD 0)
  let page := e.1 % 2 ^ 41 * 65536 / size * size
  decide (e.1 % 2 ^ 60 / 2 ^ 41 = tenant * 16 + asid) && decide (va < page + size) && decide (page < va + len)

/-- Drop every cached copy of the entries of a range, on every core and die (R384, R385). -/
def State.dropXlat (s : State) (tenant asid va len : Nat) : State :=
  let d := fun m : Store (Option Xlat) => m.filter fun e => !inXlatRange tenant asid (va % 2 ^ 57) len e
  { s with
    cores := s.cores.map fun e => (e.1, { e.2 with tlb := d e.2.tlb })
    dies := s.dies.map fun e => (e.1, { e.2 with tlb := d e.2.tlb }) }

/-- The entry location of a page of a range at a level, or nothing where the walk stops above it. -/
def State.entryAddr (s : State) (tenant va : Nat) (target : Nat) : Nat → Nat → Option Nat
  | lv, table =>
    if !s.inWindow tenant table (if lv = 0 then 256 else 4096) then none
    else if lv = target then some (table + 8 * levelIndex lv va)
    else
      let e := s.locNat (table + 8 * levelIndex lv va) 8
      match lv with
      | 0 => none
      | lv' + 1 => if e / 2 ^ 62 = 2 && bitsOf e 52 10 = 0 && e % 256 = 0 && (lv' = 0 || bitsOf e 8 4 = 0) then State.entryAddr s tenant va target lv' (bitsOf e 8 44 * 256) else none

/-- The place of the entry of a page of a region. -/
def State.pageEntry (s : State) (tenant asid va level : Nat) : Option Nat :=
  let root := (Store.get 0 (s.tenant tenant).roots asid).toNat
  if bitAt root 0 then s.entryAddr tenant va level 4 (bitsOf root 12 40 * 4096) else none

/-- Write bytes at physical locations, as the hub does for its tables and images. -/
def State.setBytes (s : State) (k : Nat) : List Byte → State
  | [] => s
  | b :: r => State.setBytes (s.setPhys k b) (k + 1) r

/-- The hub writes a page's entry and drops every cached copy (R383, R384). -/
def State.setEntry (s : State) (tenant asid va level e : Nat) : State :=
  match s.pageEntry tenant asid va level with
  | some a => (s.setBytes a (leBytes e 8)).dropXlat tenant asid va (2 ^ levelShift level)
  | none => s.dropXlat tenant asid va (2 ^ levelShift level)

/-- The leaf of a backed page of a region (R380, R387). -/
def Region.leafEntry (r : Region) (frame : Nat) : Nat :=
  3 * 2 ^ 62 + bit (bitAt r.leaf 0) * 2 ^ 61 + bit (bitAt r.leaf 1) * 2 ^ 60 + bitsOf r.leaf 3 3 * 2 ^ 56 +
    bit (bitAt r.leaf 6) * 2 ^ 55 + frame + 2 ^ 15 + r.id.idx
/-- The placeholder of an unbacked page (R379). -/
def Region.placeholder (r : Region) : Nat := 2 ^ 62 + r.id.idx

end Sys2Proof.Machine
end

