-- ==== Sys2Proof/Machine/Homes.lean ====
section
/-! DEFINITION. What the homes do: watermarks and when an access may be served (R314), the ferry pushes of a store (R299), waits and their end (R156, R158), fault records (R421, R422), and the application of a write with the rules of its region class (R260 to R266, R269, R270, R395 to R397). -/
namespace Sys2Proof.Machine

/-! ### Watermarks (R314) -/

/-- The largest n such that every write of an origin to a home with a stamp up to n is known to have arrived. -/
def State.arrived (s : State) (home origin : Nat) : Nat := Store.get 0 s.watermark (home * 5 + origin)
/-- The applied watermarks of a home, the fill vector of what it serves (R315). -/
def State.applied (s : State) (home : Nat) : VC := s.appliedAt home
/-- A home may serve a read against a vector. -/
def State.homeReady (s : State) (home : Nat) (v : VC) : Bool := v.le (s.applied home)
/-- The write counter of an origin (R311). -/
def State.originCounter (s : State) (o : Nat) : Nat := if o < 4 then (s.die o).counter else s.hubCounter
/-- The home of a write whose place in its origin's order is taken before its address is known: until then it may be any (R311, R371). -/
def anyHome : Nat := 5
/-- The writes of an origin for a home that have not been applied there. -/
def State.pendingFor (s : State) (origin home : Nat) : List Write :=
  s.writes.filter fun w => w.origin == origin && (w.home == home || w.home == anyHome)
/-- The watermark an origin reports to a home: every stamp below the least one under way has arrived. -/
def State.reportValue (s : State) (origin home : Nat) : Nat :=
  match (s.pendingFor origin home).map (·.stamp) with
  | [] => s.originCounter origin
  | x :: r => r.foldl Nat.min x - 1
/-- A write with a stamp has arrived: the watermark rises to it, but not past a write still under way. -/
def State.raise (s : State) (home origin stamp : Nat) : State :=
  if home = anyHome then s
  else { s with watermark := Store.upd 0 s.watermark (home * 5 + origin) (Nat.max (Nat.min stamp (s.reportValue origin home))) }

/-- A home may apply a write: every write it homes that precedes it has been applied. -/
def State.writeReady (s : State) (w : Write) : Bool :=
  (s.pendingFor w.origin w.home).all (fun x => decide (w.stamp ≤ x.stamp)) &&
  (List.range 5).all fun o => o == w.origin || decide (w.clk.get o ≤ s.arrived w.home o)
/-- The next stamp of an origin. -/
def State.nextStamp (s : State) (o : Nat) : Nat × State :=
  if o < 4 then ((s.die o).counter + 1, s.updDie o fun d => { d with counter := d.counter + 1 })
  else (s.hubCounter + 1, { s with hubCounter := s.hubCounter + 1 })

/-! ### Slots and pushes (R248, R299, R300) -/

/-- Where the scratchpad of the follower core of a pair begins in a team's store. -/
def halfBytes : Nat := 2 ^ 20
/-- The scratchpad offset of a mooring slot's record. -/
def slotOff (l : Launch) (half i : Nat) : Nat := half * halfBytes + l.scratch - 16 * (l.slots - i)
/-- The update count of a slot. -/
def slotCount (l : Launch) (t : Team) (half i : Nat) : Nat := leNat (readBytes t.scratch (slotOff l half i + 8) 4)
/-- The tag of a slot's record. -/
def slotTag (l : Launch) (t : Team) (half i : Nat) : Nat := leNat (readBytes t.scratch (slotOff l half i + 12) 4)
/-- Serial-number order of 32-bit counts (R300). -/
def countAbove (s u : Nat) : Bool := let d := (s + 2 ^ 32 - u % 2 ^ 32) % 2 ^ 32; decide (1 ≤ d) && decide (d < 2 ^ 31)

/-- One mooring's push for a store, if it stands on a byte of it; a command processor's tells its reader to look again (R338). No push in flight is dropped as a later one is sent, which R300 would allow (DESIGN CHOICE, log entry 64). -/
def State.pushOne (clk : VC) (origin stamp lo hi : Nat) (last : Bool) (s : State) (m : Mooring) : State :=
  if m.key < hi && lo < m.key + m.size then
    let n := (m.count + 1) % 2 ^ 32
    let s := { s with moorings := mapIf (fun x => x.mid == m.mid) (fun x => { x with count := n }) s.moorings }
    let s := match m.reader with
      | some q => s.updQueue q fun k => { k with due := true }
      | none => { s with pushes := s.pushes ++ [({ pid := s.nextId, mid := m.mid, team := m.team, core := m.core, slot := m.slot, val := s.locNat m.key m.size, count := n, clk := clk, origin := origin, stamp := stamp, last := last } : Push)], nextId := s.nextId + 1 }
    s.count (8192 + m.home) 0x86 (if m.home < 4 then 1 else 0)
  else s

/-- The pushes of a store (R299). -/
def State.sendPushes (s : State) (key len origin stamp : Nat) (clk : VC) (last : Bool) : State :=
  s.moorings.foldl (State.pushOne clk origin stamp key (key + len) last) s

/-! ### Waits (R151 to R158) -/

/-- Make a thread LOOSE at a position. -/
def Thread.loosen (now pc word : Nat) (t : Thread) : Thread := { t with st := .loose now, pc := pc, word := word }

/-- The core on which a thread of a team runs. -/
def coreOfThread (l : Launch) (t : Team) (i : Nat) : Nat := t.core + l.half i

/-- The clock a wait's end acquires, if its condition holds now and its home can serve the read. A word is read at its home alone, in a copy of a redundant team too; a later evaluation goes on waiting where the address no longer translates (DESIGN CHOICE, log entry 48). -/
def State.waitHolds (s : State) (l : Launch) (t : Team) (h : Thread) (k : WaitKind) : Option VC :=
  let core := coreOfThread l t h.idx
  let word := fun (va n : Nat) (ge : Bool) =>
    match s.translate (s.core core).tlb l.tenant l.asid va with
    | .error _ => none
    | .ok tr =>
      let v := s.locNat tr.key 8
      if s.homeReady (s.homeOf tr.key) h.obs && !s.badAt tr.key 8 && (if ge then decide (n ≤ v) else v != n) then some (s.locClks tr.key 8) else none
  match k with
  | .slot i n => if slotCount l t (l.half h.idx) i != n then some (Store.get {} t.slotClk (l.half h.idx * 256 + i)) else none
  | .wordGe va n => word va n true
  | .wordNe va n => word va n false
  | .queue q n => if n ≤ (s.queue q).timeline then some (s.queue q).tlClk else none
  | .coreChan c n => if n ≤ (s.chan (.core core c)).timeline then some (s.chan (.core core c)).tlClk else none
  | .dieChan c n => if n ≤ (s.chan (.die (dieOfCore core) c)).timeline then some (s.chan (.die (dieOfCore core) c)).tlClk else none
  | _ => none

/-- Drop the clean contents of a core's L1 data cache, the acquire of pair scope and wider (R313). -/
def State.acquireCore (s : State) (core : Nat) : State := s.updCore core fun c => { c with l1 := [] }

/-- An earlier operation that a thread's fence waits for: its other memory words, and the loads of a pgsel (R237, R313). -/
def Op.holdsFence (o : Op) (id : TeamId) (i before : Nat) : Bool :=
  o.team == id && decide (o.id < before) && (match o.kind with
    | .fence _ _ => false
    | .matrix (.pgsel _ _ _ _ _ _ _) => true
    | _ => o.cls == 2) && (o.accs.any (fun a => a.thread == i) || o.all.contains i)

/-- Every earlier load, atomic and wait of a thread has completed (R313). -/
def State.acquired (s : State) (id : TeamId) (i before : Nat) : Bool :=
  !(s.ops.any fun o => o.holdsFence id i before && (match o.kind with
    | .store => false
    | .stna => false
    | .unsl => false
    | .seal _ => false
    | .free _ => false
    | .flush _ _ _ => false
    | _ => true))

/-- Evaluate one thread's wait and end it if its condition holds, with a system-scope acquire, which the thread's earlier loads must have completed for (R156, R158, R313, R320). -/
def State.wakeThread (s : State) (id : TeamId) (i : Nat) : State :=
  let t := s.team id
  let l := s.launch id.launch
  let h := t.thread i
  match h.st with
  | .waiting k next =>
    match if s.acquired id i s.nextId then s.waitHolds l t h k else none with
    | some c =>
      let now := s.now (l.quadOf t.core i)
      (s.updThread id i fun h => { (h.loosen now next 0) with obs := h.obs.max c }).acquireCore (coreOfThread l t i)
    | none => s
  | _ => s

/-- Evaluate every resident thread's wait of a kind. -/
def State.wakeWhere (s : State) (p : WaitKind → Bool) : State :=
  s.teams.foldl (fun s t =>
    if t.saved.isSome then s
    else t.threads.foldl (fun s h => match h.st with
      | .waiting k _ => if p k then s.wakeThread t.id h.idx else s
      | _ => s) s) s

def WaitKind.isWord : WaitKind → Bool
  | .wordGe _ _ => true
  | .wordNe _ _ => true
  | _ => false
def WaitKind.isSlot : WaitKind → Bool
  | .slot _ _ => true
  | _ => false
def WaitKind.isTimeline : WaitKind → Bool
  | .queue _ _ => true
  | .coreChan _ _ => true
  | .dieChan _ _ => true
  | _ => false

/-! ### Bytes at their home -/

/-- Write one byte at a location whose page is backed. -/
def State.setLoc (s : State) (k : Nat) (b : Byte) : State :=
  match s.regionOfKey k with
  | some r =>
    let off := keyVa k - r.base
    let i := r.pageOf (keyVa k)
    match r.page i with
    | some p =>
      let o := off % pageBytes r.psize
      s.updRegion r.id fun x => { x with pages := Store.set none x.pages i (some { p with data := Store.set 0 p.data o (b ^^^ r.dfltByte o) }) }
    | none => s
  | none => s.setPhys k b

/-- Write bytes from a location upward. -/
def State.setLocs (s : State) (k : Nat) : List Byte → State
  | [] => s
  | b :: r => State.setLocs (s.setLoc k b) (k + 1) r

/-- One line of a die's L2 is looked up: a miss brings the line in, and the oldest leaves a full L2 (R240, R244; which leaves is a DESIGN CHOICE, log entry 47). -/
def State.lookupLine (die : Nat) (s : State) (line : Nat) : State :=
  if (s.die die).l2.contains line then s.count (8192 + die) 0x80 1
  else (s.updDie die fun d => { d with l2 := (if Config.l2Lines ≤ d.l2.length then d.l2.drop 1 else d.l2) ++ [line] }).count (8192 + die) 0x81 1

/-- An access to n bytes at a die that is their home passes through its L2 (R240, R244). -/
def State.lookup (s : State) (key n : Nat) : State :=
  if s.homeOf key < 4 then ((List.range ((key + n - 1) / 128 - key / 128 + 1)).map (· + key / 128)).foldl (State.lookupLine (s.homeOf key)) s else s

/-- Single-bit errors of bytes that a home reads are corrected and counted (R241). -/
def State.correct (s : State) (key n : Nat) : State :=
  let hit := s.flips.filter fun e => e.2 && decide (key ≤ e.1) && decide (e.1 < key + n)
  if hit.isEmpty then s
  else
    let s := { s with flips := Store.dropKeys s.flips fun e => decide (key ≤ e) && decide (e < key + n) }
    if s.homeOf key < 4 then s.count (8192 + s.homeOf key) 0x87 hit.length else s

/-- An uncorrectable error of a location is detected by an agent of no core: the location's home counts it (R410). -/
def State.sawBad (s : State) (key : Nat) : State := if s.homeOf key < 4 then s.count (8192 + s.homeOf key) 0x88 1 else s

/-- A home reads bytes: they pass through its L2, and their single-bit errors are corrected. -/
def State.homeRead (s : State) (key n : Nat) : State := (s.correct key n).lookup key n

/-- A walk reads its entries at their homes (R240, R385). -/
def State.walkReads (s : State) (tlb : Store (Option Xlat)) (tenant asid va level : Nat) : State :=
  match s.walkStart tlb tenant asid va with
  | some (lv, table) => (s.walkAddrs va level lv table).foldl (fun s a => s.homeRead a 8) s
  | none => s

/-- An access of a thread walks where its core's cache does not serve it, and the cache keeps what the walk read; no invalid entry is kept (R384). -/
def State.cacheXlat (s : State) (core tenant asid va : Nat) (v : VC) (t : Tr) : State :=
  let tlb := (s.core core).tlb
  if cacheServes tlb tenant asid va v then s
  else ((s.walkReads (usable tlb tenant asid va v) tenant asid va t.level).updCore core fun c => { c with tlb := s.walked (usable tlb tenant asid va v) tenant asid va t }).count (4096 + core) 0x4D 1

/-- The channels of a die keep what a walk of theirs read, and the page's blocks expand from then on as the leaf says (R382, R384). -/
def State.cacheDie (s : State) (die tenant asid va : Nat) (v : VC) (t : Tr) : State :=
  let tlb := (s.die die).tlb
  if cacheServes tlb tenant asid va v then s
  else
    let c := s.walked (usable tlb tenant asid va v) tenant asid va t
    ((s.walkReads (usable tlb tenant asid va v) tenant asid va t.level).useForm tenant t.entry t.level).updDie die fun d => { d with tlb := match Store.get none c (tlbKey tenant asid va) with
      | some x => sawEntry c (tlbKey tenant asid va) x
      | none => c }

/-- Mark bytes with the clock of a write; a write also ends their errors (R241). -/
def State.stampBytes (s : State) (k n : Nat) (c : VC) : State :=
  { s with
    clks := (List.range n).foldl (fun m i => Store.set {} m (k + i) c) s.clks
    poison := Store.dropKeys s.poison fun e => decide (k ≤ e) && decide (e < k + n)
    flips := Store.dropKeys s.flips fun e => decide (k ≤ e) && decide (e < k + n) }

/-- The place in the home order: the write's clock on its bytes, its stamp arrived, its pushes, and the waits it may end. -/
def State.landWrite (s : State) (key len home origin stamp : Nat) (clk : VC) : State :=
  let s := s.stampBytes key len clk
  let s := s.raise home origin stamp
  ((s.sendPushes key len origin stamp clk false).lookup key len).wakeWhere WaitKind.isWord

/-- A store of the hub to a page that is no region's: origin X, applied as it arrives (R311, R326). -/
def State.hubWrite (s : State) (key : Nat) (bytes : List Byte) (after : VC) : State :=
  let (st, s) := s.nextStamp 4
  (s.setLocs key bytes).landWrite key bytes.length (s.homeOf key) 4 st (after.set 4 st)

/-- The MIGRATE under way of the page that holds a location. -/
def State.moverOf (s : State) (key : Nat) : Option Pkt :=
  s.queues.findSome? fun q => findBy (fun p =>
    p.frame != 0 && p.result.isNone &&
    (match s.translate [] (bitsOf q.2.qctl.toNat 24 4) (bitsOf (fieldAt p.bytes 2 1) 4 4) (fieldAt p.bytes 0x10 8) with
      | .ok t => t.moving && decide (t.key ≤ key) && decide (key < t.key + 2 ^ levelShift t.level)
      | .error _ => false)) q.2.pkts

/-- A page under migration holds writes back (R400). -/
def State.movingKey (s : State) (key : Nat) : Bool :=
  (s.moverOf key).isSome

/-- A write waits for the migration of its page: not one that was translated through the old leaf (R399, R400). -/
def State.heldByMove (s : State) (w : Write) : Bool := match s.moverOf w.key with
  | some p => decide (p.mark ≤ w.id)
  | none => false

/-! ### Fault records (R421, R422) -/

/-- The fields of a record. -/
structure RecInfo where
  kind : Nat
  cls : Nat := 0
  detail : Nat := 0
  flags : Nat := 0
  launch : Nat := 0
  team : Nat := 0xFFFFFFFF
  thread : Nat := 0xFFFFFFFF
  num : Nat := 0
  addr : Nat := 0
  pkt : Nat := 0
  pc : Nat := 0
  word : Nat := 0
  red : Nat := 0
  deriving DecidableEq, Repr

/-- The 64 bytes of a record (R421). -/
def RecInfo.bytes (i : RecInfo) (seq : Nat) (lost : Bool) : List Byte :=
  leBytes i.kind 1 ++ leBytes i.cls 1 ++ leBytes i.detail 1 ++ leBytes (i.flags + bit lost * 4) 1 ++ leBytes seq 4 ++
  leBytes i.launch 4 ++ leBytes i.team 4 ++ leBytes i.thread 4 ++ leBytes i.num 4 ++ leBytes i.addr 8 ++ leBytes i.pkt 8 ++
  leBytes i.pc 8 ++ leBytes i.word 1 ++ leBytes i.red 1 ++ List.replicate 14 0

/-- The location of a virtual address that the hub reads or writes for a tenant. -/
def State.hubKey (s : State) (tenant asid va align : Nat) (a : Access) : Except Nat Nat :=
  match s.check [] tenant asid va align a with
  | .error c => .error c
  | .ok t => .ok t.key

/-- A hub's store to a page that is no region's. -/
def State.plainHub (s : State) (key : Nat) (bytes : List Byte) : Option State := if isRegionKey key then none else some (s.hubWrite key bytes {})

/-- Write the oldest held record to the ring, if the ring is enabled, has room and its pages take the stores (R421). -/
def State.writeRec (put : State → Nat → List Byte → Option State) (tenant : Nat) (s : State) : State :=
  let t := s.tenant tenant
  let ctl := t.fcctl.toNat
  match t.recs with
  | [] => s
  | r :: rest =>
    if !bitAt ctl 31 then s
    else
      let asid := bitsOf ctl 20 4
      let size := 2 ^ bitsOf ctl 0 5
      match s.hubKey tenant asid t.fcidx.toNat 8 .write, s.hubKey tenant asid (t.fcidx.toNat + 8) 8 .read with
      | .ok wk, .ok rk =>
        let w := s.locNat wk 8
        if size ≤ w - s.locNat rk 8 then s
        else
          match s.hubKey tenant asid (t.fcbase.toNat + 64 * (w % size)) 8 .write with
          | .ok k =>
            if s.movingKey k || s.movingKey wk then s
            else
              match (put s k r.bytes).bind fun s => put s wk (leBytes (w + 1) 8) with
              | some s => s.updTenant tenant fun t => { t with recs := rest }
              | none => s
          | .error _ => s
      | _, _ => s

/-- Write held records in sequence order, as far as they can be. -/
def State.flushRecs (put : State → Nat → List Byte → Option State) (tenant : Nat) : Nat → State → State
  | 0, s => s
  | n + 1, s => State.flushRecs put tenant n (s.writeRec put tenant)

/-- Kinds that are dropped when 64 records are held (R421). -/
def droppable (kind : Nat) : Bool := [3, 4, 5, 10, 11].contains kind

/-- Make a record: it takes the tenant's next sequence number, is held at the hub and written when it can be, to a region's page in a move of its own (FAULT_RECORD_RETRY); a notice beyond the 64 held is dropped. The answer is its number, 0 for a dropped one. -/
def State.makeRec (s : State) (tenant : Nat) (i : RecInfo) : Nat × State :=
  let t := s.tenant tenant
  if droppable i.kind && decide (64 ≤ t.recs.length) then (0, s.updTenant tenant fun t => { t with recLost := true })
  else
    let seq := if t.recSeq = 2 ^ 32 - 1 then 1 else t.recSeq + 1
    let s := s.updTenant tenant fun t =>
      { t with recSeq := seq, recs := t.recs ++ [({ seq := seq, bytes := i.bytes seq t.recLost } : Rec)], recLost := false }
    (seq, s.flushRecs State.plainHub tenant (t.recs.length + 1))

/-! ### Pools and backing (R262 to R267) -/

/-- Send the watermark notice when a pool's free count falls to its low watermark (R263). -/
def State.poolNotice (s : State) (tenant p : Nat) : State :=
  let q := s.pool tenant p
  let mark := bitsOf q.cfg.toNat 32 32
  if q.frames.length ≤ mark && !q.noticed then
    let s := s.updPool tenant p fun q => { q with noticed := true }
    (s.makeRec tenant { kind := 3, num := p }).2
  else s

/-- Take a frame from a pool. -/
def State.takeFrame (s : State) (tenant p : Nat) : Option (Nat × State) :=
  match (s.pool tenant p).frames with
  | [] => none
  | f :: r => some (f, (s.updPool tenant p fun q => { q with frames := r }).poolNotice tenant p)

/-- Return a frame to a pool. -/
def State.giveFrame (s : State) (tenant p f : Nat) : State :=
  s.updPool tenant p fun q => { q with frames := q.frames ++ [f], noticed := q.noticed && decide (q.frames.length + 1 ≤ bitsOf q.cfg.toNat 32 32) }

/-- Back a page of a region with a frame that holds the default. -/
def State.backPage (s : State) (r : Region) (i frame : Nat) : State :=
  let s := s.updRegion r.id fun x => { x with pages := Store.set none x.pages i (some { frame := frame }) }
  s.setEntry r.id.tenant r.id.asid (r.base + i * pageBytes r.psize) (pageLevel r.psize) (r.leafEntry frame)

/-- Take a page's backing away; the frame is the caller's. -/
def State.unbackPage (s : State) (r : Region) (i : Nat) : State :=
  let s := s.updRegion r.id fun x => { x with pages := Store.set none x.pages i none }
  s.setEntry r.id.tenant r.id.asid (r.base + i * pageBytes r.psize) (pageLevel r.psize) r.placeholder

/-- Mark a launch's snapshot set incomplete, with one notice (R397). -/
def State.snapIncomplete (s : State) (l : Launch) : State :=
  if l.incomplete then s
  else ((s.updLaunch l.id fun l => { l with incomplete := true }).makeRec l.tenant { kind := 4, launch := l.id }).2

/-- A launch's snapshot set takes another entry (R397). -/
def State.snapRoom (s : State) (l : Launch) : Bool := bitAt (s.tenant l.tenant).snapcfg.toNat 4 && decide (l.snaps.length < 65536)

/-- Record a change of a replayable launch (R395, R397). -/
def State.addSnap (s : State) (launch : Option Nat) (e : Snap) : State :=
  match launch.bind s.findLaunch with
  | some l =>
    if !l.replayable then s
    else if !s.snapRoom l then s.snapIncomplete l
    else s.updLaunch l.id fun l => { l with snaps := l.snaps ++ [e] }
  | none => s

/-- Note a region's state before a launch first claims, seals or frees in it (R395, R277). -/
def State.noteAppend (s : State) (id : RegionId) (launch : Option Nat) : State :=
  match launch.bind s.findLaunch, s.findRegion id with
  | some l, some g =>
    if l.replayable && !l.incomplete && !(l.snaps.any fun e => match e with
      | .append r _ _ _ _ _ _ => r == id
      | _ => false) then s.addSnap launch (.append id g.c g.t g.st g.marked g.claims []) else s
  | _, _ => s

/-- The launch has recorded the page already. -/
def hasPage (snaps : List Snap) (page : Nat) : Bool := snaps.any fun e =>
  match e with
  | .copy p _ _ _ _ _ _ => p == page
  | _ => false

/-- Whether the launch has an entry of the region page. -/
def hasRegionPage (snaps : List Snap) (r : RegionId) (i : Nat) : Bool := snaps.any fun e =>
  match e with
  | .allocated x p => x == r && p == i
  | .released x p _ => x == r && p == i
  | .copy _ _ _ _ (some (x, p)) _ _ => x == r && p == i
  | _ => false

/-! ### Writes at their home -/

/-- The elements of a region that a write touches: first and count. -/
def elemSpan (r : Region) (off len : Nat) : Nat × Nat :=
  let e := r.elemBytes
  (off / e, (off + len - 1) / e - off / e + 1)

/-- The element at an index of a region as bytes, from a reading of its bytes. -/
def elemDiffers (r : Region) (rd : Nat → Byte) (e : Nat) : Bool :=
  (List.range r.elemBytes).any fun i => rd (e * r.elemBytes + i) != r.dfltByte i

/-- A byte of a region after a write. -/
def overlay (rd : Nat → Byte) (off : Nat) (bs : List Byte) (x : Nat) : Byte :=
  if off ≤ x then (match bs[x - off]? with | some b => b | none => rd x) else rd x

/-- How many of a write's elements differ from the default. -/
def diffCount (r : Region) (rd : Nat → Byte) (off len : Nat) : Nat :=
  let (a, n) := elemSpan r off len
  ((List.range n).filter fun i => elemDiffers r rd (a + i)).length

/-- The frame for a page: one reserved by the launch (R309), else one of the pool. -/
def State.frameFor (s : State) (launch : Option Nat) (r : Region) (i : Nat) : Option (Nat × State) :=
  match launch.bind s.findLaunch with
  | some l =>
    match findBy (fun e : RegionId × Nat × Nat => e.1 == r.id && e.2.1 == i) l.reserved with
    | some e => some (e.2.2, s.updLaunch l.id fun l => { l with reserved := l.reserved.filter fun x => x != e })
    | none => s.takeFrame r.id.tenant r.pool
  | none => s.takeFrame r.id.tenant r.pool

/-- The bytes of a DEFAULT page would change under a store (R261). -/
def State.wouldAllocate (s : State) (key : Nat) (bs : List Byte) : Option (Region × Nat) :=
  match s.regionOfKey key with
  | some r =>
    let i := r.pageOf (keyVa key)
    if r.cls = 1 && (r.page i).isNone && diffCount r (overlay (fun x => r.byteAt (r.base + x)) (keyVa key - r.base) bs) (keyVa key - r.base) bs.length ≠ 0 then some (r, i) else none
  | none => none

/-- Reserve for a launch the frame that a store still to come needs: the state and a fault class, or 0 (R309, R424). -/
def State.reserve (s : State) (launch key : Nat) (bs : List Byte) : State × Nat :=
  match s.wouldAllocate key bs with
  | none => (s, 0)
  | some (r, i) =>
    if (s.launch launch).reserved.any fun e => e.1 == r.id && e.2.1 == i then (s, 0)
    else
      match s.takeFrame r.id.tenant r.pool with
      | none => (s.count (8192 + r.home) 0x8B 1, clsAlloc)
      | some (f, s) => (s.updLaunch launch fun l => { l with reserved := l.reserved ++ [(r.id, i, f)] }, 0)

/-- A frame reserved for a page that stands backed already goes back to its pool. -/
def State.unreserve (s : State) (launch : Option Nat) (r : Region) (i : Nat) : State :=
  match launch.bind s.findLaunch with
  | some l =>
    match findBy (fun e : RegionId × Nat × Nat => e.1 == r.id && e.2.1 == i) l.reserved with
    | some e => (s.updLaunch l.id fun l => { l with reserved := l.reserved.filter fun x => x != e }).giveFrame r.id.tenant r.pool e.2.2
    | none => s
  | none => s

/-- A frame that a launch with the replayable bit has released or freed stays in its set until it completes, with no entry of its own (R265, R276, R395). -/
def State.keepFrame (s : State) (l : Launch) (pool frame : Nat) : State := s.updLaunch l.id fun l => { l with keptFrames := l.keptFrames ++ [(pool, frame)] }

/-- The frame of a page that a write has released: a launch with the replayable bit keeps it in its set until it completes, as the page's entry where the set takes one and has none; else it returns to its pool (R265, R395, R397, R492). -/
def State.releaseFrame (s : State) (r : Region) (i frame : Nat) (launch : Option Nat) : State :=
  let s := s.count (8192 + r.home) 0x85 1
  match launch.bind s.findLaunch with
  | some l =>
    if !l.replayable then s.giveFrame r.id.tenant r.pool frame
    else if hasRegionPage l.snaps r.id i then s.keepFrame l r.pool frame
    else if !l.incomplete && s.snapRoom l then s.addSnap launch (.released r.id i frame)
    else (s.snapIncomplete l).keepFrame l r.pool frame
  | none => s.giveFrame r.id.tenant r.pool frame

/-- A write to a DEFAULT page, performed at home: the state and 0, or ALLOC (R260 to R263, R265). -/
def State.applyDefault (s : State) (r : Region) (va : Nat) (bs : List Byte) (launch : Option Nat) : State × Nat :=
  let off := va - r.base
  let i := r.pageOf va
  let rd := fun x => r.byteAt (r.base + x)
  let new := diffCount r (overlay rd off bs) off bs.length
  let key := regionKey r.id.tenant r.id.asid va
  match r.page i with
  | some p =>
    let n := p.count + new - diffCount r rd off bs.length
    let s := (s.unreserve launch r i).setLocs key bs
    if n = 0 then ((s.unbackPage r i).releaseFrame r i p.frame launch, 0)
    else (s.updRegion r.id fun x => { x with pages := Store.upd none x.pages i (Option.map fun p => { p with count := n }) }, 0)
  | none =>
    if new = 0 then (s, 0)
    else
      match s.frameFor launch r i with
      | none => (s.count (8192 + r.home) 0x8B 1, clsAlloc)
      | some (f, s) =>
        let snapped := (launch.bind s.findLaunch).any fun l => hasRegionPage l.snaps r.id i
        let s := if snapped then s else s.addSnap launch (.allocated r.id i)
        let s := (s.backPage r i f).setLocs key bs
        ((s.updRegion r.id fun x => { x with pages := Store.upd none x.pages i (Option.map fun p => { p with count := new }) }).count (8192 + r.home) 0x84 1, 0)

/-- Bytes of an APPEND region land in a claimed range (R269, R270). -/
def State.applyAppend (s : State) (r : Region) (va : Nat) (bs : List Byte) (clk : VC) : State :=
  let off := va - r.base
  let s := s.setLocs (regionKey r.id.tenant r.id.asid va) bs
  s.updRegion r.id fun x =>
    { x with
      dataClk := x.dataClk.max clk
      claims := x.claims.map fun c => if c.lo ≤ off && off < c.hi then { c with left := c.left - bs.length } else c }

/-- The bytes of a location's page change under a write: the state and a fault class, or 0. -/
def State.changeBytes (s : State) (key : Nat) (bs : List Byte) (clk : VC) (launch : Option Nat) : State × Nat :=
  match s.regionOfKey key with
  | some r => if r.cls = 1 then s.applyDefault r (keyVa key) bs launch else (s.applyAppend r (keyVa key) bs clk, 0)
  | none => (s.setLocs key bs, 0)

/-- The runs of bytes a write names. -/
def runsOf (segs : List (Nat × Nat)) (n : Nat) : List (Nat × Nat) := if segs.isEmpty then [(0, n)] else segs

/-- The bytes of a write with what stands at its home where it names none. -/
def State.filled (s : State) (key : Nat) (bs : List Byte) (segs : List (Nat × Nat)) : List Byte :=
  if segs.isEmpty then bs
  else (List.range bs.length).map fun i => if segs.any fun g => g.1 ≤ i && i < g.1 + g.2 then bs.getD i 0 else s.locByte (key + i)

/-- A write of an origin applied at its home with its clock; a refused write takes no place in the order but its stamp has arrived. -/
def State.applyAt (s : State) (key : Nat) (bs : List Byte) (segs : List (Nat × Nat)) (origin stamp : Nat) (clk : VC) (launch : Option Nat) : State × Nat :=
  let home := s.homeOf key
  match s.changeBytes key (s.filled key bs segs) clk launch with
  | (s, 0) => ((runsOf segs bs.length).foldl (fun s g => s.landWrite (key + g.1) g.2 home origin stamp clk) s, 0)
  | (s, c) => (s.raise home origin stamp, c)

/-- A store of the hub to any page: a region's page takes it as it takes every write (R260, R326). -/
def State.hubStore (s : State) (key : Nat) (bytes : List Byte) (after : VC) : State :=
  if isRegionKey key then
    let (st, s) := s.nextStamp 4
    (s.applyAt key bytes [] 4 st (after.set 4 st) none).1
  else s.hubWrite key bytes after

/-- A store of the hub that its page may refuse. -/
def State.tryHub (s : State) (key : Nat) (bytes : List Byte) : Option State :=
  if isRegionKey key then
    let (st, s) := s.nextStamp 4
    match s.applyAt key bytes [] 4 st (VC.set {} 4 st) none with
    | (s, 0) => some s
    | _ => none
  else some (s.hubWrite key bytes {})

/-- The base location of the page a write lies in. -/
def Write.page (w : Write) : Nat :=
  if isRegionKey w.key then regionKeyBase + (w.key - regionKeyBase) / w.psize * w.psize else w.key / w.psize * w.psize

/-- A write must wait for a COPY entry of its launch (R396): the page is backed and has no entry, and one can be made. -/
def State.needsCopy (s : State) (w : Write) : Bool :=
  match w.launch.bind s.findLaunch with
  | some l =>
    l.replayable && !l.incomplete && (keyLoc w.key == 0 || isRegionKey w.key) &&
    (match s.regionOfKey w.key with
      | some r => r.cls == 1 && (r.page (r.pageOf (keyVa w.key))).isSome && !hasRegionPage l.snaps r.id (r.pageOf (keyVa w.key))
      | none => true) && !hasPage l.snaps w.page
  | none => false

/-- Apply a write of the list at its home: the state and a fault class, or 0. -/
def State.applyWrite (s : State) (w : Write) : State × Nat :=
  let s := { s with writes := s.writes.filter fun x => x.id != w.id }
  s.applyAt w.key w.bytes w.segs w.origin w.stamp w.clk w.launch

end Sys2Proof.Machine
end

