-- ==== Sys2Proof/Machine/Numbers.lean ====
section
/-! DEFINITION. Number formats and rounding (spec/03_numbers.md): exact values, Round, RoundOdd, Sat, Widen, NaNs, conversions, w4 blocks, and the special functions computed to their correctly rounded values (R179, R180). Encodings are natural numbers. -/
namespace Sys2Proof.Machine

/-! ### Integers -/

/-- A number's low n bits as two's complement (R92). -/
def toSigned (n v : Nat) : Int :=
  let x := v % 2 ^ n
  if x < 2 ^ (n - 1) then (x : Int) else (x : Int) - (2 ^ n : Nat)

/-- An integer modulo 2^n (R93). -/
def wrapTo (n : Nat) (x : Int) : Nat := (x % (2 ^ n : Nat)).toNat

/-- Sat to the signed type of n bits, as its encoding (R93). -/
def satI (n : Nat) (x : Int) : Nat :=
  let hi : Int := (2 ^ (n - 1) : Nat) - 1
  let lo : Int := -((2 ^ (n - 1) : Nat) : Int)
  wrapTo n (if x < lo then lo else if hi < x then hi else x)

/-- Sat to the unsigned type of n bits (R93). -/
def satN (n : Nat) (x : Int) : Nat :=
  if x < 0 then 0 else if ((2 ^ n : Nat) : Int) ≤ x then 2 ^ n - 1 else x.toNat

/-! ### Formats (R94 to R96) -/

/-- A float format: fraction bits, bias, encoding of the largest finite value, and whether it has infinities (e4m3 has none). -/
structure FFmt where
  width : Nat
  frac : Nat
  bias : Nat
  maxFin : Nat
  hasInf : Bool
  deriving DecidableEq, Repr

def FFmt.f32 : FFmt := ⟨32, 23, 127, 0x7F7FFFFF, true⟩
def FFmt.f16 : FFmt := ⟨16, 10, 15, 0x7BFF, true⟩
def FFmt.bf16 : FFmt := ⟨16, 7, 127, 0x7F7F, true⟩
def FFmt.e4m3 : FFmt := ⟨8, 3, 7, 0x7E, false⟩
def FFmt.e5m2 : FFmt := ⟨8, 2, 15, 0x7B, true⟩
/-- f64 appears only as the source of copies (R348). -/
def FFmt.f64 : FFmt := ⟨64, 52, 1023, 0x7FEFFFFFFFFFFFFF, true⟩

/-- The sign bit of an encoding. -/
def FFmt.sign (f : FFmt) (x : Nat) : Bool := bitAt x (f.width - 1)
/-- An encoding without its sign. -/
def FFmt.mag (f : FFmt) (x : Nat) : Nat := x % 2 ^ (f.width - 1)
/-- A magnitude with a sign. -/
def FFmt.withSign (f : FFmt) (neg : Bool) (m : Nat) : Nat := bit neg * 2 ^ (f.width - 1) + m
/-- The encoding of +infinity, for e4m3 its NaN (R103). -/
def FFmt.inf (f : FFmt) : Nat := if f.hasInf then f.maxFin + 1 else 0x7F
/-- The generated NaN (R95, R107). -/
def FFmt.genNan (f : FFmt) : Nat := if f.hasInf then f.maxFin + 1 + 2 ^ (f.frac - 1) else 0x7F
/-- NaN encodings (R95, R96). -/
def FFmt.isNan (f : FFmt) (x : Nat) : Bool := if f.hasInf then f.maxFin + 1 < f.mag x else f.mag x == 0x7F
/-- Infinity encodings (R95). -/
def FFmt.isInf (f : FFmt) (x : Nat) : Bool := f.hasInf && f.mag x == f.maxFin + 1
/-- A NaN with the quiet bit set (R95); e4m3 has no signalling NaN. -/
def FFmt.isQuiet (f : FFmt) (x : Nat) : Bool := !f.hasInf || bitAt x (f.frac - 1)

/-- An exact value: sign, magnitude m times 2^e. -/
structure Dy where
  neg : Bool
  m : Nat
  e : Int
  deriving DecidableEq, Repr

/-- What an encoding stands for. -/
inductive FVal where
  | nan
  | inf (neg : Bool)
  | fin (v : Dy)
  deriving DecidableEq, Repr

/-- Decode an encoding (R94). -/
def FFmt.val (f : FFmt) (x : Nat) : FVal :=
  let s := f.sign x
  let g := f.mag x
  if f.isNan x then .nan
  else if f.isInf x then .inf s
  else
    let ex := g / 2 ^ f.frac
    let fr := g % 2 ^ f.frac
    let emin : Int := 1 - (f.bias : Int) - f.frac
    if ex = 0 then .fin ⟨s, fr, emin⟩
    else .fin ⟨s, fr + 2 ^ f.frac, emin + ex - 1⟩

/-! ### Rounding (R102 to R105) -/

/-- Whether a truncated magnitude is raised by one unit: rem of 2^s below it, sticky for a further nonzero part. -/
def roundsUp (mode : Round) (neg odd : Bool) (rem s : Nat) (sticky : Bool) : Bool :=
  let inexact := rem != 0 || sticky
  match mode with
  | .rne =>
    let half := 2 ^ (s - 1)
    if s = 0 then false
    else if half < rem || (rem == half && sticky) then true
    else rem == half && odd
  | .rtz => false
  | .rdn => inexact && neg
  | .rup => inexact && !neg

/-- The result of an overflow (R103), or saturated to the largest finite value (R111). -/
def FFmt.overflow (f : FFmt) (mode : Round) (neg sat : Bool) : Nat :=
  let toInf := match mode with
    | .rne => true
    | .rtz => false
    | .rdn => neg
    | .rup => !neg
  f.withSign neg (if toInf && !sat then f.inf else f.maxFin)

/-- Round (R102): the magnitude m times 2^e, a little more when sticky (then m holds more bits than the format), delivered in f. -/
def FFmt.roundMag (f : FFmt) (mode : Round) (sat neg : Bool) (m : Nat) (e : Int) (sticky : Bool) : Nat :=
  if m = 0 then f.withSign neg 0
  else
    let emin : Int := 1 - (f.bias : Int) - f.frac
    let q0 : Int := e + Nat.log2 m - f.frac
    let q := if q0 < emin then emin else q0
    let g :=
      if q ≤ e then m * 2 ^ (e - q).toNat
      else
        let s := (q - e).toNat
        let t := m / 2 ^ s
        t + bit (roundsUp mode neg (t % 2 == 1) (m % 2 ^ s) s sticky)
    let enc := (q - emin).toNat * 2 ^ f.frac + g
    if f.maxFin < enc then f.overflow mode neg sat else f.withSign neg enc

/-- Round of an exact value whose zero has sign zneg. -/
def FFmt.round (f : FFmt) (mode : Round) (x : Dy) : Nat := f.roundMag mode false x.neg x.m x.e false

/-- RoundOdd to f32 (R114). -/
def roundOddMag (neg : Bool) (m : Nat) (e : Int) : Nat :=
  let t := FFmt.f32.roundMag .rtz false neg m e false
  match FFmt.f32.val t with
  | .fin v =>
    let exact := if v.e ≤ e then v.m == m * 2 ^ (e - v.e).toNat else v.m * 2 ^ (v.e - e).toNat == m
    if exact || FFmt.f32.mag t == 0x7F7FFFFF then t else t / 2 * 2 + 1
  | _ => t

/-- The signed integer a value holds at exponent e, which is at most its own. -/
def Dy.at (x : Dy) (e : Int) : Int :=
  let n : Int := (x.m * 2 ^ (x.e - e).toNat : Nat)
  if x.neg then -n else n

/-- The least exponent of a list of exact values. -/
def minExp : List Dy → Int
  | [] => 0
  | [x] => x.e
  | x :: r => let m := minExp r; if x.e < m then x.e else m

/-- The sum of exact values, rounded once; the sign of an exact zero follows R105. -/
def FFmt.roundSum (f : FFmt) (mode : Round) (ts : List Dy) : Nat :=
  let e := minExp ts
  let total : Int := ts.foldl (fun acc t => acc + t.at e) 0
  if total = 0 then
    let allNeg := ts.all fun t => t.neg && t.m == 0
    let allPos := ts.all fun t => !t.neg && t.m == 0
    f.withSign (if allNeg then true else if allPos then false else mode == .rdn) 0
  else f.roundMag mode false (total < 0) total.natAbs e false

/-! ### NaNs (R107 to R109) -/

/-- A NaN of one format in another: sign kept, payload kept at the top, quieted (R108, R109). -/
def nanConv (src dst : FFmt) (x : Nat) : Nat :=
  let s := src.sign x
  if !dst.hasInf then dst.withSign s 0x7F
  else if !src.hasInf then dst.withSign s dst.genNan
  else
    let pay := x % 2 ^ (src.frac - 1)
    let pay' := if src.frac ≤ dst.frac then pay * 2 ^ (dst.frac - src.frac) else pay / 2 ^ (src.frac - dst.frac)
    dst.withSign s (dst.genNan + pay')

/-- The propagated NaN of the first NaN operand in the order given, if any (R108). -/
def firstNan (dst : FFmt) : List (FFmt × Nat) → Option Nat
  | [] => none
  | (f, x) :: r => if f.isNan x then some (nanConv f dst x) else firstNan dst r

/-- A term of an exact sum: a value, an infinity or an invalid product. -/
inductive Term where
  | invalid
  | inf (neg : Bool)
  | fin (v : Dy)
  deriving DecidableEq, Repr

/-- One operand as a term; a NaN is dealt with before. -/
def termOf (f : FFmt) (x : Nat) (flip : Bool) : Term :=
  match f.val x with
  | .nan => .invalid
  | .inf s => .inf (s != flip)
  | .fin v => .fin { v with neg := v.neg != flip }

/-- The exact product of two operands as a term (R107: 0 times infinity is invalid). -/
def termMul (fa : FFmt) (a : Nat) (fb : FFmt) (b : Nat) (flip : Bool) : Term :=
  match fa.val a, fb.val b with
  | .fin x, .fin y => .fin ⟨(x.neg != y.neg) != flip, x.m * y.m, x.e + y.e⟩
  | .inf s, .fin y => if y.m = 0 then .invalid else .inf ((s != y.neg) != flip)
  | .fin x, .inf s => if x.m = 0 then .invalid else .inf ((x.neg != s) != flip)
  | .inf s, .inf t => .inf ((s != t) != flip)
  | _, _ => .invalid

/-- The finite values of a list of terms. -/
def finTerms : List Term → List Dy
  | [] => []
  | .fin v :: r => v :: finTerms r
  | _ :: r => finTerms r

/-- The sum of terms: NaN operands first (R168), invalid cases, infinities, else one rounding. -/
def FFmt.sumTerms (f : FFmt) (mode : Round) (nans : List (FFmt × Nat)) (ts : List Term) : Nat :=
  match firstNan f nans with
  | some n => n
  | none =>
    if ts.any (· == .invalid) || (ts.any (· == .inf true) && ts.any (· == .inf false)) then f.genNan
    else if ts.any (· == .inf true) then f.withSign true f.inf
    else if ts.any (· == .inf false) then f.inf
    else f.roundSum mode (finTerms ts)

/-- a + b (R169). -/
def FFmt.add (f : FFmt) (mode : Round) (a b : Nat) : Nat :=
  f.sumTerms mode [(f, a), (f, b)] [termOf f a false, termOf f b false]
/-- a - b, a NaN b kept (R169). -/
def FFmt.sub (f : FFmt) (mode : Round) (a b : Nat) : Nat :=
  f.sumTerms mode [(f, a), (f, b)] [termOf f a false, termOf f b true]
/-- a times b (R169). -/
def FFmt.mul (f : FFmt) (mode : Round) (a b : Nat) : Nat :=
  match firstNan f [(f, a), (f, b)], termMul f a f b false with
  | some n, _ => n
  | none, .invalid => f.genNan
  | none, .inf s => f.withSign s f.inf
  | none, .fin v => f.round mode v
/-- A product and an addend, each perhaps negated, rounded once (R170). -/
def FFmt.fma (f : FFmt) (mode : Round) (np nc : Bool) (a b c : Nat) : Nat :=
  f.sumTerms mode [(f, a), (f, b), (f, c)] [termMul f a f b np, termOf f c nc]

/-- A key that orders the non-NaN values of a format, -0 below +0 (R171). -/
def FFmt.key (f : FFmt) (x : Nat) : Int :=
  if f.sign x then -((f.mag x : Nat) : Int) - 1 else (f.mag x : Int)

/-- A NaN quieted. -/
def FFmt.quiet (f : FFmt) (x : Nat) : Nat := if f.isNan x then nanConv f f x else x

/-- fmin and fmax (R171). -/
def FFmt.minMax (f : FFmt) (isMax : Bool) (mode : NumMode) (a b : Nat) : Nat :=
  let na := f.isNan a
  let nb := f.isNan b
  if na || nb then
    if mode == .nan || (na && nb) then (if na then f.quiet a else f.quiet b)
    else if na then b else a
  else if isMax then (if f.key a < f.key b then b else a) else (if f.key b < f.key a then b else a)

/-- Float compares (R174). -/
def FFmt.cmp (f : FFmt) (c : FCond) (a b : Nat) : Bool :=
  if f.isNan a || f.isNan b then c == .ne
  else
    let ka := if f.mag a = 0 then 0 else f.key a
    let kb := if f.mag b = 0 then 0 else f.key b
    match c with
    | .eq => ka == kb
    | .lt => ka < kb
    | .le => ka ≤ kb
    | .ne => ka != kb

/-! ### Integral values (R112, R176) -/

/-- A value rounded to an integer in a mode (R112). -/
def Dy.toInt (x : Dy) (mode : Round) : Int :=
  let n : Nat :=
    if 0 ≤ x.e then x.m * 2 ^ x.e.toNat
    else
      let s := (-x.e).toNat
      let t := x.m / 2 ^ s
      t + bit (roundsUp mode x.neg (t % 2 == 1) (x.m % 2 ^ s) s false)
  if x.neg then -(n : Int) else n

/-! ### Conversions (R110 to R114, R186) -/

end Sys2Proof.Machine
namespace Sys2Proof

/-- The float formats among the type codes. -/
def TypeCode.fmt : TypeCode → Option Machine.FFmt
  | .f32 => some .f32
  | .f16 => some .f16
  | .bf16 => some .bf16
  | .e4m3 => some .e4m3
  | .e5m2 => some .e5m2
  | _ => none

/-- Width and signedness of the integer type codes. -/
def TypeCode.int : TypeCode → Option (Nat × Bool)
  | .i8 => some (8, true)
  | .i16 => some (16, true)
  | .i32 => some (32, true)
  | .i64 => some (64, true)
  | .n8 => some (8, false)
  | .n16 => some (16, false)
  | .n32 => some (32, false)
  | .n64 => some (64, false)
  | _ => none

end Sys2Proof
namespace Sys2Proof.Machine

/-- An integer encoding's value. -/
def intVal (n : Nat) (signed : Bool) (x : Nat) : Int := if signed then toSigned n x else ((x % 2 ^ n : Nat) : Int)

/-- An exact integer as a value. -/
def Dy.ofInt (x : Int) : Dy := ⟨x < 0, x.natAbs, 0⟩

/-- Float to float (R110, R111); sat applies to overflow and infinities, but where the destination is wider, which is exact. Between formats of equal width, which R186's table calls exact and which are not, the value is rounded, and sat acts (DESIGN CHOICE, log entry 61). -/
def fToF (src dst : FFmt) (mode : Round) (sat : Bool) (x : Nat) : Nat :=
  let sat := sat && decide (dst.width ≤ src.width)
  match src.val x with
  | .nan => nanConv src dst x
  | .inf s => dst.withSign s (if sat then dst.maxFin else dst.inf)
  | .fin v => dst.roundMag mode sat v.neg v.m v.e false

/-- Float to integer, always saturating (R112). -/
def fToI (src : FFmt) (n : Nat) (signed : Bool) (mode : Round) (x : Nat) : Nat :=
  match src.val x with
  | .nan => 0
  | .inf s => if signed then (if s then 2 ^ (n - 1) else 2 ^ (n - 1) - 1) else (if s then 0 else 2 ^ n - 1)
  | .fin v => if signed then satI n (v.toInt mode) else satN n (v.toInt mode)

/-- cvt of one element, by its encodings (R186). -/
def cvtElem (src dst : TypeCode) (mode : Round) (sat : Bool) (x : Nat) : Nat :=
  if src = dst then x
  else
    match src.fmt, dst.fmt, src.int, dst.int with
    | some fs, some fd, _, _ => fToF fs fd mode sat x
    | some fs, none, _, some (n, sg) => fToI fs n sg mode x
    | none, some fd, some (n, sg), _ =>
      let d := Dy.ofInt (intVal n sg x)
      fd.roundMag mode sat d.neg d.m d.e false
    | none, none, some (n, sg), some (m, sd) =>
      let v := intVal n sg x
      if sat then (if sd then satI m v else satN m v) else wrapTo m v
    | _, _, _, _ => 0

/-- expins (R177). -/
def scaleF32 (mode : Round) (a : Nat) (n : Int) : Nat :=
  match FFmt.f32.val a with
  | .nan => FFmt.f32.quiet a
  | .inf _ => a
  | .fin v => if v.m = 0 then a else
    -- beyond these scales the result is that of the bound itself: far below the smallest subnormal, or an overflow
    let n' := if n < -600 then -600 else if 600 < n then 600 else n
    FFmt.f32.roundMag mode false v.neg v.m (v.e + n') false

/-- frint (R176). -/
def frintF32 (mode : Round) (a : Nat) : Nat :=
  match FFmt.f32.val a with
  | .nan => FFmt.f32.quiet a
  | .inf _ => a
  | .fin v =>
    if 0 ≤ v.e then a
    else
      let i := v.toInt mode
      FFmt.f32.roundMag .rne false v.neg i.natAbs 0 false

/-- expext.exp (R178). -/
def expextExp (a : Nat) : Nat :=
  match FFmt.f32.val a with
  | .nan => 0x80000000
  | .inf _ => 0x7FFFFFFF
  | .fin v => if v.m = 0 then 0x80000000 else wrapTo 32 (v.e + Nat.log2 v.m)

/-- expext.sig (R178). -/
def expextSig (a : Nat) : Nat :=
  match FFmt.f32.val a with
  | .nan => FFmt.f32.quiet a
  | .inf _ => a
  | .fin v => if v.m = 0 then a else FFmt.f32.roundMag .rne false v.neg v.m (-(Nat.log2 v.m : Int)) false

/-- fsat (R173): clamp to [lo, 1.0]. -/
def fsatF32 (sym : Bool) (a : Nat) : Nat :=
  if FFmt.f32.isNan a then 0
  else if FFmt.f32.key 0x3F800000 < FFmt.f32.key a then 0x3F800000
  else if sym then (if FFmt.f32.key a < FFmt.f32.key 0xBF800000 then 0xBF800000 else a)
  else if FFmt.f32.key a < FFmt.f32.key 0x80000000 then 0 else a

/-- The class of an f32 encoding (R175). -/
def fclassOf (a : Nat) : Nat :=
  let f := FFmt.f32
  let s := f.sign a
  let g := f.mag a
  if f.isNan a then (if f.isQuiet a then 1 else 0)
  else if f.isInf a then (if s then 2 else 7)
  else if g = 0 then 5
  else if g < 0x00800000 then 4
  else if s then 3 else 6

/-! ### w4 blocks (R98 to R101) -/

/-- Eight times the magnitude of index c under types 1 to 3 (R99). -/
def w4Mag8 (ty c : Nat) : Nat :=
  match ty with
  | 1 => [0, 4, 8, 12, 16, 24, 32, 48].getD c 0
  | 2 => [0, 1, 2, 4, 8, 16, 32, 64].getD c 0
  | _ => [0, 8, 16, 24, 32, 48, 64, 128].getD c 0

/-- The value of a code under its type, times 8 (R99). -/
def w4Val8 (ty code : Nat) : Dy :=
  if ty = 0 then let v := toSigned 4 code; ⟨v < 0, v.natAbs * 8, 0⟩
  else ⟨8 ≤ code, w4Mag8 ty (code % 8), 0⟩

/-- DecodeW4 as an f32 encoding (R100): a code under a scale byte. -/
def decodeW4 (scale code : Nat) : Nat :=
  let ty := scale / 64
  let ex := scale % 64
  if ex = 63 then FFmt.f32.genNan
  else
    let v := w4Val8 ty code
    FFmt.f32.roundMag .rne false v.neg v.m ((ex : Int) - 32 - 3) false

/-- Comparison of the exact magnitudes m times 2^e and n (an integer). -/
def magLe (m : Nat) (e : Int) (n : Nat) : Bool :=
  if 0 ≤ e then m * 2 ^ e.toNat ≤ n else m ≤ n * 2 ^ (-e).toNat

/-- The least scale E in 0..62 that covers a magnitude, 62 if none (R101). -/
def w4Scale (lim8 m : Nat) (e : Int) (k fuel : Nat) : Nat :=
  match fuel with
  | 0 => 62
  | f + 1 => if magLe m (e + 3 + 32 - k) lim8 then k else w4Scale lim8 m e (k + 1) f

/-- The signed value of a code times 8, and the codes of a type in rising order of value. -/
def w4Codes (ty : Nat) : List (Int × Nat) :=
  if ty = 0 then (List.range 16).map fun (i : Nat) => (((i : Int) - 8) * 8, (i + 8) % 16)
  else ((List.range 7).map fun (i : Nat) => (-(w4Mag8 ty (7 - i) : Int), 15 - i)) ++ (List.range 8).map fun (i : Nat) => ((w4Mag8 ty i : Int), i)

/-- Twice the distance comparison: the code nearest y = n / 2^s in a mode, saturated (R101, R102); n is 8y scaled by 2^s. -/
def w4Pick (mode : Round) (neg : Bool) (n : Int) (s : Nat) : List (Int × Nat) → Option (Int × Nat) → Nat
  | [], none => 0
  | [], some (_, c) => c
  | (v, c) :: r, prev =>
    let vs := v * (2 ^ s : Nat)
    if vs = n then c
    else if vs < n then w4Pick mode neg n s r (some (v, c))
    else
      match prev with
      | none => c
      | some (pv, pc) =>
        let dn := n - pv * (2 ^ s : Nat)
        let up := vs - n
        match mode with
        | .rne => if dn < up then pc else if up < dn then c else if pc % 2 = 0 then pc else c
        | .rtz => if neg then c else pc
        | .rdn => pc
        | .rup => c

/-- One code of QuantW4 (R101). -/
def w4Code (mode : Round) (ty ex : Nat) (x : Dy) : Nat :=
  if x.m = 0 then 0
  else
    let e8 : Int := x.e + 3 + 32 - ex
    let mag : Int := if 0 ≤ e8 then (x.m * 2 ^ e8.toNat : Nat) else x.m
    let c := w4Pick mode x.neg (if x.neg then -mag else mag) (-e8).toNat (w4Codes ty) none
    -- a negative value that rounds to magnitude 0 keeps its sign where the type has -0
    if ty ≠ 0 && x.neg && c = 0 then 8 else c

/-- The larger of two magnitudes. -/
def dyMax (x y : Dy) : Dy :=
  let e := if x.e < y.e then x.e else y.e
  if x.m * 2 ^ (x.e - e).toNat < y.m * 2 ^ (y.e - e).toNat then y else x

/-- QuantW4 over f32 encodings: the 32 codes and the scale byte (R101). -/
def quantW4 (xs : List Nat) (ty : Nat) (mode : Round) : List Nat × Nat :=
  let ds := xs.map fun x => match FFmt.f32.val x with | .fin v => some v | _ => none
  if ds.any (·.isNone) then (xs.map fun _ => 0, ty * 64 + 63)
  else
    let vs := ds.filterMap id
    let m := vs.foldl dyMax ⟨false, 0, 0⟩
    let lim := match ty with | 0 => 56 | 1 => 48 | 2 => 64 | _ => 128
    let ex := if m.m = 0 then 0 else w4Scale lim m.m m.e 0 63
    (vs.map (w4Code mode ty ex), ty * 64 + ex)

/-- The 17 bytes of a block from its codes and scale byte (R98). -/
def w4Bytes : List Nat → List Byte
  | c :: d :: r => BitVec.ofNat 8 (c + 16 * d) :: w4Bytes r
  | _ => []

/-! ### Special functions, exact values computed in fixed point (R179, R180) -/

/-- A product in fixed point with p fraction bits. -/
def fxMul (p : Nat) (a b : Int) : Int := a * b / (2 ^ p : Nat)

/-- The integer square root by bits, from bit i down. -/
def isqrtFrom (n : Nat) : Nat → Nat → Nat
  | 0, r => r
  | i + 1, r =>
    let t := r + 2 ^ i
    isqrtFrom n i (if t * t ≤ n then t else r)

/-- The integer square root of n. -/
def isqrt (n : Nat) : Nat := isqrtFrom n (Nat.log2 n / 2 + 1) 0

/-- Sum of the Taylor series t + t x/(n+1) + ... in fixed point: the exponential. -/
def fxExp (p : Nat) (x : Int) : Nat → Nat → Int → Int
  | 0, _, _ => 0
  | f + 1, n, t => t + fxExp p x f (n + 1) (fxMul p t x / (n + 1 : Nat))

/-- z + z^3/3 + z^5/5 + ... in fixed point (z2 its square, with its sign for the arctangent). -/
def fxAtan (p : Nat) (z2 : Int) : Nat → Nat → Int → Int
  | 0, _, _ => 0
  | f + 1, n, t => t / (n : Int) + fxAtan p z2 f (n + 2) (fxMul p t z2)

/-- x - x^3/3! + ... in fixed point (x2 the square). -/
def fxSin (p : Nat) (x2 : Int) : Nat → Nat → Int → Int
  | 0, _, _ => 0
  | f + 1, n, t => t + fxSin p x2 f (n + 2) (-(fxMul p t x2) / ((n + 1) * (n + 2) : Nat))

/-- ln 2 = 2 atanh(1/3) with p fraction bits. -/
def fxLn2 (p : Nat) : Int := let o : Int := (2 ^ p : Nat); 2 * fxAtan p (o / 9) (p / 3 + 2) 1 (o / 3)

/-- pi by Machin's formula with p fraction bits. -/
def fxPi (p : Nat) : Int :=
  let o : Int := (2 ^ p : Nat)
  16 * fxAtan p (-(o / 25)) (p / 4 + 2) 1 (o / 5) - 4 * fxAtan p (-(o / 57121)) (p / 15 + 2) 1 (o / 239)

/-- A value in fixed point with p fraction bits, truncated. -/
def Dy.fx (x : Dy) (p : Nat) : Int :=
  let n : Int := if 0 ≤ x.e + p then (x.m * 2 ^ (x.e + p).toNat : Nat) else (x.m / 2 ^ (-(x.e + p)).toNat : Nat)
  if x.neg then -n else n

/-- An irrational result in fixed point, rounded to f32. -/
def fxRound (p : Nat) (x : Int) : Nat := FFmt.f32.roundMag .rne false (x < 0) x.natAbs (-(p : Int)) true

/-- fexp (R179). -/
def sfuExp (a : Nat) : Nat :=
  let f := FFmt.f32
  match f.val a with
  | .nan => f.quiet a
  | .inf s => if s then 0x3F000000 else 0x40000000
  | .fin v =>
    if v.m = 0 then 0x3F800000
    else if magLe v.m v.e 1 then
      if magLe 1 (-v.e) v.m && v.m == 2 ^ (-v.e).toNat then (if v.neg then 0x3F000000 else 0x40000000)
      else
        let p := 320
        fxRound p (fxExp p (fxMul p (v.fx p) (fxLn2 p)) 90 0 (2 ^ p : Nat))
    else if v.neg then 0x3F000000 else 0x40000000

/-- flog (R179). -/
def sfuLog (a : Nat) : Nat :=
  let f := FFmt.f32
  match f.val a with
  | .nan => f.quiet a
  | .inf s => if s then f.genNan else a
  | .fin v =>
    if v.m = 0 then f.withSign true f.inf
    else if v.neg then f.genNan
    else
      let l := Nat.log2 v.m
      let k : Int := v.e + l
      if v.m = 2 ^ l then f.roundMag .rne false (k < 0) k.natAbs 0 false
      else
        let p := 320
        let o : Int := (2 ^ p : Nat)
        -- scale to [3/4, 3/2) so that nothing cancels near 1
        let hi := 3 * 2 ^ l ≤ 2 * v.m
        let k' := if hi then k + 1 else k
        let x : Int := (v.m * 2 ^ (p - l - bit hi) : Nat)
        let z := (x - o) * o / (x + o)
        let ln := 2 * fxAtan p (fxMul p z z) 90 1 z
        fxRound p (k' * o + ln * o / fxLn2 p)

/-- frcp (R179). -/
def sfuRcp (a : Nat) : Nat :=
  let f := FFmt.f32
  match f.val a with
  | .nan => f.quiet a
  | .inf s => f.withSign s 0
  | .fin v =>
    if v.m = 0 then f.withSign v.neg f.inf
    else let k := 2 ^ 96; f.roundMag .rne false v.neg (k / v.m) (-96 - v.e) (k % v.m != 0)

/-- frsq (R179). -/
def sfuRsq (a : Nat) : Nat :=
  let f := FFmt.f32
  match f.val a with
  | .nan => f.quiet a
  | .inf s => if s then f.genNan else 0
  | .fin v =>
    if v.m = 0 then f.withSign v.neg f.inf
    else if v.neg then f.genNan
    else
      let odd := v.e % 2 = 1
      let m := if odd then v.m * 2 else v.m
      let h : Int := (if odd then v.e - 1 else v.e) / 2
      let n := 2 ^ 192
      let r := isqrt (n / m)
      f.roundMag .rne false false r (-96 - h) (r * r * m != n)

/-- fsqrt, correctly rounded in mode m (R179, R180). -/
def sfuSqrt (mode : Round) (a : Nat) : Nat :=
  let f := FFmt.f32
  match f.val a with
  | .nan => f.quiet a
  | .inf s => if s then f.genNan else a
  | .fin v =>
    if v.m = 0 then a
    else if v.neg then f.genNan
    else
      let odd := v.e % 2 = 1
      let m := (if odd then v.m * 2 else v.m) * 2 ^ 96
      let h : Int := (if odd then v.e - 1 else v.e) / 2
      let r := isqrt m
      f.roundMag mode false false r (h - 48) (r * r != m)

/-- |sin(pi d)| for an exact d of [0, 1/2], irrational cases only, rounded with a sign. -/
def sinPi (neg : Bool) (d : Dy) : Nat :=
  let p := 480
  let x := fxMul p (d.fx p) (fxPi p)
  let y := fxSin p (fxMul p x x) 70 1 x
  FFmt.f32.roundMag .rne false neg y.natAbs (-(p : Int)) true

/-- b = a - 2 frint.rne(a / 2), exact (R179). -/
def halfTurns (v : Dy) : Dy :=
  if 1 ≤ v.e then ⟨false, 0, 0⟩
  else
    let h := ({ v with e := v.e - 1 } : Dy).toInt .rne
    let n := v.at v.e - 2 * h * (2 ^ (-v.e).toNat : Nat)
    ⟨n < 0, n.natAbs, v.e⟩

/-- 1/2 - |b| or |b| - 1/2 as an exact value with its sign. -/
def halfMinus (b : Dy) : Dy :=
  -- exponents here are at most -1 after the shift
  let e := if b.e < -1 then b.e else -1
  let n : Int := (2 ^ (-1 - e).toNat : Nat) - ((b.m * 2 ^ (b.e - e).toNat : Nat) : Int)
  ⟨n < 0, n.natAbs, e⟩

/-- fsin (R179). -/
def sfuSin (a : Nat) : Nat :=
  let f := FFmt.f32
  match f.val a with
  | .nan => f.quiet a
  | .inf _ => f.genNan
  | .fin v =>
    if v.m = 0 then a
    else
      let b := halfTurns v
      -- |b| is in [0, 1]; the distance of |b| from 1/2 gives the acute angle
      let d := halfMinus b
      if b.m = 0 then 0
      else if d.m = 0 then f.withSign b.neg 0x3F800000
      else if d.m = 2 ^ (-1 - d.e).toNat then 0
      else sinPi b.neg (if d.neg then halfMinus ⟨false, d.m, d.e⟩ else { b with neg := false })

/-- fcos (R179). -/
def sfuCos (a : Nat) : Nat :=
  let f := FFmt.f32
  match f.val a with
  | .nan => f.quiet a
  | .inf _ => f.genNan
  | .fin v =>
    let b := halfTurns v
    let d := halfMinus b
    if d.m = 0 then 0
    else if d.m = 2 ^ (-1 - d.e).toNat then f.withSign d.neg 0x3F800000
    else sinPi d.neg { d with neg := false }

/-! ### Signatures (R448) -/

/-- One bit of CRC64 with the ECMA-182 polynomial, most significant bit first. -/
def crcBit (s : Nat) (b : Bool) : Nat :=
  let top := bitAt s 63 != b
  let t := s * 2 % 2 ^ 64
  if top then Nat.xor t 0x42F0E1EBA9EA3693 else t

/-- CRC64 over bytes. -/
def crc64 (s : Nat) (bytes : List Byte) : Nat :=
  bytes.foldl (fun acc b => (List.range 8).foldl (fun a i => crcBit a (bitAt b.toNat (7 - i))) acc) s

end Sys2Proof.Machine
end

