-- ==== Sys2Proof/Machine/Ops.lean ====
section
/-! DEFINITION. The operations that the meanings of words share: the issuing group and its members (R15, R59, R64, R124), results in flight (R65), the end of a word and of a clause (R56 to R58), completion flags (R57), a thread's reads and writes of memory (R311, R315, R245), parking and splitting (R37 to R41), the delivery of a fault (R419), taking a trap and returning from one (R424, R427). -/
namespace Sys2Proof.Machine

/-! ### The issuing group -/

/-- What a word sees of its group when it issues. -/
structure Ctx where
  gid : Nat
  g : Grp
  t : Team
  l : Launch
  now : Nat
  /-- the die's clock in the cycle of issue, before the cycle's change (R403) -/
  clock : Nat
  quad : Nat
  core : Nat
  die : Nat
  /-- members in ascending home lane, with registers as this word reads them -/
  members : List Thread
  deriving DecidableEq, Repr

/-- The context of a group. -/
def State.ctx (s : State) (gid : Nat) : Ctx :=
  let g := s.grp gid
  let t := s.team g.team
  { gid := gid, g := g, t := t, l := s.launch g.team.launch, now := s.now g.quad, clock := (s.die (dieOfQuad g.quad)).clock, quad := g.quad
    core := coreOfQuad g.quad, die := dieOfQuad g.quad
    members := g.members.map fun i => (t.thread i).view s.freeCtr g.clause }

/-- The active members: those whose guard is true, or all under Gd = 0 (R59, R124). -/
def Ctx.active (c : Ctx) (k : Ctl) : List Thread := c.members.filter fun h => h.guard || !k.gd
/-- The members that act: the leading member alone under U = 1 (R64). -/
def Ctx.actors (c : Ctx) (k : Ctl) : List Thread :=
  if k.u then (match c.members with
    | [] => []
    | h :: _ => if h.guard || !k.gd then [h] else [])
  else c.active k
/-- The members that receive the result of an actor (R64). -/
def Ctx.receivers (c : Ctx) (k : Ctl) (h : Thread) : List Nat := if k.u then c.g.members else [h.idx]
/-- The leading active member, from which a word that acts once per issue reads (R512). -/
def Ctx.lead (c : Ctx) (k : Ctl) : Option Thread := (c.active k).head?
/-- Home lane of a member. -/
def Ctx.lane (c : Ctx) (h : Thread) : Nat := c.l.laneOf h.idx
/-- Cycles the group takes to issue (R16). -/
def Ctx.cycles (c : Ctx) : Nat :=
  if c.l.w = 64 && (c.members.any fun h => decide (c.lane h < 32)) && (c.members.any fun h => decide (32 ≤ c.lane h)) then 2 else 1

/-! ### Flags (R57, R401) -/

/-- The set flag of a header, 15 for none. -/
def setFlag (header : Nat) : Nat := bitsOf header 19 4
def headerN (header : Nat) : Nat := bitsOf header 0 4
/-- The flag of the clause in progress, if it names one. -/
def Grp.flag (g : Grp) : Option Nat := if setFlag g.header < 12 then some (setFlag g.header) else none
def setBit12 (b : BitVec 12) (i : Nat) : BitVec 12 := b ||| (1#12 <<< i)
def clearBit12 (b : BitVec 12) (i : Nat) : BitVec 12 := b &&& ~~~(1#12 <<< i)
/-- An operation of a group under a flag is outstanding. -/
def State.flagBusy (s : State) (gid f : Nat) : Bool := s.ops.any fun o => o.gids.contains gid && o.flag == some f
/-- Clear a flag of a group where none of its operations is outstanding and its clause is not in progress (R57). -/
def State.settleFlag (s : State) (gid f : Nat) : State :=
  if s.flagBusy gid f then s
  else s.updGrp gid fun g => if g.clause ≠ 0 && g.flag = some f && g.park.isNone then g else { g with flags := clearBit12 g.flags f }

/-- Add an outstanding operation. -/
def State.addOp (s : State) (o : Op) : State := { s with ops := s.ops ++ [{ o with id := s.nextId }], nextId := s.nextId + 1 }
/-- The operation a word makes: named by its team, counted in its group's flag. -/
def Ctx.op (c : Ctx) (cls : Nat) (k : OpKind) : Op :=
  { id := 0, team := c.g.team, core := c.core, gids := [c.gid], flag := c.g.flag, cls := cls, kind := k }

/-! ### The end of a word and of a clause -/

/-- End a clause with an instruction of some words, each of which takes its issue cycles from the first of the word (R16): its flag settles, the quadrant is free, and the gap of R58 begins; position and membership are the caller's. -/
def State.closeClause (s : State) (c : Ctx) (len : Nat := 1) : State :=
  let due := c.now + len * c.cycles + bitsOf c.g.header 23 2
  let s := s.updGrp c.gid fun g => { g with clause := 0, word := 0, words := [], readyAt := due, fresh := false, resumed := false, doneLanes := [], held := 0 }
  let s := s.updThreads c.g.team c.g.members fun h => { h with due := due }
  let s := match c.g.flag with
    | some f => s.settleFlag c.gid f
    | none => s
  s.updQuad c.quad fun q => { q with mid := none }

/-- The clause after the one in progress. -/
def Ctx.next (c : Ctx) : Nat := c.g.pc + 4 * (headerN c.g.header + 1)

/-- Pass a word of some length: the next word of the clause, or the next clause (R56). -/
def State.endWord (s : State) (c : Ctx) (len : Nat) : State :=
  if c.g.word + len < headerN c.g.header then
    s.updGrp c.gid fun g => { g with word := c.g.word + len, fresh := false, resumed := false, doneLanes := [], held := 0 }
  else (s.closeClause c len).updGrp c.gid fun g => { g with pc := c.next }

/-- After a hold within a clause, results that have not landed read old or new (R65): the issue of the clause takes a new name. -/
def State.renameClause (s : State) (gid : Nat) : State :=
  { s.updGrp gid fun g => if g.clause = 0 then g else { g with clause := s.nextId } with nextId := s.nextId + 1 }

/-- A word is held for a reason: the group gives up the quadrant at it (R55). -/
def State.holdWord (s : State) (c : Ctx) (why : Nat) : State :=
  (s.updQuad c.quad fun q => { q with mid := none }).updGrp c.gid fun g => { g with held := why }

/-! ### Results -/

/-- A fixed-latency result of the word for some members: it lands its latency after the word's first issue cycle, the cycle in which a word reads its sources and its guard, also where a W = 64 word takes two (R65; DESIGN CHOICE, log entry 17). -/
def State.pendTo (s : State) (c : Ctx) (is : List Nat) (ws : List Wr) : State :=
  s.updThreads c.g.team is fun h => { h with pend := h.pend ++ ws.map fun w => ⟨c.now + Config.latency, c.g.clause, w⟩ }

/-- Write destinations at the end of the cycle under way for some threads: what was to land by then has landed before, so that a register ends with the write that lands last (R65). -/
def State.putTo (s : State) (id : TeamId) (is : List Nat) (ws : List Wr) : State :=
  let now := (s.die (dieOfCore (s.team id).core)).clock + 1
  s.updThreads id is fun h => (h.landed now).puts ws

/-! ### Regrouping (R18 to R22) -/

/-- The cycle from which threads of a team may all issue: the gaps of the clauses they last issued (R58, R84). -/
def State.dueOf (s : State) (id : TeamId) (is : List Nat) : Nat := is.foldl (fun n i => Nat.max n (s.thread id i).due) 0

/-- Members leave a group LOOSE at a position each, in the middle of a clause with its guard and words, and in a handler with its count (R63, R161, R404); a group with no member left is gone. -/
def State.dissolve (s : State) (gid : Nat) (dest : List (Nat × Nat × Nat)) : State :=
  let g := s.grp gid
  let now := s.now g.quad
  let s := dest.foldl (fun s e => s.updThread g.team e.1 fun h => { h.loosen now e.2.1 e.2.2 with
    due := g.readyAt, words := if e.2.2 = 0 then [] else g.words, keepGuard := h.keepGuard || (g.clause != 0 && e.2.2 != 0), handlerCount := if h.inHandler then g.handler else 0 }) s
  let left := g.members.filter fun i => !dest.any fun e => e.1 == i
  let s := if g.demoted && left.isEmpty then s.updQuad g.quad fun q => { q with demote := q.demote ++ [(g.team, g.members)] } else s
  if left.isEmpty then s.dropGrp gid else s.updGrp gid fun g => { g with members := left }

/-- A group at a regroup point passes it once its flags are clear (R19). -/
def State.passRegroup (s : State) (gid : Nat) : State :=
  match s.findGrp gid with
  | some g =>
    if g.regroup && g.flags == 0 && g.park.isNone then
      s.dissolve gid (g.members.map fun i => let h := s.thread g.team i; (i, h.pc, h.word))
    else s
  | none => s

/-- An operation completes: results written, clocks merged, flags settled (R57, R278, R311). -/
def State.finishOp (s : State) (o : Op) : State :=
  let s := o.results.foldl (fun s r => s.putTo o.team [r.1] [r.2]) s
  let s := { s with ops := s.ops.filter fun x => x.id != o.id }
  match o.flag with
  | some f => o.gids.foldl (fun s g => (s.settleFlag g f).passRegroup g) s
  | none => s

/-! ### A thread's memory (R245, R311, R315) -/

/-- The bytes that a copy of a redundant team holds back, as a read issued before a name sees them (R279, R309). -/
def heldByte (va upto : Nat) : List Held → Option Byte
  | [] => none
  | h :: r =>
    match heldByte va upto r with
    | some b => some b
    | none => if h.va ≤ va && decide (h.id < upto) && h.submit.isNone then h.bytes[va - h.va]? else none

/-- A write names a byte (R286). -/
def Write.names (w : Write) (k : Nat) : Bool :=
  decide (w.key ≤ k) && decide (k < w.key + Nat.max w.bytes.length w.size) &&
  (w.segs.isEmpty || w.segs.any fun g => decide (w.key + g.1 ≤ k) && decide (k < w.key + g.1 + g.2))
/-- A write precedes another (R312). -/
def Write.before (a b : Write) : Bool := a.id != b.id && decide (a.stamp ≤ b.clk.get a.origin)
/-- A vector has seen a write. -/
def Write.seen (w : Write) (v : VC) : Bool := decide (w.stamp ≤ v.get w.origin)

/-- The latest of a core's dirty writes of a byte that issued before a name. -/
def dirtyWrite (core k upto : Nat) (ws : List Write) : Option Write :=
  (ws.filter fun w => w.l1 == some core && !w.bytes.isEmpty && w.names k && decide (w.id < upto)).getLast?

/-- The core's own dirty byte, as a read against a vector may return it: no write of the byte that the reader has seen is to follow it at home (R315, R316). -/
def dirtyByte (core k : Nat) (v : VC) (upto : Nat) (ws : List Write) : Option (Byte × VC) :=
  match dirtyWrite core k upto ws with
  | none => none
  | some x => if ws.any fun y => y.id != x.id && y.names k && y.seen v && !y.before x then none else (x.bytes[k - x.key]?).map fun b => (b, x.clk)

/-- A clean byte of the core's L1 that a read against a vector may hit (R315). -/
def State.cleanByte (s : State) (core k : Nat) (v : VC) : Option (Byte × VC) :=
  match Store.get none (s.core core).l1 (k / 128) with
  | some ln => if v.le ln.fill then
      match ln.bytes[k % 128]?, ln.clks[k % 128]? with
      | some b, some c => some (b, c)
      | _, _ => none
    else none
  | none => none

/-- A byte that a core can return without its home, for a read issued before a name: a byte that the core's own stores have made dirty hides the clean one. -/
def State.nearByte (s : State) (core k : Nat) (v : VC) (upto : Nat) : Option (Byte × VC) :=
  match dirtyWrite core k upto s.writes with
  | some _ => dirtyByte core k v upto s.writes
  | none => s.cleanByte core k v

/-- A byte read against a vector: near, else at its home once that is ready (R314, R315). -/
def State.readByte (s : State) (core k : Nat) (v : VC) (upto : Nat) : Option (Byte × VC) :=
  match s.nearByte core k v upto with
  | some x => some x
  | none => if s.homeReady (s.homeOf k) v then some (s.locByte k, s.locClk k) else none

/-- A store signature takes in one held store: one record for each aligned 8-byte unit it touches (R448). -/
def signHeld (sig va : Nat) (bs : List Byte) : Nat :=
  let units := (List.range ((va + bs.length - 1) / 8 - va / 8 + 1)).map (· + va / 8)
  units.foldl (fun s u =>
    let at_ := fun i => if va ≤ u * 8 + i then bs[u * 8 + i - va]? else none
    let mask := (List.range 8).map fun i => if (at_ i).isSome then (1 : Byte) else 0
    let data := (List.range 8).map fun i => (at_ i).getD 0
    crc64 s (leBytes (u * 8) 8 ++ mask ++ data)) sig

/-- The dirty writes of a core that a later store of it covers go home ahead of that store, as a dirty line may at any time (R315): none is superseded while it is still in L1, for a home that counted its stamp as delivered could show a reader who has seen it an older byte, against R316 (DESIGN CHOICE, log entry 49). -/
def sendCovered (core key n : Nat) (ws : List Write) : List Write :=
  mapIf (fun x : Write => x.l1 == some core && decide (key ≤ x.key) && decide (x.key + x.bytes.length ≤ key + n)) (fun x => { x with l1 := none }) ws

/-- A write of some threads of one core leaves it: stamped (R311), dirty in L1 or straight home (R245). The answer is its name. -/
def State.emitFor (s : State) (id : TeamId) (i : Nat) (is : List Nat) (w : Write) (straight : Bool) : Nat × State :=
  let t := s.team id
  let l := s.launch id.launch
  let core := coreOfThread l t i
  let s := if straight then s else s.updCore core fun c => { c with badL1 := Store.dropKeys c.badL1 w.names }
  let die := dieOfCore core
  let (st, s) := s.nextStamp die
  let clk := ((t.thread i).obs.max (VC.maxAll (is.map fun j => (t.thread j).obs))).set die st
  let s := s.updThreads id (i :: is) fun h => { h with obs := h.obs.set die st }
  let w := { w with id := s.nextId, origin := die, stamp := st, clk := clk, home := s.homeOf w.key
                    l1 := if straight then none else some core, since := (s.die die).clock, tenant := l.tenant, launch := some l.id, by_ := some (id, i) }
  (w.id, { s with writes := (if straight then s.writes else sendCovered core w.key w.bytes.length s.writes) ++ [w], nextId := s.nextId + 1 })

/-- A write not yet stamped. -/
def Write.plain (key : Nat) (bs : List Byte) (psize : Nat) : Write :=
  { id := 0, key := key, bytes := bs, origin := 0, stamp := 0, clk := {}, home := 0, l1 := none, psize := psize }

/-- A write of one thread leaves its core. -/
def State.emit (s : State) (id : TeamId) (i key : Nat) (bs : List Byte) (straight : Bool) (psize : Nat) : Nat × State :=
  s.emitFor id i [] (Write.plain key bs psize) straight

/-- A redundant copy holds a store back: it enters the signature (R309, R448, R449). -/
def State.holdStore (s : State) (id : TeamId) (i va : Nat) (bs : List Byte) (line : Option Nat) : State :=
  let s := s.updThread id i fun h => { h with sig := signHeld h.sig va bs }
  let n := s.nextId
  { (s.updTeam id fun t => { t with held := t.held ++ [{ id := n, thread := i, va := va, bytes := bs, line := line }] }) with nextId := n + 1 }

/-- A store by a thread to a translated address; a redundant copy holds it (R309, R449). -/
def State.storeBy (s : State) (id : TeamId) (i va : Nat) (tr : Tr) (bs : List Byte) (straight : Bool) (line : Option Nat := none) : Option Nat × State :=
  if (s.launch id.launch).redundant then (none, s.holdStore id i va bs line)
  else
    let (w, s) := s.emit id i tr.key bs (straight || tr.region.isSome) (2 ^ levelShift tr.level)
    (some w, s)

/-! ### Parking (R37 to R41) and delivery (R419) -/

/-- The lowest thread of a list. -/
def lowest : List Nat → Nat
  | [] => 0xFFFFFFFF
  | a :: r => Nat.min a (lowest r)

/-- Write the record of a parked sub-group, which then waits for an answer (R421, R423). -/
def State.report (s : State) (gid flags : Nat) : State :=
  let g := s.grp gid
  let l := s.launch g.team.launch
  match g.park with
  | some p =>
    let (seq, s) := s.makeRec l.tenant
      { kind := 1, cls := p.cls, detail := p.detail, flags := flags, launch := l.id, team := g.team.team, thread := p.who.getD (lowest g.members)
        addr := p.addr, pc := canonOf g.pc, word := g.word, red := bit l.redundant + bit g.team.shadow * 2 }
    s.updGrp gid fun g => { g with park := g.park.map fun p => { p with seq := seq, toTrap := false } }
  | none => s

/-- Some thread of a group has its in-handler flag set. -/
def State.inHandler (s : State) (g : Grp) : Bool := g.members.any fun i => (s.thread g.team i).inHandler

/-- A fault of a class is delivered as a trap here (R419, R420). -/
def State.traps (s : State) (l : Launch) (cls : Nat) (g : Grp) : Bool :=
  let t := s.tenant l.tenant
  (Store.get 0 t.tvec l.asid) != 0 && bitAt (Store.get 0 t.tmask l.asid).toNat cls && cls != clsEcc && !s.inHandler g

/-- Deliver the fault of a parked sub-group, once it has come: rollback, trap once its flags clear, or report (R419). -/
def State.deliver (s : State) (gid : Nat) : State :=
  let g := s.grp gid
  let l := s.launch g.team.launch
  match g.park with
  | some p =>
    let s := if p.cls = clsEcc && p.route.isNone then s.count (8192 + dieOfQuad g.quad) 0x88 1 else s
    if p.route.isSome then s
    else if p.cls = clsEcc && l.replayable && !l.incomplete then { s with rollbacks := s.rollbacks ++ [(l.id, clsEcc)] }
    else if p.double then s.report gid 1
    else if s.traps l p.cls g then s.updGrp gid fun g => { g with park := some { p with toTrap := true } }
    else s.report gid (bit (s.inHandler g))
  | none => s

/-- Park every member of a group with its word pending (R41). -/
def State.parkWhole (s : State) (gid : Nat) (p : Park) : State :=
  let g := s.grp gid
  let kept := match g.flag with
    | some f => if g.clause = 0 || s.flagBusy gid f then g.flags else clearBit12 g.flags f
    | none => g.flags
  let s := s.updGrp gid fun g => { g with park := some p, flags := kept, readyAt := s.now g.quad, regroup := false, doneLanes := [], held := 0, clause := 0, fresh := false, resumed := false }
  let s := s.updThreads g.team g.members fun h => { h with st := .parked gid, pc := g.pc, word := g.word, keepGuard := h.keepGuard || g.clause != 0 }
  let s := s.updQuad g.quad fun q => if q.mid = some gid then { q with mid := none } else q
  s.deliver gid

/-- Split some members off a group as a parked sub-group, with a copy of its flags (R37, R39). -/
def State.splitOff (s : State) (gid : Nat) (is : List Nat) (p : Park) : State :=
  let g := s.grp gid
  let sid := s.nextId
  let before := s.ops.map fun o => if o.gids.contains gid then { o with gids := o.gids ++ [sid] } else o
  let kept := match g.flag with
    | some f => if s.flagBusy gid f then g.flags else clearBit12 g.flags f
    | none => g.flags
  let sub : Grp := { g with gid := sid, members := is, flags := kept, park := some p, readyAt := s.now g.quad, clause := 0, doneLanes := [], held := 0, regroup := false, demoted := false, fresh := false, resumed := false }
  let s := { s with ops := before, nextId := s.nextId + 1, groups := mapIf (fun x : Grp => x.gid == gid) (fun x : Grp => { x with members := x.members.filter fun i => !is.contains i }) s.groups ++ [sub] }
  let s := s.updThreads g.team is fun h => { h with st := .parked sid, pc := g.pc, word := g.word, keepGuard := h.keepGuard || g.clause != 0 }
  (s.count g.quad 0x07 1).deliver sid

/-- Park some members: the whole group when they are all of it. -/
def State.parkLanes (s : State) (gid : Nat) (is : List Nat) (p : Park) : State :=
  if is.isEmpty then s
  else if (s.grp gid).members.all is.contains then s.parkWhole gid p
  else s.splitOff gid is p

/-- One lane's fault. -/
structure LaneFault where
  thread : Nat
  cls : Nat
  detail : Nat := 0
  addr : Nat := 0
  /-- its peer has no route -/
  route : Bool := false
  deriving DecidableEq, Repr

/-- The hub cycle at which an access without a route faults. -/
def State.routeEnd (s : State) (f : LaneFault) : Option Nat := if f.route then some (s.hub + 2 ^ 20) else none

/-- The classes of a list of faults in the order of R281. -/
def faultOrder : List Nat := [clsMisalign, clsTranslation, clsPermission, clsAppendOrder, clsSealedWrite, clsAlloc, clsBufState, clsEcc]

/-- Park faulting lanes, one sub-group for each class, in the order of the checks (R37). -/
def State.parkFaults (s : State) (gid len : Nat) (fs : List LaneFault) : State :=
  faultOrder.foldl (fun s c =>
    match fs.filter fun f => f.cls == c with
    | [] => s
    | f :: r => s.parkLanes gid ((f :: r).map (·.thread)) { cls := c, detail := f.detail, addr := f.addr, len := len, route := s.routeEnd f }) s

/-- Where a sub-group goes on: at its pending word, or after it (R40, R423, R428). -/
def Park.position (p : Park) (g : Grp) : Nat × Nat :=
  let n := headerN g.header
  if !p.byTrap && p.answer != 2 then (g.pc, g.word)
  else match p.wait with
    | some (_, next) => (next, 0)
    | none => if p.byTrap || decide (n ≤ g.word + p.len) then (g.pc + 4 * (n + 1), 0) else (g.pc, g.word + p.len)

/-- Cycles a group of a width takes to issue, by the home lanes of its members (R16). -/
def State.cyclesOf (s : State) (g : Grp) : Nat :=
  let l := s.launch g.team.launch
  if l.w = 64 && (g.members.any fun i => decide (l.laneOf i < 32)) && (g.members.any fun i => decide (32 ≤ l.laneOf i)) then 2 else 1

/-- Resume a sub-group: a retried wait waits again (R441); else it is a group, at its pending word or after it (R40, R423). -/
def State.resumeGrp (s : State) (gid : Nat) : State :=
  let g := s.grp gid
  match g.park with
  | none => s
  | some p =>
    let after := p.byTrap || p.answer == 2
    match p.wait with
    | some (ks, next) =>
      if after then
        let s := s.updGrp gid fun g => { g with park := none, pc := next, word := 0, words := [], readyAt := Nat.max (s.now g.quad) (s.dueOf g.team g.members) }
        s.updThreads g.team g.members fun h => { h with st := .issuing gid, pc := next, word := 0, keepGuard := false }
      else (ks.foldl (fun s e => s.updThread g.team e.1 fun h => { h with st := .waiting e.2 next, keepGuard := false }) s).dropGrp gid
    | none =>
      let dest := p.position g
      let s := s.updGrp gid fun g => { g with park := none, pc := dest.1, word := dest.2, words := if after && dest.2 = 0 then [] else g.words, resumed := !after, readyAt := Nat.max (s.now g.quad) (if after && dest.2 = 0 then g.readyAt + p.len * s.cyclesOf g - s.cyclesOf g + bitsOf g.header 23 2 + 1 else 0) }
      s.updThreads g.team g.members fun h => { h with st := .issuing gid, pc := dest.1, word := dest.2, keepGuard := h.keepGuard && (!after || dest.2 != 0) }

/-! ### Taking a trap and returning from it (R420, R424, R427) -/

/-- An address is that of a clause header in a native image that Horwell holds for a tenant (R69, R420). -/
def State.isHeader (s : State) (tenant asid va : Nat) : Bool :=
  s.images.any fun im => im.tenant == tenant && im.asid == asid && decide (im.codeVa ≤ va) && im.headers.contains (va - im.codeVa)

/-- The trap vector may be entered (R420). -/
def State.vectorOk (s : State) (l : Launch) (tv : Nat) : Bool :=
  match s.check [] l.tenant l.asid tv 4 .fetch with
  | .ok _ => s.isHeader l.tenant l.asid (tv % 2 ^ 57)
  | .error _ => false

/-- The stores of a trap frame: offset and bytes (R424). -/
def frameStores (g : Grp) (p : Park) (h : Thread) : List (Nat × List Byte) :=
  [(0x00, leBytes (canonOf g.pc) 8), (0x08, leBytes g.word 1), (0x09, leBytes (bit h.guard + bit p.byTrap * 2) 1),
   (0x0C, leBytes h.fsr.toNat 4), (0x10, leBytes p.addr 8), (0x18, leBytes h.sp.toNat 8)]

/-- The check of a thread's frame, as of stores of its units: the frame of a DEFAULT page that they need is reserved (R263, R424). The answer is a fault class, or 0. -/
def State.frameCheck (s : State) (g : Grp) (p : Park) (i : Nat) : State × Nat :=
  let l := s.launch g.team.launch
  let t := s.team g.team
  let h := t.thread i
  let a := h.sp - 32
  match s.check (s.core (coreOfThread l t i)).tlb l.tenant l.asid a.toNat 8 .write with
  | .error c => (s, c)
  | .ok _ => (frameStores g p h).foldl (fun (r : State × Nat) e =>
      if r.2 ≠ 0 then r
      else
        match r.1.check (r.1.core (coreOfThread l t i)).tlb l.tenant l.asid (a + BitVec.ofNat 64 e.1).toNat e.2.length .write with
        | .error _ => r
        | .ok tr => r.1.reserve l.id tr.key e.2) (s, 0)

/-- A plain store of a thread at an address, where that translates. -/
def State.plainStore (s : State) (id : TeamId) (i va : Nat) (bs : List Byte) : State :=
  let l := s.launch id.launch
  match s.check (s.core (coreOfThread l (s.team id) i)).tlb l.tenant l.asid va bs.length .write with
  | .error _ => s
  | .ok tr => (s.storeBy id i va tr bs false).2

/-- One thread enters the handler: frame stored, sp, fsr and the in-handler flag set (R424). -/
def State.enterOne (s : State) (g : Grp) (p : Park) (tv : Nat) (i : Nat) : State :=
  let h := s.thread g.team i
  let a := h.sp - 32
  let s := (frameStores g p h).foldl (fun s e => s.plainStore g.team i (a + BitVec.ofNat 64 e.1).toNat e.2) s
  s.updThread g.team i fun h => { h with sp := a, fsr := BitVec.ofNat 32 (2 ^ 31 + p.cls * 256 + p.detail), inHandler := true, pc := tv, word := 0, keepGuard := false }

/-- A sub-group takes its trap: the vector is checked, then each thread's frame; threads whose frame faults stay parked and are reported (R424). -/
def State.takeTrap (s : State) (gid : Nat) : State :=
  let g := s.grp gid
  let l := s.launch g.team.launch
  let tv := (Store.get 0 (s.tenant l.tenant).tvec l.asid).toNat
  match g.park with
  | none => s
  | some p =>
    if !s.vectorOk l tv then s.report gid 8
    else
      let s := s.updThreads g.team g.members Thread.settled
      let (s, bad) := g.members.foldl (fun (r : State × List Nat) i =>
        let (s, c) := r.1.frameCheck g p i
        (s, if c = 0 then r.2 else r.2 ++ [i])) (s, [])
      let good := g.members.filter fun i => !bad.contains i
      if good.isEmpty then s.report gid 1
      else
        let s := if bad.isEmpty then s
          else
            let sid := s.nextId
            let sub : Grp := { g with gid := sid, members := bad, park := some { p with toTrap := false } }
            let s := ({ s with nextId := s.nextId + 1, groups := s.groups ++ [sub] } : State).count g.quad 0x07 1
            let s := s.updThreads g.team bad fun h => { h with st := .parked sid }
            s.report sid 1
        let s := good.foldl (fun s i => s.enterOne g p (tv % 2 ^ 57) i) s
        let s := s.updThreads g.team good fun h => { h with st := .issuing gid }
        s.updGrp gid fun x => { x with members := good, park := none, pc := tv % 2 ^ 57, word := 0, readyAt := s.now g.quad, words := [], resumed := false, handler := 0 }

/-- What a thread restores at a return: the frame's sp, fsr and position (R427). -/
structure Frame where
  pc : Nat
  word : Nat
  guard : Bool
  byTrap : Bool
  fsr : Nat
  sp : Nat
  deriving DecidableEq, Repr

/-- The frame in 32 bytes. -/
def frameOf (v : Nat) : Frame :=
  { pc := v % 2 ^ 64, word := bitsOf v 64 8, guard := bitAt v 72, byTrap := bitAt v 73, fsr := bitsOf v 96 32, sp := bitsOf v 192 64 }

/-- A thread returns from its handler to a position: the frame's fsr, whose valid bit a return clears and whose reserved bits read 0 (R123, R427, R434). -/
def Thread.returned (f : Frame) (h : Thread) : Thread :=
  { h with sp := BitVec.ofNat 64 f.sp, fsr := BitVec.ofNat 32 (f.fsr % 2 ^ 16), inHandler := false, handlerCount := 0
           guard := f.guard, halted := h.halted || h.haltPending, haltPending := false }

/-! ### Issuing a word -/

/-- A word issues: with no issuing group nothing can; a register at or above the kernel's allocation parks the whole group (R67, R70); else its effect. -/
def issue (len : Nat) (regs : List Nat) (s : State) (f : Ctx → State → State) : Out :=
  match s.current with
  | none => .fault .noIssuingGroup
  | some gid =>
    let c := s.ctx gid
    if regs.any fun r => decide (c.l.nregs ≤ r) then .next (s.parkWhole gid { cls := clsEnc, detail := 0, addr := 0, len := len })
    else .next (f c s)

/-- A fixed-latency word that acts on each active member's own registers (R124, R125). -/
def laneFixed (len : Nat) (k : Ctl) (regs : List Nat) (s : State) (f : Thread → List Wr) : Out :=
  issue len regs s fun c s =>
    ((c.actors k).foldl (fun s h => s.pendTo c (c.receivers k h) (f h)) s).endWord c len

/-- A variable-latency word whose results are known at its issue (R57, R167). -/
def laneVariable (len cls : Nat) (k : Ctl) (regs : List Nat) (s : State) (f : Ctx → Thread → List Wr) : Out :=
  issue len regs s fun c s =>
    let rs := (c.actors k).flatMap fun h => (c.receivers k h).flatMap fun i => (f c h).map fun w => (i, w)
    (s.addOp { c.op cls .ready with results := rs, isReady := true }).endWord c len

end Sys2Proof.Machine
end

