-- ==== Sys2Proof/Machine/Operands.lean ====
section
/-! DEFINITION. Operand forms: registers, pairs and quads as numbers (R92, R284), immediates (R66), and the writes of a result. -/
namespace Sys2Proof.Machine

/-- V[l][n] as a number. -/
def Thread.v (h : Thread) (r : Reg) : Nat := (h.raw r.toNat).toNat
/-- V[l][n] for a number n. -/
def Thread.vn (h : Thread) (n : Nat) : Nat := (h.raw n).toNat
/-- Pair(l, n) as a number. -/
def Thread.pair (h : Thread) (r : Reg) : Nat := h.vn r.toNat + 2 ^ 32 * h.vn (r.toNat + 1)
/-- n registers upward as one number, the lowest register least significant. -/
def Thread.regNat (h : Thread) (r : Nat) : Nat → Nat
  | 0 => 0
  | n + 1 => h.vn r + 2 ^ 32 * Thread.regNat h (r + 1) n
/-- P[l][n]. -/
def Thread.p (h : Thread) (q : Pred) : Bool := h.preds.getLsbD q.toNat

/-- A field as a two's complement number. -/
def simm {n : Nat} (i : BitVec n) : Int := i.toInt
/-- A register's number. -/
def one (r : Reg) : List Nat := [r.toNat]
/-- A pair's numbers (R92). -/
def two (r : Reg) : List Nat := [r.toNat, r.toNat + 1]
/-- n registers' numbers. -/
def regsFrom (r : Reg) (n : Nat) : List Nat := (List.range n).map (· + r.toNat)

/-- A register result. -/
def wreg (d : Reg) (v : Nat) : List Wr := [⟨.reg d.toNat, v % 2 ^ 32⟩]
/-- A pair result, written whole. -/
def wpair (d : Reg) (v : Nat) : List Wr := [⟨.reg d.toNat, v % 2 ^ 32⟩, ⟨.reg (d.toNat + 1), v / 2 ^ 32 % 2 ^ 32⟩]
/-- n registers from d, the lowest least significant. -/
def wregs (d : Nat) (v : Nat) : Nat → List Wr
  | 0 => []
  | n + 1 => ⟨.reg d, v % 2 ^ 32⟩ :: wregs (d + 1) (v / 2 ^ 32) n
/-- A predicate result. -/
def wpred (p : Nat) (b : Bool) : List Wr := [⟨.pred p, bit b⟩]

end Sys2Proof.Machine
end

