-- ==== Sys2Proof/Machine/Flags.lean ====
section
/-! DEFINITION. Predicate results: the combine field (R66), integer comparisons (R137), and the saturating forms of integer arithmetic (R93, R127). -/
namespace Sys2Proof.Machine

/-- Combine: the new value of a predicate destination from its old value and the result (R66). -/
def Combine.apply : Combine → Bool → Bool → Bool
  | .set, _, t => t
  | .and, o, t => o && t
  | .or, o, t => o || t
  | .xor, o, t => o != t

/-- The write of a predicate destination under its combine field. -/
def setPred (h : Thread) (comb : Combine) (pd : Pred) (t : Bool) : List Wr := wpred pd.toNat (Combine.apply comb (h.p pd) t)

/-- A comparison operand under the type of m (R137). -/
def cmpOperand (m : CmpTy) (h : Thread) (r : Reg) : Int :=
  match m with
  | .i32 => toSigned 32 (h.v r)
  | .n32 => (h.v r : Int)
  | .i64 => toSigned 64 (h.pair r)
  | .n64 => (h.pair r : Int)

/-- The registers of a comparison operand. -/
def cmpRegs (m : CmpTy) (r : Reg) : List Nat :=
  match m with
  | .i32 => one r
  | .n32 => one r
  | .i64 => two r
  | .n64 => two r

/-- An n-bit operation under its mode: exact, then wrapped or saturated (R93, R127, R130). -/
def arith (n : Nat) (m : ArithMode) (f : Int → Int → Int) (a b : Nat) : Nat :=
  match m with
  | .wrap => wrapTo n (f a b)
  | .satI => satI n (f (toSigned n a) (toSigned n b))
  | .satN => satN n (f a b)

end Sys2Proof.Machine
end

