-- ==== Sys2Proof/Machine/LoadStore.lean ====
section
/-! DEFINITION. Class 2, global memory: loads, stores, lines, atomics and stna (R278 to R291, R309). A lane's access is checked at issue; its home serves it in an event of its own. -/
namespace Sys2Proof

/-- The shadow of a primary. -/
def TeamId.other (t : TeamId) : TeamId := { t with shadow := !t.shadow }
/-- Bytes of an access type. -/
def MemTy.size : MemTy → Nat
  | .n8 => 1
  | .i8 => 1
  | .n16 => 2
  | .i16 => 2
  | .n32 => 4
  | .n64 => 8
  | .n128 => 16
/-- The type sign-extends. -/
def MemTy.signed : MemTy → Bool
  | .i8 => true
  | .i16 => true
  | _ => false
/-- An AtomOrder releases. -/
def AtomOrder.rel : AtomOrder → Bool
  | .release => true
  | .acqrel => true
  | _ => false
/-- An AtomOrder acquires. -/
def AtomOrder.acq : AtomOrder → Bool
  | .acquire => true
  | .acqrel => true
  | _ => false
/-- Bytes of a stna (R291). -/
def StnaSize.bytes : StnaSize → Nat
  | .n8 => 1
  | .n16 => 2
  | .n32 => 4
  | .n64 => 8

end Sys2Proof
namespace Sys2Proof.Machine

/-! ### A lane's access -/

/-- The address that a pair names with a displacement, modulo 2^64. -/
def addrOf (h : Thread) (a : Reg) (disp : Int) : Nat := wrapTo 64 ((h.pair a : Int) + disp)

/-- A lane whose access passed its checks: thread, virtual address and translation. -/
abbrev GoodLane := Thread × Nat × Tr

/-- Bytes that a read would take, from its core's L1 or from their home, carry an uncorrectable error (R241, R444). -/
def State.poisoned (s : State) (core key size : Nat) (v : VC) : Bool :=
  let at_ := fun m : Store Bool => (m.filter fun e => e.2 && decide (key ≤ e.1) && decide (e.1 < key + size)).map (·.1)
  ((at_ s.poison).any fun k => (s.nearByte core k v s.nextId).isNone) || (at_ (s.core core).badL1).any fun k => (s.nearByte core k v s.nextId).isSome

/-- The checks of R281 for one lane; an atomic reads at home. -/
def State.checkLane (s : State) (c : Ctx) (h : Thread) (va align size : Nat) (a : Access) : Except Nat Tr :=
  match s.check (usable (s.core c.core).tlb c.l.tenant c.l.asid va h.obs) c.l.tenant c.l.asid va align a with
  | .error e => .error e
  | .ok tr => if s.linkDown tr.key || (a = .read && s.poisoned c.core tr.key size h.obs) || (a = .atomic && s.badAt tr.key size) then .error clsEcc else .ok tr

/-- A lane's address lies in a peer to which no route works (R459). -/
def State.noRoute (s : State) (c : Ctx) (va : Nat) : Bool :=
  match s.translate (s.core c.core).tlb c.l.tenant c.l.asid va with
  | .ok tr => s.noPeer tr.key
  | .error _ => false

/-- Check every acting lane's access: the lanes that pass, and the faults. -/
def State.checkLanes (s : State) (c : Ctx) (hs : List Thread) (addr : Thread → Nat) (align size : Nat) (a : Access) : List GoodLane × List LaneFault :=
  hs.foldr (fun h r =>
    let x := addr h
    match s.checkLane c h x align size a with
    | .ok tr => ((h, x, tr) :: r.1, r.2)
    | .error e => (r.1, { thread := h.idx, cls := e, detail := if e = clsEcc then 1 else 0, addr := x, route := e = clsEcc && s.noRoute c x } :: r.2)) ([], [])

/-- Park the lanes that fault; a word that acts once parks its whole group (R282). -/
def State.parkBad (s : State) (c : Ctx) (k : Ctl) (len : Nat) (bad : List LaneFault) : State :=
  match bad with
  | [] => s
  | f :: _ => if k.u then s.parkWhole c.gid { cls := f.cls, detail := f.detail, addr := f.addr, len := len, route := s.routeEnd f } else s.parkFaults c.gid len bad

/-- The group stands whole or in part at its word, unparked. -/
def State.running (s : State) (gid : Nat) : Bool :=
  match s.findGrp gid with
  | some g => g.park.isNone && !g.members.isEmpty
  | none => false

/-- The lanes of a word whose walk joins the walk of another of its lanes to the same leaf (R386; DESIGN CHOICE, log entry 54). -/
def State.coalesced (s : State) (c : Ctx) (good : List GoodLane) : Nat :=
  let miss := good.filter fun e => !cacheServes (s.core c.core).tlb c.l.tenant c.l.asid e.2.1 e.1.obs
  miss.length - ((miss.map fun e => e.2.1 % 2 ^ 57 / 2 ^ levelShift e.2.2.level).eraseDups).length

/-- Keep the translations that lanes used (R384). -/
def State.keepXlats (s : State) (c : Ctx) (good : List GoodLane) : State :=
  good.foldl (fun s e => s.cacheXlat c.core c.l.tenant c.l.asid (e.2.1 % 2 ^ 57) e.1.obs e.2.2) (s.count (8192 + dieOfCore c.core) 0x89 (s.coalesced c good))

/-- A word of memory accesses: its faulting lanes parked, the effect for the others. -/
def memWord (len : Nat) (k : Ctl) (regs : List Nat) (s : State) (addr : Thread → Nat) (align size : Nat) (a : Access)
    (go : Ctx → List GoodLane → State → State) : Out :=
  issue len regs s fun c s =>
    let (good, bad) := s.checkLanes c (c.actors k) addr align size a
    let s := (s.keepXlats c good).parkBad c k len bad
    if !s.running c.gid then s
    else if good.isEmpty then s.endWord c len
    else go c good s

/-- The members that receive an operation's result, where U = 1 spreads it (R64, R278). -/
def Ctx.spread (c : Ctx) (k : Ctl) : List Nat := if k.u then c.g.members else []

/-! ### Redundant copies (R309) -/

/-- Give the shadow a result that its primary received. -/
def State.feed (s : State) (id : TeamId) (i nth : Nat) (vs : List Nat) : State :=
  if (s.launch id.launch).redundant && !id.shadow then s.updTeam id.other fun t => { t with fed := t.fed ++ [(i, nth, vs)] } else s

/-- A result fed to a thread of a shadow. -/
def fedFor (i nth : Nat) (l : List (Nat × Nat × List Nat)) : Option (List Nat) :=
  (findBy (fun e : Nat × Nat × List Nat => e.1 == i && e.2.1 == nth) l).map (·.2.2)

/-- An access as its primary's result gives it: fault, value, outcome and second value. -/
def Acc.ofFed (a : Acc) (vs : List Nat) : Acc :=
  { a with done := true, fault := vs.getD 0 0, val := vs.getD 1 0, ok := decide (vs.getD 2 1 = 1), cmp := vs.getD 3 0 }

/-- Each access takes the next number of its thread's results, the same in both copies of a redundant team. -/
def State.numbered (s : State) (id : TeamId) : List Acc → State × List Acc
  | [] => (s, [])
  | a :: r =>
    let n := (s.thread id a.thread).asked
    let x := State.numbered (s.updThread id a.thread fun h => { h with asked := n + 1 }) id r
    (x.1, { a with nth := n } :: x.2)

/-- A word's operation is under way; where the group waits for its verdict, it gives up the quadrant after the word (R55, R282). -/
def State.beginOp (s : State) (c : Ctx) (o : Op) : State :=
  let s := s.addOp o
  if o.verdict then s.updQuad c.quad fun q => { q with mid := none } else s.endWord c o.len

/-- Data of an append held back by a copy of a redundant team. -/
def State.holdAppend (s : State) (id : TeamId) (r : Region) (a : Acc) : State :=
  if a.size = 0 then s else s.holdStore id a.thread (r.base + a.val) (leBytes a.opnd a.size) none

/-- What a shadow holds back once its primary's outcome has come: the store of a lane that was not refused (R309). -/
def State.holdFed (s : State) (o : Op) (a : Acc) : State :=
  let st := fun s : State => if a.fault = 0 then s.holdStore o.team a.thread a.va (leBytes a.opnd a.size) none else s
  match o.kind with
  | .store => st s
  | .push _ => st s
  | .stna => if a.ok then st s else s
  | .append => (match a.region.bind s.findRegion with
    | some r => if a.fault = 0 then s.holdAppend o.team r a else s
    | none => s)
  | _ => s

/-- What the shadow of a redundant team waits for its primary to perform or judge (R309). -/
def OpKind.isFed : OpKind → Bool
  | .atom _ _ _ _ _ _ => true
  | .append => true
  | .lds _ => true
  | .unsl => true
  | .enumNext => true
  | .enumMap _ => true
  | .pgq => true
  | .qappend => true
  | .store => true
  | .push _ => true
  | .stna => true
  | _ => false

/-- An operation of a shadow that its primary performs or judges. -/
def Op.waitsFed (o : Op) : Bool := o.team.shadow && o.kind.isFed

/-- The results that an operation of a shadow waits for have all come. -/
def State.canReceive (s : State) (o : Op) : Bool :=
  o.waitsFed && !o.isReady && !o.accs.isEmpty && o.accs.all fun a => a.done || (fedFor a.thread a.nth (s.team o.team).fed).isSome

/-- A shadow's operation receives what its primary received (R309). -/
def State.receive (s : State) (o : Op) : State :=
  let t := s.team o.team
  let accs := o.accs.map fun a => if a.done then a else a.ofFed ((fedFor a.thread a.nth t.fed).getD [])
  let s := s.updTeam o.team fun t => { t with fed := t.fed.filter fun e => !o.accs.any fun a => a.thread == e.1 && a.nth == e.2.1 }
  let s := (accs.filter fun a => !(o.accs.any fun b => b.done && b == a)).foldl (fun s a => s.holdFed o a) s
  s.updOp o.id fun o => { o with accs := accs, isReady := true }

/-! ### Reading for a thread -/

/-- A byte for a thread's read issued before a name: its copy's held stores, the core, then its home where that is asked and ready. -/
def State.threadByte (s : State) (home : Bool) (held : List Held) (core va k upto : Nat) (v : VC) : Option (Byte × VC) :=
  match heldByte va upto held with
  | some b => some (b, {})
  | none => if home then s.readByte core k v upto else s.nearByte core k v upto

/-- n bytes for a thread, as a number with their clock. -/
def State.threadRead (s : State) (home : Bool) (held : List Held) (core va k upto : Nat) (v : VC) : Nat → Option (Nat × VC)
  | 0 => some (0, {})
  | n + 1 =>
    match s.threadByte home held core va k upto v, State.threadRead s home held core (va + 1) (k + 1) upto v n with
    | some (b, c), some (x, d) => some (b.toNat + 256 * x, c.max d)
    | _, _ => none

/-- An access of a thread that issued before a name touches a common byte and has not been served: a later one takes effect after it (R279). -/
def State.behind (s : State) (id : TeamId) (i key size upto : Nat) : Bool :=
  s.ops.any fun o => o.team == id && decide (o.id < upto) && o.accs.any fun a => a.thread == i && !a.done && decide (key < a.key + a.size) && decide (a.key < key + size)

/-- An access of a lane. -/
def State.accFor (s : State) (h : Thread) (va : Nat) (tr : Tr) (size d : Nat) : Acc :=
  { thread := h.idx, va := va, key := tr.key, size := size, home := s.homeOf tr.key, vec := h.obs, region := tr.region.map (·.id), d := d, psize := 2 ^ levelShift tr.level }

/-- Serve a read access of an operation, from near or from its home, behind the earlier accesses of its thread. -/
def State.serve (s : State) (home : Bool) (t : Team) (core upto : Nat) (a : Acc) : Acc :=
  if a.done || s.behind t.id a.thread a.key a.size upto then a
  else
    match s.threadRead home t.held core a.va a.key upto a.vec a.size with
    | some (v, c) => { a with done := true, val := v, clk := c }
    | none => a

/-- Distinct lines of a list of accesses. -/
def linesOf (l : List Acc) : Nat := ((l.map fun a => a.key / 128).eraseDups).length

/-- The parts of some bytes that lie in one 128-byte line each: first address and length. -/
def linePieces (pa n : Nat) : List (Nat × Nat) :=
  (List.range ((pa + n - 1) / 128 - pa / 128 + 1)).map fun i =>
    let lo := Nat.max pa ((pa / 128 + i) * 128)
    (lo, Nat.min (pa + n) ((pa / 128 + i + 1) * 128) - lo)

/-- The lines that an issued word's reads find in the L1 data cache, and those they do not (R410). -/
def State.countL1 (s : State) (core : Nat) (accs : List Acc) : State :=
  (s.count (4096 + core) 0x47 (linesOf (accs.filter (·.done)))).count (4096 + core) 0x48 (linesOf (accs.filter fun a => !a.done))

/-- A load: hits are served at its issue, the rest at home (R315). -/
def State.startLoad (s : State) (c : Ctx) (k : Ctl) (kind : OpKind) (accs : List Acc) (len : Nat) : State :=
  let accs := accs.map (s.serve false c.t c.core s.nextId)
  ((s.countL1 c.core accs).addOp { c.op 2 kind with accs := accs, all := c.spread k, len := len }).endWord c len

/-- A load word of a size (R284, R285). -/
def loadWord (len : Nat) (k : Ctl) (size : Nat) (signed : Bool) (d : Reg) (regs : List Nat) (s : State) (addr : Thread → Nat) : Out :=
  memWord len k (regs ++ regsFrom d ((size + 3) / 4)) s addr size size .read fun c good s =>
    s.startLoad c k (.load size signed) (good.map fun e => s.accFor e.1 e.2.1 e.2.2 size d.toNat) len

/-! ### Storing for a thread -/

/-- One lane's store in a primary of a redundant team, or one that asks for no frame; the answer is its fault class, or 0 (R309). -/
def State.heldStore (s : State) (id : TeamId) (a : Acc) (dflt : Bool) (line : Option Nat) : State × Nat :=
  let bs := leBytes a.opnd a.size
  if dflt then
    let (s, f) := s.reserve id.launch a.key bs
    let s := s.feed id a.thread a.nth [f]
    (if f = 0 then s.holdStore id a.thread a.va bs line else s, f)
  else (s.holdStore id a.thread a.va bs line, 0)

/-- The bytes a copy of a team holds back. -/
def Team.heldBytes (t : Team) : Nat := t.held.foldl (fun n h => n + if h.submit.isNone then h.bytes.length else 64) 0

/-- Either copy of a redundant team holds 256 KiB of stores (R449). -/
def State.heldFull (s : State) (id : TeamId) : Bool :=
  (s.launch id.launch).redundant && (decide (2 ^ 18 ≤ (s.team id).heldBytes) || decide (2 ^ 18 ≤ (s.team id.other).heldBytes))

/-- A translation lies in a DEFAULT region. -/
def Tr.isDefault (tr : Tr) : Bool := (tr.region.map (·.cls)) == some 1

/-- The accesses of some stores. -/
def storeAccs (s : State) (good : List (GoodLane × List Byte)) : List Acc :=
  good.map fun e => { s.accFor e.1.1 e.1.2.1 e.1.2.2 e.2.length 0 with opnd := leNat e.2 }

/-- Lanes whose store an operation faulted. -/
def State.laneFaults (s : State) (accs : List Acc) : List LaneFault :=
  (accs.filter fun a => a.fault ≠ 0).map fun a => ({ thread := a.thread, cls := a.fault, detail := if a.fault = clsEcc then 1 else 0, addr := a.va, route := a.fault = clsEcc && s.noPeer a.key } : LaneFault)

/-- Stores of a copy of a redundant team are held, those into DEFAULT pages once the primary has a frame for them: the accesses with what came of them (R309). -/
def State.holdAll (s : State) (c : Ctx) (line : Option Nat) : List (Acc × Bool) → State × List Acc
  | [] => (s, [])
  | e :: r =>
    if e.2 && c.g.team.shadow then
      let x := State.holdAll s c line r
      (x.1, e.1 :: x.2)
    else
      let (s, f) := s.heldStore c.g.team e.1 e.2 line
      let x := State.holdAll s c line r
      (x.1, { e.1 with done := true, fault := f } :: x.2)

/-- The stores of a word in a copy of a redundant team, and the operation that the group waits for where its shadow waits for its primary. -/
def State.heldStores (s : State) (c : Ctx) (k : Ctl) (good : List (GoodLane × List Byte)) (line : Option Nat) (o : Op)
    (go : State → List Acc → State) : State :=
  if s.heldFull c.g.team then s.holdWord c 11
  else
    let (s, ask) := s.numbered c.g.team (storeAccs s (good.filter fun e => e.1.2.2.isDefault))
    let plain := storeAccs s (good.filter fun e => !e.1.2.2.isDefault)
    let (s, accs) := s.holdAll c line ((plain.map fun a => (a, false)) ++ ask.map fun a => (a, true))
    if accs.any fun a => !a.done then s.beginOp c { o with accs := accs, verdict := true, all := c.spread k }
    else go (s.parkBad c k o.len (s.laneFaults accs)) accs

/-- A write whose verdict only its home can give (R282). -/
def needsVerdict (tr : Tr) : Bool := tr.region.isSome

/-- A write straight to its home at whose word the lane waits: for its home's verdict, or for the end of its page's migration (R281, R282, R400). -/
def lanesWait (tr : Tr) : Bool := needsVerdict tr || tr.moving

/-- The stores of an issue: one operation, complete where L1 takes the bytes; a store to a DEFAULT page waits for its home (R245, R278, R282). -/
def State.startStores (s : State) (c : Ctx) (k : Ctl) (good : List (GoodLane × List Byte)) (len : Nat) (line : Option Nat := none) : State :=
  if c.l.redundant then
    s.heldStores c k good line { c.op 2 .store with len := len } fun s _ => if s.running c.gid then s.endWord c len else s
  else
    let (s, accs) := good.foldl (fun (r : State × List Acc) e =>
      let (h, va, tr) := e.1
      let a := r.1.accFor h va tr e.2.length 0
      let (w, s) := r.1.storeBy c.g.team h.idx va tr e.2 false
      (s, r.2 ++ [{ a with ws := w.toList, done := !needsVerdict tr }])) (s, [])
    s.beginOp c { c.op 2 .store with accs := accs, all := c.spread k, verdict := good.any fun e => needsVerdict e.1.2.2, len := len }

/-- A store word of a size (R284, R285). -/
def storeWord (len : Nat) (k : Ctl) (size : Nat) (d : Reg) (regs : List Nat) (s : State) (addr : Thread → Nat) : Out :=
  memWord len k (regs ++ regsFrom d ((size + 3) / 4)) s addr size size .write fun c good s =>
    s.startStores c k (good.map fun e => (e, leBytes (e.1.regNat d.toNat ((size + 3) / 4)) size)) len

/-! ### ld, st (R284) -/

/-- A format I load. -/
def ldI (size : Nat) (signed : Bool) (k : Ctl) (d a : Reg) (imm : Imm8) (s : State) : Out :=
  loadWord 1 k size signed d (two a) s fun h => addrOf h a (simm imm * size)
/-- A format I store. -/
def stI (size : Nat) (k : Ctl) (d a : Reg) (imm : Imm8) (s : State) : Out :=
  storeWord 1 k size d (two a) s fun h => addrOf h a (simm imm * size)

def execLdN8 (k : Ctl) (d a : Reg) (imm : Imm8) (s : State) : Out := ldI 1 false k d a imm s
def execLdI8 (k : Ctl) (d a : Reg) (imm : Imm8) (s : State) : Out := ldI 1 true k d a imm s
def execLdN16 (k : Ctl) (d a : Reg) (imm : Imm8) (s : State) : Out := ldI 2 false k d a imm s
def execLdI16 (k : Ctl) (d a : Reg) (imm : Imm8) (s : State) : Out := ldI 2 true k d a imm s
def execLdN32 (k : Ctl) (d a : Reg) (imm : Imm8) (s : State) : Out := ldI 4 false k d a imm s
def execLdN64 (k : Ctl) (d a : Reg) (imm : Imm8) (s : State) : Out := ldI 8 false k d a imm s
def execLdN128 (k : Ctl) (d a : Reg) (imm : Imm8) (s : State) : Out := ldI 16 false k d a imm s
def execStN8 (k : Ctl) (d a : Reg) (imm : Imm8) (s : State) : Out := stI 1 k d a imm s
def execStN16 (k : Ctl) (d a : Reg) (imm : Imm8) (s : State) : Out := stI 2 k d a imm s
def execStN32 (k : Ctl) (d a : Reg) (imm : Imm8) (s : State) : Out := stI 4 k d a imm s
def execStN64 (k : Ctl) (d a : Reg) (imm : Imm8) (s : State) : Out := stI 8 k d a imm s
def execStN128 (k : Ctl) (d a : Reg) (imm : Imm8) (s : State) : Out := stI 16 k d a imm s

/-! ### ldw, stw (R285) -/

/-- The index, extended to 64 bits. -/
def indexOf (m : IndexMode) (h : Thread) (b : Reg) : Int :=
  match m with
  | .none => 0
  | .zx => (h.v b : Int)
  | .sx => toSigned 32 (h.v b)
/-- The registers that an index reads. -/
def indexRegs (m : IndexMode) (b : Reg) : List Nat :=
  match m with
  | .none => []
  | .zx => one b
  | .sx => one b

def execLdw (k : Ctl) (m : IndexMode) (d a b : Reg) (ty : MemTy) (disp : Bits21) (s : State) : Out :=
  loadWord 2 k ty.size ty.signed d (two a ++ indexRegs m b) s fun h => addrOf h a (indexOf m h b * ty.size + simm disp)
def execStw (k : Ctl) (m : IndexMode) (d a b : Reg) (ty : MemTy) (disp : Bits21) (s : State) : Out :=
  storeWord 2 k ty.size d (two a ++ indexRegs m b) s fun h => addrOf h a (indexOf m h b * ty.size + simm disp)

/-! ### ldline, stline (R286) -/

/-- The words of a line that a lane names. -/
def lineWords (w lane : Nat) : List Nat := if w = 16 then [lane, lane + 16] else [lane % 32]
/-- The registers of ldline and stline; under W = 16 an odd d is no register pair and faults ILLEGAL_ENC. -/
def lineRegs (l : Launch) (d : Reg) : List Nat := if l.w = 16 then (if d.toNat % 2 = 1 then [64] else two d) else one d
/-- The width of the issuing group's launch, for the registers of a line word. -/
def State.issuing (s : State) : Launch :=
  match s.current with
  | some gid => s.launch (s.grp gid).team.launch
  | none => Launch.absent
/-- The line's address. -/
def lineAddr (h : Thread) (a : Reg) (imm : Imm8) : Nat := let x := addrOf h a (simm imm * 128); x - x % 128

/-- A translation at a distance within its page. -/
def Tr.plus (tr : Tr) (n : Nat) : Tr := { tr with key := tr.key + n }

def execLdline (k : Ctl) (d a : Reg) (imm : Imm8) (s : State) : Out :=
  memWord 1 k (two a ++ lineRegs s.issuing d) s (fun h => lineAddr h a imm) 1 128 .read fun c good s =>
    s.startLoad c k .line (good.flatMap fun e =>
      (lineWords c.l.w (c.lane e.1)).zipIdx.map fun p => s.accFor e.1 (e.2.1 + 4 * p.1) (e.2.2.plus (4 * p.1)) 4 (d.toNat + p.2)) 1

/-- The words an issue writes: lane, line, word, value. -/
def lineLanes (c : Ctx) (d : Reg) (good : List GoodLane) : List (GoodLane × List Byte) :=
  good.flatMap fun e => (lineWords c.l.w (c.lane e.1)).zipIdx.map fun p =>
    ((e.1, e.2.1 + 4 * p.1, e.2.2.plus (4 * p.1)), leBytes (e.1.vn (d.toNat + p.2)) 4)

/-- The words of a line that a store names, a later one's value last: 128 bytes and the runs of them that are named (R286, R260). -/
def mergeLine (ws : List (Nat × List Byte)) : List Byte × List (Nat × Nat) :=
  let val := fun w => (ws.filter fun e => e.1 == w).getLast?
  let named := (List.range 32).filter fun w => (val w).isSome
  ((List.range 32).flatMap fun w => (match val w with | some e => e.2 | none => [0, 0, 0, 0]),
   named.foldl (fun r w => match r.getLast? with
     | some (o, n) => if o + n = 4 * w then r.dropLast ++ [(o, n + 4)] else r ++ [(4 * w, 4)]
     | none => [(4 * w, 4)]) [])

/-- One line of a stline into a DEFAULT page: its words are one store, whose stamp each of its lanes waits for (R260, R286). -/
def State.lineDefault (s : State) (c : Ctx) (e : GoodLane × List Byte) (rest : List (GoodLane × List Byte)) : State × List Acc :=
  let last := rest.getLastD e
  let (bs, segs) := mergeLine ((e :: rest).map fun x => (x.1.2.2.key % 128 / 4, x.2))
  let (w, s) := s.emitFor c.g.team last.1.1.idx ((e :: rest).map fun x => x.1.1.idx)
    { Write.plain (e.1.2.2.key / 128 * 128) bs (2 ^ levelShift last.1.2.2.level) with segs := segs } true
  (s, (e :: rest).map fun x => { s.accFor x.1.1 x.1.2.1 x.1.2.2 4 0 with ws := [w] })

/-- The stores of a stline, stamped in ascending lane order: a line of a DEFAULT page at its first lane, every other word at its own (R286, R311). The answer is the accesses that wait for their home. -/
def State.lineStores (s : State) (c : Ctx) : List (GoodLane × List Byte) → Nat → State × List Acc
  | [], _ => (s, [])
  | _, 0 => (s, [])
  | e :: r, n + 1 =>
    if needsVerdict e.1.2.2 then
      let mine := fun x : GoodLane × List Byte => needsVerdict x.1.2.2 && x.1.2.2.key / 128 == e.1.2.2.key / 128
      let (s, accs) := s.lineDefault c e (r.filter mine)
      let x := State.lineStores s c (r.filter fun y => !mine y) n
      (x.1, accs ++ x.2)
    else State.lineStores (s.storeBy c.g.team e.1.1.idx e.1.2.1 e.1.2.2 e.2 false).2 c r n

def execStline (k : Ctl) (d a : Reg) (imm : Imm8) (s : State) : Out :=
  memWord 1 k (two a ++ lineRegs s.issuing d) s (fun h => lineAddr h a imm) 1 128 .write fun c good s =>
    let ws := lineLanes c d good
    if c.l.redundant then ({ s with nextId := s.nextId + 1 } : State).startStores c k ws 1 (some s.nextId)
    else if !ws.any fun e => needsVerdict e.1.2.2 then s.startStores c k ws 1
    else
      let (s, accs) := s.lineStores c ws ws.length
      s.beginOp c { c.op 2 .store with accs := accs, all := c.spread k, verdict := true }

/-! ### atom (R288 to R290, R319) -/

/-- The new value from the old, the operand and the comparand; nothing where no write is made (R288, R289). -/
def atomNew (op : AtomOp) (bits o v cmp : Nat) : Option Nat :=
  match op with
  | .add => some ((o + v) % 2 ^ bits)
  | .and => some (Nat.land o v)
  | .or => some (Nat.lor o v)
  | .xor => some (Nat.xor o v)
  | .minI => some (if toSigned bits v < toSigned bits o then v else o)
  | .maxI => some (if toSigned bits o < toSigned bits v then v else o)
  | .minN => some (Nat.min o v)
  | .maxN => some (Nat.max o v)
  | .exch => some v
  | .cas => if o = cmp then some v else none
  | .fadd => some (FFmt.f32.add .rne o v)
  | .incw => some (if v ≤ o then 0 else o + 1)

/-- Emit a write of some bytes whose values its home decides: it has its stamp and its place. -/
def State.emitEmpty (s : State) (id : TeamId) (i key size psize : Nat) : Nat × State :=
  s.emitFor id i [] { Write.plain key [] psize with size := size } true

/-- Each access's place in its origin's order is taken (R311, R319). -/
def State.placeAll (s : State) (id : TeamId) : List Acc → State × List Acc
  | [] => (s, [])
  | a :: r =>
    let (w, s) := s.emitEmpty id a.thread a.key a.size a.psize
    let x := State.placeAll s id r
    (x.1, { a with ws := [w] } :: x.2)

/-- Operations performed at home with an answer. Each lane's place in its origin's order is taken at issue; where its order releases, it issues only when its release has completed, and its place is taken then (R311, R313, R319). -/
def State.startHome (s : State) (c : Ctx) (k : Ctl) (o : Op) (good : List GoodLane) (late : Bool) (mk : Acc → Thread → Acc) : State :=
  let v := o.verdict && good.any fun e => lanesWait e.2.2
  let (s, accs) := s.numbered c.g.team (good.map fun e => mk (s.accFor e.1 e.2.1 e.2.2 0 o.d) e.1)
  let (s, accs) := if late || c.g.team.shadow then (s, accs) else s.placeAll c.g.team accs
  s.beginOp c { o with all := c.spread k, verdict := v, accs := accs }

def execAtom (k : Ctl) (noret : Bool) (d a b c0 : Reg) (op : AtomOp) (wide : Bool) (scope : Scope) (order : AtomOrder) (s : State) : Out :=
  let n := if wide then 2 else 1
  let regs := two a ++ regsFrom b n ++ (if noret then [] else regsFrom d n) ++ (if op = .cas then regsFrom c0 n else [])
  memWord 2 k regs s (fun h => addrOf h a 0) (4 * n) (4 * n) .atomic fun c good s =>
    s.startHome c k { c.op 2 (.atom op wide order.rel order.acq scope.code noret) with d := d.toNat, verdict := true, len := 2 } good order.rel fun x h =>
      { x with size := 4 * n, opnd := h.regNat b.toNat n, cmp := if op = .cas then h.regNat c0.toNat n else 0 }

/-! ### stna (R291) -/


/-- The stores of a stna: each goes straight home and its outcome is its answer (R245, R291). -/
def State.startStna (s : State) (c : Ctx) (k : Ctl) (pd : Pred) (good : List (GoodLane × List Byte)) : State :=
  let o : Op := { c.op 2 .stna with pd := pd.toNat, all := c.spread k, len := 2 }
  if c.l.redundant then
    if s.heldFull c.g.team then s.holdWord c 11
    else
      let (s, ask) := s.numbered c.g.team (storeAccs s good)
      if c.g.team.shadow then s.beginOp c { o with accs := ask }
      else
        let (s, accs) := ask.foldl (fun (r : State × List Acc) a =>
          let (s, f) := r.1.reserve c.l.id a.key (leBytes a.opnd a.size)
          let s := s.feed c.g.team a.thread a.nth [0, 0, bit (f = 0)]
          let s := if f = 0 then s.holdStore c.g.team a.thread a.va (leBytes a.opnd a.size) none else s
          (s, r.2 ++ [{ a with done := true, ok := decide (f = 0) }])) (s, [])
        s.beginOp c { o with accs := accs, isReady := true }
  else
    let (s, accs) := good.foldl (fun (r : State × List Acc) e =>
      let a := r.1.accFor e.1.1 e.1.2.1 e.1.2.2 e.2.length 0
      let (w, s) := r.1.storeBy c.g.team e.1.1.idx e.1.2.1 e.1.2.2 e.2 true
      (s, r.2 ++ [{ a with ws := w.toList }])) (s, [])
    s.beginOp c { o with accs := accs, verdict := good.any fun e => e.1.2.2.moving }

def execStna (k : Ctl) (m : StnaSize) (d a : Reg) (disp : Bits16) (pd : Pred) (s : State) : Out :=
  memWord 2 k (two a ++ regsFrom d ((m.bytes + 3) / 4)) s (fun h => addrOf h a (simm disp)) m.bytes m.bytes .write fun c good s =>
    s.startStna c k pd (good.map fun e => (e, leBytes (e.1.regNat d.toNat ((m.bytes + 3) / 4)) m.bytes))

end Sys2Proof.Machine
end

