-- ==== Sys2Proof/Machine/Standing.lean ====
section
/-! DEFINITION. Class 2, the region and mooring words: lds, unsl, enumpg, pgq, append, seal, free (R292 to R302) and fence (R307, R313, R321). -/
namespace Sys2Proof.Machine

/-! ### lds, unsl (R297 to R301) -/

/-- Bytes of a moored word. -/
def ldsBytes : LdsSize → Nat
  | .n32 => 4
  | .n64 => 8

/-- The slot that a register names. -/
def slotReg (h : Thread) (r : Reg) : Nat := h.v r % 256

/-- Tag bit 15 of a slot's record says that it is moored (R248). -/
def slotMoored (l : Launch) (t : Team) (half i : Nat) : Bool := bitAt (slotTag l t half i) 15

/-- An lds of the team that issued before a name and names a slot of the core has not been performed. -/
def State.ldsPending (s : State) (id : TeamId) (core slot upto : Nat) : Bool :=
  s.ops.any fun o => o.team == id && o.core == core && decide (o.id < upto) && (match o.kind with
    | .lds _ => o.accs.any fun a => !a.done && a.opnd == slot
    | _ => false)

def execLds (k : Ctl) (sz : LdsSize) (d a : Reg) (pd : Pred) (s : State) : Out :=
  let n := ldsBytes sz
  issue 1 (two a ++ regsFrom d (n / 4)) s fun c s =>
    let hs := c.actors k
    let out := hs.filter fun h => decide (c.l.slots ≤ slotReg h d)
    let low := hs.filter fun h => decide (slotReg h d < c.l.slots)
    let (good, bad) := s.checkLanes c low (fun h => addrOf h a 0) n n .read
    let bad := (out.map fun h => ({ thread := h.idx, cls := clsPermission, addr := addrOf h a 0 } : LaneFault)) ++ bad
    let s := (s.keepXlats c good).parkBad c k 1 bad
    if !s.running c.gid then s
    else if good.isEmpty then s.endWord c 1
    else
      let (s, accs) := s.numbered c.g.team (good.map fun e => { s.accFor e.1 e.2.1 e.2.2 n d.toNat with opnd := slotReg e.1 d })
      s.beginOp c { c.op 2 (.lds (sz = .n64)) with accs := accs, all := c.spread k, pd := pd.toNat, d := d.toNat }

/-- The mooring that holds a slot of a team on a core. -/
def State.mooringOf (s : State) (id : TeamId) (core slot : Nat) : Option Mooring :=
  findBy (fun m => m.team == id && m.core == core && m.slot == slot) s.moorings

/-- Remove a mooring at its home. -/
def State.unmoor (s : State) (mid : Nat) : State := { s with moorings := s.moorings.filter fun m => m.mid != mid }

def execUnsl (k : Ctl) (a : Reg) (s : State) : Out :=
  issue 1 (one a) s fun c s =>
    let hs := c.actors k
    let bad := hs.filter fun h => decide (c.l.slots ≤ slotReg h a)
    let good := hs.filter fun h => decide (slotReg h a < c.l.slots)
    let s := s.parkBad c k 1 (bad.map fun h => { thread := h.idx, cls := clsPermission })
    if !s.running c.gid then s
    else if good.isEmpty then s.endWord c 1
    else
      let (s, accs) := s.numbered c.g.team (good.map fun h => { thread := h.idx, va := 0, key := 0, size := 0, home := 0, vec := {}, opnd := slotReg h a })
      s.beginOp c { c.op 2 .unsl with accs := accs }

/-! ### enumpg, pgq (R292 to R294) -/

/-- Lanes whose address lies in a DEFAULT or APPEND region, and the PERMISSION of the others (R292). -/
def inRegions (good : List GoodLane) : List GoodLane × List LaneFault :=
  (good.filter fun e => e.2.2.region.isSome,
   (good.filter fun e => e.2.2.region.isNone).map fun e => { thread := e.1.idx, cls := clsPermission, addr := e.2.1 })

/-- Queries answered at home: one operation over the good lanes. -/
def State.startQuery (s : State) (c : Ctx) (k : Ctl) (o : Op) (good : List GoodLane) (bad : List LaneFault) (mk : Acc → Thread → Acc) : State :=
  let s := (s.keepXlats c good).parkBad c k o.len bad
  if !s.running c.gid then s
  else if good.isEmpty then s.endWord c o.len
  else
    let (s, accs) := s.numbered c.g.team (good.map fun e => mk (s.accFor e.1 e.2.1 e.2.2 0 o.d) e.1)
    s.beginOp c { o with accs := accs, all := c.spread k }

def execEnumpgNext (k : Ctl) (d a b : Reg) (s : State) : Out :=
  issue 2 (two a ++ two d ++ one b) s fun c s =>
    let (good, bad) := s.checkLanes c (c.actors k) (fun h => addrOf h a 0) 1 1 .read
    let (good, out) := inRegions good
    s.startQuery c k { c.op 2 .enumNext with d := d.toNat, len := 2 } good (bad ++ out) fun x h => { x with opnd := h.v b }

/-- The first declared buffer of a team on a core that overlaps a range of its scratchpad there. -/
def bufOver (core lo hi : Nat) (bs : List Buf) : Option Buf :=
  findBy (fun b => b.core == core && decide (b.base < hi) && decide (lo < b.base + b.len)) bs

/-- The end of the part of the allocation below the mooring area (R248). -/
def Launch.scratchTop (l : Launch) : Nat := l.scratch - 16 * l.slots

/-- The checks of a bitmap's place, in the order of R292. -/
def mapFault (c : Ctx) (o n : Nat) (h : Thread) (va : Nat) : Option LaneFault :=
  if o % 4 ≠ 0 then some { thread := h.idx, cls := clsMisalign, addr := va }
  else if c.l.scratchTop < o + n then some { thread := h.idx, cls := clsPermission, addr := va }
  else (bufOver c.core o (o + n) c.t.bufs).map fun b => { thread := h.idx, cls := clsBufState, detail := b.st, addr := va }

def execEnumpgMap (k : Ctl) (a b c0 : Reg) (words : Bits8) (s : State) : Out :=
  issue 2 (two a ++ one b ++ one c0) s fun c s =>
    let n := 4 * (words.toNat + 1)
    let (good, bad) := s.checkLanes c (c.actors k) (fun h => addrOf h a 0) 1 1 .read
    let (good, out) := inRegions good
    let wrong := good.filterMap fun e => mapFault c (e.1.v c0) n e.1 (e.1.v c0)
    let good := good.filter fun e => (mapFault c (e.1.v c0) n e.1 0).isNone
    s.startQuery c k { c.op 2 (.enumMap (words.toNat + 1)) with len := 2 } good (bad ++ out ++ wrong) fun x h => { x with opnd := h.v b, d := h.v c0 }

def execPgq (k : Ctl) (d a : Reg) (s : State) : Out :=
  issue 1 (two a ++ two d) s fun c s =>
    let (good, bad) := s.checkLanes c (c.actors k) (fun h => addrOf h a 0) 1 1 .read
    s.startQuery c k { c.op 2 .pgq with d := d.toNat } good bad fun x _ => x

/-! ### append (R295) -/

/-- The bytes a participant contributes, of its quad. -/
def appendBytes (h : Thread) (b : Reg) (n : Nat) : List Byte := leBytes (h.regNat b.toNat 4) n

/-- The claim's operation for the remaining participants: data written straight home take their stamps at issue; in a redundant team the claim alone does, its data when they are released (R311, R327). -/
def State.startAppend (s : State) (c : Ctx) (k : Ctl) (d b c0 : Reg) (rest : List Thread) (va : Nat) (tr : Tr) : State :=
  let o : Op := { c.op 2 .append with d := d.toNat, all := c.spread k, verdict := true, len := 2 }
  if s.heldFull c.g.team then s.holdWord c 11
  else
    let (s, accs) := s.numbered c.g.team (rest.map fun h => { s.accFor h va tr (h.v c0) d.toNat with opnd := h.regNat b.toNat 4 })
    if c.g.team.shadow then s.beginOp c { o with accs := accs }
    else if c.l.redundant then
      let (s, first) := s.placeAll c.g.team (accs.take 1)
      s.beginOp c { o with accs := first ++ accs.drop 1 }
    else
      let (s, accs) := accs.foldl (fun (r : State × List Acc) a =>
        if a.size = 0 then (r.1, r.2 ++ [a]) else let x := r.1.placeAll c.g.team [a]; (x.1, r.2 ++ x.2)) (s, [])
      s.beginOp c { o with accs := accs }

def execAppend (k : Ctl) (d a b c0 : Reg) (s : State) : Out :=
  issue 2 (two d ++ two a ++ regsFrom b 4 ++ one c0) s fun c s =>
    let hs := c.actors k
    let big := hs.filter fun h => decide (16 < h.v c0)
    match hs.filter fun h => decide (h.v c0 ≤ 16) with
    | [] =>
      let s := s.parkBad c k 2 (big.map fun h => { thread := h.idx, cls := clsAppendOrder, addr := addrOf h a 0 })
      if s.running c.gid then s.endWord c 2 else s
    | h :: r =>
      let va := addrOf h a 0
      let s := s.parkBad c k 2 (big.map fun h => { thread := h.idx, cls := clsAppendOrder, addr := addrOf h a 0 })
      if !s.running c.gid then s
      else
        match s.checkAppend (s.core c.core).tlb c.l.tenant c.l.asid va with
        | .error f =>
          let s := if k.u then s.parkWhole c.gid { cls := f, detail := 0, addr := va, len := 2 }
            else s.parkLanes c.gid ((h :: r).map (·.idx)) { cls := f, detail := 0, addr := va, len := 2 }
          if s.running c.gid then s.endWord c 2 else s
        | .ok tr => s.startAppend c k d b c0 (h :: r) va tr

/-! ### seal, free (R273, R276, R296) -/

/-- A free that waits takes effect once the region's claims are written or its seal is reached. -/
def Region.tryFree (r : Region) : Region :=
  if r.freeWait && (r.st = 2 || (r.st = 0 && r.t = r.c)) then { r with st := 3, freeWait := false } else r

/-- The seal event at home (R273). -/
def State.sealAt (s : State) (id : RegionId) (launch : Option Nat) : State :=
  (s.noteAppend id launch).updRegion id fun r => if r.st = 0 then { r with st := 1 } else r

/-- The free event at home (R273). -/
def State.freeAt (s : State) (id : RegionId) (launch : Option Nat) : State :=
  (s.noteAppend id launch).updRegion id fun r => if r.st = 3 || r.freeWait then r else ({ r with freeWait := true, freeLaunch := launch } : Region).tryFree

/-- A word that acts once per issue on the APPEND region of the leading active member's address (R296). -/
def regionWord (k : Ctl) (a : Reg) (s : State) (isSeal : Bool) : Out :=
  issue 1 (two a) s fun c s =>
    match c.lead k with
    | none => s.endWord c 1
    | some h =>
      let va := addrOf h a 0
      match s.checkAppend (s.core c.core).tlb c.l.tenant c.l.asid va with
      | .error f => s.parkWhole c.gid { cls := f, detail := 0, addr := va }
      | .ok tr =>
        match tr.region with
        | none => s.endWord c 1
        | some r =>
          let acc : Acc := s.accFor h va tr 0 0
          let o : Op := { c.op 2 (if isSeal then .seal r.id else .free r.id) with accs := [acc], all := (c.active k).map (·.idx) }
          let s' := s.addOp o
          if c.l.redundant then
            let s' := if c.g.team.shadow then s' else s'.updTeam c.g.team fun t =>
              { t with held := t.held ++ [{ id := s.nextId, thread := h.idx, va := r.base, bytes := [], submit := some (if isSeal then 256 else 257, s.nextId) }] }
            s'.endWord c 1
          else if isSeal then
            let done := r.st ≥ 2
            (((s'.sealAt r.id (some c.l.id)).updOp s.nextId fun o => { o with isReady := done })).endWord c 1
          else (s'.freeAt r.id (some c.l.id)).endWord c 1

def execSealRegion (k : Ctl) (a : Reg) (s : State) : Out := regionWord k a s true
def execFreeRegion (k : Ctl) (a : Reg) (s : State) : Out := regionWord k a s false

/-! ### fence (R307, R313, R321) -/

/-- Codes of the order of a fence. -/
def fenceCode : FenceOrder → Nat
  | .acq => 0
  | .rel => 1
  | .acqrel => 2
  | .sc => 3
def codeReleases (o : Nat) : Bool := o != 0
def codeAcquires (o : Nat) : Bool := o != 1

def execFence (k : Ctl) (order : FenceOrder) (scope : Scope) (s : State) : Out :=
  issue 1 [] s fun c s =>
    let hs := c.actors k
    if hs.isEmpty then s.endWord c 1
    else
      let compares := c.l.redundant && decide (4 ≤ scope.code)
      let accs := hs.map fun h => ({ thread := h.idx, va := 0, key := 0, size := 0, home := 0, vec := {}, ok := !compares } : Acc)
      (s.addOp { c.op 2 (.fence (fenceCode order) scope.code) with accs := accs }).endWord c 1

/-- A write precedes a fence of a thread (R313). -/
def Write.precedes (w : Write) (v : VC) : Bool := decide (w.stamp ≤ v.get w.origin)

/-- A scope reaches beyond the core: pair scope acts as team scope in a single-core launch (R313). -/
def wideScope (l : Launch) (scope : Nat) : Bool := decide (4 ≤ scope) || (decide (scope = 3) && l.pair)

/-- A release of a thread at a scope, counting the operations before a name, has completed (R313). -/
def State.released (s : State) (id : TeamId) (i before scope : Nat) : Bool :=
  let h := s.thread id i
  !(s.ops.any fun o => o.holdsFence id i before) &&
  (!wideScope (s.launch id.launch) scope || !(s.writes.any fun w => w.precedes h.obs))

/-- A fence may complete for every one of its threads. -/
def State.fenceReady (s : State) (o : Op) (order scope : Nat) : Bool :=
  o.accs.all fun a => a.ok && s.acquired o.team a.thread o.id && (!codeReleases order || s.released o.team a.thread o.id scope)

/-- This module is the lowest-numbered of its fabric, so that its hub is the sequencer of fabric scope too (R321, R459). -/
def State.lowestHere (s : State) : Bool := s.routes.all fun r => decide (s.fabId ≤ r.1)

/-- The sequencer of a scope merges with a thread, both ways, in one step (R321). -/
def State.sequence (s : State) (id : TeamId) (i core scope : Nat) : State :=
  let o := (s.thread id i).obs
  if scope ≤ 4 then
    let v := (s.die (dieOfCore core)).sc.max o
    (s.updDie (dieOfCore core) fun d => { d with sc := v }).updThread id i fun h => { h with obs := v }
  else if scope ≤ 6 || s.lowestHere then
    let v := s.scPackage.max o
    ({ s with scPackage := v } : State).updThread id i fun h => { h with obs := v }
  else
    let v := s.scFabric.max o
    ({ s with scFabric := v } : State).updThread id i fun h => { h with obs := v }

/-- A fence completes: its sc step, then the drop of its acquire (R313, R321). -/
def State.fenceDone (s : State) (o : Op) (order scope : Nat) : State :=
  let s := if order = 3 then o.accs.foldl (fun s a => s.sequence o.team a.thread o.core scope) s else s
  if codeAcquires order && wideScope (s.launch o.team.launch) scope then s.acquireCore o.core else s

end Sys2Proof.Machine
end

