-- ==== Sys2Proof/Machine/Scratch.lean ====
section
/-! DEFINITION. Class 2, the scratchpad: declared buffers' states (R251 to R256), uniform marks (R250), ldsc and stsc (R287), and the tag table (R303, R304). Offsets of the follower core of a pair stand above those of the leader. -/
namespace Sys2Proof.Machine

/-- Kinds of access to a declared buffer (R252). -/
inductive BufUse where
  | fill
  | read
  | consume
  deriving DecidableEq, Repr

/-- The state of a buffer after an access, or BUF_STATE with the state found (R253). -/
def bufNext (u : BufUse) (st : Nat) : Except Nat Nat :=
  match u, st with
  | .fill, 0 => .ok 1
  | .fill, 1 => .ok 1
  | .fill, n => .error n
  | .read, 0 => .error 0
  | .read, n => .ok n
  | .consume, 2 => .ok 3
  | .consume, 3 => .ok 3
  | .consume, n => .error n

/-- One access of some ranges to the buffers of a core: their states after it, or the state found. A word never touches a compressed buffer (R255). -/
def useBufs (u : BufUse) (byWord : Bool) (core : Nat) (ranges : List (Nat × Nat)) : List Buf → Except Nat (List Buf)
  | [] => .ok []
  | b :: r =>
    match useBufs u byWord core ranges r with
    | .error n => .error n
    | .ok r' =>
      if b.core == core && ranges.any fun g => decide (b.base < g.2) && decide (g.1 < b.base + b.len) then
        if byWord && b.cmp then .error b.st
        else
          match bufNext u b.st with
          | .ok n => .ok ({ b with st := n } :: r')
          | .error n => .error n
      else .ok (b :: r')

/-- The scratchpad's byte key of an offset on a half of the team. -/
def scratchKey (half off : Nat) : Nat := half * halfBytes + off

/-- Clear the uniform marks of the granules a range touches (R250). -/
def clearMarks (m : Store Bool) (lo hi : Nat) : Store Bool :=
  if hi ≤ lo then m else m.filter fun e => !(decide (lo / 64 ≤ e.1) && decide (e.1 ≤ (hi - 1) / 64))

/-- Write scratchpad bytes; their granules' marks clear. -/
def Team.putScratch (t : Team) (key : Nat) (bs : List Byte) : Team :=
  { t with scratch := writeBytes t.scratch key bs, marks := clearMarks t.marks key (key + bs.length)
           badScratch := t.badScratch.filter fun e => decide (e.1 < key) || decide (key + bs.length ≤ e.1) }

/-- Scratchpad bytes of a half carry an uncorrectable error (R241, R444). -/
def Team.badBytes (t : Team) (half lo hi : Nat) : Bool :=
  t.badScratch.any fun e => e.2 && decide (scratchKey half lo ≤ e.1) && decide (e.1 < scratchKey half hi)

/-- The half of the team that stands on the issuing core. -/
def Ctx.half (c : Ctx) : Nat := c.core - c.t.core

/-- The bank of a byte of a core's scratchpad, under the rotation code of the declared buffer that holds it; 0 outside every one (R206). -/
def scratchBank (core : Nat) (bs : List Buf) (o : Nat) : Nat :=
  match findBy (fun b => b.core == core && decide (b.base ≤ o) && decide (o < b.base + b.len)) bs with
  | some b => ((o - b.base) / 4 + b.rot * ((o - b.base) / 128)) % 32
  | none => (o / 4) % 32

/-- Port cycles that accesses to some offsets in one cycle lose: a bank serves one of its words in a cycle, to every access of it (R206, R410; DESIGN CHOICE, log entry 68). -/
def bankLost (core : Nat) (bs : List Buf) (os : List Nat) : Nat :=
  let ws := (os.map fun o => o / 4 * 4).eraseDups
  (List.range 32).foldl (fun n k => Nat.max n ((ws.filter fun o => scratchBank core bs o == k).length - 1)) 0

/-- Event 0x46 of a scratchpad word: what each of its issue halves loses (R16, R410). -/
def State.countBanks (s : State) (c : Ctx) (es : List (Nat × Nat)) : State :=
  s.count (4096 + c.core) 0x46
    (bankLost c.core c.t.bufs ((es.filter fun e => decide (c.l.laneOf e.1 < 32)).map (·.2)) + bankLost c.core c.t.bufs ((es.filter fun e => decide (32 ≤ c.l.laneOf e.1)).map (·.2)))

/-- The clock of the mooring record that an access reads (R323). -/
def recordClk (l : Launch) (t : Team) (half off : Nat) : VC :=
  if l.scratchTop ≤ off && off < l.scratch then Store.get {} t.slotClk (half * 256 + (off - l.scratchTop) / 16) else {}

/-- The offset of a scratchpad word of format I, modulo 2^32 (DEDUCED, log entry 11). -/
def scratchOff (h : Thread) (a : Reg) (imm : Imm8) : Nat := wrapTo 32 ((h.v a : Int) + simm imm * 4)

/-- One lane of ldsc: its access, or its fault, with the team's buffers after it. -/
def ldscLane (c : Ctx) (a d : Reg) (imm : Imm8) (h : Thread) (bufs : List Buf) : Except LaneFault Acc :=
  let o := scratchOff h a imm
  if o % 4 ≠ 0 then .error { thread := h.idx, cls := clsMisalign, addr := o }
  else if c.l.scratch < o + 4 then .error { thread := h.idx, cls := clsPermission, addr := o }
  else
    match useBufs .read true c.core [(o, o + 4)] bufs with
    | .error n => .error { thread := h.idx, cls := clsBufState, detail := n, addr := o }
    | .ok _ =>
      if c.t.badBytes c.half o (o + 4) then .error { thread := h.idx, cls := clsEcc, detail := 2, addr := o }
      else .ok { thread := h.idx, va := o, key := 0, size := 4, home := 0, vec := {}, d := d.toNat, done := true
                 val := leNat (readBytes c.t.scratch (scratchKey c.half o) 4), clk := recordClk c.l c.t c.half o }

/-- Split a list of answers. -/
def splitExcept {α : Type} : List (Except LaneFault α) → List α × List LaneFault
  | [] => ([], [])
  | .ok x :: r => (x :: (splitExcept r).1, (splitExcept r).2)
  | .error f :: r => ((splitExcept r).1, f :: (splitExcept r).2)

def execLdsc (k : Ctl) (d a : Reg) (imm : Imm8) (s : State) : Out :=
  issue 1 (one a ++ one d) s fun c s =>
    let (accs, bad) := splitExcept ((c.actors k).map fun h => ldscLane c a d imm h c.t.bufs)
    let s := (s.countBanks c (accs.map fun a => (a.thread, a.va))).parkBad c k 1 bad
    if !s.running c.gid then s
    else if accs.isEmpty then s.endWord c 1
    else (s.addOp { c.op 2 (.load 4 false) with accs := accs, all := c.spread k, isReady := true }).endWord c 1

/-- One lane of stsc: the team after it, or its fault. -/
def stscLane (c : Ctx) (d a : Reg) (imm : Imm8) (t : Team) (h : Thread) : Except LaneFault Team :=
  let o := scratchOff h a imm
  if o % 4 ≠ 0 then .error { thread := h.idx, cls := clsMisalign, addr := o }
  else if c.l.scratchTop < o + 4 then .error { thread := h.idx, cls := clsPermission, addr := o }
  else
    match useBufs .fill true c.core [(o, o + 4)] t.bufs with
    | .error n => .error { thread := h.idx, cls := clsBufState, detail := n, addr := o }
    | .ok bs => .ok { (t.putScratch (scratchKey c.half o) (leBytes (h.v d) 4)) with bufs := bs }

def execStsc (k : Ctl) (d a : Reg) (imm : Imm8) (s : State) : Out :=
  issue 1 (one a ++ one d) s fun c s =>
    let (t, bad) := (c.actors k).foldl (fun (r : Team × List LaneFault) h =>
      match stscLane c d a imm r.1 h with
      | .ok t => (t, r.2)
      | .error f => (r.1, r.2 ++ [f])) (c.t, [])
    let s := s.countBanks c (((c.actors k).filter fun h => !bad.any fun f => f.thread == h.idx).map fun h => (h.idx, scratchOff h a imm))
    let s := (s.updTeam c.g.team fun x => { x with scratch := t.scratch, marks := t.marks, badScratch := t.badScratch, bufs := t.bufs }).parkBad c k 1 bad
    if s.running c.gid then s.endWord c 1 else s

/-! ### The tag table (R303, R304) -/

/-- The key of a team's tag entry on the issuing core. -/
def tagKey (half i : Nat) : Nat := half * 512 + i

/-- The lowest valid entry below n that holds a key. -/
def tagFind (t : Team) (half key n : Nat) : Option (Nat × Tag) :=
  (List.range n).findSome? fun i => match Store.get none t.tags (tagKey half i) with
    | some e => if e.key = key then some (i, e) else none
    | none => none

def execTlook (k : Ctl) (d a : Reg) (s : State) : Out :=
  laneVariable 1 2 k (two a ++ one d) s fun c h => wreg d (match tagFind c.t c.half (h.pair a) c.l.tagCount with
    | some (i, e) => i * 2 ^ 16 + e.val
    | none => 2 ^ 32 - 1)

/-- A word that changes one entry in each acting lane; an index at or above e faults PERMISSION. -/
def tagWord (k : Ctl) (regs : List Nat) (s : State) (idx : Thread → Nat) (val : Thread → Option Tag) : Out :=
  issue 1 regs s fun c s =>
    let hs := c.actors k
    let bad := hs.filter fun h => decide (c.l.tagCount ≤ idx h)
    let s := (hs.filter fun h => decide (idx h < c.l.tagCount)).foldl (fun s h =>
      s.updTeam c.g.team fun t => { t with tags := Store.set none t.tags (tagKey c.half (idx h)) (val h) }) s
    let s := s.parkBad c k 1 (bad.map fun h => { thread := h.idx, cls := clsPermission })
    if s.running c.gid then s.endWord c 1 else s

def execTset (k : Ctl) (d a b : Reg) (s : State) : Out :=
  tagWord k (one d ++ two a ++ one b) s (fun h => h.v d % 512) fun h => some ⟨h.pair a, h.v b % 2 ^ 16⟩
def execTclr (k : Ctl) (a : Reg) (s : State) : Out :=
  tagWord k (one a) s (fun h => h.v a % 512) fun _ => none

def execTclrAll (k : Ctl) (s : State) : Out :=
  issue 1 [] s fun c s =>
    match c.lead k with
    | some _ => (s.updTeam c.g.team fun t => { t with tags := [] }).endWord c 1
    | none => s.endWord c 1

end Sys2Proof.Machine
end

