-- ==== Sys2Proof/Machine/Matrix.lean ====
section
/-! DEFINITION. Class 3: the matrix array and accumulator tiles (R115 to R119, R198 to R237). A word is checked and its register operands are taken at issue; it acts on latches, tiles and scratchpad when it retires, in arrival order (R216). -/
namespace Sys2Proof.Machine

/-! ### Formats, modes and sub-arrays (R199, R200, R209) -/

def fmtCode : MxFmt → Nat
  | .bf16 => 0
  | .f16 => 1
  | .e4m3 => 2
  | .e5m2 => 3
  | .w4 => 4
  | .i8 => 5
  | .n8 => 6
def modeCode : MxMode → Nat
  | .m32x32 => 0
  | .m32x64 => 1
  | .m64x64 => 2
/-- Products per pass and position, d (R116, R209). -/
def fmtD (f : Nat) : Nat := if f ≤ 1 then 1 else if f = 4 then 4 else 2
/-- Row bytes of a K block (R205). -/
def rowLen (f : Nat) : Nat := if f = 4 then 68 else 64
/-- K blocks of a mode (R200). -/
def kbOf (mode : Nat) : Nat := if mode = 0 then 1 else if mode = 3 then 4 else 2
/-- Column blocks, N / 32. -/
def nbOf (mode : Nat) : Nat := if mode ≤ 1 then 1 else 2
/-- The unfenced physical sub-arrays, ascending (R199). -/
def Core.logical (c : Core) : List Nat := (List.range 4).filter fun i => !c.fenced.getLsbD i
/-- The logical sub-arrays of a mode and selector, chain by chain. -/
def logicalOf (mode sel : Nat) : List Nat := if mode = 0 then [sel] else if mode = 1 then [2 * sel, 2 * sel + 1] else [0, 1, 2, 3]
/-- The mode and selector are available on a core (R200). -/
def Core.modeOk (c : Core) (mode sel : Nat) : Bool := (logicalOf mode sel).all fun i => decide (i < c.logical.length)
/-- The cores that a word of a mode uses: both of a pair in pair mode (R201). -/
def arrayCores (mode core : Nat) : List Nat := if mode = 3 then [core, core + 1] else [core]
def State.modeOk (s : State) (core mode sel : Nat) : Bool := (arrayCores mode core).all fun c => (s.core c).modeOk mode sel
/-- An implemented pair of formats (R210). -/
def pairOkFmt (a b : Nat) : Bool :=
  (decide (a ≤ 1) && a == b) || ((a = 2 || a = 3) && (b = 2 || b = 3)) || (a = 4 && b = 4) || ((a = 5 || a = 6) && (b = 5 || b = 6))

/-! ### Scratchpad descriptors (R204 to R208) -/

/-- A descriptor pair. -/
structure Desc where
  lo : Nat
  hi : Nat
  deriving DecidableEq, Repr

def Desc.rows (d : Desc) : Nat := bitsOf d.hi 24 5 + 1
def Desc.tpitch (d : Desc) : Nat := bitsOf d.hi 12 12 * 4
def Desc.rpitch (d : Desc) : Nat := bitsOf d.hi 0 12
def Desc.rot (d : Desc) : Nat := bitsOf d.lo 29 3
def Desc.base (d : Desc) : Nat := bitsOf d.lo 0 19
/-- Its reserved bits are zero. -/
def Desc.ok (d : Desc) : Bool := decide (bitsOf d.hi 29 3 = 0) && decide (bitsOf d.lo 19 10 = 0)
def descOf (h : Thread) (a : Reg) : Desc := ⟨h.vn a.toNat, h.vn (a.toNat + 1)⟩
/-- The byte ranges of rows and blocks of a length. -/
def Desc.ranges (d : Desc) (rows blocks len : Nat) : List (Nat × Nat) :=
  (List.range blocks).flatMap fun b => (List.range rows).map fun i => let x := d.base + b * d.tpitch + i * d.rpitch; (x, x + len)

/-- The code of the area that holds ranges is not the descriptor's (R207). -/
def swizzleBad (core rot : Nat) (ranges : List (Nat × Nat)) (bs : List Buf) : Bool :=
  let meets := fun (b : Buf) (g : Nat × Nat) => decide (b.base < g.2) && decide (g.1 < b.base + b.len)
  match bs.filter fun b => b.core == core && ranges.any (meets b) with
  | [] => decide (rot ≠ 0)
  | [b] => decide (rot ≠ b.rot) || !ranges.all fun g => decide (b.base ≤ g.1) && decide (g.2 ≤ b.base + b.len)
  | _ => true

/-- Checks 3 to 6 of R219 on a descriptor's ranges: the fault class and detail, or the buffers after the access. -/
def checkDesc (c : Ctx) (write : Bool) (d : Desc) (ranges : List (Nat × Nat)) : Except (Nat × Nat) (List Buf) :=
  if ranges.any fun g => decide ((if write then c.l.scratchTop else c.l.scratch) < g.2) then .error (clsPermission, 0)
  else if d.base % 4 ≠ 0 || d.rpitch % 4 ≠ 0 then .error (clsMisalign, 0)
  else if swizzleBad c.core d.rot ranges c.t.bufs then .error (clsSwizzle, 0)
  else
    match useBufs (if write then .fill else .consume) true c.core ranges c.t.bufs with
    | .error n => .error (clsBufState, n)
    | .ok bs => if !write && ranges.any fun g => c.t.badBytes c.half g.1 g.2 then .error (clsEcc, 2) else .ok bs

/-- The tiles of a span are the team's (R202). -/
def spanOk (c : Ctx) (t n : Nat) : Bool := decide (t + n ≤ c.l.tiles)

/-- The tiles that accz clears. -/
def acczTiles : AcczCount → Nat
  | .one => 1
  | .two => 2
  | .four => 4

/-- The tiles that a matrix word writes or reads: first and count. -/
def tilesOf (w : Nat) : Instr → List (Nat × Nat)
  | .mma _ m t _ _ src _ _ => [(t.toNat, nbOf (modeCode m) * (if !src && w = 64 then 2 else 1))]
  | .mmapr _ t _ _ src _ => [(t.toNat, 2 * (if !src && w = 64 then 2 else 1))]
  | .accz _ m t => [(t.toNat, acczTiles m)]
  | .accld _ t _ => [(t.toNat, 1)]
  | .accst _ t _ => [(t.toNat, 1)]
  | .acccvt _ t _ _ _ _ _ _ => [(t.toNat, 1)]
  | .accmovGet _ t _ _ => [(t.toNat, if w = 64 then 2 else 1)]
  | .accmovPut _ t _ _ => [(t.toNat, if w = 64 then 2 else 1)]
  | .accadd _ _ t x _ => [(t.toNat, 1), (x.toNat, 1)]
  | .acctr _ t x => [(t.toNat, 1), (x.toNat, 1)]
  | _ => []

/-! ### Bindings (R211, R227) -/

/-- Every granule of a range is marked uniform. -/
def allMarked (t : Team) (half lo n : Nat) : Bool :=
  let a := scratchKey half lo
  decide (0 < n) && (List.range ((a + n - 1) / 64 - a / 64 + 1)).all fun i => Store.get false t.marks (a / 64 + i)

/-- The rows of a binding that are uniform now (R227). -/
def Binding.sample (b : Binding) (l : Launch) (t : Team) : List Bool :=
  let half := b.core - t.core
  (Desc.ranges ⟨b.lo, b.hi⟩ 32 (nbOf b.mode * kbOf b.mode) (rowLen b.fmt)).map fun g => l.skipUniform && allMarked t half g.1 (g.2 - g.1)

/-- The bytes of a binding's rows now. -/
def Binding.read (b : Binding) (t : Team) : List Byte :=
  (Desc.ranges ⟨b.lo, b.hi⟩ 32 (nbOf b.mode * kbOf b.mode) (rowLen b.fmt)).flatMap fun g => readBytes t.scratch (scratchKey (b.core - t.core) g.1) (g.2 - g.1)

/-! ### Issue -/

/-- Park the whole group with a matrix word's fault (R219). -/
def State.matrixFault (s : State) (c : Ctx) (len cls detail : Nat) : State := s.parkWhole c.gid { cls := cls, detail := detail, addr := 0, len := len }

/-- The tiles that a matrix word reads, among those it names. -/
def tileReads (w : Nat) (i : Instr) : List (Nat × Nat) :=
  match i with
  | .mma _ _ _ _ z _ _ _ => if z then [] else tilesOf w i
  | .mmapr _ _ _ z _ _ => if z then [] else tilesOf w i
  | .accz _ _ _ => []
  | .accld _ _ _ => []
  | .accmovPut _ _ _ _ => []
  | .acctr _ _ x => [(x.toNat, 1)]
  | _ => tilesOf w i

/-- Words of some tiles of a half carry an uncorrectable error (R241, R444). -/
def Team.badTile (t : Team) (half : Nat) (ts : List (Nat × Nat)) : Bool :=
  t.badTiles.any fun e => e.2 && ts.any fun x => decide ((half * 64 + x.1) * 1024 ≤ e.1) && decide (e.1 < (half * 64 + x.1 + x.2) * 1024)

/-- The word that makes a binding has yet to start in the array, and latches it then (R216, R226). -/
def State.toLatch (s : State) (b : Binding) : Bool :=
  s.ops.any fun o => (o.bind.map (·.serial)) == some b.serial && (match o.kind with
    | .matrix (.wld _ _ _ _ _) => true
    | .matrix (.wldpr _ _ _) => true
    | _ => false)

/-- An issued matrix word: its operation joins the array's port; its clause goes on. One that reads a tile with an uncorrectable error faults last of all (R219, R444). -/
def State.startMatrix (s : State) (c : Ctx) (i : Instr) (len : Nat) (accs : List Acc) (all : List Nat) (bind : Option Binding) : State :=
  if c.t.badTile c.half (tileReads c.l.w i) then s.matrixFault c len clsEcc 2
  else (s.addOp { c.op 3 (.matrix i) with accs := accs, all := all, len := len, bind := bind, rebind := bind.bind fun b => if s.toLatch b then none else some { b with data := b.read c.t, skip := b.sample c.l c.t } }).endWord c len

/-- What a member gives a matrix word: its lane and register operands. -/
def laneArg (c : Ctx) (h : Thread) (x y : Nat) : Acc :=
  { thread := h.idx, va := 0, key := 0, size := 0, home := 0, vec := h.obs, d := c.lane h, opnd := x, cmp := y }

/-- A word of class 3 that acts once per issue with the leading active member's operands (R512). -/
def onceWord (len : Nat) (k : Ctl) (regs : List Nat) (s : State) (f : Ctx → Thread → State → State) : Out :=
  issue len regs s fun c s =>
    match c.lead k with
    | none => s.endWord c len
    | some h => f c h s

/-- A word on tiles and a descriptor: checks 3 to 6, then its operation (R219, R221, R222). -/
def State.descWord (s : State) (c : Ctx) (h : Thread) (i : Instr) (len t n : Nat) (write : Bool) (d : Desc) (ranges : List (Nat × Nat)) : State :=
  if !d.ok then s.matrixFault c len clsEnc 0
  else if !spanOk c t n then s.matrixFault c len clsPermission 0
  else
    match checkDesc c write d ranges with
    | .error e => s.matrixFault c len e.1 e.2
    | .ok bs => (s.updTeam c.g.team fun x => { x with bufs := bs }).startMatrix c i len [laneArg c h d.lo d.hi] [] none

/-- Logical sub-arrays shared by two modes and selectors on cores. -/
def bindOverlap (b : Binding) (core mode sel : Nat) : Bool :=
  (arrayCores b.mode b.core).any (arrayCores mode core).contains && (logicalOf b.mode b.sel).any (logicalOf mode sel).contains

/-- wld and wldpr (R213). -/
def State.startWld (s : State) (c : Ctx) (h : Thread) (i : Instr) (mode sel fmt : Nat) (d : Desc) : State :=
  if !d.ok then s.matrixFault c 2 clsEnc 0
  else if !s.modeOk c.core mode sel then s.matrixFault c 2 clsCombo 2
  else
    match checkDesc c false d (d.ranges 32 (nbOf mode * kbOf mode) (rowLen fmt)) with
    | .error e => s.matrixFault c 2 e.1 e.2
    | .ok bs =>
      let b : Binding := { serial := s.nextId, core := c.core, lo := d.lo, hi := d.hi, fmt := fmt, mode := mode, sel := sel }
      let s := { s with nextId := s.nextId + 1 }
      let s := s.updTeam c.g.team fun x => { x with bufs := bs, bindings := (x.bindings.filter fun y => !bindOverlap y c.core mode sel) ++ [b] }
      let s := if mode = 3 then s.updCore (c.core + 1) fun x => { x with slaved := true } else s
      s.startMatrix c i 2 [laneArg c h d.lo d.hi] [] (some b)

def execWld (k : Ctl) (m : MxMode) (a : Reg) (sel : Bits2) (fmt : MxFmt) (s : State) : Out :=
  onceWord 2 k (two a) s fun c h s => s.startWld c h (.wld k m a sel fmt) (modeCode m) sel.toNat (fmtCode fmt) (descOf h a)

/-- Pair mode is for a pair launch's leader core (R201; DEDUCED, log entry 14). -/
def pairIllegal (c : Ctx) : Bool := !c.l.pair || decide (c.half ≠ 0)

def execWldpr (k : Ctl) (a : Reg) (fmt : MxFmt) (s : State) : Out :=
  onceWord 2 k (two a) s fun c h s =>
    if pairIllegal c then s.matrixFault c 2 clsEnc 0 else s.startWld c h (.wldpr k a fmt) 3 0 (fmtCode fmt) (descOf h a)

/-- The binding of a team on a core with a mode and selector. -/
def findBinding (t : Team) (core mode sel : Nat) : Option Binding :=
  findBy (fun b => b.core == core && b.mode == mode && (b.sel == sel || decide (2 ≤ mode))) t.bindings

/-- The ILLEGAL_COMBO case of an mma, 0 for none, in the order of R210. -/
def State.comboCase (s : State) (c : Ctx) (mode sel fmt : Nat) (src : Bool) : Nat :=
  if !s.modeOk c.core mode sel then 2
  else if fmt = 4 && !src then 4
  else
    match findBinding c.t c.core mode sel with
    | none => 3
    | some b => if pairOkFmt fmt b.fmt then 0 else 1

/-- The formats of an mma and of the binding that it names are no implemented pair (R70, R210). -/
def pairBad (c : Ctx) (mode sel fmt : Nat) : Bool := ((findBinding c.t c.core mode sel).map fun b => !pairOkFmt fmt b.fmt).getD false

/-- mma and mmapr (R214, R215); with src = 1 and no member's guard true, the checks of R70 alone are made: its encoding and an unimplemented pair of formats (R512). -/
def State.startMma (s : State) (c : Ctx) (k : Ctl) (i : Instr) (mode sel fmt : Nat) (t : Tile) (a : Reg) (src : Bool) : State :=
  let span := nbOf mode * (if !src && c.l.w = 64 then 2 else 1)
  let kb := kbOf mode
  let go := fun (s : State) (accs : List Acc) =>
    let s := if mode = 3 then s.updCore (c.core + 1) fun x => { x with slaved := true } else s
    s.startMatrix c i 2 accs [] (findBinding c.t c.core mode sel)
  if t.toNat % span ≠ 0 || (!src && decide (c.l.nregs < a.toNat + 16 * kb)) then s.matrixFault c 2 clsEnc 0
  else if src then
    match c.lead k with
    | none => if pairBad c mode sel fmt then s.matrixFault c 2 clsCombo 1 else s.endWord c 2
    | some h =>
      let d := descOf h a
      if mode = 3 && pairIllegal c then s.matrixFault c 2 clsEnc 0
      else if !d.ok then s.matrixFault c 2 clsEnc 0
      else if s.comboCase c mode sel fmt src ≠ 0 then s.matrixFault c 2 clsCombo (s.comboCase c mode sel fmt src)
      else if !spanOk c t.toNat span then s.matrixFault c 2 clsPermission 0
      else
        match checkDesc c false d (d.ranges d.rows kb (rowLen fmt)) with
        | .error e => s.matrixFault c 2 e.1 e.2
        | .ok bs => go (s.updTeam c.g.team fun x => { x with bufs := bs }) [laneArg c h d.lo d.hi]
  else if s.comboCase c mode sel fmt src ≠ 0 then s.matrixFault c 2 clsCombo (s.comboCase c mode sel fmt src)
  else if !spanOk c t.toNat span then s.matrixFault c 2 clsPermission 0
  else if (c.actors k).isEmpty then s.endWord c 2
  else go s ((c.actors k).map fun h => laneArg c h (h.regNat a.toNat (16 * kb)) 0)

def execMma (k : Ctl) (m : MxMode) (t : Tile) (a : Reg) (z src : Bool) (sel : Bits2) (fmt : MxFmt) (s : State) : Out :=
  issue 2 (if src then two a else one a) s fun c s => s.startMma c k (.mma k m t a z src sel fmt) (modeCode m) sel.toNat (fmtCode fmt) t a src

def execMmapr (k : Ctl) (t : Tile) (a : Reg) (z src : Bool) (fmt : MxFmt) (s : State) : Out :=
  issue 2 (if src then two a else one a) s fun c s =>
    if !src && pairIllegal c then s.matrixFault c 2 clsEnc 0
    else s.startMma c k (.mmapr k t a z src fmt) 3 0 (fmtCode fmt) t a src

/-- A word on tiles alone. -/
def tileWord (k : Ctl) (s : State) (i : Instr) (ts : List (Nat × Nat)) : Out :=
  onceWord 1 k [] s fun c _ s =>
    if !ts.all fun e => spanOk c e.1 e.2 then s.matrixFault c 1 clsPermission 0 else s.startMatrix c i 1 [] [] none

def execAccz (k : Ctl) (m : AcczCount) (t : Tile) (s : State) : Out := tileWord k s (.accz k m t) [(t.toNat, acczTiles m)]
def execAccadd (k : Ctl) (m : Round) (t src : Tile) (isI : Bool) (s : State) : Out := tileWord k s (.accadd k m t src isI) [(t.toNat, 1), (src.toNat, 1)]
def execAcctr (k : Ctl) (t src : Tile) (s : State) : Out := tileWord k s (.acctr k t src) [(t.toNat, 1), (src.toNat, 1)]
def execAccld (k : Ctl) (t : Tile) (a : Reg) (s : State) : Out :=
  onceWord 1 k (two a) s fun c h s => let d := descOf h a; s.descWord c h (.accld k t a) 1 t.toNat 1 false d (d.ranges d.rows 1 128)
def execAccst (k : Ctl) (t : Tile) (a : Reg) (s : State) : Out :=
  onceWord 1 k (two a) s fun c h s => let d := descOf h a; s.descWord c h (.accst k t a) 1 t.toNat 1 true d (d.ranges d.rows 1 128)

/-- Row bytes of an acccvt target (R222). -/
def cvtRow : CvtTarget → Nat
  | .f32 => 128
  | .f16 => 64
  | .bf16 => 64
  | .e4m3 => 32
  | .e5m2 => 32
  | .w4 => 17
  | .i8 => 32
  | .n8 => 32
  | .i32 => 128
/-- The type code of an acccvt target; w4 apart. -/
def cvtType : CvtTarget → TypeCode
  | .f32 => .f32
  | .f16 => .f16
  | .bf16 => .bf16
  | .e4m3 => .e4m3
  | .e5m2 => .e5m2
  | .w4 => .f32
  | .i8 => .i8
  | .n8 => .n8
  | .i32 => .i32

def execAcccvt (k : Ctl) (t : Tile) (a : Reg) (rnd : Round) (isI : Bool) (wt : Bits2) (sat : Bool) (tgt : CvtTarget) (s : State) : Out :=
  issue 2 (two a) s fun c s =>
    match c.lead k with
    | none => if isI && tgt = .w4 then s.matrixFault c 2 clsCombo 5 else s.endWord c 2
    | some h =>
      let d := descOf h a
      if d.ok && isI && tgt = .w4 then s.matrixFault c 2 clsCombo 5
      else s.descWord c h (.acccvt k t a rnd isI wt sat tgt) 2 t.toNat 1 true d (d.ranges d.rows 1 (cvtRow tgt))

/-- accmov: per participant; under W = 64 the span is 2 (R223). -/
def movWord (k : Ctl) (regs : List Nat) (s : State) (i : Instr) (t : Tile) (x : Thread → Nat) (y : Thread → Nat) (get : Bool) : Out :=
  issue 1 regs s fun c s =>
    let span := if c.l.w = 64 then 2 else 1
    if t.toNat % span ≠ 0 then s.matrixFault c 1 clsEnc 0
    else if !spanOk c t.toNat span then s.matrixFault c 1 clsPermission 0
    else if (c.actors k).isEmpty then s.endWord c 1
    else s.startMatrix c i 1 ((c.actors k).map fun h => laneArg c h (x h) (y h)) (if get then c.spread k else []) none

def execAccmovGet (k : Ctl) (t : Tile) (a b : Reg) (s : State) : Out :=
  movWord k (one a ++ one b) s (.accmovGet k t a b) t (fun _ => 0) (fun h => h.v b % 32) true
def execAccmovPut (k : Ctl) (t : Tile) (a b : Reg) (s : State) : Out :=
  movWord k (one a ++ one b) s (.accmovPut k t a b) t (fun h => h.v a) (fun h => h.v b % 32) false

/-! ### mstat (R234, R235) -/

/-- The base threshold of an approximation class (R229). -/
def theta0 (cls : Nat) : Int := if cls = 1 then -64 else if cls = 2 then -56 else -48

/-- MXSTAT of a core (R234). -/
def State.mxstat (s : State) (core : Nat) : Nat :=
  let c := s.core core
  let h := c.logical.length
  c.fcount % 256 + (s.die (dieOfCore core)).delta * 2 ^ 8 + (2 ^ h - 1) * 2 ^ 12 + (2 ^ (h / 2) - 1) * 2 ^ 16 + bit (decide (h = 4)) * 2 ^ 18 +
    bit (decide (h = 4) && decide ((s.core (core / 2 * 2)).logical.length = 4) && decide ((s.core (core / 2 * 2 + 1)).logical.length = 4)) * 2 ^ 19 + c.fenced.toNat * 2 ^ 24

/-- The byte that mstat.bind gives for a logical sub-array (R235). -/
def bindByte (t : Team) (core n : Nat) : Nat :=
  match findBy (fun b : Binding => (arrayCores b.mode b.core).contains core && (logicalOf b.mode b.sel).contains n) t.bindings with
  | some b => 128 + b.mode * 32 + b.sel * 8 + b.fmt
  | none => 0

/-- mstat: a word of the array whose value is taken at issue. -/
def mstatWord (k : Ctl) (a : Reg) (s : State) (i : Instr) (v : Ctx → Nat) : Out :=
  issue 1 (one a) s fun c s =>
    let rs := (c.actors k).flatMap fun h => (c.receivers k h).flatMap fun m => (wreg a (v c)).map fun w => (m, w)
    (s.addOp { c.op 3 (.matrix i) with results := rs }).endWord c 1

def execMstatStat (k : Ctl) (a : Reg) (s : State) : Out := mstatWord k a s (.mstatStat k a) fun c => s.mxstat c.core
def execMstatBind (k : Ctl) (a : Reg) (s : State) : Out :=
  mstatWord k a s (.mstatBind k a) fun c => bindByte c.t c.core 0 + bindByte c.t c.core 1 * 2 ^ 8 + bindByte c.t c.core 2 * 2 ^ 16 + bindByte c.t c.core 3 * 2 ^ 24
def execMstatTheta (k : Ctl) (a : Reg) (s : State) : Out :=
  mstatWord k a s (.mstatTheta k a) fun c => if c.l.cls = 0 then 2 ^ 31 else wrapTo 32 (theta0 c.l.cls + (s.die c.die).delta)

/-! ### pgsel (R236, R237) -/

def selDim : PgselDim → Nat
  | .d32 => 32
  | .d64 => 64

/-- The plain loads that read a pgsel's summaries, one for each run of 64 KiB, or the first fault of the range (R237, R281). -/
def State.sumLoads (s : State) (c : Ctx) (h : Thread) : Nat → Nat → Nat → Except LaneFault (List Acc)
  | 0, _, _ => .ok []
  | fuel + 1, va, n =>
    if n = 0 then .ok []
    else
      let m := Nat.min n (65536 - va % 65536)
      match s.checkLane c h va 1 1 .read with
      | .error e => .error { thread := h.idx, cls := e, detail := if e = clsEcc then 1 else 0, addr := va, route := e = clsEcc && s.noRoute c va }
      | .ok tr =>
        let m := tr.plainRun va m
        if s.poisoned c.core tr.key m h.obs then .error { thread := h.idx, cls := clsEcc, detail := 1, addr := va }
        else
          match State.sumLoads s c h fuel (wrapTo 64 ((va + m : Nat) : Int)) (n - m) with
          | .error e => .error e
          | .ok r => .ok (s.accFor h va tr m 0 :: r)

/-- The lines that a pgsel's loads find in the L1 data cache as it issues, and those they do not. -/
def State.countSums (s : State) (c : Ctx) (loads : List Acc) : State :=
  s.countL1 c.core (loads.flatMap fun a => (linePieces a.key a.size).map fun p =>
    { a with key := p.1, done := (s.threadRead false c.t.held c.core (a.va + (p.1 - a.key)) p.1 s.nextId a.vec p.2).isSome })

def execPgsel (k : Ctl) (m : PgselDim) (a b c0 : Reg) (scores : Bool) (kn : Bits7) (s : State) : Out :=
  onceWord 2 k (two a ++ two c0 ++ regsFrom b (selDim m / 2)) s fun c h s =>
    let n := h.v c0 % 4096 + 1
    let off := h.vn (c0.toNat + 1)
    let out := kn.toNat * (if scores then 8 else 4)
    if c.l.scratchTop < off + out then s.matrixFault c 2 clsPermission 0
    else if off % 4 ≠ 0 then s.matrixFault c 2 clsMisalign 0
    else
      match useBufs .fill true c.core [(off, off + out)] c.t.bufs with
      | .error e => s.matrixFault c 2 clsBufState e
      | .ok bs =>
        match s.sumLoads c h (n * selDim m * 2 / 65536 + 4) (h.pair a) (n * selDim m * 2) with
        | .error f => s.parkWhole c.gid { cls := f.cls, detail := f.detail, addr := f.addr, len := 2, route := s.routeEnd f }
        | .ok loads =>
          let acc := laneArg c h (h.regNat b.toNat (selDim m / 2)) (n * 2 ^ 32 + off)
          ((s.countSums c loads).updTeam c.g.team fun x => { x with bufs := bs }).startMatrix c (.pgsel k m a b c0 scores kn) 2 ({ acc with done := true } :: loads) [] none

end Sys2Proof.Machine
end

