-- ==== Sys2Proof/Machine/Channel.lean ====
section
/-! DEFINITION. What a channel does with an operation: the checks of a packet (R339, R340, R348, R355, R358), conversion (R114), the spaces it reads and writes (R349), and its data pass (R350 to R354). -/
namespace Sys2Proof.Machine

/-! ### Packet checks: the answer is the lowest failing offset (R340, R341) -/

/-- The lowest of a list of offsets, if any. -/
def lowestOff : List Nat → Option Nat
  | [] => none
  | a :: r => match lowestOff r with
    | some b => some (Nat.min a b)
    | none => some a

/-- Offsets whose condition holds. -/
def failing (l : List (Nat × Bool)) : List Nat := (l.filter (·.2)).map (·.1)

/-- The header's failing offsets for a queue-fed packet under PMAX; of a core word's image byte 0x01 and the record address count (R339). -/
def headerBad (fromCore : Bool) (pmax : Nat) (b : List Byte) : List Nat :=
  failing [(1, decide (fieldAt b 1 1 / 4 ≠ 0)),
    (2, !fromCore && (decide (pmax < bitsOf (fieldAt b 2 1) 0 2) || decide (bitsOf (fieldAt b 2 1) 2 2 ≠ 0))),
    (3, !fromCore && decide (fieldAt b 3 5 ≠ 0)),
    (8, if bitAt (fieldAt b 1 1) 0 then decide (fieldAt b 8 8 % 16 ≠ 0) else decide (fieldAt b 8 8 ≠ 0))]

/-- Bytes of an element of a copy type; 17 for w4 (R348). -/
def copySize : Nat → Nat
  | 0 => 1
  | 1 => 2
  | 2 => 4
  | 3 => 8
  | 4 => 1
  | 5 => 2
  | 6 => 4
  | 7 => 8
  | 8 => 4
  | 9 => 2
  | 10 => 2
  | 11 => 1
  | 12 => 1
  | 13 => 8
  | 14 => 17
  | _ => 1

/-- A COPY or COPYM body (R348, R355). -/
structure CopyPlan where
  src : Nat
  dst : Nat
  len : Nat
  rows : Nat
  dist : Nat
  spitch : Nat
  dpitch : Nat
  ssp : Nat
  dsp : Nat
  sty : Nat
  dty : Nat
  mode : Round
  sat : Bool
  w4t : Nat
  deriving DecidableEq, Repr

/-- The rounding mode of a two-bit field (R102). -/
def roundOf : Nat → Round
  | 0 => .rne
  | 1 => .rtz
  | 2 => .rdn
  | _ => .rup

def planOf (b : List Byte) : CopyPlan :=
  { src := fieldAt b 0x10 8, dst := fieldAt b 0x18 8, len := fieldAt b 0x20 4, rows := bitsOf (fieldAt b 0x24 4) 0 16 + 1
    dist := (let d := bitsOf (fieldAt b 0x24 4) 16 8; if d = 0 then 8 else d), spitch := fieldAt b 0x28 4, dpitch := fieldAt b 0x2C 4
    ssp := bitsOf (fieldAt b 0x30 1) 0 3, dsp := bitsOf (fieldAt b 0x30 1) 3 3, sty := bitsOf (fieldAt b 0x31 1) 0 4
    dty := bitsOf (fieldAt b 0x31 1) 4 4, mode := roundOf (bitsOf (fieldAt b 0x32 1) 0 2), sat := bitAt (fieldAt b 0x32 1) 2
    w4t := bitsOf (fieldAt b 0x32 1) 3 2 }

/-- Elements of a row. -/
def CopyPlan.elems (p : CopyPlan) : Nat := p.len / copySize p.sty * (if p.sty = 14 then 32 else 1)

/-- Bits of a space 2 address that must be zero (R349). -/
def space2Bad (a : Nat) : Bool := decide (a / 2 ^ 35 ≠ 0)

/-- The failing offsets of a COPY or COPYM body (R348, R349, R355). -/
def copyBad (multi fromCore : Bool) (b : List Byte) : List Nat :=
  let p := planOf b
  failing [(0x10, fromCore && p.ssp = 2 && space2Bad p.src), (0x18, fromCore && !multi && p.dsp = 2 && space2Bad p.dst),
    (0x20, p.sty ≠ 15 && p.dty ≠ 15 && (decide (p.len % copySize p.sty ≠ 0) || (p.dty = 14 && p.sty ≠ 14 && decide (p.elems % 32 ≠ 0)))),
    (0x24, decide (64 < bitsOf (fieldAt b 0x24 4) 16 8) || decide (bitsOf (fieldAt b 0x24 4) 24 8 ≠ 0)),
    (0x30, decide (4 < p.ssp) || decide (4 < p.dsp) || decide (bitsOf (fieldAt b 0x30 1) 6 2 ≠ 0) || (!fromCore && (p.ssp = 2 || p.dsp = 2)) || (multi && decide (p.dsp ≠ 1))),
    (0x31, p.sty = 15 || p.dty = 15 || p.dty = 13),
    (0x32, decide (bitsOf (fieldAt b 0x32 1) 5 3 ≠ 0)),
    (0x33, decide (fieldAt b 0x33 1 ≠ 0)),
    (0x34, !multi && fromCore && (p.ssp = 2 || p.dsp = 2) && decide (fieldAt b 0x34 8 ≠ 0)),
    (0x38, multi && (decide (bitsOf (fieldAt b 0x38 4) 15 17 ≠ 0) || (if fromCore then decide (bitsOf (fieldAt b 0x38 4) 8 7 ≠ 0) else decide (23 < bitsOf (fieldAt b 0x38 4) 8 5)))),
    (0x3C, decide (fieldAt b 0x3C 4 ≠ 0))]

/-- The failing offsets of an XFORM body (R358, R364). -/
def xformBad (fromCore : Bool) (b : List Byte) : List Nat :=
  let mode := fieldAt b 0x28 1
  let sp := fieldAt b 0x29 1
  let m := fieldAt b 0x2B 1
  failing [(0x10, fromCore && bitsOf sp 0 3 = 2 && space2Bad (fieldAt b 0x10 8)), (0x18, fromCore && bitsOf sp 3 3 = 2 && space2Bad (fieldAt b 0x18 8)),
    (0x20, mode = 2 && decide (fieldAt b 0x20 4 % 256 ≠ 0)),
    (0x28, decide (2 < mode)),
    (0x29, decide (4 < bitsOf sp 0 3) || decide (4 < bitsOf sp 3 3) || decide (bitsOf sp 6 2 ≠ 0) || (!fromCore && (bitsOf sp 0 3 = 2 || bitsOf sp 3 3 = 2))),
    (0x2A, bitAt (fieldAt b 0x2A 1) 7),
    (0x2B, if mode = 2 then m = 3 || decide (7 < m) else decide (m ≠ 0)),
    (0x2C, fromCore && (bitsOf sp 0 3 = 2 || bitsOf sp 3 3 = 2) && decide (fieldAt b 0x2C 8 ≠ 0)),
    (0x34, decide (fieldAt b 0x34 8 ≠ 0) || decide (fieldAt b 0x3C 4 ≠ 0))]

/-- The lowest failing offset of a copy, multicast or transform packet. -/
def chanReject (fromCore : Bool) (pmax : Nat) (b : List Byte) : Option Nat :=
  let body := match fieldAt b 0 1 with
    | 2 => copyBad false fromCore b
    | 3 => copyBad true fromCore b
    | 4 => xformBad fromCore b
    | _ => [0]
  lowestOff (headerBad fromCore pmax b ++ body)

/-! ### Conversion (R114) -/

/-- An element as f32 on its way through a channel: rounded to odd where f32 may not hold it, or by the packet's mode where f32 is the destination. -/
def toF32 (ty : Nat) (mode : Round) (direct sat : Bool) (x : Nat) : Nat :=
  let r := fun (neg : Bool) (m : Nat) (e : Int) => if direct then FFmt.f32.roundMag mode sat neg m e false else roundOddMag neg m e
  if ty = 13 then
    match FFmt.f64.val x with
    | .nan => nanConv .f64 .f32 x
    | .inf s => FFmt.f32.withSign s FFmt.f32.inf
    | .fin v => r v.neg v.m v.e
  else
    match TypeCode.ofCode ty with
    | some t =>
      match t.fmt, t.int with
      | some f, _ => fToF f .f32 .rne false x
      | none, some (n, sg) => let v := intVal n sg x; r (v < 0) v.natAbs 0
      | none, none => x
    | none => x

/-- An f32 as an element of a destination type. Where that is f32 itself, the packet's saturation takes an infinity, and an overflow on the way there, to the largest finite value: R111 names the packet's choice, and the pseudocode of R114 its R111 for every float type (DESIGN CHOICE, log entry 61). -/
def fromF32 (ty : Nat) (mode : Round) (sat : Bool) (y : Nat) : Nat :=
  match TypeCode.ofCode ty with
  | some .f32 => (match FFmt.f32.val y with
    | .inf s => FFmt.f32.withSign s (if sat then FFmt.f32.maxFin else FFmt.f32.inf)
    | _ => y)
  | some t =>
    match t.fmt, t.int with
    | some f, _ => fToF .f32 f mode sat y
    | none, some (n, sg) => fToI .f32 n sg mode y
    | none, none => y
  | none => y

/-- The 32 f32 values of a w4 block of 17 bytes. -/
def w4Values (b : List Byte) : List Nat :=
  let sc := fieldAt b 16 1
  (List.range 32).map fun i => decodeW4 sc (fieldAt b (i / 2) 1 / 16 ^ (i % 2) % 16)

/-- Source bytes of one unit of conversion. -/
def CopyPlan.su (p : CopyPlan) : Nat :=
  if p.sty = p.dty then 1 else if p.sty = 14 then 17 else if p.dty = 14 then 32 * copySize p.sty else copySize p.sty
/-- Destination bytes of one unit. -/
def CopyPlan.du (p : CopyPlan) : Nat :=
  if p.sty = p.dty then 1 else if p.dty = 14 then 17 else if p.sty = 14 then 32 * copySize p.dty else copySize p.dty

/-- n elements of a size from bytes. -/
def elemsOf (size : Nat) (b : List Byte) : Nat → List Nat
  | 0 => []
  | n + 1 => leNat (b.take size) :: elemsOf size (b.drop size) n

/-- One unit converted (R114, R101). -/
def CopyPlan.unit (p : CopyPlan) (b : List Byte) : List Byte :=
  if p.sty = p.dty then b
  else
    let ys := if p.sty = 14 then w4Values b
      else (elemsOf (copySize p.sty) b (b.length / copySize p.sty)).map (toF32 p.sty p.mode (p.dty = 8) p.sat)
    if p.dty = 14 then let q := quantW4 ys p.w4t p.mode; w4Bytes q.1 ++ leBytes q.2 1
    else ys.flatMap fun y => leBytes (fromF32 p.dty p.mode p.sat y) (copySize p.dty)

/-- The whole units of a run of source bytes, converted, each byte with whether all of its unit's source is zero by default (R250). -/
def CopyPlan.units (p : CopyPlan) (b : List (Byte × Bool)) : Nat → List (Byte × Bool)
  | 0 => []
  | n + 1 => if b.length < p.su then []
    else ((p.unit ((b.take p.su).map (·.1))).map fun y => (y, (b.take p.su).all (·.2))) ++ CopyPlan.units p (b.drop p.su) n

/-- Bytes one row writes. -/
def CopyPlan.rowOut (p : CopyPlan) : Nat := p.len / p.su * p.du
/-- Bytes of the range a copy covers (R354). -/
def CopyPlan.span (p : CopyPlan) : Nat := (p.rows - 1) * p.dpitch + p.rowOut

/-! ### Blocks (R363, R364) -/

/-- Words of a block. -/
def wordsOf (b : List Byte) (n : Nat) : List Nat := elemsOf 4 b n

/-- The least width that holds every delta in two's complement. -/
def deltaWidth (ds : List Nat) : Nat :=
  ((List.range 33).find? fun b => ds.all fun d => if b = 0 then d = 0 else (let x := toSigned 32 d; decide (-(2 ^ (b - 1) : Nat) ≤ x) && decide (x < (2 ^ (b - 1) : Nat)))).getD 32

/-- Deltas of successive words. -/
def deltas : List Nat → List Nat
  | a :: b :: r => (b + 2 ^ 32 - a) % 2 ^ 32 :: deltas (b :: r)
  | _ => []

/-- A plane of a delta block: bit p of each delta. -/
def plane (ds : List Nat) (p : Nat) : Nat := (ds.zipIdx.map fun d => bit (bitAt d.1 p) * 2 ^ d.2).foldl (· + ·) 0

/-- Pad to whole sectors. -/
def toSectors (b : List Byte) : List Byte := b ++ List.replicate ((32 - b.length % 32) % 32) 0

/-- A block coded under a method, uniform first: its metadata byte and its sectors (R363). -/
def packBlock (method : Nat) (table : List Byte) (b : List Byte) : Nat × List Byte :=
  let ws := wordsOf b 64
  if ws.all (fun w => w == ws.headD 0) then (0x21, toSectors (b.take 4))
  else
    let ds := deltas ws
    let n := deltaWidth ds
    let delta := toSectors (b.take 4 ++ leBytes n 4 ++ (List.range n).flatMap fun p => leBytes (plane ds p) 8)
    let ent := toSectors (Config.entropyCode table b)
    if method = 2 && decide (n ≤ 31) && decide (delta.length < 256) then (2 * 32 + delta.length / 32, delta)
    else if 4 ≤ method && method ≤ 7 && decide (0 < ent.length) && decide (ent.length < 256) then (method * 32 + ent.length / 32, ent)
    else (8, b)

/-- The 64 words of a delta block from its base and planes. -/
def undelta (w0 : Nat) (n : Nat) (planes : List Nat) : List Nat :=
  let d := fun i => let v := (planes.zipIdx.map fun p => bit (bitAt p.1 i) * 2 ^ p.2).foldl (· + ·) 0; if n = 0 then 0 else wrapTo 32 (toSigned n v)
  (List.range 63).foldl (fun r i => r ++ [(r.getLastD w0 + d i) % 2 ^ 32]) [w0]

/-- A record of a stream expanded: the 256 bytes, or nothing where it is malformed. -/
def unpackBlock (tables : Nat → List Byte) (md : Nat) (b : List Byte) : Option (List Byte) :=
  match md / 32 with
  | 0 => if md % 16 = 8 then some (b.take 256) else none
  | 1 => some ((List.replicate 64 (b.take 4)).flatten)
  | 2 =>
    let n := fieldAt b 4 1
    if 31 < n then none
    else some ((undelta (fieldAt b 0 4) n ((List.range n).map fun p => fieldAt b (8 + 8 * p) 8)).flatMap fun w => leBytes w 4)
  | 3 => none
  | m => some ((Config.entropyExpand (tables (m - 4)) b).take 256)

/-- A stream of records expanded until it ends: the bytes, and whether it is well formed. -/
def unpackStream (tables : Nat → List Byte) (b : List Byte) : Nat → List Byte × Bool
  | 0 => ([], b.isEmpty)
  | n + 1 =>
    match b with
    | [] => ([], true)
    | m :: r =>
      let k := 32 * (m.toNat % 16)
      if r.length < k || k = 0 || 256 < k then ([], false)
      else
        match unpackBlock tables m.toNat (r.take k) with
        | none => ([], false)
        | some out => let x := unpackStream tables (r.drop k) n; (out ++ x.1, x.2)

/-- Blocks of 256 bytes packed as stream records while they fit in a room: the bytes, and whether all fit (R364). -/
def packStream (method : Nat) (table : List Byte) (room : Nat) (b : List Byte) : Nat → List Byte × Bool
  | 0 => ([], true)
  | n + 1 =>
    let (md, pay) := packBlock method table (b.take 256)
    if room < 1 + pay.length then ([], false)
    else let x := packStream method table (room - 1 - pay.length) (b.drop 256) n; (BitVec.ofNat 8 md :: pay ++ x.1, x.2)

/-- A tenant's entropy table (R360). -/
def State.entropyTable (s : State) (tenant n : Nat) : List Byte := Store.get [] (s.tenant tenant).entropy n

/-! ### Who an operation acts for -/

/-- Where a channel's operation runs: the die that stamps its writes, its tenant, address space, launch and copy. -/
structure Port where
  origin : Nat
  tenant : Nat
  asid : Nat
  launch : Option Nat
  /-- the 64 KiB units of virtual addresses that the outrider has cleared for reads and for writes (R352) -/
  src : List Nat := []
  dst : List Nat := []
  /-- the hub cycle until which it waits for a route to a peer, once it has found none (R459) -/
  route : Option Nat := none
  deriving DecidableEq, Repr

/-- The die of a channel. -/
def chanOrigin : ChanId → Nat
  | .core c _ => dieOfCore c
  | .die d _ => d
  | .system d _ => d

/-- The channel belongs to a core. -/
def chanIsCore : ChanId → Bool
  | .core _ _ => true
  | _ => false

/-- The team of a launch on a core, the earliest started where it holds several (R247; DESIGN CHOICE, log entry 12). -/
def State.teamOn (s : State) (launch core : Nat) : Option Team :=
  (s.teams.filter fun t => t.id.launch == launch && t.saved.isNone && decide (t.core ≤ core) && decide (core < t.core + (s.launch launch).cores)).foldl
    (fun b t => match b with
      | some x => if t.stamp < x.stamp then some t else some x
      | none => some t) none

/-- The target of a space 1 or 3 address of a packet: nothing where it is neither resident nor saved (R349). -/
def State.targetOf (s : State) (o : ChOp) (launchOff teamOff : Nat) : Option Team :=
  match o.pkt with
  | none => s.findTeam o.team
  | some _ => findBy (fun t => t.id.launch == fieldAt o.bytes launchOff 4 && t.id.team == fieldAt o.bytes teamOff 4 && !t.id.shadow) s.teams

/-! ### Reading -/

/-- Status codes (R341). -/
def stOk : Nat := 0
def stReject : Nat := 1
def stOverflow : Nat := 2
def stFault : Nat := 5
def stMalformed : Nat := 6
def stAborted : Nat := 7

/-- Why a pass stops. -/
inductive Stop where
  /-- a fault that the outrider reports and an answer may clear -/
  | ask (cls addr : Nat)
  /-- a fault that ends the operation -/
  | fail (cls addr : Nat)
  /-- the page is under migration, a target is saved, or the pass has had its turn -/
  | wait
  /-- no route to the peer has been found yet (R459) -/
  | lost
  deriving DecidableEq, Repr

/-- A fault of a translation or permission is the outrider's; others end the operation (R352). -/
def stopOf (cls addr : Nat) : Stop := if cls = clsTranslation || cls = clsPermission then .ask cls addr else .fail cls addr

/-- What an access of a channel to a location whose peer has no route, or whose CXL link is down, comes to: it waits while its operation still may, and fails (R459, R460). -/
def State.lostStop (s : State) (p : Port) (key addr : Nat) : Stop :=
  if s.noPeer key && (p.route.map fun n => decide (s.hub < n)).getD true then .lost else .fail clsEcc addr

/-- The first byte of a run that carries an error, or the length of the run. -/
def State.cleanRun (s : State) (key : Nat) : Nat → Nat
  | 0 => 0
  | n + 1 => if s.badAt key 1 then 0 else 1 + State.cleanRun s (key + 1) n

/-- Bytes read from a virtual address, each with whether it comes of an unbacked page whose default is zero; up to a fault, an error, or a page that the outrider has not cleared. -/
def State.readVa (s : State) (p : Port) (host : Bool) (a : Nat) : Nat → Nat → List (Byte × Bool) × Option Stop
  | 0, _ => ([], none)
  | fuel + 1, n =>
    if n = 0 then ([], none)
    else if !p.src.contains (a / 65536) then ([], some .wait)
    else
      match s.check (s.die p.origin).tlb p.tenant p.asid a 1 .read with
      | .error c => ([], some (stopOf c a))
      | .ok tr =>
        if host && bitsOf tr.entry 53 2 ≠ 1 then ([], some (.ask clsPermission a))
        else if s.linkDown tr.key then ([], some (s.lostStop p tr.key a))
        else
          let m := tr.plainRun a (Nat.min n (65536 - a % 65536))
          let zero := !tr.backed && (match tr.region with
            | some r => r.cls == 1 && r.dflt == 0
            | none => false)
          let ok := s.cleanRun tr.key m
          let here := (s.locBytes tr.key ok).map fun b => (b, zero)
          if ok < m then (here, some (.fail clsEcc (a + ok)))
          else
            let x := State.readVa s p host (a + m) fuel (n - m)
            (here ++ x.1, x.2)

/-- A tile byte's word key and byte of a space 3 address on a half (R349). -/
def tileKey (half a : Nat) : Nat := half * 65536 + a / 4
def tileByte (t : Team) (half a : Nat) : Byte := BitVec.ofNat 8 ((Store.get 0 t.tiles (tileKey half a)).toNat / 256 ^ (a % 4))
def putTileByte (t : Team) (half a : Nat) (b : Byte) : Team :=
  let w := (Store.get 0 t.tiles (tileKey half a)).toNat
  let old := w / 256 ^ (a % 4) % 256
  { t with tiles := Store.set 0 t.tiles (tileKey half a) (BitVec.ofNat 32 (w - old * 256 ^ (a % 4) + b.toNat * 256 ^ (a % 4)))
           badTiles := Store.set false t.badTiles (tileKey half a) false }

/-- Where one side of an operation lies. -/
inductive Side where
  | va (host : Bool)
  | scratch (id : TeamId) (half : Nat)
  | tile (id : TeamId) (half : Nat)
  /-- a range claimed of an APPEND region, from its base -/
  | claimed (r : RegionId)
  /-- several receivers' scratchpads (R355) -/
  | many (l : List (TeamId × Nat))
  deriving DecidableEq, Repr

/-- Bytes of a team's own memory up to the first that carries an error (R241). -/
def ownRun (bad : Nat → Bool) (val : Nat → Byte) (a n : Nat) : List (Byte × Bool) × Option Stop :=
  let ok := (List.range n).takeWhile fun i => !bad i
  (ok.map fun i => (val i, false), if ok.length < n then some (.fail clsEcc (a + ok.length)) else none)

/-- n bytes read from a side. -/
def State.readSide (s : State) (p : Port) (sd : Side) (a n : Nat) : List (Byte × Bool) × Option Stop :=
  match sd with
  | .va host => s.readVa p host a (n / 64 + 2) n
  | .scratch id half => ownRun (fun i => (s.team id).badBytes half (a + i) (a + i + 1)) (fun i => Store.get 0 (s.team id).scratch (scratchKey half (a + i))) a n
  | .tile id half => ownRun (fun i => Store.get false (s.team id).badTiles (tileKey half (a + i))) (fun i => tileByte (s.team id) half (a + i)) a n
  | _ => ([], none)

/-! ### System channels (R334, R353) -/

/-- The operation of a system channel that does a piece of work. -/
def State.sysOf (s : State) (j : SysJob) : Option SysOp := findBy (fun o => o.job == j) s.sys

/-- The operation that a system channel runs: the first that joined it. -/
def State.sysHead (s : State) (die chan : Nat) : Option SysOp := findBy (fun o => o.die == die && o.chan == chan) s.sys

/-- A piece of work is done, or was given up by an answer. -/
def State.sysDone (s : State) (j : SysJob) : Bool := match s.sysOf j with
  | some o => s.sysHead o.die o.chan == some o && (o.ended || decide (o.size ≤ o.done))
  | none => false

/-- Some operations leave their system channels. -/
def State.sysDrop (s : State) (p : SysJob → Bool) : State := { s with sys := s.sys.filter fun o => !p o.job }

/-- Operations on a system channel. -/
def State.sysLoad (s : State) (die chan : Nat) : Nat := (s.sys.filter fun o => o.die == die && o.chan == chan).length

/-- A system channel waits for the handler (R353). -/
def State.sysHeld (s : State) (die chan : Nat) : Bool := (s.sysHead die chan).any fun o => decide (o.waitSeq ≠ 0)

/-- The system channel that work of a die joins: one that does not wait for the handler, else the one with the fewer operations (R353; DESIGN CHOICE, log entry 55). -/
def State.sysPick (s : State) (die : Nat) : Nat :=
  if s.sysHeld die 0 != s.sysHeld die 1 then bit (s.sysHeld die 0) else if s.sysLoad die 1 < s.sysLoad die 0 then 1 else 0

/-- A piece of work joins a system channel of a die. -/
def State.sysStart (s : State) (die tenant : Nat) (j : SysJob) (src size : Nat) : State :=
  if (s.sysOf j).isSome then s
  else { s with sys := s.sys ++ [{ die := die, chan := s.sysPick die, job := j, tenant := tenant, src := src, size := size }] }

/-- An operation waits for the handler, and the work behind it goes to the other system channel (R353). -/
def State.sysWait (s : State) (o : SysOp) (seq : Nat) : State :=
  let behind := fun x : SysOp => x.die == o.die && x.chan == o.chan && x.job != o.job
  { s with sys := ((s.sys.filter fun x => !behind x).map fun x => if x.job == o.job then { x with waitSeq := seq } else x) ++ (s.sys.filter behind).map fun x => { x with chan := 1 - x.chan } }

/-- The work reads memory that may carry an error, and what it copies is not held back: the copy of a page under migration waits for that. -/
def State.sysBad (s : State) (o : SysOp) : Bool := match o.job with
  | .save _ => false
  | .undo _ => false
  | _ => s.badAt (o.src + o.done) 1

/-- The copy of a page whose migration copies it waits; until then a write translated before may still need it (R399). -/
def State.sysWaits (s : State) (o : SysOp) : Bool := match o.job with
  | .snapshot _ _ => s.movingKey o.src && s.sys.any fun x => (match x.job with
      | .move _ _ => true
      | _ => false) && decide (x.src ≤ o.src) && decide (o.src < x.src + x.size)
  | _ => false

/-- Bytes up to the first that carries an error, at most n. -/
def State.goodRun (s : State) (o : SysOp) : Nat → Nat
  | 0 => 0
  | n + 1 => if s.sysBad o then 0 else 1 + State.goodRun s { o with done := o.done + 1 } n

/-- A system channel copies its next lines; a fault stops it at the byte, with every earlier byte written, and a snapshot's copy then waits for an answer (R353). -/
def State.sysStep (s : State) (die chan : Nat) : State :=
  match s.sysHead die chan with
  | none => s
  | some o =>
    if o.waitSeq ≠ 0 || o.ended || o.size ≤ o.done || s.sysWaits o then s
    else
      let n := s.goodRun o (Nat.min (128 * Config.sysLines) (o.size - o.done))
      let set := fun (s : State) (f : SysOp → SysOp) => { s with sys := mapIf (fun x => x.job == o.job) f s.sys }
      let t := (set s fun x => { x with done := x.done + n }).count (8192 + die) 0x8A ((n + 127) / 128)
      match o.job with
      | .snapshot l _ =>
        if n ≠ 0 || !s.sysBad o then t
        else
          let (seq, t) := t.makeRec o.tenant { kind := 2, cls := clsEcc, detail := 1, launch := l, num := chan, addr := o.src + o.done }
          t.sysWait o seq
      | _ => t

/-! ### Writing -/

/-- The pass of an operation as it runs. -/
structure Pass where
  s : State
  /-- the clock of its writes -/
  obs : VC
  /-- destination bytes written -/
  done : Nat
  /-- scratchpad bytes it wrote from unbacked zero pages -/
  zeros : Store Bool
  /-- bytes the core's or die's channels count as lines -/
  lines : Nat := 0
  /-- lines it may still write before other parts of the machine move (DESIGN CHOICE, log entry 16) -/
  left : Nat := Config.passLines
  /-- offset from the destination of the next byte it writes, as the write pointer shows it (R250, R350) -/
  pos : Nat := 0
  stop : Option Stop := none
  deriving DecidableEq, Repr

/-- The base location of the page of a size that holds a location. -/
def pageBase (key psize : Nat) : Nat := if isRegionKey key then regionKeyBase + (key - regionKeyBase) / psize * psize else key / psize * psize

/-- The COPY entry of a page of a launch is wanted: its copy joins a system channel, or the set is incomplete from now on (R396, R397). -/
def State.snapStart (s : State) (l : Launch) (key psize : Nat) : State :=
  if !s.snapRoom l || (s.pool l.tenant (bitsOf (s.tenant l.tenant).snapcfg.toNat 0 4)).frames.isEmpty then s.snapIncomplete l
  else s.sysStart (s.homeOf key) l.tenant (.snapshot l.id (pageBase key psize)) (pageBase key psize) psize

/-- The set of a launch takes the COPY entry of a page as it now stands (R395 to R397). -/
def State.snapPage (s : State) (l : Launch) (key psize : Nat) : State :=
  let pool := bitsOf (s.tenant l.tenant).snapcfg.toNat 0 4
  if !s.snapRoom l then s.snapIncomplete l
  else match s.takeFrame l.tenant pool with
  | none => s.snapIncomplete l
  | some (f, s) =>
    let base := pageBase key psize
    match s.regionOfKey key with
    | some r =>
      let i := r.pageOf (keyVa key)
      let p := (r.page i).getD { frame := 0 }
      s.addSnap (some l.id) (.copy base f pool psize (some (r.id, i)) p.count p.data)
    | none => s.addSnap (some l.id) (.copy base f pool psize none 0 (s.mem.filter fun e => decide (base ≤ e.1) && decide (e.1 < base + psize)))

/-- A write of a channel to a location must wait: for the COPY entry of its page, whose copy it asks for, or for a migration (R396, R400). The state, and whether it waits. -/
def State.chanHeld (s : State) (p : Port) (key psize : Nat) : State × Bool :=
  let probe : Write := { Write.plain key [0] psize with launch := p.launch }
  let s := match p.launch.bind s.findLaunch with
    | some l => if s.needsCopy probe then s.snapStart l key psize else s
    | none => s
  (s, s.needsCopy probe || s.movingKey key)

/-- A write of a channel, stamped by its die and applied at its home: the state, its clock and a fault class, or 0. -/
def State.chanWrite (s : State) (p : Port) (obs : VC) (key : Nat) (bs : List Byte) : State × VC × Nat :=
  let (st, s) := s.nextStamp p.origin
  let (s, c) := s.applyAt key bs [] p.origin st (obs.set p.origin st) p.launch
  (s, if c = 0 then obs.set p.origin st else obs, c)

/-- Set the uniform marks of those of some granules that were written wholly from unbacked zero pages (R250). -/
def setMarks (zeros : Store Bool) (keyOf : Nat → Nat) (gs : List Nat) (t : Team) : Team :=
  let gs := gs.filter fun g => (List.range 64).all fun i => Store.get false zeros (g * 64 + i)
  { t with marks := gs.foldl (fun m g => Store.set false m (keyOf g) true) t.marks }

/-- The bytes of a run, noted as zero or not at their places. -/
def noteZeros (at_ : Nat) (bs : List (Byte × Bool)) (zeros : Store Bool) : Store Bool := (bs.zipIdx).foldl (fun m e => Store.set false m (at_ + e.2) e.1.2) zeros

/-- The 64-byte granules of a run. -/
def granulesOf (a n : Nat) : List Nat := (List.range ((a + n - 1) / 64 + 1 - a / 64)).map (· + a / 64)

/-- A run written to a scratchpad, with its marks: a granule's is set by the write that makes it whole, and any other write clears it (R250). -/
def State.putHalf (s : State) (id : TeamId) (half a : Nat) (raw : List Byte) (zeros : Store Bool) (keyOf : Nat → Nat) (gs : List Nat) : State :=
  s.updTeam id fun t => setMarks zeros keyOf gs (t.putScratch (scratchKey half a) raw)

/-- A run has been written. -/
def Pass.wrote (x : Pass) (n : Nat) (s : State) : Pass := { x with s := s, done := x.done + n, lines := x.lines + 1, left := x.left - 1 }

/-- Write a run of at most one line to a side. -/
def Pass.put (p : Port) (sd : Side) (a : Nat) (bs : List (Byte × Bool)) (x : Pass) : Pass :=
  let raw := bs.map (·.1)
  match sd with
  | .va host =>
    if !p.dst.contains (a / 65536) then { x with stop := some .wait }
    else
      match x.s.check (x.s.die p.origin).tlb p.tenant p.asid a 1 .write with
      | .error c => { x with stop := some (stopOf c a) }
      | .ok tr =>
        let (s, held) := x.s.chanHeld p tr.key (2 ^ levelShift tr.level)
        if host && bitsOf tr.entry 53 2 ≠ 1 then { x with stop := some (.ask clsPermission a) }
        else if s.linkDown tr.key then { x with stop := some (s.lostStop p tr.key a) }
        else if tr.moving || held then { x with s := s, stop := some .wait }
        else
          match s.chanWrite p x.obs tr.key raw with
          | (s, o, 0) => { x.wrote raw.length s with obs := o }
          | (s, _, c) => { x with s := s, stop := some (.fail c a) }
  | .claimed r =>
    match x.s.findRegion r with
    | none => { x with stop := some (.fail clsPermission a) }
    | some g =>
      let key := regionKey r.tenant r.asid (g.base + a)
      if x.s.movingKey key then { x with stop := some .wait }
      else
        match x.s.chanWrite p x.obs key raw with
        | (s, o, _) => { x.wrote raw.length s with obs := o }
  | .scratch id half =>
    let zeros := noteZeros (scratchKey half a) bs x.zeros
    { x.wrote raw.length (x.s.putHalf id half a raw zeros (fun g => g) (granulesOf (scratchKey half a) raw.length)) with zeros := zeros }
  | .tile id half => x.wrote raw.length (x.s.updTeam id fun t => (raw.zipIdx).foldl (fun t e => putTileByte t half (a + e.2) e.1) t)
  | .many l =>
    let zeros := noteZeros a bs x.zeros
    { x.wrote raw.length (l.foldl (fun s e => s.putHalf e.1 e.2 a raw zeros (fun g => e.2 * (halfBytes / 64) + g) (granulesOf a raw.length)) x.s) with zeros := zeros }

/-- Write bytes in runs of one destination line each, in ascending order, up to a stop. -/
def Pass.puts (p : Port) (sd : Side) (a : Nat) (bs : List (Byte × Bool)) (x : Pass) : Nat → Pass
  | 0 => x
  | n + 1 =>
    if x.stop.isSome || bs.isEmpty then x
    else if x.left = 0 then { x with stop := some .wait }
    else
      let m := 128 - a % 128
      Pass.puts p sd (a + m) (bs.drop m) (x.put p sd a (bs.take m)) n

/-- Bytes read from a virtual address pass through the L2 of their homes, and their single-bit errors are corrected (R240, R241, R244). -/
def State.touchVa (s : State) (p : Port) (a : Nat) : Nat → Nat → State
  | 0, _ => s
  | fuel + 1, n =>
    if n = 0 then s
    else
      let m := Nat.min n (128 - a % 128)
      match s.check (s.die p.origin).tlb p.tenant p.asid a 1 .read with
      | .error _ => s
      | .ok tr => State.touchVa (s.homeRead tr.key m) p (a + m) fuel (n - m)

/-- A pass has read a span of a row of its source. -/
def Pass.touch (p : Port) (from_ : Side) (a : Nat) (span : Nat × Nat) (x : Pass) : Pass := match from_ with
  | .va _ => { x with s := x.s.touchVa p (a + span.1) ((span.2 - span.1) / 128 + 2) (span.2 - span.1) }
  | _ => x

/-! ### A copy's pass (R350) -/

/-- What a copy does to the bytes of a row, in this order: expansion out of a compressed buffer, conversion (R348), packing into a compressed buffer under a method with some room (R363 to R365). -/
structure Conv where
  unpack : Bool := false
  conv : Bool := false
  pack : Option (Nat × Nat) := none
  deriving DecidableEq, Repr

/-- The bytes move or are converted, and no stream of blocks is made or read. -/
def Conv.isPlain (v : Conv) : Bool := !v.unpack && v.pack.isNone

/-- The bytes a row of source bytes gives, and the status it ends the copy with, 0 for none. -/
def Conv.apply (v : Conv) (tables : Nat → List Byte) (c : CopyPlan) (used : Nat) (bs : List (Byte × Bool)) : List (Byte × Bool) × Nat :=
  let (bs, bad) := if v.unpack then
      let x := unpackStream tables (bs.map (·.1)) bs.length
      (x.1.map fun b => (b, false), !x.2)
    else (bs, false)
  let bs := if v.conv then c.units bs (bs.length / c.su) else bs
  match v.pack with
  | none => (bs, if bad then stMalformed else 0)
  | some (m, room) =>
    let x := packStream m (tables (m - 4)) (room - used) (bs.map (·.1)) (bs.length / 256)
    (x.1.map fun b => (b, false), if bad then stMalformed else if x.2 then 0 else stOverflow)

/-- What a row's bytes come to where its source failed: whole lines of the destination (R352). -/
def wholeLines (to_ : Nat) (out : List (Byte × Bool)) : List (Byte × Bool) := out.take ((to_ + out.length) / 128 * 128 - to_)

/-- The write pointer within a row: at a multiple of 4 of the destination's address, no less than it was, or at the row's end; past a row, at the next where that is a place it may stand (R250, R350). -/
def pointerAt (dst old base next n len : Nat) (last : Bool) : Nat :=
  if n < len then Nat.max old (base + n - (dst + base + n) % 4)
  else if last || (dst + next) % 4 ≠ 0 then base + len
  else next

/-- Rows from one on; seen counts the bytes of the rows before. The answer's number is a status that ends the copy, or 0. -/
def Pass.rows (p : Port) (v : Conv) (tables : Nat → List Byte) (c : CopyPlan) (from_ to_ : Side) (dst : Nat) (x : Pass) (seen r : Nat) : Nat → Pass × Nat
  | 0 => (x, 0)
  | n + 1 =>
    let (bs, stop) := x.s.readSide p from_ (c.src + r * c.spitch) c.len
    let (out, st) := v.apply tables c (r * c.dpitch) bs
    let st := if stop.isSome && v.unpack then 0 else st
    let out := match stop with
      | some (.fail _ _) => wholeLines (dst + r * c.dpitch) out
      | _ => out
    let skip := x.done - seen
    let y := x.puts p to_ (dst + r * c.dpitch + skip) (out.drop skip) (out.length / 128 + 2)
    let y := y.touch p from_ (c.src + r * c.spitch) (if v.isPlain then (skip / c.du * c.su, (y.done - seen + c.du - 1) / c.du * c.su) else if skip = 0 then (0, c.len) else (0, 0))
    let whole := if stop.isNone then out.length else out.length + 1
    let y := { y with pos := if y.done = 0 then 0 else pointerAt dst x.pos (r * c.dpitch) ((r + 1) * c.dpitch) (y.done - seen) whole (n == 0) }
    match y.stop, stop with
    | some _, _ => (y, 0)
    | none, some e => ({ y with stop := some e }, 0)
    | none, none => if st ≠ 0 then (y, st) else Pass.rows p v tables c from_ to_ dst y (seen + out.length) (r + 1) n

/-! ### A transducer job's output (R359 to R364, R394) -/

/-- The back-reference expander: the output so far, and its status; 99 where more source is needed than was read. A match copies from the output as the lane's window keeps it where it has been written (R361). -/
def expand (past : Nat → Option Byte) (d : Nat) (more : Bool) (out : List Byte) : List Byte → Nat → List Byte × Nat
  | _, 0 => (out, 6)
  | src, fuel + 1 =>
    if d ≤ out.length then (out.take d, if src.isEmpty && !more && out.length = d then 0 else 3)
    else
      match src with
      | [] => (out, if more then 99 else 4)
      | c :: r =>
        let n := c.toNat % 128
        if c.toNat < 128 then
          if r.length < n + 1 then (out, if more then 99 else 6)
          else expand past d more (out ++ r.take (n + 1)) (r.drop (n + 1)) fuel
        else
          match r with
          | lo :: hi :: r' =>
            let dist := lo.toNat + 256 * hi.toNat + 1
            if out.length < dist then (out, 6)
            else expand past d more ((List.range (n + 3)).foldl (fun o _ => o ++ [(past (o.length - dist)).getD (o.getD (o.length - dist) 0)]) out) r' fuel
          | _ => (out, if more then 99 else 6)

/-- Bits from a bit position of a byte list, the first least significant. -/
def bitsAt (src : List Byte) (pos n : Nat) : Nat := leNat ((src.drop (pos / 8)).take 3) / 2 ^ (pos % 8) % 2 ^ n

/-- A transition-table run (R394): the output and its status; 99 where more source is needed than was read. -/
def transduce (bank : Store DWord) (d : Nat) (more : Bool) (src : List Byte) (s pos : Nat) (out : List Byte) : Nat → List Byte × Nat
  | 0 => (out, 6)
  | fuel + 1 =>
    let h := (Store.get 0 bank s).toNat
    if bitAt h 46 then (out, 6)
    else
      let b := bitsOf h 48 3 + 1
      if 8 * src.length < pos + b then (if more then (out, 99) else if bitAt h 47 then (out, if out.length = d then 0 else 4) else (out, 6))
      else if d ≤ out.length then (out, 3)
      else
        let w := bitsOf h 51 13 + bitsAt src pos b
        if 8191 < w then (out, 6)
        else
          let t := (Store.get 0 bank w).toNat
          let n := bitsOf t 48 3
          if 4 < n then (out, 6)
          else
            let out' := out ++ leBytes t n
            if d < out'.length then (out'.take d, 3)
            else transduce bank d more src (bitsOf t 51 13) (pos + b) out' fuel

/-- The byte at an offset of a job's output that its lane's window still holds, of so many bytes written. -/
def windowByte (window : List Byte) (done i : Nat) : Option Byte := if i < done && done - window.length ≤ i then window[i - (done - window.length)]? else none

/-- The output of a job of a mode over the source bytes read. -/
def jobOutput (mode : Nat) (bank : Store DWord) (past : Nat → Option Byte) (table : List Byte) (method d : Nat) (more : Bool) (src : List Byte) : List Byte × Nat :=
  match mode with
  | 0 => transduce bank d more src 0 0 [] (8 * src.length + 2)
  | 1 => expand past d more [] src (src.length + 2)
  | _ =>
    let x := packStream method table d src (src.length / 256)
    (x.1, if !x.2 then 2 else if more then 99 else 0)

/-! ### Sides and grants of an operation (R247, R248, R349) -/

/-- The side that a space code and an address name for an operation; of a team of a pair launch, a queue-fed one names the leader's half (DESIGN CHOICE, log entry 65). -/
def State.sideOf (s : State) (o : ChOp) (launchOff teamOff sp a : Nat) : Except Stop Side :=
  match sp with
  | 0 => .ok (.va false)
  | 4 => .ok (.va true)
  | 2 =>
    match s.teamOn o.launch (o.core / 8 * 8 + a / 2 ^ 32 % 8) with
    | some t => .ok (.scratch t.id (o.core / 8 * 8 + a / 2 ^ 32 % 8 - t.core))
    | none => .error (.fail clsPermission a)
  | _ =>
    match s.targetOf o launchOff teamOff with
    | none => .error (.fail clsPermission a)
    | some t =>
      if t.saved.isSome then .error .wait
      else
        let half := if o.pkt.isNone then o.core - t.core else 0
        .ok (if sp = 1 then .scratch t.id half else .tile t.id half)

/-- The offset that an address names within its side. -/
def sideAddr (sp a : Nat) : Nat := if sp = 2 then a % 2 ^ 32 else a

/-- The ranges of rows. -/
def rowRanges (a pitch n : Nat) (rows : Nat) : List (Nat × Nat) := (List.range rows).map fun r => (a + r * pitch, a + r * pitch + n)

/-- Use the ranges of a side as an operation does: grants, the mooring area and declared buffers; the state after, or the fault that ends it. -/
def State.useSide (s : State) (sd : Side) (write : Bool) (ranges : List (Nat × Nat)) : Except Stop State :=
  let scr := fun (s : State) (id : TeamId) (half : Nat) =>
    let l := s.launch id.launch
    let t := s.team id
    if ranges.any fun g => decide ((if write then l.scratchTop else l.scratch) < g.2) then .error (Stop.fail clsPermission (ranges.headD (0, 0)).1)
    else
      match useBufs (if write then .fill else .consume) false (t.core + half) ranges t.bufs with
      | .error _ => .error (.fail clsBufState (ranges.headD (0, 0)).1)
      | .ok bs => .ok (s.updTeam id fun t => { t with bufs := bs })
  match sd with
  | .scratch id half => scr s id half
  | .tile id _ => if ranges.any fun g => decide ((s.launch id.launch).tiles * 4096 < g.2) then .error (.fail clsPermission (ranges.headD (0, 0)).1) else .ok s
  | .many l => l.foldl (fun r e => match r with
      | .ok s => scr s e.1 e.2
      | .error x => .error x) (.ok s)
  | _ => .ok s

/-- The compressed buffer that holds an offset of a half of a team, if any. -/
def State.packedHalf (s : State) (id : TeamId) (half a : Nat) : Option Buf :=
  findBy (fun b => b.core == (s.team id).core + half && b.cmp && decide (b.base ≤ a) && decide (a < b.base + b.len)) (s.team id).bufs

/-- The compressed buffer that holds an offset of a side, if any: of several receivers, that of the first, with the least room that any leaves (R255, R365; DESIGN CHOICE, log entry 12). -/
def State.packedBuf (s : State) (sd : Side) (a : Nat) : Option Buf :=
  match sd with
  | .scratch id half => s.packedHalf id half a
  | .many ((id, half) :: r) => (s.packedHalf id half a).map fun b =>
      { b with len := (r.filterMap fun e => s.packedHalf e.1 e.2 a).foldl (fun n x => Nat.min n (x.base + x.len - b.base)) b.len }
  | _ => none

/-- The clock an operation reads against and carries: a read of mooring records merges theirs (R323). -/
def State.sideClk (s : State) (sd : Side) (ranges : List (Nat × Nat)) : VC :=
  match sd with
  | .scratch id half =>
    let l := s.launch id.launch
    let t := s.team id
    VC.maxAll ((List.range l.slots).filterMap fun i =>
      if ranges.any (fun g => decide (g.1 < slotOff l half i - half * halfBytes + 16) && decide (slotOff l half i - half * halfBytes < g.2)) then some (Store.get {} t.slotClk (half * 256 + i)) else none)
  | _ => {}

/-! ### The outrider (R352) -/

/-- A 64 KiB unit of a page that an operation enters: the first address that it enters there and its last one, and the destination bytes written by then. -/
structure OutPage where
  addr : Nat
  last : Nat
  off : Nat
  deriving DecidableEq, Repr

def OutPage.unit (x : OutPage) : Nat := x.addr / 65536

/-- The units that a run of addresses enters. -/
def rowPages (a n : Nat) (off : Nat → Nat) : List OutPage :=
  if n = 0 then [] else (List.range ((a + n - 1) / 65536 + 1 - a / 65536)).map fun i =>
    let x := Nat.max a ((a / 65536 + i) * 65536)
    ⟨x, Nat.min (a + n - 1) (x / 65536 * 65536 + 65535), off (x - a)⟩

/-- Units in the order in which they are entered, each once, with the last address of all its runs. -/
def newPages : List Nat → List OutPage → List OutPage
  | _, [] => []
  | seen, p :: r =>
    if seen.contains p.unit then newPages seen r
    else { p with last := r.foldl (fun n x => if x.unit = p.unit then Nat.max n x.last else n) p.last } :: newPages (p.unit :: seen) r

/-- The units that the rows of a copy read, and those that they write. -/
def CopyPlan.srcPages (c : CopyPlan) : List OutPage :=
  newPages [] ((List.range c.rows).flatMap fun r => rowPages (c.src + r * c.spitch) c.len fun x => r * c.rowOut + x / c.su * c.du)
def CopyPlan.dstPages (c : CopyPlan) : List OutPage :=
  newPages [] ((List.range c.rows).flatMap fun r => rowPages (c.dst + r * c.dpitch) c.rowOut fun x => r * c.rowOut + x)

/-- A space is reached by virtual address. -/
def byVa (sp : Nat) : Bool := sp == 0 || sp == 4

/-- The units that an operation reads and those that it writes, in order; a destination in an APPEND region is checked at its claim. The source bytes of a transform have no fixed place in its output and count as entered at its start. -/
def ChOp.outPages (o : ChOp) (claims : Bool) : List OutPage × List OutPage :=
  if fieldAt o.bytes 0 1 = 4 then
    let sp := fieldAt o.bytes 0x29 1
    (if byVa (bitsOf sp 0 3) then rowPages (fieldAt o.bytes 0x10 8) (fieldAt o.bytes 0x20 4) (fun _ => 0) else [],
     if byVa (bitsOf sp 3 3) && !claims then rowPages (fieldAt o.bytes 0x18 8) (fieldAt o.bytes 0x24 4) (fun x => x) else [])
  else
    let c := planOf o.bytes
    (if byVa c.ssp then c.srcPages else [], if byVa c.dsp && !claims && fieldAt o.bytes 0 1 = 2 then c.dstPages else [])

/-- The outrider's programmed distance; a transform names none and has that of a zero field (DESIGN CHOICE, log entry 56). -/
def ChOp.distance (o : ChOp) : Nat := if fieldAt o.bytes 0 1 = 4 then 8 else (planOf o.bytes).dist

/-- The space codes of an operation's source and destination. -/
def ChOp.spaces (o : ChOp) : Nat × Nat :=
  let b := if fieldAt o.bytes 0 1 = 4 then fieldAt o.bytes 0x29 1 else fieldAt o.bytes 0x30 1
  (bitsOf b 0 3, bitsOf b 3 3)

/-- The outrider looks at the addresses of a unit: the state with what its walk read, and its fault; a byte of the page's metadata is one (R352, R382). -/
def State.outLook (s : State) (p : Port) (v : VC) (sp : Nat) (a : Access) (x : Option OutPage) : State × Option (Nat × Nat) :=
  match x with
  | none => (s, none)
  | some x =>
    match s.check (usable (s.die p.origin).tlb p.tenant p.asid x.addr v) p.tenant p.asid x.addr 1 a with
    | .error c => (s, if c = clsTranslation || c = clsPermission then some (c, x.addr) else none)
    | .ok tr =>
      let s := s.cacheDie p.origin p.tenant p.asid (x.addr % 2 ^ 57) v tr
      let n := tr.plainRun x.addr (x.last - x.addr + 1)
      (s, if sp = 4 && bitsOf tr.entry 53 2 ≠ 1 then some (clsPermission, x.addr) else if x.addr + n ≤ x.last then some (clsPermission, x.addr + n) else none)

/-- The outrider clears pages up to a place: the state, how many it has cleared, and the fault it has met. -/
def State.outFrom (s : State) (p : Port) (o : ChOp) (ps : List OutPage × List OutPage) (n : Nat) : Nat → State × Nat × Option (Nat × Nat)
  | 0 => (s, n, none)
  | k + 1 =>
    match s.outLook p o.obs o.spaces.1 .read ps.1[n]? with
    | (s, some f) => (s, n, some f)
    | (s, none) =>
      match s.outLook p o.obs o.spaces.2 .write ps.2[n]? with
      | (s, some f) => (s, n, some f)
      | (s, none) => State.outFrom s p o ps (n + 1) k

/-- The page that the data pass is in, counted from 1, for so many bytes written. -/
def pageAt (ps : List OutPage × List OutPage) (done : Nat) : Nat :=
  Nat.max (ps.1.filter fun x => decide (x.off ≤ done)).length (ps.2.filter fun x => decide (x.off ≤ done)).length

/-- The outrider runs as far ahead as it may: up to its distance past the page that the data pass is in. -/
def State.outrun (s : State) (p : Port) (o : ChOp) (claims : Bool) : State × Nat × Option (Nat × Nat) :=
  let ps := o.outPages claims
  let top := Nat.min (Nat.max ps.1.length ps.2.length) (pageAt ps o.done + o.distance)
  s.outFrom p o ps o.page (top - o.page)

/-- The data pass may start: the outrider has cleared the first pages, or has met a fault, up to which the pass then writes (R352). -/
def ChOp.cleared (o : ChOp) (claims : Bool) : Bool :=
  let ps := o.outPages claims
  decide (o.done ≠ 0) || decide (o.waitSeq ≠ 0) || decide (Nat.min o.distance (Nat.max ps.1.length ps.2.length) ≤ o.page)

/-- The pages cleared so far, for the port of an operation. -/
def Port.after (p : Port) (o : ChOp) (claims : Bool) : Port :=
  let ps := o.outPages claims
  { p with src := (ps.1.take o.page).map (·.unit), dst := (ps.2.take o.page).map (·.unit) }

/-- A page whose translation has gone since it was cleared is to be cleared again. -/
def ChOp.backTo (o : ChOp) (claims : Bool) (addr : Nat) : Nat :=
  let ps := o.outPages claims
  let at_ := fun (l : List OutPage) => (l.findIdx? fun x => x.unit == addr / 65536).getD o.page
  Nat.min (at_ ps.1) (at_ ps.2)

/-! ### Claims (R269) -/

/-- Take the frames of pages that a range needs: the state, or nothing where the pool is empty. -/
def State.backRange (s : State) (id : RegionId) : List Nat → Option State
  | [] => some s
  | i :: r =>
    match s.findRegion id with
    | none => some s
    | some g =>
      match g.page i with
      | some _ => State.backRange s id r
      | none =>
        match s.takeFrame g.id.tenant g.pool with
        | none => none
        | some (f, s) => State.backRange (s.backPage g i f) id r

/-- A claim of n bytes at home: its offset, or the fault that refuses it. -/
def State.claim (s : State) (id : RegionId) (n left : Nat) (launch : Option Nat) : State × Except Nat Nat :=
  match s.findRegion id with
  | none => (s, .error clsPermission)
  | some g =>
    if g.st ≠ 0 || g.freeWait then (s, .error clsSealedWrite)
    else if g.len < g.c + n then (s, .error clsAppendOrder)
    else if n = 0 then (s, .ok g.c)
    else
      let first := g.c / pageBytes g.psize
      let last := (g.c + n - 1) / pageBytes g.psize
      let s := s.noteAppend id launch
      match s.backRange id ((List.range (last - first + 1)).map (· + first)) with
      | none => (s.count (8192 + g.home) 0x8B 1, .error clsAlloc)
      | some s => (s.updRegion id fun g => { g with c := g.c + n, claims := g.claims ++ [{ lo := g.c, hi := g.c + n, left := left }] }, .ok g.c)

/-- The claim at an offset counts as written. -/
def State.closeClaim (s : State) (id : RegionId) (at_ : Nat) : State :=
  s.updRegion id fun g => { g with claims := g.claims.map fun c => if c.lo = at_ then { c with left := 0 } else c }

/-- The runs, each within one line, of bytes of a range that an operation did not write. -/
def zeroRuns (at_ n : Nat) (covered : Nat → Bool) : List (Nat × Nat) :=
  (List.range n).foldl (fun r i =>
    if covered i then r
    else match r.getLast? with
      | some (o, m) => if o + m = i && (at_ + i) % 128 ≠ 0 then r.dropLast ++ [(o, m + 1)] else r ++ [(i, 1)]
      | none => [(i, 1)]) []

/-- Write zeros over the bytes of a claimed range that an operation did not write, line by line (R270, R311, R354). -/
def Pass.zeroFill (p : Port) (r : RegionId) (at_ n : Nat) (covered : Nat → Bool) (x : Pass) : Pass :=
  let s := (zeroRuns at_ n covered).foldl (fun (a : State × VC) e =>
    match a.1.findRegion r with
    | some g => let w := a.1.chanWrite p a.2 (regionKey r.tenant r.asid (g.base + at_ + e.1)) (List.replicate e.2 0); (w.1, w.2.1)
    | none => a) (x.s, x.obs)
  { x with s := s.1.closeClaim r at_, obs := s.2 }

end Sys2Proof.Machine
end

