-- ==== Sys2Proof/Machine/Transfer.lean ====
section
/-! DEFINITION. Running an operation of a channel or a job of a lane (R350 to R362), the completion record (R341), completion of a channel's operation (R351, R373, R374), and a submission to a channel (R370, R372). -/
namespace Sys2Proof.Machine

/-- What running an operation gives: the pass, and the status and detail it ends with unless it stops to wait. -/
structure Ran where
  x : Pass
  status : Option (Nat × Nat)
  claim : Option Nat
  deriving DecidableEq, Repr

/-- The port of an operation on a channel. -/
def ChOp.port (o : ChOp) (origin : Nat) : Port :=
  { origin := origin, tenant := o.tenant, asid := o.asid, launch := if o.pkt.isNone then some o.launch else none, route := o.route }

/-- Bytes of a claimed range that the rows of a copy have written. -/
def copyCovered (c : CopyPlan) (rowOut done i : Nat) : Bool :=
  (List.range c.rows).any fun r => decide (r * c.dpitch ≤ i) && decide (i < r * c.dpitch + rowOut) && decide (r * rowOut + (i - r * c.dpitch) < done)

/-- The APPEND region that a global destination names, where the address passes its checks. -/
def State.appendDst (s : State) (p : Port) (sp a : Nat) : Option Region :=
  if sp = 0 then
    match s.checkAppend [] p.tenant p.asid a with
    | .ok tr => tr.region
    | .error _ => none
  else none

/-- The destination address of an operation. -/
def ChOp.dst (o : ChOp) : Nat := fieldAt o.bytes 0x18 8

/-- An operation ends with no more of its pass; what it has claimed and not written is filled with zeros (R270, R352). -/
def State.endsWith (s : State) (p : Port) (o : ChOp) (status detail : Nat) : Ran :=
  let xf := fieldAt o.bytes 0 1 = 4
  let c := planOf o.bytes
  let x : Pass := { s := s, obs := o.obs, done := o.done, zeros := o.zeros, pos := o.pos }
  let x := match o.claim, s.appendDst p o.spaces.2 o.dst with
    | some a, some r =>
      let n := ((findBy (fun k : Claim => k.lo == a) r.claims).map fun k => k.hi - k.lo).getD 0
      x.zeroFill p r.id a n (fun i => if xf then decide (i < o.done) else copyCovered c (n - (c.rows - 1) * c.dpitch) o.done i)
    | _, _ => x
  { x := x, status := some (status, detail), claim := o.claim }

/-- An operation stopped before its pass. -/
def State.stopped (s : State) (p : Port) (o : ChOp) (st : Stop) : Ran :=
  match st with
  | .fail c _ => s.endsWith p o stFault c
  | _ => { x := { s := s, obs := o.obs, done := o.done, zeros := o.zeros, pos := o.pos, stop := some st }, status := none, claim := o.claim }

/-- The end of a pass: what stops it for good, or its status; a claimed range is filled (R270). -/
def Pass.close (p : Port) (to_ : Side) (claim : Option Nat) (n : Nat) (covered : Nat → Bool) (st : Nat) (x : Pass) : Ran :=
  let fin := fun (status detail : Nat) =>
    let x := { x with stop := none }
    let x := match to_, claim with
      | .claimed r, some a => x.zeroFill p r a n covered
      | _, _ => x
    ({ x := x, status := some (status, detail), claim := claim } : Ran)
  match x.stop with
  | some (.fail c _) => fin stFault c
  | some _ => { x := x, status := none, claim := claim }
  | none => fin st 0

/-- The claim of an operation's output, made once: the state, the claimed offset and side, or a fault. -/
def State.claimFor (s : State) (p : Port) (o : ChOp) (r : Region) (n : Nat) : State × Except Nat Nat :=
  match o.claim with
  | some a => (s, .ok a)
  | none => s.claim r.id n (if n = 0 then 0 else 2 ^ 64) p.launch

/-- The method under which an operation packs blocks into a compressed buffer: that of the source's page, and none for scratchpad, tiles and jobs (DESIGN CHOICE, log entry 65). -/
def State.methodOf (s : State) (p : Port) (from_ : Side) (src : Nat) : Nat :=
  match from_ with
  | .va _ => (match s.check [] p.tenant p.asid src 1 .read with
    | .ok tr => bitsOf tr.entry 56 3
    | .error _ => 0)
  | _ => 0

/-- What a copy does to its bytes: between compressed buffers of one type they move packed; else they are expanded, converted and packed as its sides and types ask (R348, R363 to R365). -/
def State.convOf (s : State) (p : Port) (c : CopyPlan) (from_ to_ : Side) (src dst : Nat) : Conv :=
  let inBuf := (s.packedBuf from_ src).isSome
  match s.packedBuf to_ dst with
  | some b => if inBuf && c.sty = c.dty then {} else { unpack := inBuf, conv := c.sty != c.dty, pack := some (s.methodOf p from_ src, b.base + b.len - dst) }
  | none => { unpack := inBuf, conv := c.sty != c.dty }

/-- Bytes that a row writes, the source's stream expanded where it is one. -/
def State.rowOutOf (s : State) (p : Port) (o : ChOp) (c : CopyPlan) (v : Conv) (from_ : Side) (src : Nat) : Nat :=
  if v.unpack then (v.apply (s.entropyTable o.tenant) c 0 (s.readSide p from_ src c.len).1).1.length else c.rowOut

/-- A record that a copy of a thread reads is acquired by the thread (R323). -/
def State.observeRec (s : State) (o : ChOp) (v : VC) : State :=
  if o.pkt.isNone && v != {} then s.updThread o.team o.thread fun h => { h with obs := h.obs.max v } else s

/-- The copy of a plan between two sides (R350). -/
def State.runPlan (s : State) (p : Port) (o : ChOp) (c : CopyPlan) (from_ to_ : Side) (src dst : Nat) : Ran :=
  let c := { c with src := src }
  let claims := match to_ with
    | .claimed _ => true
    | _ => false
  let v := s.convOf p c from_ to_ src dst
  let p := p.after o claims
  if v.pack.isSome && (decide (c.len % 256 ≠ 0) || (!v.unpack && decide (c.rowOut % 256 ≠ 0))) then s.endsWith p o stReject 0x20
  else if !o.cleared claims then s.stopped p o .wait
  else
    match s.useSide from_ false (rowRanges src c.spitch c.len c.rows) with
    | .error e => s.stopped p o e
    | .ok s =>
      match s.useSide to_ true (rowRanges dst c.dpitch (match v.pack with | some (_, room) => Nat.min room 1 | none => c.rowOut) c.rows) with
      | .error e => s.stopped p o e
      | .ok s =>
        let rowOut := s.rowOutOf p o c v from_ src
        let n := (c.rows - 1) * c.dpitch + rowOut
        let rec_ := s.sideClk from_ (rowRanges src c.spitch c.len c.rows)
        let s := s.observeRec o rec_
        let r0 := if v.isPlain && c.rowOut ≠ 0 then o.done / c.rowOut else 0
        let pass := fun (s : State) (at_ : Nat) =>
          Pass.rows p v (s.entropyTable o.tenant) c from_ to_ at_ { s := s, obs := o.obs.max rec_, done := o.done, zeros := o.zeros, pos := o.pos } (r0 * c.rowOut) r0 (c.rows - r0)
        match to_ with
        | .claimed r =>
          match s.findRegion r with
          | none => s.endsWith p o stFault clsPermission
          | some g =>
            match s.claimFor p o g n with
            | (s, .error e) => s.endsWith p { o with done := 0 } stFault e
            | (s, .ok a) => let (x, st) := pass s a; x.close p to_ (some a) n (copyCovered c rowOut x.done) st
        | _ => let (x, st) := pass s dst; x.close p to_ none 0 (fun _ => true) st

/-- A COPY on a channel (R348 to R354). -/
def State.runCopy (s : State) (ch : ChanId) (o : ChOp) : Ran :=
  let c := planOf o.bytes
  let p := o.port (chanOrigin ch)
  if c.len = 0 then s.endsWith p o stOk 0
  else
    match s.sideOf o 0x34 0x38 c.ssp c.src, s.sideOf o 0x34 0x38 c.dsp c.dst with
    | .error e, _ => s.stopped p o e
    | _, .error e => s.stopped p o e
    | .ok from_, .ok to_ =>
      let to_ := match s.appendDst p c.dsp c.dst with
        | some r => Side.claimed r.id
        | none => to_
      s.runPlan p o c from_ to_ (sideAddr c.ssp c.src) (sideAddr c.dsp c.dst)

/-- The cores that a queue-fed COPYM's mask names (R355). -/
def packetCores (b : List Byte) : List Nat :=
  let w := fieldAt b 0x38 4
  ((List.range 8).filter fun i => bitAt w i).map (· + (bitsOf w 13 2 * 192 + bitsOf w 8 5 * 8))

/-- The cores that a COPYM's mask names (R355). -/
def copymCores (o : ChOp) : List Nat :=
  if o.pkt.isNone then ((List.range 8).filter fun i => bitAt (fieldAt o.bytes 0x38 4) i).map (· + o.core / 8 * 8) else packetCores o.bytes

/-- A COPYM on a channel (R355, R356): the word at 0x38, whose low bytes hold mask, cluster and die, also names the team of a queue-fed one's source in space 1 or 3 (DESIGN CHOICE, log entry 65). -/
def State.runCopym (s : State) (ch : ChanId) (o : ChOp) : Ran :=
  let c := planOf o.bytes
  let p := o.port (chanOrigin ch)
  let launch := if o.pkt.isNone then o.launch else fieldAt o.bytes 0x34 4
  if c.len = 0 then s.endsWith p o stOk 0
  else
    let ts := (copymCores o).map fun core => (core, s.teamOn launch core)
    if ts.any fun e => e.2.isNone then s.endsWith p o stFault clsPermission
    else
      let to_ := Side.many (ts.filterMap fun e => e.2.map fun t => (t.id, e.1 - t.core))
      match s.sideOf o 0x34 0x38 c.ssp c.src with
      | .error e => s.stopped p o e
      | .ok from_ => s.runPlan p o c from_ to_ (sideAddr c.ssp c.src) c.dst

/-- The bytes of a job's source, expanded where a compressed buffer holds them (R365), with what stops their reading. -/
def State.jobSource (s : State) (p : Port) (o : ChOp) (from_ : Side) (src n : Nat) : List Byte × Option Stop :=
  let (bs, stop) := s.readSide p from_ src n
  if (s.packedBuf from_ src).isSome then ((unpackStream (s.entropyTable o.tenant) (bs.map (·.1)) n).1, stop) else (bs.map (·.1), stop)

/-- A job's output as it lands: packed in whole blocks, the last filled with zeros, where its destination is a compressed buffer (R365; DESIGN CHOICE, log entry 12). -/
def State.jobLands (s : State) (o : ChOp) (to_ : Side) (dst st : Nat) (out : List Byte) : List Byte × Nat :=
  match s.packedBuf to_ dst with
  | none => (out, st)
  | some b =>
    if fieldAt o.bytes 0x28 1 = 2 then (out, st)
    else
      let n := if st = 99 then out.length / 256 else (out.length + 255) / 256
      let x := packStream 0 [] (b.base + b.len - dst) (out.take (256 * n) ++ List.replicate (256 * n - out.length) 0) n
      (x.1, if x.2 then st else stOverflow)

/-- A job of a lane: its output written from where it stands (R357 to R364). -/
def State.runXform (s : State) (origin lane : Nat) (bankNo : Nat) (o : ChOp) : Ran :=
  let p := o.port origin
  let b := o.bytes
  let n := fieldAt b 0x20 4
  let d := fieldAt b 0x24 4
  let ssp := o.spaces.1
  let dsp := o.spaces.2
  let src := sideAddr ssp (fieldAt b 0x10 8)
  let dst := sideAddr dsp o.dst
  let m := fieldAt b 0x2B 1
  match s.sideOf o 0x2C 0x30 ssp (fieldAt b 0x10 8), s.sideOf o 0x2C 0x30 dsp o.dst with
  | .error e, _ => s.stopped p o e
  | _, .error e => s.stopped p o e
  | .ok from_, .ok to_ =>
    let app := s.appendDst p dsp o.dst
    let to_ := match app with
      | some r => Side.claimed r.id
      | none => to_
    let p := p.after o app.isSome
    if !o.cleared app.isSome then s.stopped p o .wait
    else
    match s.useSide from_ false [(src, src + n)] with
    | .error e => s.stopped p o e
    | .ok s =>
      match s.useSide to_ true [(dst, dst + (if (s.packedBuf to_ dst).isSome && fieldAt b 0x28 1 ≠ 2 then Nat.min d 1 else d))] with
      | .error e => s.stopped p o e
      | .ok s =>
        let (bs, stop) := s.jobSource p o from_ src n
        let ln := s.lane lane
        let bank := if bankNo = 0 then ln.bank0 else ln.bank1
        let (out, st) := jobOutput (fieldAt b 0x28 1) bank (if (s.packedBuf to_ dst).isSome then fun _ => none else windowByte ln.window o.done) (s.entropyTable o.tenant (m - 4)) m d stop.isSome bs
        let (out, st) := s.jobLands o to_ dst st out
        let rec_ := s.sideClk from_ [(src, src + n)]
        let s := s.observeRec o rec_
        let go := fun (s : State) (at_ : Nat) (claim : Option Nat) =>
          let x : Pass := { s := s, obs := o.obs.max rec_, done := o.done, zeros := o.zeros, pos := o.pos }
          let out := match stop with
            | some (.fail _ _) => if st = 99 then out.take ((at_ + out.length) / 128 * 128 - at_) else out
            | _ => out
          let x := x.puts p to_ (at_ + o.done) ((out.map fun b => (b, false)).drop o.done) (out.length / 128 + 2)
          let x := if o.done = 0 then x.touch p from_ src (0, n) else x
          let x := if x.stop.isNone && st = 99 then { x with stop := stop } else x
          let x := { x with pos := Nat.max x.pos (x.done - (at_ + x.done) % 4), s := x.s.updLane lane fun l => { l with window := (out.take x.done).drop (x.done - 65536) } }
          x.close p to_ claim d (fun i => decide (i < x.done)) st
        match app with
        | some r =>
          match s.claimFor p o r d with
          | (s, .error e) => s.endsWith p { o with done := 0 } stFault e
          | (s, .ok a) => go s a (some a)
        | none => go s dst none

/-! ### Completion -/

/-- Write a completion record: result first, then the stamp (R341); a fault of either write gives its class and address. -/
def State.record (s : State) (p : Port) (obs : VC) (addr result stamp : Nat) : State × VC × Option (Nat × Nat) :=
  match s.check [] p.tenant p.asid addr 8 .write with
  | .error c => (s, obs, some (c, addr))
  | .ok tr =>
    if s.linkDown tr.key then (s, obs, some (clsEcc, addr))
    else match s.chanWrite p obs tr.key (leBytes result 8) with
    | (s, obs, 0) =>
      match s.check [] p.tenant p.asid (addr + 8) 8 .write with
      | .error c => (s, obs, some (c, addr + 8))
      | .ok tr =>
        if s.linkDown tr.key then (s, obs, some (clsEcc, addr + 8))
        else match s.chanWrite p obs tr.key (leBytes stamp 8) with
        | (s, obs, 0) => (s, obs, none)
        | (s, obs, c) => (s, obs, some (c, addr + 8))
    | (s, obs, c) => (s, obs, some (c, addr))

/-- The completion record of a packet, where C = 1; a fault gives a kind 11 record. -/
def State.complete (s : State) (p : Port) (obs : VC) (bytes : List Byte) (num launch team stamp status detail count : Nat) : State × VC :=
  if bitAt (fieldAt bytes 1 1) 0 then
    let addr := fieldAt bytes 8 8
    match s.record p obs addr (status + detail * 256 + count * 2 ^ 32) stamp with
    | (s, obs, none) => (s, obs)
    | (s, obs, some (c, a)) => ((s.makeRec p.tenant { kind := 11, cls := c, launch := launch, team := team, num := num, addr := a, pkt := stamp }).2, obs)
  else (s, obs)

/-- The words of an operation's completion record must wait for a COPY entry or a migration of their page (R396, R400). -/
def State.recordHeld (s : State) (p : Port) (bytes : List Byte) : State × Bool :=
  if bitAt (fieldAt bytes 1 1) 0 then
    [0, 8].foldl (fun (r : State × Bool) d =>
      match r.1.check [] p.tenant p.asid (fieldAt bytes 8 8 + d) 8 .write with
      | .ok tr => let x := r.1.chanHeld p tr.key (2 ^ levelShift tr.level); (x.1, r.2 || x.2)
      | .error _ => r) (s, false)
  else (s, false)

/-- A timeline wait may end: a timeline has moved. -/
def State.wakeTimelines (s : State) : State := s.wakeWhere WaitKind.isTimeline

/-- The number of a channel in records. -/
def chanNum : ChanId → Nat
  | .core _ n => n
  | .die _ n => n
  | .system _ n => n

/-- Lines written, in the channel's event counter (R410). -/
def State.countLines (s : State) (ch : ChanId) (lines : Nat) : State :=
  match ch with
  | .core c _ => s.count (4096 + c) 0x4E lines
  | .die d _ => s.count (8192 + d) 0x8A lines
  | .system d _ => s.count (8192 + d) 0x8A lines

/-- A launch consumes an error that a copy or transform of its own has met (R419, R444). -/
def State.copyMet (s : State) (o : ChOp) : State :=
  let l := s.launch o.launch
  if o.pkt.isNone && l.replayable && !l.incomplete && l.aborted.isNone then { s with rollbacks := s.rollbacks ++ [(o.launch, clsEcc)] } else s

/-- The head operation of a channel completes with a status (R351, R373, R374). -/
def State.retireOp (s : State) (ch : ChanId) (o : ChOp) (obs : VC) (status detail count lines : Nat) : State :=
  let p := o.port (chanOrigin ch)
  let s := if status = stFault && detail = clsEcc then (s.count (8192 + chanOrigin ch) 0x88 1).copyMet o else s
  let (s, obs) := match o.pkt with
    | none => s.complete p obs o.bytes (chanNum ch) o.launch o.team.team o.seq status detail count
    | some _ => (s, obs)
  let s := s.updChan ch fun c =>
    { c with ops := c.ops.drop 1, timeline := Nat.max c.timeline o.seq, tlClk := c.tlClk.max obs, status := status + detail * 256
             wptr := if (c.ops.drop 1).isEmpty then 0xFFFFFFFF else 0 }
  let s := s.countLines ch lines
  let s := match o.pkt with
    | some (q, n) => s.updQueue q fun x =>
        { x with pkts := mapIf (fun k : Pkt => k.seq == n) (fun k => { k with result := some (status, detail, count), clk := k.clk.max obs }) x.pkts }
    | none => s
  s.wakeTimelines

/-- An operation may run: its channel's die has no earlier write under way, and every home can serve its vector (R314, R324). -/
def State.mayRun (s : State) (origin : Nat) (v : VC) : Bool :=
  (List.range 5).all (fun h => s.homeReady h v) && !(s.writes.any fun w => w.origin == origin)

/-- Keep what a stopped pass has done. -/
def State.keepPass (s : State) (ch : ChanId) (r : Ran) : State :=
  (s.countLines ch r.x.lines).updChan ch fun c => match c.ops with
    | o :: rest =>
      let page := match r.x.stop with
        | some (.ask _ a) => o.backTo r.claim.isSome a
        | _ => o.page
      let route := if r.x.stop = some .lost then some (o.route.getD (s.hub + 2 ^ 20)) else none
      { c with ops := { o with route := route, done := r.x.done, obs := r.x.obs, zeros := r.x.zeros, claim := r.claim, pos := r.x.pos, page := page } :: rest, wptr := r.x.pos }
    | [] => c

/-! ### Submission (R351, R357, R370, R372) -/

/-- Place an operation on a channel under a sequence number; a transform that is not rejected joins its lane. -/
def State.enqueue (s : State) (ch : ChanId) (seq : Nat) (o : ChOp) (bad : Bool) : State :=
  let s := s.updChan ch fun c => { c with ops := c.ops ++ [{ o with seq := seq }], wptr := if c.ops.isEmpty then 0 else c.wptr }
  if fieldAt o.bytes 0 1 = 4 && !bad then
    let b := fieldAt o.bytes 0x2A 1
    let die := bitsOf b 4 2
    let load := fun n => (s.lane (die * 16 + n)).jobs.length
    let n := if bitAt b 6 then (List.range 16).foldl (fun best k => if load k < load best then k else best) 0 else bitsOf b 0 4
    let lane := die * 16 + n
    let s := s.updChan ch fun c => { c with ops := mapIf (fun x : ChOp => x.seq == seq) (fun x => { x with lane := some lane }) c.ops }
    s.updLane lane fun l => { l with jobs := l.jobs ++ [(ch, seq, none)] }
  else s

/-- Submit a packet image to a core's channel. -/
def State.submit (s : State) (core ch seq : Nat) (o : ChOp) : State := s.enqueue (.core core ch) seq o (chanReject true 3 o.bytes).isSome

end Sys2Proof.Machine
end

