-- ==== Sys2Proof/Machine/Queue.lean ====
section
/-! DEFINITION. Class 4 (R370 to R375) and the declared-buffer words of class 2 (R305, R306), which wait on copies and matrix words. -/
namespace Sys2Proof.Machine

/-! ### copy, copym, xform (R370, R372, R375) -/

/-- The 64-byte image in sixteen registers. -/
def imageAt (h : Thread) (a : Reg) : List Byte := leBytes (h.regNat a.toNat 16) 64

/-- The image with a wrong type byte rejected at offset 0 (R372). -/
def typed (want : Nat) (b : List Byte) : List Byte := if fieldAt b 0 1 = want then b else (0 : Byte) :: b.drop 1

/-- The byte ranges that a packet image reads in its source space and writes in its destination, those of each row (R348, R349, R357). -/
def imageRanges (b : List Byte) : List (Nat × Nat) × List (Nat × Nat) :=
  let c := planOf b
  if fieldAt b 0 1 = 4 then ([(c.src, c.src + fieldAt b 0x20 4)], [(c.dst, c.dst + fieldAt b 0x24 4)])
  else (rowRanges c.src c.spitch c.len c.rows, rowRanges c.dst c.dpitch c.rowOut c.rows)

/-- The byte ranges of accumulator memory that a packet image names (R217, R349). -/
def tileRanges (b : List Byte) : List (Nat × Nat) :=
  let sp := if fieldAt b 0 1 = 4 then fieldAt b 0x29 1 else fieldAt b 0x30 1
  ((if bitsOf sp 0 3 = 3 then (imageRanges b).1 else []) ++ (if bitsOf sp 3 3 = 3 && fieldAt b 0 1 ≠ 3 then (imageRanges b).2 else [])).filter fun r => decide (r.1 < r.2)

/-- An image names accumulator memory that overlaps a tile of an outstanding matrix word of its team on its core (R217). -/
def State.tileHeld (s : State) (id : TeamId) (core : Nat) (b : List Byte) : Bool :=
  let rs := tileRanges b
  !rs.isEmpty && s.ops.any fun o => o.team == id && o.core == core && (match o.kind with
    | .matrix i => (tilesOf (s.launch id.launch).w i).any fun t => rs.any fun r => decide (t.1 * 4096 < r.2) && decide (r.1 < (t.1 + t.2) * 4096)
    | _ => false)

/-- The free-slot counters that a copym's mask names are nonzero (R356). -/
def State.copymReady (s : State) (core : Nat) (b : List Byte) : Bool :=
  (List.range 8).all fun i => !bitAt (fieldAt b 0x38 1) i || decide (0 < Store.get 0 (s.core core).free i)

/-- A copym's issue takes one from each counter of its mask. -/
def State.takeSlots (s : State) (core : Nat) (b : List Byte) : State :=
  s.updCore core fun c => { c with free := (List.range 8).foldl (fun m i => if bitAt (fieldAt b 0x38 1) i then Store.upd 0 m i (· - 1) else m) c.free }

/-- Why a participant's submission must wait, 0 where it need not (R217, R356, R370). -/
def State.submitHold (s : State) (c : Ctx) (want ch : Nat) (b : List Byte) : Nat :=
  if 16 ≤ (s.chan (.core c.core ch)).ops.length then 8
  else if s.tileHeld c.g.team c.core b then 7
  else if want = 3 && !s.copymReady c.core b then 8
  else if s.heldFull c.g.team then 11
  else 0

/-- A packet image enters a thread's signature: eight records with address 0 and full mask (R448). -/
def Thread.signImage (b : List Byte) (h : Thread) : Thread :=
  { h with sig := (List.range 8).foldl (fun g i => crc64 g (leBytes 0 8 ++ List.replicate 8 1 ++ (b.drop (8 * i)).take 8)) h.sig }

/-- One participant submits: it takes the channel's next number; a copy of a redundant team holds its image back, and it enters the signature as it stands in the registers (R372, R375, R448). -/
def State.submitOne (s : State) (c : Ctx) (want ch : Nat) (h : Thread) (raw b : List Byte) : Nat × State :=
  let id : ChanId := .core c.core ch
  let seq := (s.chan id).lastSeq + 1
  let s := s.updChan id fun x => { x with lastSeq := seq }
  let s := if want = 3 then s.takeSlots c.core b else s
  if c.l.redundant then
    let e : Held := { id := s.nextId, thread := h.idx, va := seq, bytes := b, submit := some (want, ch) }
    let s := { s with nextId := s.nextId + 1 }
    (seq, (s.updThread c.g.team h.idx (Thread.signImage raw)).updTeam c.g.team fun t => { t with held := t.held ++ [e] })
  else
    (seq, s.submit c.core ch seq { bytes := b, seq := seq, tenant := c.l.tenant, asid := c.l.asid, launch := c.l.id, team := c.g.team, core := c.core, thread := h.idx, obs := (s.thread c.g.team h.idx).obs })

/-- Participants submit in order while places are free; the word is held for the rest (R370). -/
def State.submitLanes (s : State) (c : Ctx) (k : Ctl) (want ch : Nat) (d a : Reg) : List Thread → State
  | [] => s.endWord c 2
  | h :: r =>
    let b := typed want (imageAt h a)
    let why := s.submitHold c want ch b
    if why ≠ 0 then s.holdWord c why
    else
      let (seq, s) := s.submitOne c want ch h (imageAt h a) b
      let res := (c.receivers k h).flatMap fun i => (wpair d seq).map fun w => (i, w)
      let s := s.addOp { c.op 4 .ready with results := res, isReady := true }
      State.submitLanes (s.updGrp c.gid fun g => { g with doneLanes := g.doneLanes ++ [h.idx] }) c k want ch d a r

/-- A word that submits a packet of a type to a core channel. -/
def submitWord (want : Nat) (k : Ctl) (d a : Reg) (ch : Bits2) (s : State) : Out :=
  issue 2 (two d ++ regsFrom a 16) s fun c s =>
    s.submitLanes c k want ch.toNat d a ((c.actors k).filter fun h => !c.g.doneLanes.contains h.idx)

def execCopy (k : Ctl) (d a : Reg) (ch : Bits2) (s : State) : Out := submitWord 2 k d a ch s
def execCopym (k : Ctl) (d a : Reg) (ch : Bits2) (s : State) : Out := submitWord 3 k d a ch s
def execXform (k : Ctl) (d a : Reg) (ch : Bits2) (s : State) : Out := submitWord 4 k d a ch s

/-! ### qappend (R371) -/

/-- A queue is the tenant's and enabled. -/
def State.queueOpen (s : State) (tenant q : Nat) : Bool :=
  let c := (s.queue q).qctl.toNat
  bitsOf c 24 4 == tenant && bitAt c 31

/-- The translation of bytes of a queue, for a thread of its tenant on a core. -/
def State.queueTr (s : State) (core q va size : Nat) (a : Access) : Except Nat Tr :=
  let c := (s.queue q).qctl.toNat
  match s.check (s.core core).tlb (bitsOf c 24 4) (bitsOf c 20 4) va size a with
  | .error e => .error e
  | .ok t => if s.linkDown t.key || (a != .write && s.badAt t.key size) then .error clsEcc else .ok t

/-- The location of an address of a queue, 0 where it does not translate. -/
def State.queueKey (s : State) (q va : Nat) : Nat :=
  let c := (s.queue q).qctl.toNat
  match s.translate [] (bitsOf c 24 4) (bitsOf c 20 4) va with
  | .ok t => t.key
  | .error _ => 0

/-- The translations of a queue's two index words, or the fault with its address (R371). -/
def State.indexTr (s : State) (core q : Nat) : Except (Nat × Nat) (Tr × Tr) :=
  let x := (s.queue q).qindex.toNat
  match s.queueTr core q x 8 .atomic, s.queueTr core q (x + 8) 8 .read with
  | .error e, _ => .error (e, x)
  | _, .error e => .error (e, x + 8)
  | .ok w, .ok r => .ok (w, r)

/-- A place in its origin's order for a store whose address only its claim will give. -/
def State.placeLater (s : State) (id : TeamId) (i : Nat) : Nat × State :=
  let x := s.emitEmpty id i 0 0 1
  (x.1, { x.2 with writes := mapIf (fun w => w.id == x.1) (fun w => { w with home := anyHome }) x.2.writes })

/-- The places of a qappend's stores in the order shown: the index word, bytes 1 to 63 of the slot, byte 0 (R311, R371). -/
def State.placeQappend (s : State) (id : TeamId) (a : Acc) : State × Acc :=
  let (w, s) := s.emitEmpty id a.thread a.key a.size a.psize
  let (x, s) := s.placeLater id a.thread
  let (y, s) := s.placeLater id a.thread
  (s, { a with ws := [w, x, y] })

/-- One participant of a qappend: its access, with the place of its index write taken at issue (R311, R371); a type byte of 0 appends nothing. -/
def State.startQappend (s : State) (c : Ctx) (h : Thread) (q img nth : Nat) : State × Acc :=
  let a : Acc := { thread := h.idx, va := (s.queue q).qindex.toNat, key := 0, size := 0, home := 0, vec := h.obs, opnd := q, cmp := img, ok := false, nth := nth }
  if img % 256 = 0 then (s, { a with done := true })
  else
    match s.indexTr c.core q with
    | .error e => (s, { a with done := true, fault := e.1, va := e.2, key := s.queueKey q e.2 })
    | .ok (w, _) =>
      let a := { a with key := w.key, size := 8, home := s.homeOf w.key, psize := 2 ^ levelShift w.level }
      s.placeQappend c.g.team a

/-- The participants of a qappend, in ascending home lane; in a redundant team each image enters its copy's signature, and the primary alone goes to the queue (R375, R448). -/
def State.startQappends (s : State) (c : Ctx) (b : Reg) (q : Thread → Nat) : List (Thread × Acc) → State × List Acc
  | [] => (s, [])
  | e :: r =>
    let img := e.1.regNat b.toNat 16
    let s := if c.l.redundant then s.updThread c.g.team e.1.idx (Thread.signImage (leBytes img 64)) else s
    let x := if c.g.team.shadow then (s, e.2) else s.startQappend c e.1 (q e.1) img e.2.nth
    let y := State.startQappends x.1 c b q r
    (y.1, x.2 :: y.2)

def execQappend (k : Ctl) (d a b : Reg) (pd : Pred) (s : State) : Out :=
  issue 2 (two d ++ one a ++ regsFrom b 16) s fun c s =>
    let hs := c.actors k
    let q := fun h : Thread => h.v a % 2048
    let bad := hs.filter fun h => !s.queueOpen c.l.tenant (q h)
    let good := hs.filter fun h => s.queueOpen c.l.tenant (q h)
    let s := s.parkBad c k 2 (bad.map fun h => { thread := h.idx, cls := clsPermission })
    if !s.running c.gid then s
    else if good.isEmpty then s.endWord c 2
    else
      let (s, asks) := s.numbered c.g.team (good.map fun h => { thread := h.idx, va := 0, key := 0, size := 0, home := 0, vec := h.obs })
      let (s, accs) := s.startQappends c b q (good.zip asks)
      s.beginOp c { c.op 4 .qappend with accs := accs, d := d.toNat, pd := pd.toNat, all := c.spread k, verdict := true, len := 2 }

/-! ### relslot, wptr, tlrd, chq (R373, R374) -/

def execRelslot (k : Ctl) (a b : Reg) (s : State) : Out :=
  issue 1 (one a ++ one b) s fun c s =>
    ((c.actors k).foldl (fun s h =>
      s.updCore (c.core / 8 * 8 + h.v a % 8) fun x => { x with free := Store.upd 0 x.free (c.core % 8) fun n => Nat.min 65535 (n + h.v b % 65536) }) s).endWord c 1

/-- The sequence number that wptr names: the oldest incomplete operation's, else the last completed. -/
def Chan.wptrSeq (c : Chan) : Nat := match c.ops with
  | o :: _ => o.seq
  | [] => c.timeline

def execWptr (k : Ctl) (d a : Reg) (s : State) : Out :=
  laneVariable 1 4 k (two d ++ one a) s fun c h =>
    let x := s.chan (.core c.core (h.v a % 4))
    wpair d (x.wptr % 2 ^ 32 + x.wptrSeq % 2 ^ 32 * 2 ^ 32)

/-- The queue belongs to a tenant. -/
def State.queueOf (s : State) (tenant q : Nat) : Bool := bitsOf (s.queue q).qctl.toNat 24 4 == tenant

def execTlrdQ (k : Ctl) (d a : Reg) (s : State) : Out :=
  issue 1 (two d ++ one a) s fun c s =>
    let hs := c.actors k
    let good := hs.filter fun h => s.queueOf c.l.tenant (h.v a % 2048)
    let s := s.parkBad c k 1 ((hs.filter fun h => !s.queueOf c.l.tenant (h.v a % 2048)).map fun h => { thread := h.idx, cls := clsPermission })
    if !s.running c.gid then s
    else
      let rs := good.flatMap fun h => (c.receivers k h).flatMap fun i => (wpair d (s.queue (h.v a % 2048)).timeline).map fun w => (i, w)
      (s.addOp { c.op 4 .ready with results := rs, isReady := true }).endWord c 1

def execTlrdCh (k : Ctl) (d a : Reg) (s : State) : Out :=
  laneVariable 1 4 k (two d ++ one a) s fun c h => wpair d (s.chan (.core c.core (h.v a % 4))).timeline
def execTlrdDch (k : Ctl) (d a : Reg) (s : State) : Out :=
  laneVariable 1 4 k (two d ++ one a) s fun c h => wpair d (s.chan (.die c.die (h.v a % 16))).timeline

/-- The status word of a channel: what waits behind 16 operations for a place is not yet accepted (R351, R374). -/
def Chan.word (c : Chan) : Nat :=
  c.status % 65536 + bit (match c.ops with
    | o :: _ => decide (o.waitSeq ≠ 0)
    | [] => false) * 2 ^ 23 + Nat.min 16 c.ops.length * 2 ^ 24

def execChq (k : Ctl) (d a : Reg) (s : State) : Out :=
  laneVariable 1 4 k (one d ++ one a) s fun c h => wreg d (s.chan (.core c.core (h.v a % 4))).word

/-! ### Declared buffers (R305, R306, R253) -/

/-- The scratchpad side that an operation's fill writes, or consume reads, go to: of a COPYM, a team's half among its receivers (R349, R355). -/
def State.bufSide (s : State) (o : ChOp) (id : TeamId) (half : Nat) (fill : Bool) : Except Stop Side :=
  let c := planOf o.bytes
  if fieldAt o.bytes 0 1 = 4 then
    (if fill then s.sideOf o 0x2C 0x30 (bitsOf (fieldAt o.bytes 0x29 1) 3 3) c.dst else s.sideOf o 0x2C 0x30 (bitsOf (fieldAt o.bytes 0x29 1) 0 3) c.src)
  else if fieldAt o.bytes 0 1 = 3 && fill then
    (if (copymCores o).contains ((s.team id).core + half) && (if o.pkt.isNone then o.launch else fieldAt o.bytes 0x34 4) == id.launch then .ok (.scratch id half) else .ok (.va false))
  else (if fill then s.sideOf o 0x34 0x38 c.dsp c.dst else s.sideOf o 0x34 0x38 c.ssp c.src)

/-- The ranges of scratchpad that an outstanding matrix word fills, or consumes (R252). -/
def Op.wordRanges (o : Op) (fill : Bool) : List (Nat × Nat) :=
  match o.accs with
  | [] => []
  | a :: _ =>
    let d : Desc := ⟨a.opnd, a.cmp⟩
    match o.kind with
    | .matrix (.accst _ _ _) => if fill then d.ranges d.rows 1 128 else []
    | .matrix (.acccvt _ _ _ _ _ _ _ t) => if fill then d.ranges d.rows 1 (cvtRow t) else []
    | .matrix (.pgsel _ _ _ _ _ sc n) => if fill then [(a.cmp % 2 ^ 32, a.cmp % 2 ^ 32 + n.toNat * (if sc then 8 else 4))] else []
    | .matrix (.accld _ _ _) => if fill then [] else d.ranges d.rows 1 128
    | .matrix (.wld _ m _ _ f) => if fill then [] else d.ranges 32 (nbOf (modeCode m) * kbOf (modeCode m)) (rowLen (fmtCode f))
    | .matrix (.wldpr _ _ f) => if fill then [] else d.ranges 32 (nbOf 3 * kbOf 3) (rowLen (fmtCode f))
    | .matrix (.mma _ m _ _ _ src _ f) => if src && !fill then d.ranges d.rows (kbOf (modeCode m)) (rowLen (fmtCode f)) else []
    | .matrix (.mmapr _ _ _ _ src f) => if src && !fill then d.ranges d.rows (kbOf 3) (rowLen (fmtCode f)) else []
    | _ => []

/-- Some of the ranges meet a buffer. -/
def Buf.meets (b : Buf) (rs : List (Nat × Nat)) : Bool := rs.any fun r => decide (r.1 < r.2) && decide (b.base < r.2) && decide (r.1 < b.base + b.len)

/-- A fill write, or a consume read, of a buffer has issued and not completed: of a matrix word, or of the operation at the head of a channel, which has begun its accesses; those behind it have not (R253, R351; DEDUCED, log entry 67). -/
def State.bufBusy (s : State) (id : TeamId) (b : Buf) (fill : Bool) : Bool :=
  (s.ops.any fun o => o.team == id && o.core == b.core && b.meets (o.wordRanges fill)) ||
  s.chans.any fun e => match e.2.ops with
    | [] => false
    | o :: _ =>
      let half := b.core - (s.team id).core
      o.ended.isNone && (chanReject o.pkt.isNone 3 o.bytes).isNone && b.meets (((if fill then (imageRanges o.bytes).2 else (imageRanges o.bytes).1)).map fun r => (r.1 % 2 ^ 32, r.1 % 2 ^ 32 + (r.2 - r.1))) &&
      (match s.bufSide o id half fill with
        | .ok (.scratch t h) => t == id && h == half
        | _ => false)

/-- The declared buffer of a handle that a team holds on a core. -/
def Team.buf (t : Team) (core handle : Nat) : Option Buf := findBy (fun b => b.core == core && b.handle == handle) t.bufs
/-- Change the state of a buffer. -/
def Team.setBuf (t : Team) (core handle st : Nat) : Team :=
  { t with bufs := mapIf (fun b => b.core == core && b.handle == handle) (fun b => { b with st := st }) t.bufs }

/-- The lowest handle of a core that no team holds. -/
def State.freeHandle (s : State) (core : Nat) : Option Nat :=
  (List.range 32).find? fun n => !s.teams.any fun t => t.saved.isNone && (t.buf core n).isSome

/-- A declaration: the handle, or 0xFFFF_FFFF where the core has none left, and the state. -/
def State.declare (s : State) (id : TeamId) (core base len rot : Nat) (cmp : Bool) : Nat × State :=
  match s.freeHandle core with
  | none => (2 ^ 32 - 1, s)
  | some n => (n, s.updTeam id fun t => { t with bufs := t.bufs ++ [{ handle := n, core := core, base := base, len := len, rot := rot, cmp := cmp, st := 0 }] })

def execBufdecl (k : Ctl) (d a b : Reg) (rot : Bits3) (cmp : Bool) (s : State) : Out :=
  issue 2 (one d ++ one a ++ one b) s fun c s =>
    match c.lead k with
    | none => s.endWord c 2
    | some h =>
      let base := h.v a
      let len := h.v b
      if base % 128 ≠ 0 || len % 128 ≠ 0 then s.parkWhole c.gid { cls := clsMisalign, detail := 0, addr := base, len := 2 }
      else if len = 0 || decide (2 ^ 19 < len) || decide (c.l.scratchTop < base + len) || (bufOver c.core base (base + len) c.t.bufs).isSome then
        s.parkWhole c.gid { cls := clsPermission, detail := 0, addr := base, len := 2 }
      else
        let (v, s) := s.declare c.g.team c.core base len rot.toNat cmp
        let rs := c.g.members.flatMap fun i => (wreg d v).map fun w => (i, w)
        (s.addOp { c.op 2 .ready with results := rs, isReady := true }).endWord c 2

/-- A word on the buffer whose handle the leading active member names (R305). -/
def bufWord (k : Ctl) (a : Reg) (len : Nat) (s : State) (f : Ctx → Buf → State → State) : Out :=
  issue len (one a) s fun c s =>
    match c.lead k with
    | none => s.endWord c len
    | some h =>
      match c.t.buf c.core (h.v a) with
      | none => s.parkWhole c.gid { cls := clsPermission, detail := 0, addr := 0, len := len }
      | some b => f c b s

/-- A buffer's state forbids the word: the whole group parks (R256). -/
def State.bufFault (s : State) (c : Ctx) (b : Buf) (len : Nat) : State :=
  s.parkWhole c.gid { cls := clsBufState, detail := b.st, addr := b.base, len := len }

/-- The buffer moves to a state, and the word ends. -/
def State.bufTo (s : State) (c : Ctx) (b : Buf) (st len : Nat) : State :=
  (s.updTeam c.g.team fun t => t.setBuf b.core b.handle st).endWord c len

def execBufdeclRel (k : Ctl) (a : Reg) (s : State) : Out :=
  bufWord k a 2 s fun c b s =>
    if b.st ≠ 0 then s.bufFault c b 2
    else (s.updTeam c.g.team fun t => { t with bufs := t.bufs.filter fun x => x != b }).endWord c 2

def execBufmarkFill (k : Ctl) (a : Reg) (s : State) : Out :=
  bufWord k a 1 s fun c b s => if b.st ≤ 1 then s.bufTo c b 1 1 else s.bufFault c b 1

/-- What holds a bufmark.full or .empty at issue: 10 while an earlier fill write has yet to land, or an earlier consume read to complete (R29, R253). -/
def State.markHold (s : State) (c : Ctx) (k : Ctl) (a : Reg) (full : Bool) : Nat :=
  match (c.lead k).bind fun h => c.t.buf c.core (h.v a) with
  | some b => if (if full then b.st == 1 else decide (2 ≤ b.st)) && s.bufBusy c.g.team b full then 10 else 0
  | none => 0

def execBufmarkFull (k : Ctl) (a : Reg) (s : State) : Out :=
  bufWord k a 1 s fun c b s =>
    if b.st = 2 then s.endWord c 1
    else if b.st = 1 && s.bufBusy c.g.team b true then s.holdWord c 10
    else if b.st = 1 then s.bufTo c b 2 1
    else s.bufFault c b 1

def execBufmarkEmpty (k : Ctl) (a : Reg) (s : State) : Out :=
  bufWord k a 1 s fun c b s =>
    if b.st = 0 then s.endWord c 1
    else if 2 ≤ b.st && s.bufBusy c.g.team b false then s.holdWord c 10
    else if 2 ≤ b.st then s.bufTo c b 0 1
    else s.bufFault c b 1

/-- The status word of a buffer (R306). -/
def Buf.word (b : Buf) : Nat := b.st + b.rot * 8 + bit b.cmp * 64 + 128 + b.base / 128 * 256 + (b.len / 128 - 1) * 2 ^ 20

def execBufq (k : Ctl) (d a : Reg) (s : State) : Out :=
  laneVariable 1 2 k (one d ++ one a) s fun c h => wreg d (match c.t.buf c.core (h.v a) with
    | some b => b.word
    | none => 0)

end Sys2Proof.Machine
end

