-- ==== Sys2Proof/Machine/Array.lean ====
section
/-! DEFINITION. The matrix array as a word retires: chains (R115 to R119), latches and reloads (R211), skipping (R227 to R229), tiles and page selection (R220 to R225, R237). -/
namespace Sys2Proof.Machine

/-! ### Chains -/

/-- The format in which the elements of a fragment multiply; w4 elements are decoded to f32 (R116). -/
def workFmt (f : Nat) : FFmt := match f with
  | 0 => .bf16
  | 1 => .f16
  | 2 => .e4m3
  | 3 => .e5m2
  | _ => .f32

/-- The elements of a row of one K block (R203, R205). -/
def rowElems (f : Nat) (b : List Byte) : List Nat :=
  if f ≤ 1 then elemsOf 2 b 32
  else if f = 4 then (List.range 4).flatMap fun q => w4Values ((b.drop (17 * q)).take 17)
  else elemsOf 1 b 64

/-- The scale exponents of a w4 row's blocks. -/
def rowScales (b : List Byte) : List Nat := (List.range 4).map fun q => fieldAt b (17 * q + 16) 1 % 64

/-- One addition of a chain (R115, R118). A sum that is a NaN stays that NaN, and is delivered quiet, as every NaN result is (R108, R118; where the two meet, for a signalling NaN placed in a tile, a DESIGN CHOICE, log entry 51). -/
def chainStep (fa fb : FFmt) (s : Nat) (p : Nat × Nat) : Nat :=
  if FFmt.f32.isNan s then FFmt.f32.quiet s
  else FFmt.f32.sumTerms .rne [(fa, p.1), (fb, p.2)] [termMul fa p.1 fb p.2 false, termOf .f32 s false]

/-- A w4 block pair is skipped under a threshold (R229). -/
def pairSkipped (theta : Option Int) (ea eb : Nat) : Bool :=
  match theta with
  | some x => ea ≠ 63 && eb ≠ 63 && decide ((ea : Int) - 32 + ((eb : Int) - 32) < x)
  | none => false

/-- An integer element (R119). -/
def intElem (f x : Nat) : Int := if f = 5 then toSigned 8 x else (x : Int)

/-- One row and column of a K block added to a running sum. -/
def chainBlock (fa fb : Nat) (theta : Option Int) (s : Nat) (a b : List Byte) : Nat :=
  let ps := (rowElems fa a).zip (rowElems fb b)
  if 5 ≤ fa then wrapTo 32 (ps.foldl (fun x p => x + intElem fa p.1 * intElem fb p.2) (s : Int))
  else if fa = 4 then
    (List.range 4).foldl (fun s q =>
      if pairSkipped theta ((rowScales a).getD q 0) ((rowScales b).getD q 0) then s
      else ((ps.drop (32 * q)).take 32).foldl (chainStep .f32 .f32) s) s
  else ps.foldl (chainStep (workFmt fa) (workFmt fb)) s

/-- An A row as the array streams it: its bytes for each K block, and whether it is skipped there. -/
abbrev ARow := List (List Byte × Bool)

/-- A B row of a binding: column block n, K block b, column j. -/
def Binding.row (b : Binding) (kb n blk j : Nat) : List Byte × Bool :=
  let i := (n * kb + blk) * 32 + j
  ((b.data.drop (i * rowLen b.fmt)).take (rowLen b.fmt), b.skip.getD i false)

/-- A range of K blocks added to a sum. -/
def chainBlocks (fa : Nat) (theta : Option Int) (b : Binding) (kb n j : Nat) (a : ARow) (s : Nat) (blks : List Nat) : Nat :=
  blks.foldl (fun s blk =>
    let x := a.getD blk ([], true)
    let y := b.row kb n blk j
    if x.2 || y.2 then s else chainBlock fa b.fmt theta s x.1 y.1) s

/-- The new value of one accumulator element (R117). -/
def mmaElem (fa mode : Nat) (theta : Option Int) (b : Binding) (n j : Nat) (a : ARow) (s : Nat) : Nat :=
  if mode = 3 && fa < 5 then
    let lo := chainBlocks fa theta b 4 n j a 0 [0, 1]
    let hi := chainBlocks fa theta b 4 n j a 0 [2, 3]
    FFmt.f32.add .rne (FFmt.f32.add .rne s lo) hi
  else chainBlocks fa theta b (kbOf mode) n j a s (List.range (kbOf mode))

/-! ### Tiles -/

/-- The key of an element of a tile. -/
def elemKey (half t i j : Nat) : Nat := (half * 64 + t) * 1024 + i * 32 + j
def Team.elem (t : Team) (half tile i j : Nat) : Nat := (Store.get 0 t.tiles (elemKey half tile i j)).toNat
/-- Write an element, which also ends its error (R241). -/
def Team.setElem (t : Team) (half tile i j v : Nat) : Team :=
  { t with tiles := Store.set 0 t.tiles (elemKey half tile i j) (BitVec.ofNat 32 v), badTiles := Store.set false t.badTiles (elemKey half tile i j) false }
/-- Every element of a tile replaced. -/
def Team.mapTile (t : Team) (half tile : Nat) (f : Nat → Nat → Nat) : Team :=
  (List.range 32).foldl (fun t i => (List.range 32).foldl (fun t j => t.setElem half tile i j (f i j)) t) t

/-- One streamed row accumulated into the tiles of its span. -/
def Team.streamRow (t : Team) (half tile i fa mode : Nat) (z : Bool) (theta : Option Int) (b : Binding) (a : ARow) : Team :=
  (List.range (nbOf mode)).foldl (fun t n =>
    let old := fun j => if z then 0 else t.elem half (tile + n) i j
    let new := (List.range 32).map fun j => mmaElem fa mode theta b n j a (old j)
    new.zipIdx.foldl (fun t v => t.setElem half (tile + n) i v.2 v.1) t) t

/-! ### Latches and skipping -/

/-- The physical sub-arrays of a mode and selector on a core. -/
def Core.physical (c : Core) (mode sel : Nat) : List Nat := (logicalOf mode sel).filterMap fun i => c.logical[i]?

/-- Latch a binding's B on its sub-arrays. -/
def State.latchAt (s : State) (id : TeamId) (b : Binding) : State :=
  (arrayCores b.mode b.core).foldl (fun s c => s.updCore c fun x =>
    { x with latch := (x.physical b.mode b.sel).foldl (fun m p => Store.set none m p (some (id, b.serial))) x.latch }) s

/-- The latches hold a binding's B. -/
def State.latched (s : State) (id : TeamId) (b : Binding) : Bool :=
  (arrayCores b.mode b.core).all fun c => ((s.core c).physical b.mode b.sel).all fun p => Store.get none (s.core c).latch p == some (id, b.serial)

/-- A binding as changed, in its team and in every word that uses it. -/
def State.setBinding (s : State) (id : TeamId) (b : Binding) : State :=
  { (s.updTeam id fun t => { t with bindings := mapIf (fun x => x.serial == b.serial) (fun _ => b) t.bindings }) with
    ops := s.ops.map fun o => if (o.bind.map (·.serial)) = some b.serial then { o with bind := some b } else o }

/-- The sub-arrays that a word used count for a fence of one (R450). -/
def State.noteUse (s : State) (launch : Nat) (b : Binding) : State :=
  (arrayCores b.mode b.core).foldl (fun s c => ((s.core c).physical b.mode b.sel).foldl (fun s p =>
    s.updLaunch launch fun l => if l.used.contains (c, p) then l else { l with used := l.used ++ [(c, p)] }) s) s

/-- The binding of a word ready in the latches: reloaded where they hold other contents, with the bytes of its range as they stood when the word issued, or as its wld latched them where that started later (R211, R212, R226). -/
def State.ensureLatched (s : State) (o : Op) (b : Binding) : State × Binding :=
  if s.latched o.team b then (s, b)
  else
    let b := o.rebind.getD b
    ((((s.setBinding o.team b).latchAt o.team b).count (4096 + b.core) 0x41 1).count (4096 + b.core) 0x42 ((b.skip.filter fun x => x).length), b)

/-! ### Page selection (R237) -/

/-- A score ranks before another: larger first, NaN last. -/
def ranksBefore (x y : Nat) : Bool :=
  if FFmt.f32.isNan x then false
  else if FFmt.f32.isNan y then true
  else FFmt.f32.cmp .lt y x

/-- Insert an entry behind those that rank no lower. -/
def rankIn (e : Nat × Nat) : List (Nat × Nat) → List (Nat × Nat)
  | [] => [e]
  | x :: r => if ranksBefore e.1 x.1 then e :: x :: r else x :: rankIn e r

/-- The output bytes of a page selection over the summaries' bytes. -/
def selectBytes (d n kn : Nat) (scores : Bool) (query : List Nat) (sums : List Byte) : List Byte :=
  let score := fun p => ((elemsOf 2 ((sums.drop (2 * d * p)).take (2 * d)) d).zip query).foldl (fun s x => chainStep .bf16 .bf16 s (x.2, x.1)) 0
  let ranked := (List.range n).foldl (fun r p => rankIn (score p, p) r) []
  let at_ := fun i => ranked[i]?
  (List.range kn).flatMap (fun i => leBytes (match at_ i with | some e => e.2 | none => 0xFFFFFFFF) 4) ++
    (if scores then (List.range kn).flatMap fun i => leBytes (match at_ i with | some e => e.1 | none => 0x7FC00000) 4 else [])

/-! ### Retirement (R216, R218) -/

/-- The A row of a lane's fragment. -/
def fragRow (kb v : Nat) : ARow := (List.range kb).map fun b => (leBytes (v / 2 ^ (512 * b)) 64, false)

/-- The A row i of a descriptor. -/
def descRow (l : Launch) (t : Team) (half fa kb : Nat) (d : Desc) (i : Nat) : ARow :=
  (List.range kb).map fun b =>
    let x := d.base + b * d.tpitch + i * d.rpitch
    (readBytes t.scratch (scratchKey half x) (rowLen fa), l.skipUniform && allMarked t half x (rowLen fa))

/-- A blocks of a row of which some block pair is skipped (R229). -/
def approxCount (fa mode : Nat) (theta : Option Int) (b : Binding) (a : ARow) : Nat :=
  if fa ≠ 4 || theta.isNone then 0
  else ((List.range (kbOf mode)).flatMap fun blk => (List.range 4).filter fun q => (List.range (nbOf mode)).any fun n => (List.range 32).any fun j =>
    let x := a.getD blk ([], true)
    let y := b.row (kbOf mode) n blk j
    !x.2 && !y.2 && pairSkipped theta ((rowScales x.1).getD q 0) ((rowScales y.1).getD q 0)).length

/-- The array performs an mma's rows: tile row and offset of its span, and the A row. -/
def State.stream (s : State) (o : Op) (b : Binding) (tile fa mode : Nat) (z : Bool) (rows : List (Nat × Nat × ARow)) : State :=
  let l := s.launch o.team.launch
  let half := o.core - (s.team o.team).core
  let theta := if l.cls = 0 then none else some (theta0 l.cls + ((s.die (dieOfCore o.core)).delta : Int))
  let (s, b) := s.ensureLatched o b
  let s := s.updTeam o.team fun t => rows.foldl (fun t r => t.streamRow half (tile + r.2.1) r.1 fa mode z theta b r.2.2) t
  let s := s.count (4096 + o.core) 0x42 (rows.foldl (fun n r => n + (r.2.2.filter (·.2)).length) 0)
  let s := s.count (4096 + o.core) 0x43 (rows.foldl (fun n r => n + approxCount fa mode theta b r.2.2) 0)
  s.noteUse o.team.launch b

/-- The rows that an mma streams (R215). -/
def State.mmaRows (s : State) (o : Op) (fa mode : Nat) (src : Bool) : List (Nat × Nat × ARow) :=
  let l := s.launch o.team.launch
  let t := s.team o.team
  let half := o.core - t.core
  if src then
    match o.accs with
    | a :: _ => let d : Desc := ⟨a.opnd, a.cmp⟩; (List.range d.rows).map fun i => (i, 0, descRow l t half fa (kbOf mode) d i)
    | [] => []
  else o.accs.map fun a => (a.d % 32, if a.d < 32 then 0 else nbOf mode, fragRow (kbOf mode) a.opnd)

/-- The descriptor that a word's operation carries. -/
def Op.desc (o : Op) : Desc := match o.accs with
  | a :: _ => ⟨a.opnd, a.cmp⟩
  | [] => ⟨0, 0⟩

/-- Write scratchpad rows of a descriptor, in ascending order. -/
def State.putRows (s : State) (o : Op) (d : Desc) (row : Nat → List Byte) : State :=
  let half := o.core - (s.team o.team).core
  s.updTeam o.team fun t => (List.range d.rows).foldl (fun t i => t.putScratch (scratchKey half (d.base + i * d.rpitch)) (row i)) t

/-- Add results to a matrix operation's members. -/
def movResults (o : Op) (f : Acc → List Wr) : List (Nat × Wr) :=
  o.accs.flatMap fun a => (if o.all.isEmpty then [a.thread] else o.all).flatMap fun m => (f a).map fun w => (m, w)

/-- Latch B: the rows as they stand in scratchpad, and which are uniform (R211, R213, R227). -/
def State.loadB (s : State) (o : Op) : State :=
  match o.bind with
  | none => s
  | some b =>
    let t := s.team o.team
    let b := { b with data := b.read t, skip := b.sample (s.launch o.team.launch) t }
    (((s.setBinding o.team b).latchAt o.team b).count (4096 + o.core) 0x42 ((b.skip.filter fun x => x).length)).noteUse o.team.launch b

/-- A pgsel's summary bytes with their clock; nothing while an earlier access of the thread to them has not been served, or their home must wait (R237, R279). -/
def State.readSums (s : State) (o : Op) (held : List Held) : List Acc → Option (List Byte × VC)
  | [] => some ([], {})
  | a :: r =>
    if s.behind o.team a.thread a.key a.size o.id then none
    else
      match s.threadRead true held o.core a.va a.key o.id a.vec a.size, State.readSums s o held r with
      | some (x, c), some (bs, c') => some (leBytes x a.size ++ bs, c.max c')
      | _, _ => none

/-- The effect of a matrix word on the array, tiles and scratchpad; nothing while a summary's home must wait. -/
def State.arrayEffect (s : State) (o : Op) (i : Instr) : Option (State × List (Nat × Wr)) :=
  let t := s.team o.team
  let half := o.core - t.core
  let d := o.desc
  match i with
  | .wld _ _ _ _ _ => some (s.loadB o, o.results)
  | .wldpr _ _ _ => some (s.loadB o, o.results)
  | .mma _ m t0 _ z src _ f => some (match o.bind with
      | some b => s.stream o b t0.toNat (fmtCode f) (modeCode m) z (s.mmaRows o (fmtCode f) (modeCode m) src)
      | none => s, o.results)
  | .mmapr _ t0 _ z src f => some (match o.bind with
      | some b => s.stream o b t0.toNat (fmtCode f) 3 z (s.mmaRows o (fmtCode f) 3 src)
      | none => s, o.results)
  | .accz _ m t0 => some (s.updTeam o.team fun t => (List.range (acczTiles m)).foldl (fun t n => t.mapTile half (t0.toNat + n) fun _ _ => 0) t, o.results)
  | .accld _ t0 _ => some (s.updTeam o.team fun x =>
      (List.range d.rows).foldl (fun x r =>
        (elemsOf 4 (readBytes t.scratch (scratchKey half (d.base + r * d.rpitch)) 128) 32).zipIdx.foldl (fun x v => x.setElem half t0.toNat r v.2 v.1) x) x, o.results)
  | .accst _ t0 _ => some (s.putRows o d fun r => (List.range 32).flatMap fun j => leBytes (t.elem half t0.toNat r j) 4, o.results)
  | .acccvt _ t0 _ rnd isI wt sat tgt =>
    some (s.putRows o d fun r =>
      let xs := (List.range 32).map fun j => t.elem half t0.toNat r j
      if tgt = .w4 then let q := quantW4 xs wt.toNat rnd; w4Bytes q.1 ++ leBytes q.2 1
      else xs.flatMap fun x => leBytes (cvtElem (if isI then .i32 else .f32) (cvtType tgt) rnd sat x) (cvtRow tgt / 32), o.results)
  | .accmovGet _ t0 a _ => some (s, movResults o fun x => wreg a (t.elem half (t0.toNat + x.d / 32) (x.d % 32) x.cmp))
  | .accmovPut _ t0 _ _ => some (s.updTeam o.team fun t => o.accs.foldl (fun t x => t.setElem half (t0.toNat + x.d / 32) (x.d % 32) x.cmp x.opnd) t, o.results)
  | .accadd _ m t0 src isI => some (s.updTeam o.team fun x => x.mapTile half t0.toNat fun r j =>
      let p := t.elem half t0.toNat r j
      let q := t.elem half src.toNat r j
      if isI then (p + q) % 2 ^ 32 else FFmt.f32.add m p q, o.results)
  | .acctr _ t0 src => some (s.updTeam o.team fun x => x.mapTile half t0.toNat fun r j => t.elem half src.toNat j r, o.results)
  | .pgsel _ m _ _ _ scores kn =>
    match o.accs with
    | [] => some (s, o.results)
    | a :: _ =>
      let n := a.cmp / 2 ^ 32
      let dim := selDim m
      match s.readSums o t.held o.accs.tail with
      | none => none
      | some (bs, c) =>
        let out := selectBytes dim n kn.toNat scores (elemsOf 2 (leBytes a.opnd (2 * dim)) dim) bs
        let s := s.updTeam o.team fun t => t.putScratch (scratchKey half (a.cmp % 2 ^ 32)) out
        let s := s.updThread o.team a.thread fun h => { h with obs := h.obs.max c }
        some (s.updCore o.core fun x => { x with latch := [] }, o.results)
  | _ => some (s, o.results)

/-- A word that spans the arrays of both cores of a pair (R201). -/
def Op.spansPair (o : Op) : Bool := match o.kind with
  | .matrix (.wldpr _ _ _) => true
  | .matrix (.mmapr _ _ _ _ _ _) => true
  | _ => false

/-- A matrix word is the next of its core's port. -/
def State.portHead (s : State) (o : Op) : Bool :=
  !(s.ops.any fun p => p.cls == 3 && decide (p.id < o.id) && (arrayCores (if o.spansPair then 3 else 0) o.core).any fun c => c == p.core || (p.core + 1 == c && p.spansPair))

/-- A follower's array is slaved while a word that spans both arrays is outstanding (R201). -/
def State.sweepSlaved (s : State) : State :=
  { s with cores := s.cores.map fun e => (e.1, { e.2 with slaved := e.2.slaved && s.ops.any fun o => decide (o.core + 1 = e.1) && o.spansPair }) }

/-- A matrix word retires: its effect, its results and its flag (R218). -/
def State.retireMatrix (s : State) (o : Op) (i : Instr) : State :=
  match s.arrayEffect o i with
  | none => s
  | some (s, rs) =>
    let s := s.count (4096 + o.core) 0x40 1
    (s.finishOp { o with results := rs }).sweepSlaved

end Sys2Proof.Machine
end

