-- ==== Sys2Proof/Machine/Caches.lean ====
section
/-! DEFINITION. Fetching words: the loop buffer of a quadrant and the instruction cache of a core (R60, R161 to R165); and sending dirty lines of an L1 data cache home or dropping lines (R313, R315, R318, R429). -/
namespace Sys2Proof.Machine

/-! ### Instruction fetch -/

/-- The key of an instruction cache line: the line of an address in an address space. -/
def icKey (tenant asid va : Nat) : Nat := (tenant * 16 + asid) * 2 ^ 50 + va % 2 ^ 57 / 128

/-- The little-endian words of a run of bytes. -/
def codeWords (bs : List Byte) : Nat → List Nat
  | 0 => []
  | n + 1 => leNat (bs.take 4) :: codeWords (bs.drop 4) n

/-- Put a line into an instruction cache, which drops the line of the lowest key when it is full: R163 gives no order (DESIGN CHOICE, log entry 47). -/
def Core.putLine (c : Core) (k : Nat) (ws : List Nat) : Core :=
  let ic := if Config.icLines ≤ c.ic.length then c.ic.drop 1 else c.ic
  { c with ic := Store.set none ic k (some ws), badIc := Store.set false c.badIc k false }

/-- A word through a core's instruction cache: a miss fills the line whole, from memory as it stands at its home (R163). -/
def State.cachedWord (s : State) (core tenant asid va : Nat) : Except Nat (Nat × State) :=
  let k := icKey tenant asid va
  let i := va % 128 / 4
  match Store.get none (s.core core).ic k with
  | some ws => .ok (ws.getD i 0, s)
  | none =>
    match s.check (s.core core).tlb tenant asid (canonOf va) 4 .fetch with
    | .error c => .error c
    | .ok tr =>
      if s.linkDown tr.key || s.badAt (tr.key - va % 128) 128 then .error clsEcc else
      let ws := codeWords (s.locBytes (tr.key - va % 128) 128) 32
      let s := (s.cacheXlat core tenant asid (va % 2 ^ 57) {} tr).homeRead (tr.key - va % 128) 128
      .ok (ws.getD i 0, s.updCore core fun c => c.putLine k ws)

/-- A line of code brought into a core's instruction cache (R163). -/
def State.fillCode (s : State) (core tenant asid va : Nat) : State :=
  match s.cachedWord core tenant asid va with
  | .ok r => r.2
  | .error _ => s

/-- An address lies in a captured range. -/
def LoopBuf.holds (b : LoopBuf) (tenant asid va : Nat) : Bool :=
  b.tenant == tenant && b.asid == asid && decide (b.base ≤ va) && decide (va < b.base + 4 * b.words.length)

/-- A group of the quadrant has its program counter inside a range; a parked sub-group is none (DESIGN CHOICE, log entry 23). -/
def State.loopUsed (s : State) (quad : Nat) (b : LoopBuf) : Bool :=
  s.groups.any fun g => g.quad == quad && g.park.isNone &&
    (let l := s.launch g.team.launch; b.holds l.tenant l.asid g.pc)

/-- A quadrant whose captured range, where no group is in it, is ended (R165). -/
def State.keepLoop (s : State) (quad : Nat) (q : Quad) : Quad :=
  match q.loop with
  | some b => if s.loopUsed quad b then q else { q with loop := none }
  | none => q

/-- End every capture whose range no group is in (R165). -/
def State.loopSweep (s : State) : State :=
  { s with quads := (s.quads.map fun e => (e.1, s.keepLoop e.1 e.2)).filter fun e => decide (e.2 ≠ {}) }

/-- A word as a group of a quadrant fetches it: the buffer while its program counter pc lies in the captured range, else the cache (R60). -/
def State.fetchWord (s : State) (quad tenant asid pc va : Nat) : Except Nat (Nat × State) :=
  match (s.quad quad).loop with
  | some b =>
    if b.holds tenant asid pc && b.holds tenant asid va then .ok (b.words.getD ((va - b.base) / 4) 0, s.count quad 0x1D 1)
    else s.cachedWord (coreOfQuad quad) tenant asid va
  | none => s.cachedWord (coreOfQuad quad) tenant asid va

/-- A word as a group of a quadrant finds it: nothing where its line has yet to be fetched, or the class of the fault of its fetch; a line with an uncorrectable error is one (R60, R71, R241). -/
def State.peekWord (s : State) (quad tenant asid pc va : Nat) : Except Nat (Option Nat) :=
  let c := s.core (coreOfQuad quad)
  let k := icKey tenant asid va
  match (match (s.quad quad).loop with
    | some b => if b.holds tenant asid pc && b.holds tenant asid va then some (b.words.getD ((va - b.base) / 4) 0) else none
    | none => none) with
  | some w => .ok (some w)
  | none =>
    match Store.get none c.ic k with
    | some ws => if Store.get false c.badIc k then .error clsEcc else .ok (some (ws.getD (va % 128 / 4) 0))
    | none =>
      match s.check c.tlb tenant asid (canonOf va) 4 .fetch with
      | .error e => .error e
      | .ok tr => if s.linkDown tr.key || s.badAt (tr.key - va % 128) 128 then .error clsEcc else .ok none

/-- n words from an address. -/
def State.fetchWords (s : State) (quad tenant asid pc va : Nat) : Nat → Except Nat (List Nat × State)
  | 0 => .ok ([], s)
  | n + 1 =>
    match s.fetchWord quad tenant asid pc va with
    | .error c => .error c
    | .ok (w, s) =>
      match State.fetchWords s quad tenant asid pc (va + 4) n with
      | .error c => .error c
      | .ok (ws, s) => .ok (w :: ws, s)

/-- The headers of a list of words that begins with one all carry B, and the last clause ends with the list. -/
def allLoopable : Nat → List Nat → Bool
  | _, [] => true
  | 0, _ :: _ => false
  | f + 1, h :: r => bitAt h 31 && decide (headerN h ≤ r.length) && allLoopable f (r.drop (headerN h))

/-- A backward branch taken to a header captures its loop (R60). -/
def State.capture (s : State) (c : Ctx) (target : Nat) : State :=
  let n := (c.next - target) / 4
  let free := match (s.quad c.quad).loop with
    | some b => !s.loopUsed c.quad b
    | none => true
  if target ≤ c.g.pc && n ≤ Config.loopWords && free then
    match s.fetchWords c.quad c.l.tenant c.l.asid target target n with
    | .ok (ws, s') =>
      if allLoopable n ws then
        (s'.updQuad c.quad fun q => { q with loop := some { base := target, words := ws, tenant := c.l.tenant, asid := c.l.asid } }).count c.quad 0x1C 1
      else s
    | .error _ => s
  else s

/-- Drop instruction cache lines on every core of a die (R429). -/
def State.dropCode (s : State) (die : Nat) (p : Nat → Bool) : State :=
  { s with cores := s.cores.map fun e => if dieOfCore e.1 = die then (e.1, { e.2 with ic := Store.dropKeys e.2.ic p }) else e }

/-! ### L1 lines going home -/

/-- The line of a write. -/
def Write.line (w : Write) : Nat := w.key / 128

/-- Bytes that a line keeps clean once its dirty ones have gone home. -/
def L1Line.take (ln : L1Line) (off : Nat) (bs : List Byte) (clk : VC) : L1Line :=
  { ln with bytes := (List.range ln.bytes.length).map fun i => if off ≤ i then bs.getD (i - off) (ln.bytes.getD i 0) else ln.bytes.getD i 0
            clks := (List.range ln.clks.length).map fun i => if off ≤ i && i < off + bs.length then clk else ln.clks.getD i {} }

/-- A core's clean copy of a line takes the bytes of a write of its own that has gone home. -/
def State.cleanCopy (s : State) (w : Write) : State :=
  match w.l1 with
  | some core =>
    match Store.get none (s.core core).l1 w.line with
    | some ln => s.updCore core fun c => { c with l1 := Store.set none c.l1 w.line (some (ln.take (w.key % 128) w.bytes w.clk)) }
    | none => s
  | none => s

/-- Drop the clean bytes of a core's lines. -/
def State.dropLines (s : State) (core : Nat) (p : Nat → Bool) : State :=
  s.updCore core fun c => { c with l1 := Store.dropKeys c.l1 p }

/-- The location ranges of n lines of an address space from an address, page by page; pages with no translation hold no line. -/
def State.lineSpans (s : State) (core tenant asid va : Nat) : Nat → Nat → List (Nat × Nat)
  | 0, _ => []
  | fuel + 1, n =>
    if n = 0 then []
    else
      let m := Nat.min n (65536 - va % 65536)
      let rest := State.lineSpans s core tenant asid (va + m) fuel (n - m)
      match s.translate (s.core core).tlb tenant asid (va % 2 ^ 64) with
      | .ok tr => (tr.key, tr.key + m) :: rest
      | .error _ => rest

/-- A location lies in one of some ranges. -/
def inSpans (l : List (Nat × Nat)) (k : Nat) : Bool := l.any fun e => decide (e.1 ≤ k) && decide (k < e.2)

end Sys2Proof.Machine
end

