-- ==== Sys2Proof/Machine/Control.lean ====
section
/-! DEFINITION. Class 5, control (R143 to R161): branches, calls and returns, join masks, barriers, waits, exit and code synchronisation. -/
namespace Sys2Proof.Machine

/-! ### Moving members -/

/-- The members a control word moves: under U = 1 all move as the leading member does (R125). -/
def Ctx.movers (c : Ctx) (k : Ctl) : List Nat :=
  if k.u then (if (c.actors k).isEmpty then [] else c.g.members) else (c.actors k).map (·.idx)

/-- Where a member goes: its thread, the clause header and word, and whether it is active. -/
structure Move where
  thread : Nat
  pc : Nat
  word : Nat := 0
  active : Bool
  deriving DecidableEq, Repr

/-- A branch is divergent: some member is inactive beside an active one, or two active members part (R143, R145). -/
def divergent (ms : List Move) : Bool :=
  match ms.filter (·.active) with
  | [] => false
  | a :: r => (ms.any fun m => !m.active) || r.any fun m => m.pc != a.pc || m.word != a.word

/-- The members that are still in the group move; at a divergent branch the group reaches a regroup point (R18, R22). -/
def State.moveAll (s : State) (c : Ctx) (ms : List Move) : State :=
  let ms := ms.filter fun m => (s.grp c.gid).members.contains m.thread
  let s := s.closeClause c
  if divergent ms then
    let s := ms.foldl (fun s m => s.updThread c.g.team m.thread fun h => { h with pc := m.pc, word := m.word }) s
    (s.updGrp c.gid fun g => { g with regroup := true }).passRegroup c.gid
  else
    match ms with
    | [] => s
    | m :: _ => s.updGrp c.gid fun g => { g with pc := m.pc, word := m.word }

/-- Every member's move: a target for those that move, the next clause for the others. -/
def Ctx.moves (c : Ctx) (k : Ctl) (target : Nat → Nat) : List Move :=
  let mv := c.movers k
  c.g.members.map fun i => if mv.contains i then { thread := i, pc := target i, active := true } else { thread := i, pc := c.next, active := false }

/-- The address of the word in issue (R69). -/
def Ctx.here (c : Ctx) : Nat := c.g.pc + 4 * (1 + c.g.word)
/-- The target of a direct branch (R143). -/
def Ctx.target (c : Ctx) (off : Off20) : Nat := wrapTo 57 ((c.here : Int) + 4 * simm off)

/-- A target that is not a clause header parks the group before any member moves (R69, R146). -/
def State.badTarget (s : State) (c : Ctx) (who : Option Nat) (va : Nat) : State :=
  s.parkWhole c.gid { cls := clsTarget, detail := 0, addr := va, who := who }

/-- A code address may be a target: a header, with bits [63:57] copies of bit 56. -/
def State.goodTarget (s : State) (l : Launch) (va : Nat) : Bool := canonical va && s.isHeader l.tenant l.asid (va % 2 ^ 57)

/-- The target of a member among those that the actors name: under U = 1 the leading member's. -/
def moveTarget (ts : List (Nat × Nat)) (k : Ctl) (i : Nat) : Nat :=
  if k.u then (match ts with
    | [] => 0
    | t :: _ => t.2)
  else ((findBy (fun t : Nat × Nat => t.1 == i) ts).map (·.2)).getD 0

/-! ### bra, brx (R143, R145, R146) -/

def execBra (k : Ctl) (off : Off20) (s : State) : Out :=
  issue 1 [] s fun c s =>
    let t := c.target off
    if !s.isHeader c.l.tenant c.l.asid t then s.badTarget c none (canonOf t)
    else
      let s := if (c.movers k).isEmpty then s else s.capture c t
      s.moveAll c (c.moves k fun _ => t)

/-- The pair of an actor as a code address. -/
def pairTargets (c : Ctx) (k : Ctl) (a : Reg) : List (Nat × Nat) := (c.actors k).map fun h => (h.idx, h.pair a)

def execBrx (k : Ctl) (a : Reg) (s : State) : Out :=
  issue 1 (two a) s fun c s =>
    let ts := pairTargets c k a
    match ts.filter fun t => !s.goodTarget c.l t.2 with
    | b :: _ => s.badTarget c (some b.1) b.2
    | [] => s.moveAll c (c.moves k fun i => moveTarget ts k i % 2 ^ 57)

/-! ### call, callx, ret (R144 to R147) -/

/-- The moves of a call whose pushes are done: each pusher's sp, then its target. -/
def State.callDone (s : State) (c : Ctx) (pushed : List (Nat × Nat)) (ms : List Move) : State :=
  let here := pushed.filter fun p => (s.grp c.gid).members.contains p.1
  let s := here.foldl (fun s p => s.updThread c.g.team p.1 fun h => { h with sp := BitVec.ofNat 64 p.2 }) s
  if s.running c.gid then s.moveAll c ms else s

/-- The accesses that no fault met: thread and address. -/
def unfaulted (accs : List Acc) : List (Nat × Nat) := (accs.filter fun a => a.fault = 0).map fun a => (a.thread, a.va)

/-- The pushes of a call's actors, each at its sp less 8; a push that only its home can judge makes the group wait (R147). -/
def State.pushRets (s : State) (c : Ctx) (k : Ctl) (good : List GoodLane) (ms : List Move) : State :=
  let bs := leBytes (canonOf c.next) 8
  let o := c.op 5 (.push (ms.map fun m => (m.thread, m.pc, m.active)))
  if c.l.redundant then
    s.heldStores c k (good.map fun e => (e, bs)) none o fun s accs => s.callDone c (unfaulted accs) ms
  else
    let (s, accs) := good.foldl (fun (r : State × List Acc) e =>
      let a := r.1.accFor e.1 e.2.1 e.2.2 8 0
      let (w, s) := r.1.storeBy c.g.team e.1.idx e.2.1 e.2.2 bs false
      (s, r.2 ++ [{ a with ws := w.toList, done := !needsVerdict e.2.2 }])) (s, [])
    if good.any fun e => needsVerdict e.2.2 then s.beginOp c { o with accs := accs, verdict := true, all := c.spread k }
    else s.callDone c (unfaulted accs) ms

/-- A call to a target for each actor: the targets' check, the pushes' checks, the pushes, the moves. -/
def callWord (k : Ctl) (regs : List Nat) (s : State) (ts : Ctx → List (Nat × Nat)) (direct : Ctx → Option Nat) : Out :=
  issue 1 regs s fun c s =>
    let bad := match direct c with
      | some t => if s.isHeader c.l.tenant c.l.asid t then none else some (none, canonOf t)
      | none => ((ts c).find? fun (t : Nat × Nat) => !s.goodTarget c.l t.2).map fun (t : Nat × Nat) => (some t.1, t.2)
    match bad with
    | some b => s.badTarget c b.1 b.2
    | none =>
      let ms := c.moves k fun i => moveTarget (ts c) k i % 2 ^ 57
      let (good, bad) := s.checkLanes c (c.actors k) (fun h => (h.sp - 8).toNat) 8 8 .write
      let s := (s.keepXlats c good).parkBad c k 1 bad
      if !s.running c.gid then s
      else if good.isEmpty then s.moveAll c ms
      else s.pushRets c k good ms

def execCall (k : Ctl) (off : Off20) (s : State) : Out :=
  callWord k [] s (fun c => (c.actors k).map fun h => (h.idx, c.target off)) (fun c => some (c.target off))
def execCallx (k : Ctl) (a : Reg) (s : State) : Out :=
  callWord k (two a) s (fun c => pairTargets c k a) (fun _ => none)

/-- Merge a clock into some threads (R311). -/
def State.observe (s : State) (id : TeamId) (is : List Nat) (v : VC) : State := s.updThreads id is fun h => { h with obs := h.obs.max v }

/-- A ret whose loads have been served: the targets' check over the lanes that loaded, before any member moves, then each one's sp and target; under U = 1 all members as the leading one (R64, R145, R146). -/
def State.popDone (s : State) (c : Ctx) (u : Bool) (accs : List Acc) : State :=
  let accs := accs.filter fun a => a.fault = 0
  match accs.filter fun a => !s.goodTarget c.l a.val with
  | b :: _ => s.badTarget c (some b.thread) b.val
  | [] =>
    let to_ := fun a : Acc => if u then c.g.members else [a.thread]
    let s := accs.foldl (fun s a => (s.observe c.g.team (to_ a) a.clk).updThreads c.g.team (to_ a) fun h => { h with sp := BitVec.ofNat 64 (a.va + 8) }) s
    s.moveAll c (c.g.members.map fun i => match findBy (fun a : Acc => u || a.thread == i) accs with
      | some a => { thread := i, pc := a.val % 2 ^ 57, active := true }
      | none => { thread := i, pc := c.next, active := false })

/-- ret: the lanes whose load faults split off at issue, ahead of the check of the others' targets, which have yet to be loaded (R146, R147; DESIGN CHOICE, log entry 50). Loads that hit act at once; else the group waits for them at the word, the last of its clause. -/
def execRet (k : Ctl) (s : State) : Out :=
  issue 1 [] s fun c s =>
    let (good, bad) := s.checkLanes c (c.actors k) (fun h => h.sp.toNat) 8 8 .read
    let s := (s.keepXlats c good).parkBad c k 1 bad
    if !s.running c.gid then s
    else
      let accs := (good.map fun e => s.accFor e.1 e.2.1 e.2.2 8 0).map (s.serve false c.t c.core s.nextId)
      let s := s.countL1 c.core accs
      if accs.all (·.done) then s.popDone c k.u accs
      else s.beginOp c { c.op 5 (.pop k.u) with accs := accs, verdict := true, all := c.spread k }

/-! ### spadj, nop (R148, R149) -/

def execSpadj (k : Ctl) (imm : Imm8) (s : State) : Out :=
  laneFixed 1 k [] s fun h => [⟨.sp, wrapTo 64 ((h.sp.toNat : Int) + 8 * simm imm)⟩]
def execNop (_k : Ctl) (s : State) : Out := issue 1 [] s fun c s => s.endWord c 1

/-! ### Join masks (R23 to R27, R150) -/

/-- A set of the eight. -/
def maskGet (l : List (List Nat)) (j : Nat) : List Nat := l.getD j []
/-- Replace a set of the eight. -/
def maskSet (l : List (List Nat)) (j : Nat) (v : List Nat) : List (List Nat) := (List.range 8).map fun i => if i = j then v else maskGet l i
/-- Add threads to a set. -/
def addAll (l xs : List Nat) : List Nat := xs.foldl (fun l x => if l.contains x then l else l ++ [x]) l
/-- Remove threads from a set. -/
def dropAll (l xs : List Nat) : List Nat := l.filter fun x => !xs.contains x

/-- The threads of a team that wait on a mask, with the clause after their wait. -/
def Team.joinWaiters (t : Team) (j : Nat) : List (Nat × Nat) :=
  t.threads.filterMap fun h => match h.st with
    | .waiting (.join i) next => if i = j then some (h.idx, next) else none
    | _ => none

/-- The groups that released threads form: one for each home group and program counter (R26). -/
def releasedGroups (l : Launch) (ws : List (Nat × Nat)) : List (List Nat) :=
  ((ws.map fun w => (l.homeGroup w.1, w.2)).eraseDups).map fun key => (ws.filter fun w => (l.homeGroup w.1, w.2) = key).map (·.1)

/-- A mask releases where its pending set is empty and a member of it waits (R26). -/
def State.tryJoin (s : State) (id : TeamId) (j : Nat) : State :=
  let t := s.team id
  let l := s.launch id.launch
  let ws := t.joinWaiters j
  if (maskGet t.pending j).isEmpty && ws.any fun w => (maskGet t.rejoin j).contains w.1 then
    let s := s.updTeam id fun t => { t with rejoin := maskSet t.rejoin j [], pending := maskSet t.pending j [], toForm := t.toForm ++ releasedGroups l ws }
    ws.foldl (fun s w => s.updThread id w.1 (Thread.loosen (s.now (l.quadOf t.core w.1)) w.2 0)) s
  else s

/-- The group dissolves at a wait or exit: every member LOOSE at the next clause but those that wait or end (R20). -/
def State.disband (s : State) (c : Ctx) (waits : List (Nat × WaitKind)) (exits : List Nat) : State :=
  let here := (s.grp c.gid).members
  let s := (s.closeClause c).dissolve c.gid (here.map fun i => (i, c.next, 0))
  let s := waits.foldl (fun s w => if here.contains w.1 then s.updThread c.g.team w.1 fun h => { h with st := .waiting w.2 c.next, pc := c.g.pc, word := c.g.word } else s) s
  s.updThreads c.g.team exits fun h => { h with st := .exited }

def execJset (k : Ctl) (j : Bits3) (s : State) : Out :=
  issue 1 [] s fun c s =>
    let xs := (c.actors k).map (·.idx)
    (s.updTeam c.g.team fun t =>
      { t with rejoin := maskSet t.rejoin j.toNat (addAll (maskGet t.rejoin j.toNat) xs)
               pending := maskSet t.pending j.toNat (addAll (maskGet t.pending j.toNat) xs) }).endWord c 1

def execJwait (k : Ctl) (j : Bits3) (s : State) : Out :=
  issue 1 [] s fun c s =>
    let inSet := fun i : Nat => (maskGet c.t.rejoin j.toNat).contains i
    let xs := (c.actors k).map (·.idx)
    let waits := if k.u then (if xs.any inSet then c.g.members else []) else xs.filter inSet
    let s := s.updTeam c.g.team fun t => { t with pending := maskSet t.pending j.toNat (dropAll (maskGet t.pending j.toNat) xs) }
    (s.disband c (waits.map fun i => (i, .join j.toNat)) []).tryJoin c.g.team j.toNat

/-! ### Barriers (R151 to R154) -/

/-- A thread that has not exited waits as a test says. -/
def Team.allWait (t : Team) (p : WaitKind → Bool) : Bool :=
  let live := t.threads.filter fun h => h.st != .exited
  !live.isEmpty && live.all fun h => match h.st with
    | .waiting k _ => p k
    | _ => false

def WaitKind.isTbar : WaitKind → Bool
  | .tbar => true
  | _ => false
def WaitKind.isPbar : WaitKind → Bool
  | .pbar => true
  | _ => false

/-- Every thread of a team that waits becomes LOOSE after its own wait, and has observed what each of them had (R152, R320). -/
def State.openBarrier (s : State) (id : TeamId) : State :=
  let l := s.launch id.launch
  let core := (s.team id).core
  let v := VC.maxAll (((s.team id).threads.filter fun h => h.st != .exited).map (·.obs))
  (s.team id).threads.foldl (fun s h => match h.st with
    | .waiting _ next => s.updThread id h.idx fun h => { Thread.loosen (s.now (l.quadOf core h.idx)) next 0 h with obs := v }
    | _ => s) s

/-- Every thread's arrival counts: its earlier accesses are released at a scope (R152). -/
def State.arrivals (s : State) (id : TeamId) (scope : Nat) : Bool :=
  (s.team id).threads.all fun h => h.st == .exited || s.released id h.idx s.nextId scope

/-- A barrier of a team releases once its condition holds; a tbar of a redundant team then waits at its comparison (R151, R153, R449). -/
def State.barrier (s : State) (id : TeamId) : State :=
  let t := s.team id
  let l := s.launch id.launch
  if t.allWait WaitKind.isTbar && s.arrivals id 2 then
    if l.redundant then s.updTeam id fun t => { t with atCompare := 1 } else s.openBarrier id
  else if t.allWait WaitKind.isPbar && s.arrivals id 3 && !(s.ops.any fun o => o.team == id && o.cls == 3) then
    ((s.openBarrier id).acquireCore t.core).acquireCore (t.core + 1)
  else s

/-- The movers wait at a barrier. -/
def State.enterBarrier (s : State) (c : Ctx) (k : Ctl) (w : WaitKind) : State :=
  (s.disband c ((c.movers k).map fun i => (i, w)) []).barrier c.g.team

def execTbar (k : Ctl) (s : State) : Out := issue 1 [] s fun c s => s.enterBarrier c k .tbar
def execPbar (k : Ctl) (s : State) : Out :=
  issue 1 [] s fun c s =>
    if c.l.pair then s.enterBarrier c k .pbar else s.parkWhole c.gid { cls := clsEnc, detail := 0, addr := 0 }

/-! ### exit (R27, R149) -/

/-- Threads leave every mask of their team; what that releases is released. -/
def State.leaveMasks (s : State) (id : TeamId) (xs : List Nat) : State :=
  let s := s.updTeam id fun t => { t with rejoin := t.rejoin.map fun l => dropAll l xs, pending := t.pending.map fun l => dropAll l xs }
  ((List.range 8).foldl (fun s j => s.tryJoin id j) s).barrier id

def execExit (k : Ctl) (s : State) : Out :=
  issue 1 [] s fun c s => (s.disband c [] (c.movers k)).leaveMasks c.g.team (c.movers k)

/-! ### mwait, waittl (R155 to R159) -/

/-- Members wait each on its own condition, which is evaluated at once; the others go on. -/
def State.enterWait (s : State) (c : Ctx) (k : Ctl) (ws : List (Thread × WaitKind)) : State :=
  let all := ws.flatMap fun w => (c.receivers k w.1).map fun i => (i, w.2)
  all.foldl (fun s w => s.wakeThread c.g.team w.1) (s.disband c all [])

def execMwaitSlot (k : Ctl) (a b : Reg) (s : State) : Out :=
  issue 1 (one a ++ one b) s fun c s =>
    let bad := (c.actors k).filter fun h => decide (c.l.slots ≤ h.v a % 256)
    let good := (c.actors k).filter fun h => decide (h.v a % 256 < c.l.slots)
    let s := s.parkBad c k 1 (bad.map fun h => { thread := h.idx, cls := clsPermission })
    if !s.running c.gid then s else s.enterWait c k (good.map fun h => (h, .slot (h.v a % 256) (h.v b)))

/-- A wait on the 8-byte word that a pair names. -/
def mwaitWord (k : Ctl) (a b : Reg) (s : State) (f : Nat → Nat → WaitKind) : Out :=
  issue 1 (two a ++ two b) s fun c s =>
    let (good, bad) := s.checkLanes c (c.actors k) (fun h => addrOf h a 0) 8 8 .read
    let s := (s.keepXlats c good).parkBad c k 1 bad
    if !s.running c.gid then s else s.enterWait c k (good.map fun e => (e.1, f e.2.1 (e.1.pair b)))

def execMwaitGe (k : Ctl) (a b : Reg) (s : State) : Out := mwaitWord k a b s WaitKind.wordGe
def execMwaitNe (k : Ctl) (a b : Reg) (s : State) : Out := mwaitWord k a b s WaitKind.wordNe

def execWaittlQ (k : Ctl) (a b : Reg) (s : State) : Out :=
  issue 1 (one a ++ two b) s fun c s =>
    let own := fun h : Thread => s.queueOf c.l.tenant (h.v a % 2048)
    let s' := s.parkBad c k 1 (((c.actors k).filter fun h => !own h).map fun h => { thread := h.idx, cls := clsPermission })
    if !s'.running c.gid then s' else s'.enterWait c k (((c.actors k).filter own).map fun h => (h, .queue (h.v a % 2048) (h.pair b)))
def execWaittlCh (k : Ctl) (a b : Reg) (s : State) : Out :=
  issue 1 (one a ++ two b) s fun c s => s.enterWait c k ((c.actors k).map fun h => (h, .coreChan (h.v a % 4) (h.pair b)))
def execWaittlDch (k : Ctl) (a b : Reg) (s : State) : Out :=
  issue 1 (one a ++ two b) s fun c s => s.enterWait c k ((c.actors k).map fun h => (h, .dieChan (h.v a % 16) (h.pair b)))

/-! ### Prefixes, icsync (R160, R161) -/

/-- A Bridle prefix in a native clause (R160). -/
def prefixWord (s : State) : Out := issue 1 [] s fun c s => s.parkWhole c.gid { cls := clsEnc, detail := 0, addr := 0 }
def execYield (s : State) : Out := prefixWord s
def execGuard (_ng : Bool) (_pd : Pred) (s : State) : Out := prefixWord s

def execIcsync (_k : Ctl) (s : State) : Out :=
  issue 1 [] s fun c s => (s.updQuad c.quad fun q => { q with loop := none }).endWord c 1

end Sys2Proof.Machine
end

