-- ==== Sys2Proof/Machine/System.lean ====
section
/-! DEFINITION. Class 6, system (R426 to R431): special registers, traps and returns from them, cache words, event totals; and the halting of a team (R433, R434). -/
namespace Sys2Proof.Machine

/-! ### sread, swrite (R122, R123, R426) -/

/-- A special register's value for a thread. -/
def specialValue (c : Ctx) (h : Thread) : SpecialReg → Nat
  | .tidX => h.idx % c.l.dx
  | .tidY => h.idx / c.l.dx % c.l.dy
  | .tidZ => h.idx / (c.l.dx * c.l.dy)
  | .teamX => c.g.team.team % c.l.gx
  | .teamY => c.g.team.team / c.l.gx % c.l.gy
  | .teamZ => c.g.team.team / (c.l.gx * c.l.gy)
  | .launch => c.l.id
  | .lane => c.lane h
  | .width => c.l.w
  | .coreid => c.core % 192
  | .dieid => c.die
  | .clock => c.clock
  | .tenant => c.l.tenant
  | .sp => h.sp.toNat
  | .fsr => h.fsr.toNat

/-- The register is 64 bits wide. -/
def wideSpecial : SpecialReg → Bool
  | .clock => true
  | .sp => true
  | _ => false

def execSread (k : Ctl) (d : Reg) (sr : SpecialReg) (s : State) : Out :=
  issue 1 (if wideSpecial sr then two d else one d) s fun c s =>
    ((c.actors k).foldl (fun s h =>
      s.pendTo c (c.receivers k h) (if wideSpecial sr then wpair d (specialValue c h sr) else wreg d (specialValue c h sr))) s).endWord c 1

def execSwrite (k : Ctl) (sr : SpecialReg) (a : Reg) (s : State) : Out :=
  issue 1 (if sr = .sp then two a else one a) s fun c s =>
    ((c.actors k).foldl (fun s h =>
      s.updThreads c.g.team (c.receivers k h) fun x =>
        if sr = .sp then { x with sp := BitVec.ofNat 64 (h.pair a) }
        else { x with fsr := BitVec.ofNat 32 (h.v a / 2 ^ 31 % 2 * 2 ^ 31 + h.v a % 2 ^ 16) }) s).endWord c 1

/-! ### trap, brk (R428, R430) -/

/-- The members a word moves park under a class whose resumption passes the word; the others go on. -/
def State.trapWord (s : State) (c : Ctx) (k : Ctl) (cls : Nat) (code : Bits6) : State :=
  let s := s.parkLanes c.gid (c.movers k) { cls := cls, detail := code.toNat, addr := 0, byTrap := true }
  if s.running c.gid then s.endWord c 1 else s

def execTrap (k : Ctl) (code : Bits6) (s : State) : Out := issue 1 [] s fun c s => s.trapWord c k clsTrap code

/-- Halt a team: each thread at its next clause boundary, one in a handler at its tret (R433, R434). -/
def State.haltTeam (s : State) (id : TeamId) : State :=
  s.updTeam id fun t => { t with threads := t.threads.map fun h =>
    if h.st = .exited then h else if h.inHandler then { h with haltPending := true } else { h with halted := true } }

def execBrk (k : Ctl) (code : Bits6) (s : State) : Out :=
  issue 1 [] s fun c s =>
    if c.l.attached && !(c.movers k).isEmpty then (s.endWord c 1).haltTeam c.g.team
    else s.trapWord c k clsBrk code

/-! ### tret (R427) -/

/-- The four loads of 8 bytes that read a frame, or the first fault among their checks. -/
def State.frameLoads (s : State) (c : Ctx) (h : Thread) : Nat → Nat → Except LaneFault (List GoodLane)
  | 0, _ => .ok []
  | n + 1, a =>
    match s.checkLane c h a 8 8 .read with
    | .error e => .error { thread := h.idx, cls := e, detail := if e = clsEcc then 1 else 0, addr := a, route := e = clsEcc && s.noRoute c a }
    | .ok tr =>
      match State.frameLoads s c h n (wrapTo 64 ((a : Int) + 8)) with
      | .error e => .error e
      | .ok r => .ok ((h, a, tr) :: r)

/-- A code word as the core would fetch it, 0 where it cannot. -/
def State.codeWord (s : State) (c : Ctx) (va : Nat) : Nat :=
  match s.cachedWord c.core c.l.tenant c.l.asid va with
  | .ok (w, _) => w
  | .error _ => 0

/-- Where a return goes: the clause header and the word (R427). -/
def State.retTarget (s : State) (c : Ctx) (retry : Bool) (f : Frame) : Nat × Nat :=
  let pc := f.pc % 2 ^ 57
  let n := headerN (s.codeWord c pc)
  let after := (pc + 4 * (n + 1), 0)
  if f.byTrap then after
  else if retry then (pc, f.word)
  else
    let len := if isLong (s.codeWord c (pc + 4 * (1 + f.word))) then 2 else 1
    if n ≤ f.word + len then after else (pc, f.word + len)

/-- A frame that a lane returns by. -/
structure LaneRet where
  thread : Nat
  frame : Frame
  clk : VC
  deriving DecidableEq, Repr

/-- The frame that a thread's loads have read. -/
def frameIn (accs : List Acc) (i : Nat) : LaneRet :=
  let mine := accs.filter fun a => a.thread = i
  { thread := i, frame := frameOf (mine.foldr (fun a v => a.val + 2 ^ 64 * v) 0), clk := VC.maxAll (mine.map (·.clk)) }

/-- Park lanes whose frame cannot be read: reported with the double-fault flag (R427). -/
def State.parkFrames (s : State) (c : Ctx) (u : Bool) (bad : List LaneFault) : State :=
  faultOrder.foldl (fun s e =>
    match bad.filter fun f => f.cls == e with
    | [] => s
    | f :: r =>
      let p : Park := { cls := f.cls, detail := f.detail, addr := f.addr, double := true, route := s.routeEnd f }
      if u then s.parkWhole c.gid p else s.parkLanes c.gid ((f :: r).map (·.thread)) p) s

/-- The members that a lane's return moves. -/
def Ctx.returning (c : Ctx) (u : Bool) (i : Nat) : List Nat := if u then c.g.members else [i]

/-- The return of the lanes whose frames are good. -/
def State.returnLanes (s : State) (c : Ctx) (u retry : Bool) (rs : List LaneRet) : State :=
  let dest := rs.flatMap fun r => (c.returning u r.thread).map fun i => (i, s.retTarget c retry r.frame)
  let s := rs.foldl (fun s r =>
    (s.observe c.g.team (c.returning u r.thread) r.clk).updThreads c.g.team (c.returning u r.thread) fun h =>
      { h.returned r.frame with keepGuard := !r.frame.byTrap && (retry || (s.retTarget c retry r.frame).2 != 0) }) s
  let s := if (s.grp c.gid).members.any fun i => (s.thread c.g.team i).inHandler then s else s.updGrp c.gid fun g => { g with handler := 0 }
  s.moveAll c (c.g.members.map fun i => match findBy (fun t : Nat × Nat × Nat => t.1 == i) dest with
    | some t => { thread := i, pc := t.2.1, word := t.2.2, active := true }
    | none => { thread := i, pc := c.next, active := false })

/-- A tret whose loads have been served: the targets' check, then the moves. -/
def State.frameDone (s : State) (c : Ctx) (u retry : Bool) (accs : List Acc) : State :=
  let accs := accs.filter fun a => a.fault = 0
  let rs := ((accs.map (·.thread)).eraseDups).map (frameIn accs)
  match rs.filter fun r => !s.goodTarget c.l r.frame.pc with
  | b :: _ => s.badTarget c (some b.thread) b.frame.pc
  | [] => s.returnLanes c u retry rs

/-- A return, with the word retried or passed: lanes whose frame cannot be read park, then those not in a handler; the rest load their frames, and the group waits where a home must answer. -/
def tretWord (k : Ctl) (retry : Bool) (s : State) : Out :=
  issue 1 [] s fun c s =>
    let rd := (c.actors k).map fun h => (h, s.frameLoads c h 4 h.sp.toNat)
    let bad := rd.filterMap fun r => match r.2 with
      | .error e => some e
      | .ok _ => none
    let good := rd.filterMap fun r => match r.2 with
      | .ok l => some (r.1, l)
      | .error _ => none
    let s := s.parkFrames c k.u bad
    if !s.running c.gid then s
    else
      let out := good.filter fun r => !r.1.fsr.getLsbD 31
      let good := good.filter fun r => r.1.fsr.getLsbD 31
      let s := s.parkBad c k 1 (out.map fun r => { thread := r.1.idx, cls := clsPermission })
      if !s.running c.gid then s
      else
        let accs := (good.flatMap fun r => r.2.map fun e => s.accFor e.1 e.2.1 e.2.2 8 0).map (s.serve false c.t c.core s.nextId)
        let s := s.countL1 c.core accs
        if accs.all (·.done) then s.frameDone c k.u retry accs
        else s.beginOp c { c.op 6 (.frame k.u retry) with accs := accs, verdict := true, all := c.spread k }

def execTretRetry (k : Ctl) (s : State) : Out := tretWord k true s
def execTretSkip (k : Ctl) (s : State) : Out := tretWord k false s

/-! ### icinv, dcinv, dcflush (R429) -/

/-- The line count of a cache word. -/
def lineCount (h : Thread) (b : Reg) : Nat := h.v b % 2 ^ 16
/-- The first line's address. -/
def firstLine (h : Thread) (a : Reg) : Nat := h.pair a - h.pair a % 128

def execIcinv (k : Ctl) (a b : Reg) (s : State) : Out :=
  issue 1 (two a ++ one b) s fun c s =>
    match c.lead k with
    | none => s.endWord c 1
    | some h =>
      let n := lineCount h b
      let lo := icKey c.l.tenant c.l.asid (firstLine h a)
      (s.dropCode c.die fun x => decide (n = 0) || (decide (lo ≤ x) && decide (x < lo + n) && decide (x / 2 ^ 50 = lo / 2 ^ 50))).endWord c 1

/-- A location lies in the ranges of a cache word, where none are named in the whole cache. -/
def inFlush (spans : Option (List (Nat × Nat))) (k : Nat) : Bool := match spans with
  | some l => inSpans l k
  | none => true

/-- The dirty lines of a core in a participant's range go home; what is then dropped goes once they are all applied (R429). -/
def State.flushFor (s : State) (c : Ctx) (drop : Bool) (h : Thread) (a b : Reg) : State :=
  let n := lineCount h b
  let spans := if n = 0 then none else some (s.lineSpans c.core c.l.tenant c.l.asid (firstLine h a) (n / 512 + 2) (n * 128))
  let ws := (s.writes.filter fun w => w.l1 == some c.core && inFlush spans (w.line * 128)).map (·.id)
  let acc : Acc := { thread := h.idx, va := 0, key := 0, size := 0, home := 0, vec := {}, done := true }
  s.addOp { c.op 6 (.flush ws drop spans) with accs := [acc] }

def cacheWord (drop : Bool) (k : Ctl) (a b : Reg) (s : State) : Out :=
  issue 1 (two a ++ one b) s fun c s => ((c.actors k).foldl (fun s h => s.flushFor c drop h a b) s).endWord c 1

def execDcinv (k : Ctl) (a b : Reg) (s : State) : Out := cacheWord true k a b s
def execDcflush (k : Ctl) (a b : Reg) (s : State) : Out := cacheWord false k a b s

/-! ### evrd (R410, R412, R414, R431) -/

/-- A code that names an event. -/
def eventAssigned (code : Nat) : Bool :=
  decide (code ≤ 0x1E) || (decide (0x40 ≤ code) && decide (code ≤ 0x4E)) || (decide (0x80 ≤ code) && decide (code ≤ 0x8B))
/-- The unit of a code for a core and a quadrant of it. -/
def eventUnit (core quad code : Nat) : Nat :=
  if code < 0x40 then core * 4 + quad else if code < 0x80 then 4096 + core else 8192 + dieOfCore core
/-- The total and the live count of an event of a unit. -/
def State.eventCount (s : State) (unit code : Nat) : Nat :=
  let k := unit * 256 + code
  Store.get 0 s.evTotal k + Store.get 0 s.evLive k
/-- A sum over the events of a unit from a code on. -/
def State.eventSum (s : State) (unit code n : Nat) : Nat := ((List.range n).map fun i => s.eventCount unit (code + i)).sum
/-- The running total of an event: the increments of the cycles that are over (R403, R412). A quadrant charges one histogram event in each cycle, and one stall event in each cycle of event 0x08 (R407, R409): 0x08 takes the cycles that no other histogram event takes, EMPTY those of 0x08 that no other stall event takes. -/
def State.eventTotal (s : State) (core quad code : Nat) : Nat :=
  let unit := eventUnit core quad code
  let none_ := (s.die (dieOfUnit unit)).clock - s.eventSum unit 0x09 7
  if code = 0x08 then none_ % 2 ^ 64
  else if code = 0x1A then (none_ - (s.eventSum unit 0x10 10 + s.eventCount unit 0x1B)) % 2 ^ 64
  else if eventAssigned code then s.eventCount unit code % 2 ^ 64
  else 0

def execEvrd (k : Ctl) (d a : Reg) (s : State) : Out :=
  laneVariable 1 6 k (two d ++ one a) s fun c h =>
    wpair d (if bitAt s.evctl.toNat c.l.tenant then s.eventTotal c.core (bitsOf (h.v a) 8 2) (h.v a % 256) else 0)

end Sys2Proof.Machine
end

