-- ==== Sys2Proof/Machine/Uses.lean ====
section
/-! DEFINITION. What the words of an instruction name: the registers and predicates it reads and writes, and its latency (R84). The loader cuts clauses by them (R86 to R88). -/
namespace Sys2Proof.Machine

/-- What an instruction reads and writes: vector registers by number, predicates by number, and sp. -/
structure Uses where
  rd : List Nat := []
  wr : List Nat := []
  prd : List Nat := []
  pwr : List Nat := []
  /-- it reads sp -/
  spr : Bool := false
  /-- it writes sp -/
  spw : Bool := false
  deriving DecidableEq, Repr

/-- The old predicate is read where a result is combined into it (R66). -/
def combReads (c : Combine) (ps : List Nat) : List Nat := if c = .set then [] else ps
/-- Registers of an operand of a type (R185). -/
def typedRegs (t : TypeCode) (r : Reg) : List Nat := if t.width = 64 then two r else one r
/-- Registers that a destination element leaves unchanged in part (R186). -/
def merged (t : TypeCode) (r : Reg) : List Nat := if t.width < 32 then one r else []
/-- Data registers of an access (R284, R285). -/
def memRegs : MemTy → Reg → List Nat
  | .n64, d => two d
  | .n128, d => regsFrom d 4
  | _, d => one d
/-- Registers of a value of one or two words. -/
def wideRegs (wide : Bool) (r : Reg) : List Nat := if wide then two r else one r
/-- The data of a word that takes a pair at one width (R196, R286); both registers where the width is not known. -/
def pairAt (at_ : Nat) (w : Option Nat) (r : Reg) : List Nat := if w = none || w = some at_ then [r.toNat, r.toNat / 2 * 2 + 1] else one r
/-- A three-register result. -/
def uses3 (d : List Nat) (rs : List Nat) : Uses := { wr := d, rd := rs }
/-- A predicate result of registers, combined. -/
def usesP (c : Combine) (pd : Pred) (rs : List Nat) : Uses := { rd := rs, prd := combReads c [pd.toNat], pwr := [pd.toNat] }
/-- A predicate result of predicates, combined. -/
def usesPP (c : Combine) (pd : Pred) (ps : List Nat) : Uses := { prd := ps ++ combReads c [pd.toNat], pwr := [pd.toNat] }

/-- What an instruction names, under the width of the kernel that holds it where that is known. -/
def uses (w : Option Nat) : Instr → Uses
  | .add _ _ d a b => uses3 (one d) (one a ++ one b)
  | .sub _ _ d a b => uses3 (one d) (one a ++ one b)
  | .mullo _ _ d a b => uses3 (one d) (one a ++ one b)
  | .mulhi _ _ d a b => uses3 (one d) (one a ++ one b)
  | .mad _ _ d a b c => uses3 (one d) (one a ++ one b ++ one c)
  | .min _ _ d a b => uses3 (one d) (one a ++ one b)
  | .max _ _ d a b => uses3 (one d) (one a ++ one b)
  | .neg _ _ d a => uses3 (one d) (one a)
  | .addi _ d a _ => uses3 (one d) (one a)
  | .muli _ d a _ => uses3 (one d) (one a)
  | .add64 _ _ d a b => uses3 (two d) (two a ++ two b)
  | .add64i _ d a _ => uses3 (two d) (two a)
  | .sub64 _ _ d a b => uses3 (two d) (two a ++ two b)
  | .lea64 _ d a c _ _ _ => uses3 (two d) (two a ++ one c)
  | .and _ d a b => uses3 (one d) (one a ++ one b)
  | .or _ d a b => uses3 (one d) (one a ++ one b)
  | .xor _ d a b => uses3 (one d) (one a ++ one b)
  | .not _ d a => uses3 (one d) (one a)
  | .andi _ d a _ => uses3 (one d) (one a)
  | .ori _ d a _ => uses3 (one d) (one a)
  | .xori _ d a _ => uses3 (one d) (one a)
  | .lop3 _ d a b c _ => uses3 (one d) (one a ++ one b ++ one c)
  | .shl _ d a b => uses3 (one d) (one a ++ one b)
  | .shr _ d a b => uses3 (one d) (one a ++ one b)
  | .sra _ d a b => uses3 (one d) (one a ++ one b)
  | .rol _ d a b => uses3 (one d) (one a ++ one b)
  | .shli _ d a _ => uses3 (one d) (one a)
  | .shri _ d a _ => uses3 (one d) (one a)
  | .srai _ d a _ => uses3 (one d) (one a)
  | .roli _ d a _ => uses3 (one d) (one a)
  | .bfe _ d a _ _ _ => uses3 (one d) (one a)
  | .bfi _ d a b _ _ => uses3 (one d) (one a ++ one b)
  | .popc _ d a => uses3 (one d) (one a)
  | .clz _ d a => uses3 (one d) (one a)
  | .brev _ d a => uses3 (one d) (one a)
  | .ffs _ d a => uses3 (one d) (one a)
  | .icmpEq _ m comb pd a b => usesP comb pd (wideRegs m.wide a ++ wideRegs m.wide b)
  | .icmpNe _ m comb pd a b => usesP comb pd (wideRegs m.wide a ++ wideRegs m.wide b)
  | .icmpLt _ m comb pd a b => usesP comb pd (wideRegs m.wide a ++ wideRegs m.wide b)
  | .icmpLe _ m comb pd a b => usesP comb pd (wideRegs m.wide a ++ wideRegs m.wide b)
  | .icmpGt _ m comb pd a b => usesP comb pd (wideRegs m.wide a ++ wideRegs m.wide b)
  | .icmpGe _ m comb pd a b => usesP comb pd (wideRegs m.wide a ++ wideRegs m.wide b)
  | .ptest _ _ comb pd a b => usesP comb pd (one a ++ one b)
  | .pand _ _ _ comb pd pa pb => usesPP comb pd [pa.toNat, pb.toNat]
  | .por _ _ _ comb pd pa pb => usesPP comb pd [pa.toNat, pb.toNat]
  | .pxor _ _ _ comb pd pa pb => usesPP comb pd [pa.toNat, pb.toNat]
  | .pnot _ comb pd pa => usesPP comb pd [pa.toNat]
  | .p2v _ d pa => { prd := [pa.toNat], wr := one d }
  | .p2vAll _ d => { prd := List.range 16, wr := one d }
  | .v2p _ comb pd a => usesP comb pd (one a)
  | .v2pAll _ a => { rd := one a, pwr := List.range 16 }
  | .sel _ d a b pc _ => { rd := one a ++ one b, wr := one d, prd := [pc.toNat] }
  | .mov _ d a => uses3 (one d) (one a)
  | .mov64 _ d a => uses3 (two d) (two a)
  | .xshfIdx _ d a b => uses3 (one d) (one a ++ one b)
  | .xshfUp _ d a b => uses3 (one d) (one a ++ one b)
  | .xshfDown _ d a b => uses3 (one d) (one a ++ one b)
  | .xshfXor _ d a b => uses3 (one d) (one a ++ one b)
  | .xbcastLane _ d a _ => uses3 (one d) (one a)
  | .xbcastReg _ d a b => uses3 (one d) (one a ++ one b)
  | .xbcastLead _ d a => uses3 (one d) (one a)
  | .xred _ _ d a _ => uses3 (one d) (one a)
  | .xscan _ _ d a _ _ => uses3 (one d) (one a)
  | .xvoteAny _ comb pd pa => usesPP comb pd [pa.toNat]
  | .xvoteAll _ comb pd pa => usesPP comb pd [pa.toNat]
  | .xvoteUni _ comb pd pa => usesPP comb pd [pa.toNat]
  | .xmatchEq _ d a => uses3 (pairAt 64 w d) (one a)
  | .xmatchBallot _ d pa => { prd := [pa.toNat], wr := pairAt 64 w d }
  | .xmatchMembers _ d => uses3 (pairAt 64 w d) []
  | .movi _ d _ _ _ => uses3 (one d) []
  | .fadd _ _ d a b => uses3 (one d) (one a ++ one b)
  | .fsub _ _ d a b => uses3 (one d) (one a ++ one b)
  | .fmul _ _ d a b => uses3 (one d) (one a ++ one b)
  | .ffma _ _ _ _ d a b c => uses3 (one d) (one a ++ one b ++ one c)
  | .fmin _ _ d a b => uses3 (one d) (one a ++ one b)
  | .fmax _ _ d a b => uses3 (one d) (one a ++ one b)
  | .fabs _ d a => uses3 (one d) (one a)
  | .fneg _ d a => uses3 (one d) (one a)
  | .fcmpEq _ comb pd a b => usesP comb pd (one a ++ one b)
  | .fcmpLt _ comb pd a b => usesP comb pd (one a ++ one b)
  | .fcmpLe _ comb pd a b => usesP comb pd (one a ++ one b)
  | .fcmpNe _ comb pd a b => usesP comb pd (one a ++ one b)
  | .fclass _ _ comb pd a _ => usesP comb pd (one a)
  | .frint _ _ d a => uses3 (one d) (one a)
  | .fsatUnit _ d a => uses3 (one d) (one a)
  | .fsatSym _ d a => uses3 (one d) (one a)
  | .expins _ _ d a b => uses3 (one d) (one a ++ one b)
  | .expextExp _ d a => uses3 (one d) (one a)
  | .expextSig _ d a => uses3 (one d) (one a)
  | .fexp _ d a => uses3 (one d) (one a)
  | .flog _ d a => uses3 (one d) (one a)
  | .frcp _ d a => uses3 (one d) (one a)
  | .frsq _ d a => uses3 (one d) (one a)
  | .fsqrt _ _ d a => uses3 (one d) (one a)
  | .fsin _ d a => uses3 (one d) (one a)
  | .fcos _ d a => uses3 (one d) (one a)
  | .hadd2 _ _ d a b => uses3 (one d) (one a ++ one b)
  | .hsub2 _ _ d a b => uses3 (one d) (one a ++ one b)
  | .hmul2 _ _ d a b => uses3 (one d) (one a ++ one b)
  | .hfma2 _ _ _ d a b c => uses3 (one d) (one a ++ one b ++ one c)
  | .hmin2 _ _ d a b => uses3 (one d) (one a ++ one b)
  | .hmax2 _ _ d a b => uses3 (one d) (one a ++ one b)
  | .hcmp2 _ _ comb pk _ a b => { rd := one a ++ one b, prd := combReads comb [2 * pk.toNat, 2 * pk.toNat + 1], pwr := [2 * pk.toNat, 2 * pk.toNat + 1] }
  | .cvt _ d a _ _ _ _ dst src => uses3 (typedRegs dst d) (merged dst d ++ typedRegs src a)
  | .pack2 _ d a b _ _ _ => uses3 (one d) (one a ++ one b)
  | .unpack2 _ _ d a => uses3 (two d) (one a)
  | .cvt4x8Pack _ d a _ _ _ => uses3 (one d) (regsFrom a 4)
  | .cvt4x8Unpack _ d a _ => uses3 (regsFrom d 4) (one a)
  | .dp4 _ _ _ d a b c _ => uses3 (one d) (one a ++ one b ++ one c)
  | .fdot2 _ _ _ d a b c => uses3 (one d) (one a ++ one b ++ one c)
  | .ldN8 _ d a _ => uses3 (one d) (two a)
  | .ldI8 _ d a _ => uses3 (one d) (two a)
  | .ldN16 _ d a _ => uses3 (one d) (two a)
  | .ldI16 _ d a _ => uses3 (one d) (two a)
  | .ldN32 _ d a _ => uses3 (one d) (two a)
  | .ldN64 _ d a _ => uses3 (two d) (two a)
  | .ldN128 _ d a _ => uses3 (regsFrom d 4) (two a)
  | .ldw _ m d a b ty _ => uses3 (memRegs ty d) (two a ++ if m = .none then [] else one b)
  | .stN8 _ d a _ => uses3 [] (one d ++ two a)
  | .stN16 _ d a _ => uses3 [] (one d ++ two a)
  | .stN32 _ d a _ => uses3 [] (one d ++ two a)
  | .stN64 _ d a _ => uses3 [] (two d ++ two a)
  | .stN128 _ d a _ => uses3 [] (regsFrom d 4 ++ two a)
  | .stw _ m d a b ty _ => uses3 [] (memRegs ty d ++ two a ++ if m = .none then [] else one b)
  | .ldline _ d a _ => uses3 (pairAt 16 w d) (two a)
  | .stline _ d a _ => uses3 [] (pairAt 16 w d ++ two a)
  | .ldsc _ d a _ => uses3 (one d) (one a)
  | .stsc _ d a _ => uses3 [] (one d ++ one a)
  | .atom _ noret d a b c op wide _ _ => uses3 (if noret then [] else wideRegs wide d) (two a ++ wideRegs wide b ++ if op = .cas then wideRegs wide c else [])
  | .stna _ m d a _ pd => { rd := wideRegs (m = .n64) d ++ two a, pwr := [pd.toNat] }
  | .lds _ sz d a pd => { rd := wideRegs (sz = .n64) d ++ two a, wr := wideRegs (sz = .n64) d, pwr := [pd.toNat] }
  | .unsl _ a => uses3 [] (one a)
  | .enumpgNext _ d a b => uses3 (two d) (two a ++ one b)
  | .enumpgMap _ a b c _ => uses3 [] (two a ++ one b ++ one c)
  | .pgq _ d a => uses3 (two d) (two a)
  | .append _ d a b c => uses3 (two d) (two a ++ regsFrom b 4 ++ one c)
  | .sealRegion _ a => uses3 [] (two a)
  | .freeRegion _ a => uses3 [] (two a)
  | .tlook _ d a => uses3 (one d) (two a)
  | .tset _ d a b => uses3 [] (one d ++ two a ++ one b)
  | .tclr _ a => uses3 [] (one a)
  | .tclrAll _ => {}
  | .bufdecl _ d a b _ _ => uses3 (one d) (one a ++ one b)
  | .bufdeclRel _ a => uses3 [] (one a)
  | .bufmarkFill _ a => uses3 [] (one a)
  | .bufmarkFull _ a => uses3 [] (one a)
  | .bufmarkEmpty _ a => uses3 [] (one a)
  | .bufq _ d a => uses3 (one d) (one a)
  | .fence _ _ _ => {}
  | .wld _ _ a _ _ => uses3 [] (two a)
  | .wldpr _ a _ => uses3 [] (two a)
  | .mma _ m _ a _ src _ _ => uses3 [] (if src then two a else regsFrom a (16 * kbOf m.code))
  | .mmapr _ _ a _ src _ => uses3 [] (if src then two a else regsFrom a 64)
  | .accz _ _ _ => {}
  | .accld _ _ a => uses3 [] (two a)
  | .accst _ _ a => uses3 [] (two a)
  | .acccvt _ _ a _ _ _ _ _ => uses3 [] (two a)
  | .accmovGet _ _ a b => uses3 (one a) (one b)
  | .accmovPut _ _ a b => uses3 [] (one a ++ one b)
  | .accadd _ _ _ _ _ => {}
  | .acctr _ _ _ => {}
  | .mstatStat _ a => uses3 (one a) []
  | .mstatBind _ a => uses3 (one a) []
  | .mstatTheta _ a => uses3 (one a) []
  | .pgsel _ m a b c _ _ => uses3 [] (two a ++ regsFrom b (if m = .d32 then 16 else 32) ++ two c)
  | .qappend _ d a b pd => { rd := one a ++ regsFrom b 16, wr := two d, pwr := [pd.toNat] }
  | .copy _ d a _ => uses3 (two d) (regsFrom a 16)
  | .copym _ d a _ => uses3 (two d) (regsFrom a 16)
  | .xform _ d a _ => uses3 (two d) (regsFrom a 16)
  | .relslot _ a b => uses3 [] (one a ++ one b)
  | .wptr _ d a => uses3 (two d) (one a)
  | .tlrdQ _ d a => uses3 (two d) (one a)
  | .tlrdCh _ d a => uses3 (two d) (one a)
  | .tlrdDch _ d a => uses3 (two d) (one a)
  | .chq _ d a => uses3 (one d) (one a)
  | .bra _ _ => {}
  | .call _ _ => { spr := true, spw := true }
  | .ret _ => { spr := true, spw := true }
  | .brx _ a => uses3 [] (two a)
  | .callx _ a => { rd := two a, spr := true, spw := true }
  | .exit _ => {}
  | .spadj _ _ => { spr := true, spw := true }
  | .nop _ => {}
  | .jset _ _ => {}
  | .jwait _ _ => {}
  | .tbar _ => {}
  | .pbar _ => {}
  | .mwaitSlot _ a b => uses3 [] (one a ++ one b)
  | .mwaitGe _ a b => uses3 [] (two a ++ two b)
  | .mwaitNe _ a b => uses3 [] (two a ++ two b)
  | .waittlQ _ a b => uses3 [] (one a ++ two b)
  | .waittlCh _ a b => uses3 [] (one a ++ two b)
  | .waittlDch _ a b => uses3 [] (one a ++ two b)
  | .yield => {}
  | .guard _ _ => {}
  | .icsync _ => {}
  | .sread _ d sr => { wr := wideRegs (sr = .clock || sr = .sp) d, spr := decide (sr = .sp) }
  | .swrite _ sr a => { rd := wideRegs (sr = .sp) a, spw := decide (sr = .sp) }
  | .trap _ _ => {}
  | .brk _ _ => {}
  | .tretRetry _ => { spr := true, spw := true }
  | .tretSkip _ => { spr := true, spw := true }
  | .icinv _ a b => uses3 [] (two a ++ one b)
  | .evrd _ d a => uses3 (two d) (one a)
  | .dcinv _ a b => uses3 [] (two a ++ one b)
  | .dcflush _ a b => uses3 [] (two a ++ one b)
  | .groupForm _ => {}
  | .fairnessDemotion _ => {}
  | .subGroupResume _ => {}
  | .variableOpComplete _ => {}
  | .mwaitPeriodicCheck _ _ => {}
  | .teamPull _ => {}
  | .teamStart _ => {}
  | .teamEnd _ => {}
  | .homeRead _ => {}
  | .homeWrite _ => {}
  | .snapshotCopyDone _ _ => {}
  | .atomPerform _ => {}
  | .appendClaim _ => {}
  | .tailAdvance _ => {}
  | .sealReached _ => {}
  | .freeDone _ => {}
  | .replicaDrop _ _ => {}
  | .pushLand _ => {}
  | .unslDone _ => {}
  | .bufferTransition _ => {}
  | .l1CleanTimeout _ _ => {}
  | .l1DirtyWriteback _ _ => {}
  | .watermarkReport _ _ => {}
  | .matrixRetire _ => {}
  | .selfTest _ _ _ => {}
  | .qctlWrite _ _ => {}
  | .packetTake _ => {}
  | .launch _ => {}
  | .copyPacket _ => {}
  | .copymPacket _ => {}
  | .xformPacket _ => {}
  | .table _ => {}
  | .signal _ => {}
  | .waitPacket _ => {}
  | .waitPacketDone _ => {}
  | .sealPacket _ => {}
  | .migrate _ => {}
  | .migrationCopyDone _ => {}
  | .packetComplete _ _ => {}
  | .channelOpComplete _ => {}
  | .outriderFault _ => {}
  | .transducerJobEnd _ => {}
  | .tableFillDone _ => {}
  | .preemptCheck _ => {}
  | .tinvCommand _ _ => {}
  | .regionLoad _ _ => {}
  | .regionRemove _ _ => {}
  | .watchdogSpin _ => {}
  | .watchdogWait _ _ => {}
  | .watchdogHandler _ => {}
  | .level2CountDecay _ => {}
  | .level3CountDecay _ => {}
  | .schedulingLoopStall _ => {}
  | .groomSweep _ _ => {}
  | .trapEntry _ => {}
  | .faultRecordRetry _ => {}
  | .fcctlWrite _ _ => {}
  | .frespRetry _ _ => {}
  | .frespSkip _ _ => {}
  | .frespAbort _ _ => {}
  | .launchRollback _ _ => {}
  | .signatureCompare _ _ => {}
  | .halt _ => {}
  | .resume _ => {}
  | .attach _ => {}
  | .detach _ => {}
  | .saveHaltedTeam _ => {}
  | .haltReached _ => {}
  | .contextSave _ => {}
  | .contextRestore _ _ => {}
  | .ctxbaseWrite _ _ => {}
  | .winbaseWrite _ _ _ => {}
  | .poolAdd _ _ _ => {}
  | .treset _ => {}
  | .arBump _ => {}
  | .loadRequest _ => {}
  | .hostCxlMemAccess _ => {}
  | .peerRouteTimeout _ => {}
  | .governorUpdate _ _ _ => {}
  | .thermalThrottle _ => {}
  | .thermalTrip => {}
  | .boot => {}
  | .registerWrite _ _ => {}
  | .stallEvent _ => {}
  | .peerAccess _ _ => {}
  | .cxlCacheSnoop _ _ => {}
  | .supplyDroop _ _ => {}
  | .powerLoss => {}

/-- The control-transfer words (R56, R84). -/
def isControl (op : Nat) : Bool :=
  [0x140, 0x141, 0x142, 0x143, 0x144, 0x145, 0x149, 0x14A, 0x14B, 0x14C, 0x14D, 0x182, 0x183, 0x184].contains op

/-- An opcode of fixed latency (R84). -/
def fixedOp (op : Nat) : Bool :=
  let cls := op / 64
  let row := op / 8
  (cls = 0 && row ≠ 7) || op = 0x03E || (cls = 1 && row ≠ 0x0A) || [0x146, 0x147, 0x150, 0x148, 0x180].contains op

end Sys2Proof.Machine
end

