-- ==== Sys2Proof/Machine/Pick.lean ====
section
/-! DEFINITION. Which groups of a quadrant may issue (R29), their ranking (R30), the forming of groups (R20, R21, R26), demotion (R33 to R35), and the stall event of a cycle with no eligible group (R407 to R409). -/
namespace Sys2Proof.Machine

/-! ### The next word of a group -/

/-- The next word of a group: its clause's header, the word, and the word after it where the clause has one. -/
structure Next where
  header : Nat
  w : Nat
  w2 : Option Nat
  deriving DecidableEq, Repr

/-- A header is legal (R54). -/
def headerOk (h : Nat) : Bool :=
  decide (headerN h ≠ 0) && decide (bitsOf h 4 3 ≠ 7) && (decide (setFlag h < 12) || decide (setFlag h = 15))

/-- What a group has of its clause: the header and the words up to the first that is not to be had, which has yet to be fetched, or whose fetch faults. -/
structure Look where
  words : List Nat := []
  missing : Option Nat := none
  fault : Option (Nat × Nat) := none
  deriving DecidableEq, Repr

/-- The words from an address on. -/
def State.lookFrom (s : State) (quad tenant asid pc va : Nat) (got : List Nat) : Nat → Look
  | 0 => { words := got }
  | n + 1 =>
    match s.peekWord quad tenant asid pc va with
    | .error c => { words := got, fault := some (c, canonOf va) }
    | .ok none => { words := got, missing := some va }
    | .ok (some w) => State.lookFrom s quad tenant asid pc (va + 4) (got ++ [w]) n

/-- The clause of a group: a clause whose first word has issued goes on from the words then fetched (R161). -/
def State.look (s : State) (g : Grp) : Look :=
  let l := s.launch g.team.launch
  let head := if g.words.isEmpty then s.lookFrom g.quad l.tenant l.asid g.pc g.pc [] 1 else { words := g.words }
  match head.words with
  | [] => head
  | h :: _ => if headerOk h then s.lookFrom g.quad l.tenant l.asid g.pc (g.pc + 4 * head.words.length) head.words (headerN h + 1 - head.words.length) else head

/-- The next word of a group, nothing while words of its clause have yet to be fetched; or a fetch fault with its address. -/
def State.nextWord (s : State) (g : Grp) : Except (Nat × Nat) (Option Next) :=
  let x := s.look g
  let end_ := match x.fault with
    | some e => .error e
    | none => .ok none
  match x.words with
  | [] => end_
  | h :: ws =>
    if !headerOk h then .ok (some ⟨h, 0, none⟩)
    else if x.missing.isSome then .ok none
    else
      match ws[g.word]? with
      | none => end_
      | some w =>
        if isLong w && decide (g.word + 1 < headerN h) then
          match ws[g.word + 1]? with
          | some v => .ok (some ⟨h, w, some v⟩)
          | none => end_
        else .ok (some ⟨h, w, none⟩)

/-- The instruction of a word in its clause at a position, or the class of its fault, in the order of R70. -/
def wordOf (header at_ w : Nat) (w2 : Option Nat) : Except Nat Instr :=
  if bitsOf w 26 3 = 7 then .error clsEnc
  else if bitsOf w 26 3 ≠ bitsOf header 4 3 then .error clsMismatch
  else
    let len := if isLong w then 2 else 1
    match decode (if isLong w then [w, w2.getD 0] else [w]) with
    | .error _ => .error clsEnc
    | .ok (i, _) => if headerN header < at_ + len || (isControl (opcodeOf w) && decide (at_ + len ≠ headerN header)) then .error clsEnc else .ok i

/-- The next word of a group reads and acts as an instruction. -/
def Next.instr (n : Next) (at_ : Nat) : Option Instr := match wordOf n.header at_ n.w n.w2 with
  | .ok i => some i
  | .error _ => none

/-! ### Eligibility (R29) -/

/-- Opcodes of the join waits and exit, regroup points of their own (R18). -/
def isRegroupOp (op : Nat) : Bool := [0x145, 0x149, 0x14A, 0x14B, 0x14C, 0x14D].contains op
/-- Opcodes that no thread issues while an acquire of it is outstanding: what reads memory on its behalf (R313). -/
def isLoadOp (op : Nat) : Bool :=
  decide (0x80 ≤ op) && decide (op ≤ 0x87) || [0x8E, 0x90, 0x92, 0x94, 0x98, 0x99, 0x0CC, 0x142, 0x14C, 0x184].contains op
/-- Opcodes that no thread issues while a release of it is outstanding: what writes memory on its behalf (R313). -/
def isStoreOp (op : Nat) : Bool :=
  [0x88, 0x89, 0x8A, 0x8B, 0x8C, 0x8D, 0x8F, 0x91, 0x92, 0x93, 0x9A, 0x9B, 0x9C, 0xC6, 0xC7, 0xCC, 0x100, 0x101, 0x102, 0x103, 0x141, 0x144].contains op
/-- Opcodes whose stores a copy of a redundant team holds back (R309, R449). -/
def isHeldOp (op : Nat) : Bool := decide (0x88 ≤ op) && decide (op ≤ 0x8D) || [0x8F, 0x93, 0x9A, 0x141, 0x144].contains op

/-- The group stands before a word marked S that is a regroup point still to pass (R18, R63). -/
def atMarker (g : Grp) (n : Next) : Bool := bitAt n.w 31 && !g.fresh && !g.resumed && headerOk n.header

/-- A flag of the group with work outstanding (R19). -/
def State.anyBusy (s : State) (g : Grp) : Bool := (List.range 12).any fun f => g.flags.getLsbD f && s.flagBusy g.gid f

/-- A fence, or an ordered atom, of a member is outstanding that releases, or acquires. -/
def State.orders (s : State) (g : Grp) (release : Bool) : Bool :=
  s.ops.any fun o => o.team == g.team && (o.accs.any fun a => g.members.contains a.thread) && (match o.kind with
    | .fence k _ => if release then codeReleases k else codeAcquires k
    | .atom _ _ rel acq _ _ => if release then rel else acq
    | _ => false)

/-- An earlier release of a member holds back the writes of the group's next word (R282, R313). -/
def State.heldWrite (s : State) (g : Grp) (op : Nat) : Bool := isStoreOp op && s.orders g true

/-- A fence, or an ordered atom, of a member is outstanding that the group's next word may not pass (R313). -/
def State.fenced (s : State) (g : Grp) (op : Nat) : Bool := s.heldWrite g op || (isLoadOp op && s.orders g false)

/-- A write of the group's last word awaits its home's verdict (R282). -/
def State.awaitsVerdict (s : State) (gid : Nat) : Bool := s.ops.any fun o => o.verdict && o.gids.contains gid

/-- The group may not pass a regroup point: a flag is busy, or a restored seal or free is pending (R19, R437). -/
def State.regroupHeld (s : State) (g : Grp) : Bool := s.anyBusy g || g.members.any fun i => (s.thread g.team i).sealPending

/-- A group stands where a halt stops it: at the head of a clause, or at a word at which its threads were parked, before they issue there (R433, R434). -/
def Grp.stopsHalted (g : Grp) : Bool := g.clause == 0 && (g.word == 0 || !g.fresh)

/-- A LOOSE thread is halted: at the head of a clause, or at the word to which it has returned from its handler; one that left its group in the middle of a clause goes on to the clause's end (R63, R433, R434). -/
def Thread.haltedLoose (h : Thread) : Bool := (h.halted || h.haltedInHandler) && (h.word == 0 || h.words.isEmpty)

/-- The group has stopped: at a clause boundary where its team is being stopped for a save, and where every member is halted (R52, R433, R435). -/
def State.haltedHere (s : State) (g : Grp) : Bool :=
  (g.clause == 0 && g.word == 0 && (s.team g.team).saving) || (g.stopsHalted && g.members.all fun i => let h := s.thread g.team i; h.halted || h.haltedInHandler)

/-- A launch has been stopped, for an abort or a rollback (R443, R445). -/
def State.launchStopped (s : State) (id : Nat) : Bool := (s.launch id).aborted.isSome || s.rollbacks.any fun r => r.1 == id

/-- A thread as it issues the next word of a clause under a header: results whose cycle comes have landed; where it has not issued in the clause its guard is sampled, but for one that carries the clause's own (R40, R59, R63, R65). -/
def State.sampled (s : State) (g : Grp) (header : Nat) (h : Thread) : Thread :=
  let h := h.landed (s.now g.quad + 1)
  if g.clause ≠ 0 then h
  else if !h.keepGuard then { h with guard := (h.view s.freeCtr 0).preds.getLsbD (bitsOf header 25 4) != bitAt header 29 }
  else { h with keepGuard := false }

/-- The context in which a group's next word would issue. -/
def State.ahead (s : State) (g : Grp) (header : Nat) : Ctx :=
  { s.ctx g.gid with members := g.members.map fun i => (s.sampled g header (s.thread g.team i)).view s.freeCtr g.clause }

/-- The fragment that a matrix word streams from vector registers: the first of them and how many. -/
def fragmentOf : Instr → Option (Nat × Nat)
  | .mma _ m _ a _ src _ _ => if src then none else some (a.toNat, 16 * kbOf (modeCode m))
  | .mmapr _ _ a _ src _ => if src then none else some (a.toNat, 64)
  | _ => none

/-- A vector register of some threads is in the fragment of an outstanding mma of the same thread (R217). -/
def State.fragmentHeld (s : State) (id : TeamId) (is regs : List Nat) : Bool :=
  s.ops.any fun o => o.team == id && (match o.kind with
    | .matrix i => (match fragmentOf i with
      | some f => (regs.any fun r => decide (f.1 ≤ r) && decide (r < f.1 + f.2)) && o.accs.any fun a => is.contains a.thread
      | none => false)
    | _ => false)

/-- The participant that a submission word comes to next, and what holds it there: 0 nothing (R370). -/
def State.nextHold (s : State) (c : Ctx) (k : Ctl) (want : Nat) (a : Reg) (ch : Bits2) : Nat :=
  match (c.actors k).filter fun h => !c.g.doneLanes.contains h.idx with
  | h :: _ => if a.toNat + 16 ≤ c.l.nregs then s.submitHold c want ch.toNat (typed want (imageAt h a)) else 0
  | [] => 0

/-- What holds a group's next word at issue: 0 nothing, 7 the accumulator interlock, 8 channel places or free slots, 10 a declared buffer's state, 11 the held stores of a redundant team (R217, R253, R356, R370, R449). -/
def State.wordHold (s : State) (g : Grp) (n : Next) : Nat :=
  match n.instr g.word with
  | none => 0
  | some i =>
    let c := s.ahead g n.header
    let k := ctlOf n.w
    let acting := if k.u then (if (c.actors k).isEmpty then [] else g.members) else (c.actors k).map (·.idx)
    if s.fragmentHeld g.team acting (uses (some c.l.w) i).wr then 7
    else
      match i with
      | .copy k _ a ch => s.nextHold c k 2 a ch
      | .copym k _ a ch => s.nextHold c k 3 a ch
      | .xform k _ a ch => s.nextHold c k 4 a ch
      | .bufmarkFull k a => s.markHold c k a true
      | .bufmarkEmpty k a => s.markHold c k a false
      | _ => if isHeldOp (opcodeOf n.w) && !acting.isEmpty && s.heldFull g.team then 11 else 0

/-- A declared buffer's state holds the group's next word (R253). -/
def State.bufferHeld (s : State) (g : Grp) : Bool := g.park.isNone && !g.regroup && (match s.nextWord g with
  | .ok (some n) => s.wordHold g n == 10
  | _ => false)

/-- A group is eligible in the cycle that follows (R29). The unit of each engine class takes a word in every cycle (R498), so it is free at every pick. -/
def State.eligible (s : State) (g : Grp) : Bool :=
  g.park.isNone && !g.regroup && !g.members.isEmpty && decide (g.held ≠ 10) && !(s.team g.team).saved.isSome && !s.launchStopped g.team.launch &&
  !s.haltedHere g && decide (g.readyAt ≤ s.now g.quad + 1) && !s.awaitsVerdict g.gid &&
  (match s.nextWord g with
    | .error _ => true
    | .ok none => false
    | .ok (some n) =>
      (decide (g.clause ≠ 0) || decide (g.word ≠ 0) || decide (Nat.land (bitsOf n.header 7 12) g.flags.toNat = 0)) &&
      !atMarker g n && !(isRegroupOp (opcodeOf n.w) && s.regroupHeld g) &&
      !s.fenced g (opcodeOf n.w) && s.wordHold g n == 0)

/-- Keys 2 to 4 of R30 as numbers in order; launch and copy decide where those are equal. -/
def State.rankOf (s : State) (team : TeamId) (least : Nat) : List Nat :=
  [(s.team team).stamp, team.team, least, team.launch, bit team.shadow]

/-- Lexicographic order of equally long lists. -/
def lexLt : List Nat → List Nat → Bool
  | a :: r, b :: q => decide (a < b) || (decide (a = b) && lexLt r q)
  | _, _ => false

/-- A group's place under keys 2 to 4 of R30. -/
def State.rank (s : State) (g : Grp) : List Nat := s.rankOf g.team (lowest g.members)

/-- The first of a list under an order. -/
def firstBy {α : Type} (lt : α → α → Bool) : List α → Option α
  | [] => none
  | x :: r => match firstBy lt r with
    | some y => if lt y x then some y else some x
    | none => some x

/-- The eligible groups of a quadrant. -/
def State.eligibles (s : State) (quad : Nat) : List Grp := s.groups.filter fun g => g.quad == quad && s.eligible g

/-- The first of some eligible groups: a demoted one comes after every other of its own team (R30). -/
def State.firstRanked (s : State) (gs : List Grp) : Option Grp :=
  firstBy (fun a b => lexLt (s.rank a) (s.rank b)) (gs.filter fun g => !g.demoted || !gs.any fun x => x.team == g.team && !x.demoted)

/-- A group within a clause gives up the quadrant at its next word (R55, R282); also where the held stores of a redundant team are full, since R449 has every thread of both copies stop before its next store, and those of the same quadrant have yet to reach theirs (DEDUCED, log entry 69). -/
def State.givesUp (s : State) (g : Grp) : Bool :=
  decide (g.held = 10) || s.awaitsVerdict g.gid || (match s.nextWord g with
    | .ok (some n) => s.wordHold g n != 0 || s.heldWrite g (opcodeOf n.w)
    | _ => false)

/-- The group that a quadrant issues from: the one within a clause, else the first in rank (R30, R55). -/
def State.picked (s : State) (quad : Nat) : Option Grp :=
  match (s.quad quad).mid.bind s.findGrp with
  | some g => if s.eligible g then some g else if s.givesUp g then s.firstRanked (s.eligibles quad) else none
  | none => s.firstRanked (s.eligibles quad)

/-! ### Forming groups (R20, R21, R26) -/

/-- The candidates of a quadrant in a team: LOOSE threads that no released group takes, and that no halt or save stops where they stand. -/
def State.candidates (s : State) (quad : Nat) (t : Team) : List (Thread × Nat) :=
  let l := s.launch t.id.launch
  if t.saved.isSome then []
  else t.threads.filterMap fun h => match h.st with
    | .loose since =>
      if l.quadOf t.core h.idx = quad && !h.haltedLoose && !(t.saving && decide (h.word = 0)) && !(t.toForm.any fun g => g.contains h.idx) then some (h, since) else none
    | _ => none

/-- A key: the team, the position, and its candidates. -/
structure Key where
  team : TeamId
  pc : Nat
  word : Nat
  cands : List (Thread × Nat)
  deriving DecidableEq, Repr

/-- The keys of a quadrant. -/
def State.keys (s : State) (quad : Nat) : List Key :=
  s.teams.flatMap fun t =>
    let cs := s.candidates quad t
    ((cs.map fun c => (c.1.pc, c.1.word)).eraseDups).map fun p =>
      { team := t.id, pc := p.1, word := p.2, cands := cs.filter fun c => c.1.pc == p.1 && c.1.word == p.2 }

/-- The home lanes that a team's home groups on a quadrant hold. -/
def State.lanesOn (s : State) (id : TeamId) (quad : Nat) : List Nat :=
  let l := s.launch id.launch
  let t := s.team id
  ((t.threads.filter fun h => l.quadOf t.core h.idx = quad).map fun h => l.laneOf h.idx).eraseDups

/-- A key is ready (R20). -/
def State.keyReady (s : State) (quad : Nat) (k : Key) : Bool :=
  let l := s.launch k.team.launch
  let now := s.now quad
  (s.lanesOn k.team quad).all (fun n => k.cands.any fun c => l.laneOf c.1.idx == n) ||
  k.cands.any (fun c => decide (c.2 + 8 ≤ now) || (s.quad quad).ready.contains (k.team, c.1.idx)) || (s.eligibles quad).isEmpty

/-- In a cycle in which no group of a quadrant is eligible every key there becomes ready, and stays so until it forms (R20, R500). -/
def State.readyKeys (s : State) (quad : Nat) : State :=
  if (s.eligibles quad).isEmpty then s.updQuad quad fun q => { q with ready := (s.keys quad).flatMap fun k => k.cands.map fun c => (k.team, c.1.idx) } else s

/-- Insert a thread by its lane. -/
def laneInsert (l : Launch) (x : Nat) : List Nat → List Nat
  | [] => [x]
  | y :: r => if l.laneOf x ≤ l.laneOf y then x :: y :: r else y :: laneInsert l x r
/-- Threads in ascending home lane. -/
def byLane (l : Launch) (xs : List Nat) : List Nat := xs.foldr (laneInsert l) []

/-- The members taken from a key: each lane's candidate of the lowest home group, in ascending lane. -/
def takeKey (l : Launch) (k : Key) : List Nat :=
  byLane l ((k.cands.filter fun c => !(k.cands.any fun d => l.laneOf d.1.idx == l.laneOf c.1.idx && decide (d.1.idx < c.1.idx))).map fun c => c.1.idx)

/-- A group forms of some LOOSE threads of a team at one position: its flags clear, a demotion and a handler's count passed on, the words of a clause in the middle of which they stand kept, those of its first member (R19, R34, R161, R404; DESIGN CHOICE, log entry 62). It forms in the cycle that comes, and issues from the one after it on (R500). -/
def State.formGroup (s : State) (id : TeamId) (quad : Nat) (members : List Nat) (pc word : Nat) : State :=
  let q := s.quad quad
  let dem := q.demote.contains (id, members)
  let words := match members with
    | [] => []
    | i :: _ => if word = 0 then [] else (s.thread id i).words
  let g : Grp := { gid := s.nextId, team := id, quad := quad, members := members, pc := pc, word := word, demoted := dem, words := words, readyAt := Nat.max (s.now quad + 2) (s.dueOf id members), fresh := true
                   handler := BitVec.ofNat 32 (members.foldl (fun n i => Nat.max n (s.thread id i).handlerCount.toNat) 0) }
  let s := { s with groups := s.groups ++ [g], nextId := s.nextId + 1 }
  let s := s.updThreads id members fun h => { h with st := .issuing g.gid }
  let t := s.now quad + 1
  (s.updQuad quad fun q => { q with demote := q.demote.filter fun e => e != (id, members), formed := t, ready := q.ready.filter fun e => e.1 != id || !members.contains e.2 }).count quad 0x04 1

/-- The first released group of a quadrant. -/
def State.releasedOn (s : State) (quad : Nat) : Option (TeamId × List Nat) :=
  (s.teams.flatMap fun t =>
    let l := s.launch t.id.launch
    if t.saved.isSome || t.saving then []
    else (t.toForm.filter fun m => m.any fun i => l.quadOf t.core i = quad && !(t.thread i).halted).map fun m => (t.id, m)).head?

/-- The key that the picker forms next. -/
def State.nextKey (s : State) (quad : Nat) : Option Key :=
  firstBy (fun a b => lexLt (s.rankOf a.team (lowest (a.cands.map fun c => c.1.idx))) (s.rankOf b.team (lowest (b.cands.map fun c => c.1.idx))))
    ((s.keys quad).filter (s.keyReady quad))

/-- GROUP_FORM (R20, R21, R26): at most one group in a cycle. -/
def execGroupForm (quad : Nat) (s : State) : Out :=
  let u := s.readyKeys quad
  if s.now quad < (s.quad quad).formed then .next u else
  match s.releasedOn quad with
  | some (id, m) =>
    let l := s.launch id.launch
    let here := byLane l (m.filter fun i => match (s.thread id i).st with
      | .loose _ => true
      | _ => false)
    let u := u.updTeam id fun t => { t with toForm := t.toForm.filter fun x => x != m }
    match here with
    | [] => .next u
    | i :: _ => let h := s.thread id i; .next (u.formGroup id quad here h.pc h.word)
  | none =>
    match s.nextKey quad with
    | some k => .next (u.formGroup k.team quad (takeKey (s.launch k.team.launch) k) k.pc k.word)
    | none => .next u

/-! ### Demotion (R33 to R35) -/

/-- The group that is exactly some threads of a team on a quadrant, parked or not (R501). -/
def State.exactly (s : State) (quad : Nat) (h : TeamId × List Nat) : Option Grp :=
  findBy (fun g => g.quad == quad && g.team == h.1 && g.members == h.2) s.groups

/-- The fairness timer of a quadrant has reached its threshold. -/
def State.fairnessDue (s : State) (quad : Nat) : Bool :=
  match (s.quad quad).holder with
  | some h => let l := s.launch h.1.launch; l.promise && decide (l.fairT ≤ (s.quad quad).fair)
  | none => false

/-- FAIRNESS_DEMOTION (R33): the holder's demotion bit is set; where it has dissolved, its demotion waits for the group of its threads (R34). -/
def execFairnessDemotion (quad : Nat) (s : State) : Out :=
  if !s.fairnessDue quad then .next s
  else
    match (s.quad quad).holder with
    | none => .next s
    | some h =>
      let s := s.updQuad quad fun q => { q with fair := 0 }
      let s := s.count quad 0x05 1
      match s.exactly quad h with
      | some g => .next (s.updGrp g.gid fun g => { g with demoted := true })
      | none => .next (s.updQuad quad fun q => { q with demote := q.demote ++ [h] })

/-! ### Stall events (R407 to R409) -/

/-- The histogram event for a number of eligible groups (R407). -/
def histogramEvent (n : Nat) : Nat :=
  if n < 4 then 0x08 + n else if n < 8 then 0x0C else if n < 16 then 0x0D else if n < 32 then 0x0E else 0x0F

/-- A unit of stall accounting: its rank and the reasons that hold, in order of priority. -/
structure StallUnit where
  rank : List Nat
  reasons : List Nat
  deriving DecidableEq, Repr

/-- The reason that a set flag gives, by the class of the clause that set it. -/
def flagReason (g : Grp) (f : Nat) : Nat :=
  match Store.get 0 g.flagCls f with
  | 2 => 0x13
  | 3 => 0x14
  | _ => 0x15

/-- The reasons of a group without an eligible issue (R409). -/
def State.groupReasons (s : State) (g : Grp) : List Nat :=
  let set := (List.range 12).filter fun f => g.flags.getLsbD f
  let next := match s.nextWord g with
    | .ok n => n
    | .error _ => none
  let named := match next with
    | some n =>
      if g.regroup || atMarker g n || isRegroupOp (opcodeOf n.w) then set
      else if g.clause = 0 && g.word = 0 then set.filter fun f => bitAt (bitsOf n.header 7 12) f
      else []
    | none => if g.regroup then set else []
  let hold := (next.map fun n => s.wordHold g n).getD 0
  let fs := named.map (flagReason g)
  let mem := s.awaitsVerdict g.gid || decide (hold = 11) || (next.map fun n => s.fenced g (opcodeOf n.w)).getD false
  let gap := decide (s.now g.quad + 1 < g.readyAt) || decide (hold = 8)
  (if mem || fs.contains 0x13 then [0x13] else []) ++ (if fs.contains 0x14 then [0x14] else []) ++ (if fs.contains 0x15 then [0x15] else []) ++
    (if hold = 7 then [0x16] else []) ++ (if gap then [0x17] else []) ++ (if next.isNone then [0x18] else []) ++ (if g.held = 10 || hold = 10 then [0x19] else [])

def WaitKind.isJoin : WaitKind → Bool
  | .join _ => true
  | .tbar => true
  | .pbar => true
  | _ => false

/-- The waiting sets of a team on a quadrant, each as a unit (R408). -/
def State.waitUnits (s : State) (quad : Nat) (t : Team) : List StallUnit :=
  let l := s.launch t.id.launch
  if t.saved.isSome then []
  else t.threads.filterMap fun h => match h.st with
    | .waiting k _ =>
      if l.quadOf t.core h.idx = quad then some { rank := s.rankOf t.id h.idx, reasons := [if k.isJoin then 0x11 else 0x12] } else none
    | _ => none

/-- The units of a quadrant (R408): every waiting thread stands for its set, whose rank is its lowest thread's. -/
def State.units (s : State) (quad : Nat) : List StallUnit :=
  ((s.groups.filter fun g => g.quad == quad && !(s.team g.team).saved.isSome).map fun g =>
    { rank := s.rankOf g.team (lowest g.members), reasons := if g.park.isSome then [0x10] else s.groupReasons g }) ++
  s.teams.flatMap (s.waitUnits quad)

/-- A quadrant holds a resident thread. -/
def State.populated (s : State) (quad : Nat) : Bool :=
  s.teams.any fun t => !t.saved.isSome && t.threads.any fun h => h.st != .exited && (s.launch t.id.launch).quadOf t.core h.idx == quad

/-- STALL_EVENT (R409): a cycle of a quadrant that holds a resident thread and no eligible group charges one stall event. Its histogram event 0x08, and EMPTY with it, follow from the cycles that no other event takes (`State.eventTotal`). -/
def execStallEvent (quad : Nat) (s : State) : Out :=
  if !(s.eligibles quad).isEmpty || !s.populated quad then .next s
  else
    let code := match firstBy (fun a b => lexLt a.rank b.rank) (s.units quad) with
      | none => 0x1B
      | some u => u.reasons.headD 0x18
    .next ((s.count quad code 1).spendQuad quad)

end Sys2Proof.Machine
end

