-- ==== Sys2Proof/Machine/Perform.lean ====
section
/-! DEFINITION. The events at the homes: reads, writes, atomics, claims, tails, seals, frees, pushes and unmoorings (R260 to R277, R289, R294, R298 to R302, R314, R371), and those of the L1 data caches, the buffers and the matrix array (R218, R232, R233, R253, R318). -/
namespace Sys2Proof.Machine

/-! ### HOME_READ (R314, R315) -/

/-- The base location of the page of a region that holds an address: the name of its replicas. -/
def Region.replicaName (r : Region) (va : Nat) : Nat := regionKey r.id.tenant r.id.asid (r.base + r.pageOf va * pageBytes r.psize)

/-- A core's die holds a replica of the page of a location (R275). -/
def State.hasReplica (s : State) (core key : Nat) : Bool :=
  match s.regionOfKey key with
  | some r => (s.die (dieOfCore core)).replicas.any fun p => p.1 == r.replicaName (keyVa key)
  | none => false

/-- A line stands in a die's L2. -/
def State.bringLine (s : State) (d line : Nat) : State :=
  if (s.die d).l2.contains line then s else s.updDie d fun x => { x with l2 := (if Config.l2Lines ≤ x.l2.length then x.l2.drop 1 else x.l2) ++ [line] }

/-- A read of a SEALED page by another die installs a replica, and the line it read stands in that die's L2 (R244, R275): at every read of a core that its L1 does not serve, and at no read of a channel nor at an lds (DESIGN CHOICE, log entry 64). -/
def State.installReplica (s : State) (core key : Nat) : State :=
  match s.regionOfKey key with
  | some r =>
    let d := dieOfCore core
    if r.cls = 2 && r.st = 2 && r.home ≠ d && !s.hasReplica core key then
      (s.updDie d fun x => { x with replicas := x.replicas ++ [(r.replicaName (keyVa key), Config.replicaFrame d (r.replicaName (keyVa key)))] }).count (8192 + d) 0x82 1 |>.bringLine d (key / 128)
    else s
  | none => s

/-- Fill a core's L1 line from its home; a full cache drops a clean line (R315). -/
def State.fillLine (s : State) (core key : Nat) : State :=
  let k := key / 128
  let ln : L1Line := { bytes := s.locBytes (k * 128) 128, clks := (List.range 128).map fun i => s.locClk (k * 128 + i)
                       fill := s.applied (s.homeOf key), at_ := (s.die (dieOfCore core)).clock }
  s.updCore core fun c =>
    let l1 := if Config.l1Lines ≤ c.l1.length then c.l1.drop 1 else c.l1
    { c with l1 := Store.set none l1 k (some ln), badL1 := Store.dropKeys c.badL1 fun x => x / 128 == k && !(s.writes.any fun w => w.l1 == some core && w.names x) }

/-- An error in bytes that are read when their word has issued long before, so that no sub-group can be parked at it: it is counted, and the launch that consumes it is rolled back, or else a record reports it, and the bytes are delivered as they stand (R419, R444; the report without a parked sub-group is a DESIGN CHOICE, log entry 72). -/
def State.consumeLate (s : State) (o : Op) (a : Acc) : State :=
  if !s.poisoned o.core a.key a.size a.vec then s
  else
    let l := s.launch o.team.launch
    let s := s.count (8192 + dieOfCore o.core) 0x88 1
    if l.replayable && !l.incomplete then { s with rollbacks := s.rollbacks ++ [(l.id, clsEcc)] }
    else (s.makeRec l.tenant { kind := 1, cls := clsEcc, detail := 1, launch := l.id, team := o.team.team, thread := a.thread, addr := a.va
                               red := bit l.redundant + bit o.team.shadow * 2 }).2

/-- A load's access served at home or from a replica. -/
def State.serveLoad (s : State) (o : Op) (a : Acc) : State × Acc :=
  if a.done || s.behind o.team a.thread a.key a.size o.id then (s, a)
  else if s.hasReplica o.core a.key then
    let c := (s.regionOfKey a.key).elim {} Region.tailClk
    ((s.consumeLate o a).lookupLine (dieOfCore o.core) (a.key / 128), { a with done := true, val := s.locNat a.key a.size, clk := (s.locClks a.key a.size).max c })
  else
    let b := s.serve true (s.team o.team) o.core o.id a
    if b.done then ((((s.consumeLate o a).homeRead a.key a.size).fillLine o.core a.key).installReplica o.core a.key, b) else (s, a)

/-- A query's access answered at the region's home (R292 to R294). -/
def State.answerNext (s : State) (a : Acc) : Nat :=
  match a.region.bind s.findRegion with
  | none => 0xFFFFFFFF
  | some r =>
    let backed := (r.pages.filter fun e => e.2.isSome).map (·.1)
    let i := (backed.filter fun i => decide (a.opnd ≤ i)).headD 0xFFFFFFFF
    i + backed.length * 2 ^ 32

/-- The bitmap of an enumpg.map as a number. -/
def State.answerMap (s : State) (a : Acc) (words : Nat) : Nat :=
  match a.region.bind s.findRegion with
  | none => 0
  | some r => ((List.range (32 * words)).filter fun j => (r.page (a.opnd + j)).isSome).foldl (fun v j => v + 2 ^ j) 0

/-- The status of a page (R293). -/
def State.answerPgq (s : State) (core : Nat) (l : Launch) (a : Acc) : Nat :=
  match s.translate (s.core core).tlb l.tenant l.asid a.va with
  | .error _ => 0
  | .ok tr =>
    match a.region.bind s.findRegion with
    | none => 2 ^ 31 + tr.level * 2 ^ 25 + bit tr.moving * 2 ^ 23
    | some r =>
      let p := r.page (r.pageOf (a.va % 2 ^ 57))
      bit p.isSome * 2 ^ 31 + r.cls * 2 ^ 29 + (if r.cls = 2 then r.st else 0) * 2 ^ 27 + r.psize * 2 ^ 25 +
        bit (s.hasReplica core a.key) * 2 ^ 24 + bit tr.moving * 2 ^ 23 + (if r.cls = 1 then p.elim 0 Page.count else 0) * 2 ^ 32

/-- The clocks of the writes to some bytes. -/
def State.spanClk (s : State) (key n : Nat) : VC :=
  (s.clks.filter fun e => decide (key ≤ e.1) && decide (e.1 < key + n)).foldl (fun c e => c.max e.2) {}

/-- The clock that a query's answer carries: those of the writes to the region it reflects, and of its tail and last free; of an ORDINARY address the page's (R311, R294; DESIGN CHOICE, log entry 52). -/
def State.queryClk (s : State) (a : Acc) : VC :=
  match a.region.bind s.findRegion with
  | some r => ((s.spanClk (regionKey r.id.tenant r.id.asid r.base) r.len).max r.tailClk).max r.freeClk
  | none => s.spanClk (a.key / a.psize * a.psize) a.psize

/-- An earlier access of a thread to a query's region, or to its own address, has not been performed (R294). -/
def State.queryBehind (s : State) (o : Op) (a : Acc) : Bool :=
  s.ops.any fun p => p.team == o.team && decide (p.id < o.id) && p.accs.any fun b => b.thread == a.thread && !b.done && (if a.region.isSome then b.region == a.region else b.key == a.key)

/-- A query's access, once its home is ready and its thread's earlier accesses there are performed. -/
def State.serveQuery (s : State) (o : Op) (f : Acc → Nat) (a : Acc) : State × Acc :=
  if a.done || !s.homeReady a.home a.vec || s.queryBehind o a then (s, a) else (s, { a with done := true, val := f a, clk := s.queryClk a })

/-- Entries of a mooring table that may be used, and those a tenant holds in it (R390, R391). -/
def mooringRoom (home : Nat) : Nat := if home < 4 then 65536 - 4096 else 16384 - 4096
def State.mooringsOf (s : State) (tenant home : Nat) : Nat := (s.moorings.filter fun m => m.tenant == tenant && m.home == home && m.reader.isNone).length

/-- A home takes a mooring (R298). -/
def State.canMoor (s : State) (tenant : Nat) (a : Acc) : Bool :=
  decide (s.mooringsOf tenant a.home < Store.get 0 (s.tenant tenant).quota a.home) &&
  decide ((s.moorings.filter fun m => m.home == a.home && m.reader.isNone).length < mooringRoom a.home) &&
  (match s.regionOfKey a.key with
    | some r => !(r.cls == 2 && decide (2 ≤ r.st))
    | none => true)

/-- Write a slot's record in a copy's scratchpad (R248). -/
def State.putSlot (s : State) (id : TeamId) (core slot v n tag : Nat) : State :=
  let l := s.launch id.launch
  s.updTeam id fun t => t.putScratch (slotOff l (core - t.core) slot) (leBytes v 8 ++ leBytes n 4 ++ leBytes tag 4)

/-- The copies of a team whose slots a record or push is written to (R309), each with the offset of its leader core. -/
def State.mirrors (s : State) (id : TeamId) : List TeamId :=
  if (s.launch id.launch).redundant then [id, id.other] else [id]

/-- The core of another copy that stands where a core of one stands. -/
def State.coreIn (s : State) (id to_ : TeamId) (core : Nat) : Nat := (s.team to_).core + (core - (s.team id).core)

/-- A copy's slot as last written by a mooring or lds. -/
def State.slotOwner (s : State) (id : TeamId) (core slot : Nat) : Nat :=
  let t := s.team id
  Store.get 0 t.slotMid ((core - t.core) * 256 + slot)

/-- A slot's record in a copy's scratchpad is written by a mooring or lds. -/
def State.ownSlot (s : State) (id : TeamId) (core slot mid : Nat) : State :=
  s.updTeam id fun t => { t with slotMid := Store.set 0 t.slotMid ((core - t.core) * 256 + slot) mid }

/-- An lds performed at home, behind the team's earlier ones of its slot: value, mooring and slot in one step (R298). -/
def State.serveLds (s : State) (o : Op) (wide : Bool) (earlier : List Acc) (a : Acc) : State × Acc :=
  if a.done || !s.homeReady a.home a.vec || s.behind o.team a.thread a.key a.size o.id || s.ldsPending o.team o.core a.opnd o.id || earlier.any (fun b => !b.done && b.opnd == a.opnd) then (s, a)
  else
    let n := if wide then 8 else 4
    let l := s.launch o.team.launch
    let s := match s.mooringOf o.team o.core a.opnd with
      | some m => s.unmoor m.mid
      | none => s
    let v := s.locNat a.key n
    let ok := s.canMoor l.tenant a
    let mid := s.nextId
    let s := { (s.consumeLate o a).homeRead a.key n with nextId := mid + 1 }
    let s := if ok then
        { s with moorings := s.moorings ++ [{ mid := mid, home := a.home, key := a.key, size := n, tenant := l.tenant, core := o.core, team := o.team, slot := a.opnd }] }
      else s
    let s := (s.mirrors o.team).foldl (fun s id =>
      let core := s.coreIn o.team id o.core
      (s.putSlot id core a.opnd v 0 (a.thread + bit ok * 2 ^ 15)).ownSlot id core a.opnd mid) s
    let s := s.count (4096 + o.core) (if ok then 0x49 else 0x4A) 1
    (s, { a with done := true, val := v, clk := s.locClks a.key n, cmp := bit ok })

/-- Serve what can be served of an operation's accesses, in order. -/
def serveAll (f : List Acc → State → Acc → State × Acc) : List Acc → List Acc → State → State × List Acc
  | done, [], s => (s, done)
  | done, a :: r, s => let x := f done s a; serveAll f (done ++ [x.2]) r x.1

/-- HOME_READ (R314): a home serves the reads of an operation whose vectors it has applied. -/
def State.performRead (s : State) (o : Op) : State :=
  let l := s.launch o.team.launch
  let go := fun f : List Acc → State → Acc → State × Acc =>
    let (s, accs) := serveAll f [] o.accs s
    s.updOp o.id fun o => { o with accs := accs }
  match o.kind with
  | .load _ _ => go fun _ s a => s.serveLoad o a
  | .line => go fun _ s a => s.serveLoad o a
  | .lds wide => go fun done s a => s.serveLds o wide done a
  | .pop _ => go fun _ s a => s.serveLoad o a
  | .frame _ _ => go fun _ s a => s.serveLoad o a
  | .enumNext => go fun _ s a => s.serveQuery o s.answerNext a
  | .enumMap w => go fun _ s a => s.serveQuery o (fun a => s.answerMap a w) a
  | .pgq => go fun _ s a => s.serveQuery o (s.answerPgq o.core l) a
  | _ => s

def execHomeRead (op : Nat) (s : State) : Out :=
  match s.findOp op with
  | some o => .next (if o.isReady || o.waitsFed then s else s.performRead o)
  | none => .next s

/-! ### HOME_WRITE (R260, R314) -/

/-- Where a write stands in its thread's order of issue: at its word, whose operation may take its place in the origin's order later (R319). -/
def State.issuedAt (s : State) (w : Write) : Nat :=
  match findBy (fun o : Op => o.accs.any fun a => a.ws.contains w.id) s.ops with
  | some o => Nat.min o.id w.id
  | none => w.id

/-- An access that the thread of a write issued before it touches a byte of it and has not been served: the write takes effect after it (R279). -/
def State.heldBehind (s : State) (w : Write) : Bool :=
  match w.by_ with
  | none => false
  | some (id, i) => s.ops.any fun o => o.team == id && decide (o.id < s.issuedAt w) && o.accs.any fun a =>
      a.thread == i && !a.done && !a.ws.contains w.id && decide (w.key < a.key + a.size) && decide (a.key < w.key + Nat.max w.bytes.length w.size)

/-- A write may be applied: its order, its thread's earlier accesses, no copy of its page to be made first, no migration of it (R279, R314, R396, R400). -/
def State.canApply (s : State) (w : Write) : Bool :=
  !w.bytes.isEmpty && s.writeReady w && !s.heldBehind w && !s.needsCopy w && !s.heldByMove w

/-- The answer of a home to an operation's write: the fault its lane takes, or what stna reports. -/
def Acc.written (k : OpKind) (w c : Nat) (a : Acc) : Acc :=
  if a.ws.contains w then
    let rest := a.ws.filter fun x => x != w
    match k with
    | .append => { a with ws := rest }
    | .stna => { a with ws := rest, done := rest.isEmpty, ok := decide (c = 0) }
    | _ => { a with ws := rest, done := a.done || rest.isEmpty, fault := if c = 0 then a.fault else c }
  else a

/-- Tell the operations of a write that it has been performed or refused. -/
def State.answerWrite (s : State) (w c : Nat) : State :=
  { s with ops := s.ops.map fun o => { o with accs := o.accs.map (Acc.written o.kind w c) } }

/-- Every team that waits at a barrier is looked at again: what its release waited for may have come (R152, R153). -/
def State.barriers (s : State) : State :=
  s.teams.foldl (fun s t => if t.saved.isSome then s else if t.allWait WaitKind.isTbar || t.allWait WaitKind.isPbar then s.barrier t.id else s) s

/-- The bytes of a dirty write that carry an uncorrectable error in its L1 carry it to their home (R241). -/
def State.carryBad (s : State) (w : Write) : State :=
  match w.l1 with
  | some core => { s with poison := ((s.core core).badL1.filter fun e => e.2 && w.names e.1).foldl (fun m e => Store.set false m e.1 true) s.poison }
  | none => s

/-- A write of no bytes whose stamp counts as delivered. -/
def State.dropWrite (s : State) (w : Write) : State :=
  ({ s with writes := s.writes.filter fun x => x.id != w.id } : State).raise w.home w.origin w.stamp

/-- What a write from outside writes: an atomic's bytes come of those that stand there, and its clock follows theirs; nothing where its comparison fails (R289, R326). -/
def State.extWrite (s : State) (w : Write) : Option Write :=
  match w.ext with
  | some (.atomic _ op wide v cmp) =>
    let n := if wide then 8 else 4
    (atomNew op (8 * n) (s.locNat w.key n) v cmp).map fun x => { w with bytes := leBytes x n, clk := w.clk.max (s.locClks w.key n) }
  | _ => some w

/-- What the device answers to an access from outside that it has performed: the bytes that an atomic found, or that it is done (R452). -/
def State.extReply (s : State) (w : Write) : Reply :=
  match w.ext with
  | some (.atomic _ _ _ _ _) => .data (s.locBytes w.key w.bytes.length)
  | some _ => .done
  | none => s.reply

/-- A write is applied at its home, and its core keeps a clean copy of what it held. -/
def State.performWrite (s : State) (w : Write) : State :=
  let r := s.extReply w
  match s.extWrite w with
  | none => { s.dropWrite w with reply := r }
  | some x =>
    let s := s.cleanCopy x
    let (s, c) := s.applyWrite x
    let s := ((s.carryBad x).answerWrite x.id c).barriers
    { s with reply := if c = 0 then r else .error }

def execHomeWrite (w : Nat) (s : State) : Out :=
  match findBy (fun x => x.id == w) s.writes with
  | some x => .next (if s.canApply x then s.performWrite x else s)
  | none => .next s

/-! ### SNAPSHOT_COPY_DONE (R396) -/

/-- The copy of a page of a launch into its snapshot frame has come to its end: the set has its entry, or lacks one where an answer has given the copy up. -/
def execSnapshotCopyDone (launch page : Nat) (s : State) : Out :=
  match s.sysOf (.snapshot launch page) with
  | none => .next s
  | some o =>
    if !s.sysDone o.job then .next s
    else
      let t := s.sysDrop fun j => j == o.job
      match s.findLaunch launch with
      | some l => .next (if o.ended then t.snapIncomplete l else t.snapPage l page o.size)
      | none => .next t

/-! ### ATOM_PERFORM (R289, R319, R371) -/

/-- The write that holds an access's place. -/
def State.placeOf (s : State) (a : Acc) : Option Write := (a.ws.head?).bind fun i => findBy (fun w => w.id == i) s.writes

/-- An atom of one lane may be performed. -/
def State.atomReady (s : State) (a : Acc) (w : Write) : Bool :=
  !a.done && s.homeReady a.home a.vec && s.writeReady w && !s.heldBehind w && !s.heldByMove w && !s.needsCopy w

/-- A release atom issues once its release has completed: its place in its origin's order is taken then, after the accesses it releases (R313, R319). -/
def State.issueLate (s : State) (o : Op) (rel : Bool) (scope : Nat) (a : Acc) : State × Acc :=
  if rel && !a.done && a.ws.isEmpty && s.released o.team a.thread o.id scope then
    let x := s.placeAll o.team [{ a with vec := (s.thread o.team a.thread).obs }]
    (x.1, x.2.headD a)
  else (s, a)

/-- One lane's atom, performed as one step at its home (R289). -/
def State.atomOne (s : State) (o : Op) (op : AtomOp) (wide rel : Bool) (scope : Nat) (a : Acc) : State × Acc :=
  let (s, a) := s.issueLate o rel scope a
  match s.placeOf a with
  | none => (s, a)
  | some w =>
    if !s.atomReady a w then (s, a)
    else
      let old := s.locNat a.key a.size
      let c := s.locClks a.key a.size
      let a' := { a with done := true, val := old, clk := c, ws := [] }
      let s := (s.consumeLate o a).homeRead a.key a.size
      match atomNew op (if wide then 64 else 32) old a.opnd a.cmp with
      | none => (s.dropWrite w, a')
      | some v =>
        let s := { s with writes := s.writes.filter fun x => x.id != w.id }
        let (s, f) := s.applyAt a.key (leBytes v a.size) [] w.origin w.stamp (w.clk.max c) w.launch
        (s, { a' with fault := f })

/-- A store whose place was taken at issue has its address and its bytes. -/
def State.fillPlace (s : State) (id key psize : Nat) (bs : List Byte) (c : VC) : State :=
  { s with writes := mapIf (fun w => w.id == id) (fun w => { w with key := key, bytes := bs, size := bs.length, home := s.homeOf key, psize := psize, clk := w.clk.max c }) s.writes }

/-- The places that an access took are given up. -/
def State.dropPlaces (s : State) (a : Acc) : State := (s.writes.filter fun w => a.ws.contains w.id).foldl State.dropWrite s

/-- One lane's qappend: the index words at their home in one step, then the slot, whose address and frame are checked before the claim is made (R371). The slot's stores follow what the index words carried (DEDUCED, log entry 17). -/
def State.qappendOne (s : State) (o : Op) (a : Acc) : State × Acc :=
  match s.placeOf a with
  | none => (s, a)
  | some w =>
    if !s.atomReady a w then (s, a)
    else
      let refuse := fun (s : State) (f va : Nat) => (s.dropPlaces a, { a with done := true, fault := f, va := va, key := s.queueKey a.opnd va, ws := [] })
      match s.indexTr o.core a.opnd with
      | .error e => refuse s e.1 e.2
      | .ok (_, tr) =>
        let size := 2 ^ bitsOf (s.queue a.opnd).qctl.toNat 0 5
        let n := s.locNat a.key 8
        let slot := (s.queue a.opnd).qbase.toNat + 64 * (n % size)
        let c := s.locClks a.key 16
        let s := (s.homeRead a.key 8).homeRead tr.key 8
        if size ≤ (n + 2 ^ 64 - s.locNat tr.key 8) % 2 ^ 64 then (s.dropPlaces a, { a with done := true, ok := false, val := 0, clk := c, ws := [] })
        else
          match s.queueTr o.core a.opnd slot 8 .write with
          | .error e => refuse s e slot
          | .ok ks =>
            let bs := leBytes a.cmp 64
            match s.reserve o.team.launch ks.key bs with
            | (s, 0) =>
              let s := ({ s with writes := s.writes.filter fun x => x.id != w.id } : State).updLaunch o.team.launch fun l =>
                { l with appended := if l.replayable then l.appended ++ [(a.key, 16), (ks.key, 64)] else l.appended }
              match s.applyAt a.key (leBytes (n + 1) 8) [] w.origin w.stamp (w.clk.max c) w.launch with
              | (s, 0) =>
                let s := s.fillPlace (a.ws.getD 1 0) (ks.key + 1) (2 ^ levelShift ks.level) (bs.drop 1) c
                let s := s.fillPlace (a.ws.getD 2 0) ks.key (2 ^ levelShift ks.level) (bs.take 1) c
                (s, { a with done := true, ok := true, val := (n + 1) % 2 ^ 64, clk := c, ws := [] })
              | (s, f) => refuse s f a.va
            | (s, f) => refuse s f slot

/-- ATOM_PERFORM (R289): the lanes of an atom or qappend whose homes are ready, in ascending order, each behind the ones before it. -/
def State.performAtom (s : State) (o : Op) : State :=
  let go := fun f : State → Acc → State × Acc =>
    let (s, accs) := serveAll (fun done s a => if done.all (·.done) then f s a else (s, a)) [] o.accs s
    s.updOp o.id fun o => { o with accs := accs }
  match o.kind with
  | .atom op wide rel _ scope _ => go fun s a => s.atomOne o op wide rel scope a
  | .qappend => go fun s a => s.qappendOne o a
  | _ => s

def execAtomPerform (op : Nat) (s : State) : Out :=
  match s.findOp op with
  | some o => .next (if o.isReady || o.waitsFed then s else s.performAtom o)
  | none => .next s

/-! ### APPEND_CLAIM (R269, R295) -/

/-- The claim of an append: every remaining participant's offset, its bytes under way (R295). -/
def State.performClaim (s : State) (o : Op) : State :=
  match o.accs with
  | [] => s
  | a :: _ =>
    let places := o.accs.filterMap s.placeOf
    if a.done || !s.homeReady a.home (VC.maxAll (o.accs.map (·.vec))) then s
    else
      match a.region with
      | none => s
      | some id =>
        let n := o.accs.foldl (fun n x => n + x.size) 0
        match s.claim id n n (some o.team.launch) with
        | (s, .error c) =>
          let s := places.foldl State.dropWrite s
          s.updOp o.id fun o => { o with accs := o.accs.map fun x => { x with done := true, fault := c, ws := [] } }
        | (s, .ok c0) =>
          let r := s.findRegion id
          let base := r.elim 0 Region.base
          let step := fun (x : State × List Acc × Nat) (a : Acc) =>
            let a := { a with done := true, val := x.2.2 }
            let key := regionKey id.tenant id.asid (base + x.2.2)
            let s := if (x.1.launch o.team.launch).redundant then (match r with
                | some r => x.1.holdAppend o.team r a
                | none => x.1)
              else { x.1 with writes := mapIf (fun w => a.ws.contains w.id) (fun w => { w with key := key, bytes := leBytes a.opnd a.size }) x.1.writes }
            (s, x.2.1 ++ [a], x.2.2 + a.size)
          let s := if (s.launch o.team.launch).redundant then places.foldl State.dropWrite s else s
          let x := o.accs.foldl step (s, [], c0)
          x.1.updOp o.id fun o => { o with accs := x.2.1 }

def execAppendClaim (op : Nat) (s : State) : Out :=
  match s.findOp op with
  | some o => .next (if o.isReady || o.waitsFed || o.kind != .append then s else s.performClaim o)
  | none => .next s

/-! ### TAIL_ADVANCE, SEAL_REACHED, FREE_DONE (R270, R273, R276) -/

/-- The end of the longest run of written ranges from a tail. -/
def runEnd (claims : List Claim) : Nat → Nat → Nat
  | 0, t => t
  | n + 1, t => match findBy (fun c : Claim => c.lo == t && decide (c.left = 0) && decide (t < c.hi)) claims with
    | some c => runEnd claims n c.hi
    | none => t

/-- A store of the tail word by the home, or of every byte of the region in a free (R270, R325). -/
def State.tailStore (s : State) (r : Region) (after : VC) (len : Nat) (last : Bool) : State :=
  let key := regionKey r.id.tenant r.id.asid r.base
  let (st, s) := s.nextStamp r.home
  let clk := (after.max r.tailClk).set r.home st
  let s := s.updRegion r.id fun x => { x with tailClk := clk }
  let s := s.stampBytes key 8 clk
  let s := s.raise r.home r.home st
  ((s.sendPushes key len r.home st clk last).lookup key 8).wakeWhere WaitKind.isWord

/-- No write of the home die itself is still to be applied there, so that its own store takes its place. -/
def State.homeQuiet (s : State) (r : Region) : Bool := (s.pendingFor r.home r.home).isEmpty

def Region.tailTo (r : Region) : Nat := runEnd r.claims r.claims.length r.t

/-- The committed tail can advance. -/
def State.tailDue (s : State) (r : Region) : Bool := r.cls == 2 && decide (r.t < r.tailTo) && s.homeQuiet r

def execTailAdvance (id : RegionId) (s : State) : Out :=
  match s.findRegion id with
  | none => .next s
  | some r =>
    if !s.tailDue r then .next s
    else
      let t := r.tailTo
      let s := s.updRegion id fun x => { x with t := t, claims := x.claims.filter fun c => decide (t < c.hi) }
      .next ((s.tailStore r r.dataClk 8 false).updRegion id Region.tryFree)

/-- A sealing region has every claim committed (R273). -/
def State.sealDue (s : State) (r : Region) : Bool := r.cls == 2 && decide (r.st = 1) && decide (r.t = r.c) && s.homeQuiet r

/-- The operations of seals or frees of a region are complete, and their threads go on (R296, R437). -/
def State.regionDone (s : State) (p : OpKind → Bool) : State :=
  { s with ops := s.ops.map fun o => if p o.kind then { o with isReady := true } else o }

def isSealOf (id : RegionId) : OpKind → Bool
  | .seal r => r == id
  | _ => false
def isFreeOf (id : RegionId) : OpKind → Bool
  | .free r => r == id
  | _ => false

def execSealReached (id : RegionId) (s : State) : Out :=
  match s.findRegion id with
  | none => .next s
  | some r =>
    if !s.sealDue r then .next s
    else
      let s := s.updRegion id fun x => { x with st := 2, marked := true }
      let s := s.tailStore r r.dataClk 8 true
      let key := regionKey id.tenant id.asid r.base
      let s := { s with moorings := s.moorings.filter fun m => !(decide (m.key < key + 8) && decide (key < m.key + m.size)) }
      .next ((s.regionDone (isSealOf id)).updRegion id Region.tryFree)

/-- Replicas of pages of a region stand on some die. -/
def State.replicated (s : State) (r : Region) : Bool :=
  s.dies.any fun d => d.2.replicas.any fun p => decide (regionKey r.id.tenant r.id.asid r.base ≤ p.1) && decide (p.1 < regionKey r.id.tenant r.id.asid r.base + r.len)

def State.freeDue (s : State) (r : Region) : Bool := r.cls == 2 && decide (r.st = 3) && !s.replicated r && s.homeQuiet r

/-- A launch's entry of a region has taken no free's frames yet. -/
def Snap.untaken (id : RegionId) (e : Snap) : Bool := match e with
  | .append x _ _ _ _ _ pages => x == id && pages.isEmpty
  | _ => false

/-- The frames of a freed region go to its pool, or to the snapshot set of the launch that freed it: those of its first free with what they hold, those of a later one as frames alone (R265, R276, R395). -/
def State.returnFrames (s : State) (r : Region) : State :=
  let owner := match r.freeLaunch.bind s.findLaunch with
    | some l => if l.replayable then some l else none
    | none => none
  let entry := owner.any fun l => !l.incomplete && l.snaps.any (Snap.untaken r.id)
  let s := if entry then
      s.updLaunch (r.freeLaunch.getD 0) fun l => { l with snaps := l.snaps.map fun e => match e with
        | .append x c t st mb cl [] => if x = r.id then .append x c t st mb cl r.pages else e
        | _ => e }
    else s
  r.pages.foldl (fun s e => match e.2 with
    | some p =>
      let s := s.unbackPage r e.1
      if entry then s
      else match owner with
        | some l => s.keepFrame l r.pool p.frame
        | none => s.giveFrame r.id.tenant r.pool p.frame
    | none => s) s

def execFreeDone (id : RegionId) (s : State) : Out :=
  match s.findRegion id with
  | none => .next s
  | some r =>
    if !s.freeDue r then .next s
    else
      let s := s.returnFrames r
      let s := s.updRegion id fun x => { x with st := 0, c := 128, t := 128, marked := false, claims := [], freeWait := false, freeLaunch := none }
      let s := s.tailStore r r.dataClk r.len false
      let s := s.updRegion id fun x => { x with freeClk := x.tailClk }
      .next (s.regionDone (isFreeOf id))

/-- REPLICA_DROP (R275). -/
def execReplicaDrop (die page : Nat) (s : State) : Out :=
  if (s.die die).replicas.any fun p => p.1 == page then
    .next ((s.updDie die fun d => { d with replicas := d.replicas.filter fun p => p.1 != page }).count (8192 + die) 0x83 1)
  else .next s

/-! ### PUSH_LAND, UNSL_DONE (R300, R301, R323) -/

/-- A push's store precedes another's (R312). -/
def Push.before (q p : Push) : Bool := (q.origin, q.stamp) != (p.origin, p.stamp) && decide (q.stamp ≤ p.clk.get q.origin)

/-- Every home has applied every write that precedes a push's store, and the pushes of such stores have landed (R300, R323). -/
def State.pushReady (s : State) (p : Push) : Bool :=
  (List.range 5).all (fun h => s.homeReady h p.clk) && !(s.pushes.any fun q => q.pid != p.pid && q.before p)

/-- A push's mooring is the one that last wrote its slot (R301). -/
def State.pushHolds (s : State) (p : Push) : Bool := s.slotOwner p.team p.core p.slot == p.mid

/-- A push written to a slot's record whose count is below its own. -/
def State.landPush (s : State) (p : Push) (id : TeamId) : State :=
  let l := s.launch id.launch
  let t := s.team id
  let core := s.coreIn p.team id p.core
  let half := core - t.core
  if countAbove p.count (slotCount l t half p.slot) then
    let tag := slotTag l t half p.slot
    let s := s.putSlot id core p.slot p.val p.count (if p.last then tag % 2 ^ 15 else tag)
    let s := s.updTeam id fun t => { t with slotClk := Store.set {} t.slotClk (half * 256 + p.slot) p.clk }
    t.threads.foldl (fun s h => match h.st with
      | .waiting (.slot _ _) _ => s.wakeThread id h.idx
      | _ => s) (s.count (4096 + core) 0x4B 1)
  else s.count (4096 + core) 0x4C 1

/-- The place of a slot's shadow record in the image of a saved copy (R436). -/
def State.shadowPlace (s : State) (id : TeamId) (core slot : Nat) : Nat :=
  let t := s.team id
  let a := (t.saved.map (·.addr)).getD 0
  a + s.locNat (a + 0x78) 8 + 16 * ((core - t.core) * (s.launch id.launch).slots + slot)

/-- A push for the slot of a saved copy updates the shadow record in its image (R302, R392). -/
def State.landShadow (s : State) (p : Push) (id : TeamId) : State :=
  let core := s.coreIn p.team id p.core
  let a := s.shadowPlace id core p.slot
  if countAbove p.count (s.locNat (a + 8) 4) then
    let tag := s.locNat (a + 12) 4
    let s := s.setLocs a (leBytes p.val 8 ++ leBytes p.count 4 ++ leBytes (if p.last then tag % 2 ^ 15 else tag) 4)
    s.updTeam id fun t => { t with slotClk := Store.set {} t.slotClk ((core - t.core) * 256 + p.slot) p.clk }
  else s

/-- A push lands in a copy's slot, or in its image. -/
def State.landIn (s : State) (p : Push) (id : TeamId) : State := if (s.team id).saved.isSome then s.landShadow p id else s.landPush p id

def execPushLand (push : Nat) (s : State) : Out :=
  match findBy (fun p : Push => p.pid == push) s.pushes with
  | none => .next s
  | some p =>
    if !s.pushReady p then .next s
    else
      let s := { s with pushes := s.pushes.filter fun q => q.pid != push }
      .next (if s.pushHolds p then (s.mirrors p.team).foldl (fun s id => s.landIn p id) s else s.count (4096 + p.core) 0x4C 1)

/-- Clear the moored bit of a slot whose record a mooring last wrote (R301). -/
def State.clearMoored (s : State) (id : TeamId) (core slot mid : Nat) : State :=
  (s.mirrors id).foldl (fun s x =>
    let c := s.coreIn id x core
    if s.slotOwner x c slot != mid then s
    else
      let l := s.launch x.launch
      s.updTeam x fun t => t.putScratch (slotOff l (c - t.core) slot + 12) (leBytes (slotTag l t (c - t.core) slot % 2 ^ 15) 4)) s

/-- What a slot's unmooring ends: its mooring, or one whose pushes are still in flight; 0 for none. -/
def State.mooredBy (s : State) (id : TeamId) (core slot : Nat) : Nat :=
  match s.mooringOf id core slot with
  | some m => m.mid
  | none => let n := s.slotOwner id core slot; if s.pushes.any fun p => p.mid == n then n else 0

/-- One lane's unmooring: its home removes the mooring, behind the team's earlier lds of the slot; it completes once every push sent before that has landed or been dropped (R301). -/
def State.unslOne (s : State) (o : Op) (a : Acc) : State × Acc :=
  if a.done then (s, a)
  else if a.val = 0 then
    if s.ldsPending o.team o.core a.opnd o.id then (s, a)
    else
      let mid := s.mooredBy o.team o.core a.opnd
      (s.unmoor mid, { a with val := 1, cmp := mid, done := decide (mid = 0) })
  else if s.pushes.any fun p => p.mid == a.cmp then (s, a)
  else (s.clearMoored o.team o.core a.opnd a.cmp, { a with done := true })

def execUnslDone (op : Nat) (s : State) : Out :=
  match s.findOp op with
  | some o =>
    match (if o.waitsFed then .ready else o.kind) with
    | .unsl =>
      let (s, accs) := serveAll (fun _ s a => s.unslOne o a) [] o.accs s
      .next (s.updOp op fun o => { o with accs := accs })
    | _ => .next s
  | none => .next s

/-! ### BUFFER_TRANSITION (R253) -/

/-- The bufmark at which a group is held takes its transition, if its condition holds now. -/
def execBufferTransition (gid : Nat) (s : State) : Out :=
  match s.findGrp gid with
  | none => .next s
  | some g =>
    if g.held ≠ 10 then .next s
    else
      match s.nextWord g with
      | .ok (some n) =>
        let s := { s with current := some gid }
        match n.instr g.word with
        | some (.bufmarkFull k a) => execBufmarkFull k a s
        | some (.bufmarkEmpty k a) => execBufmarkEmpty k a s
        | _ => .next s
      | _ => .next s

/-! ### L1 lines, watermarks (R314, R318) -/

/-- L1_CLEAN_TIMEOUT: a clean line is dropped. -/
def execL1CleanTimeout (core line : Nat) (s : State) : Out := .next (s.dropLines core fun x => x == line)

/-- The dirty writes of a line go home, each once it may be applied. -/
def State.writeBack (s : State) (core line : Nat) : State :=
  (s.writes.filter fun w => w.l1 == some core && w.line == line).foldl (fun s w => if s.canApply w then s.performWrite w else s) s

def execL1DirtyWriteback (core line : Nat) (s : State) : Out := .next (s.writeBack core line)

/-- WATERMARK_REPORT. -/
def State.takeReport (s : State) (origin home : Nat) : State :=
  s.raise home origin (s.originCounter origin)

def execWatermarkReport (origin home : Nat) (s : State) : Out := .next (s.takeReport origin home)

/-! ### The matrix array (R218, R232, R233, R450) -/

def execMatrixRetire (op : Nat) (s : State) : Out :=
  match s.findOp op with
  | some o =>
    match o.kind with
    | .matrix i => .next (if s.portHead o then (s.retireMatrix o i).barriers else s)
    | _ => .next s
  | none => .next s

/-- A launch used a sub-array, and the sub-array has passed since. -/
def dropUse (core sub : Nat) (l : List (Nat × Nat)) : List (Nat × Nat) := l.filter fun e => e != (core, sub)

/-- A fence of a sub-array: its mask bit, the count, its latch, and the launches told and rolled back (R233, R450). -/
def State.fenceSub (s : State) (core sub : Nat) : State :=
  let s := s.updCore core fun c => { c with fenced := c.fenced ||| BitVec.ofNat 4 (2 ^ sub), fcount := Nat.min 255 (c.fcount + 1), latch := Store.set none c.latch sub none }
  let tell := fun (s : State) (tenant id : Nat) => (s.makeRec tenant { kind := 5, launch := id, num := core * 4 + sub }).2
  let s := (s.doneUses.filter fun u => u.2.2 == (core, sub)).foldl (fun s u => tell s u.2.1 u.1) s
  (s.launches.filter fun l => l.used.contains (core, sub)).foldl (fun s l =>
    let s := tell s l.tenant l.id
    if bitAt (s.tenant l.tenant).recctl.toNat 4 && l.replayable && l.aborted.isNone then { s with rollbacks := s.rollbacks ++ [(l.id, clsEcc)] } else s) s

/-- A self-test: one product, a second after a mismatch, and a fence after two (R232, R233). -/
def State.selfTest (s : State) (core sub fails : Nat) : State :=
  if (s.core core).fenced.getLsbD sub then s
  else
    let s := (s.count (4096 + core) 0x44 (if fails = 0 then 1 else 2)).count (4096 + core) 0x45 (Nat.min fails 2)
    if 2 ≤ fails then s.fenceSub core sub
    else
      { s with
        launches := s.launches.map fun l => { l with used := dropUse core sub l.used }
        doneUses := s.doneUses.filter fun u => u.2.2 != (core, sub) }

def execSelfTest (core sub fails : Nat) (s : State) : Out := .next (s.selfTest core sub fails)

end Sys2Proof.Machine
end

