-- ==== Sys2Proof/Machine/Teams.lean ====
section
/-! DEFINITION. The events of operations, sub-groups, waits and teams: completion of a variable-latency operation (R57, R278, R311), resumption and trap entry of a sub-group (R40, R424), and the pull, start and end of teams (R41 to R51, R356, R389, R448). -/
namespace Sys2Proof.Machine

/-! ### SUB_GROUP_RESUME, TRAP_ENTRY, MWAIT_PERIODIC_CHECK (R40, R156, R424) -/

/-- What a thread that waits again may find: its condition holds, or its mask or barrier opens (R26, R151, R156). -/
def State.rewait (s : State) (id : TeamId) (is : List Nat) : State :=
  let s := is.foldl (fun s i => s.wakeThread id i) s
  ((List.range 8).foldl (fun s j => s.tryJoin id j) s).barrier id

/-- SUB_GROUP_RESUME (R40): an answered sub-group whose flags are clear resumes. -/
def execSubGroupResume (sid : Nat) (s : State) : Out :=
  match s.findGrp sid with
  | none => .next s
  | some g =>
    match g.park with
    | none => .next s
    | some p =>
      if p.toTrap || p.answer = 0 || g.flags ≠ 0 || (s.team g.team).saved.isSome then .next s
      else .next ((s.resumeGrp sid).rewait g.team (if p.wait.isSome then g.members else []))

/-- The guard of a thread under a header: its predicate, complemented where the header says (R53, R59). -/
def guardOf (header : Nat) (h : Thread) : Bool := h.settled.preds.getLsbD (bitsOf header 25 4) != bitAt header 29

/-- A thread whose pending word begins a clause that has not issued samples its guard at the trap entry (R59, R424). -/
def Thread.trapGuard (header : Nat) (h : Thread) : Thread := if h.keepGuard || h.word ≠ 0 then h else { h with guard := guardOf header h }

/-- TRAP_ENTRY (R424): a sub-group that traps enters the handler once its flags are clear. -/
def execTrapEntry (sid : Nat) (s : State) : Out :=
  match s.findGrp sid with
  | none => .next s
  | some g =>
    match g.park with
    | none => .next s
    | some p =>
      if !p.toTrap || g.flags ≠ 0 || (s.team g.team).saved.isSome then .next s
      else .next ((s.updThreads g.team g.members (Thread.trapGuard g.header)).takeTrap sid)

/-! ### VARIABLE_OP_COMPLETE (R57, R278, R282, R311) -/

/-- An operation has all that it needs to complete; an atom that acquires, its thread's earlier loads too (R313, R319). -/
def State.opDone (s : State) (o : Op) : Bool :=
  match o.kind with
  | .ready => true
  | .seal _ => o.isReady
  | .free _ => o.isReady
  | .fence order scope => s.fenceReady o order scope
  | .flush ws _ _ => !(s.writes.any fun w => ws.contains w.id)
  | .matrix _ => false
  | .atom _ _ _ acq _ _ => (o.isReady || o.accs.all (·.done)) && (!acq || o.accs.all fun a => s.acquired o.team a.thread o.id)
  | _ => o.isReady || o.accs.all (·.done)

/-- The members that receive what a lane's access gives (R64). -/
def Op.receivers (o : Op) (a : Acc) : List Nat := if o.all.isEmpty then [a.thread] else o.all

/-- A loaded value as registers: sign-extended where its type says (R284). -/
def loadValue (size : Nat) (signed : Bool) (v : Nat) : Nat := if signed && size < 4 then wrapTo 32 (toSigned (8 * size) v) else v

/-- What a completed access writes (R284 to R298, R371). -/
def Op.gives (o : Op) (a : Acc) : List Wr :=
  match o.kind with
  | .load size signed => wregs a.d (loadValue size signed a.val) ((size + 3) / 4)
  | .line => wregs a.d a.val 1
  | .atom _ wide _ _ _ noret => if noret then [] else wregs a.d a.val (if wide then 2 else 1)
  | .stna => wpred o.pd a.ok
  | .lds wide => wregs o.d a.val (if wide then 2 else 1) ++ wpred o.pd (a.cmp == 1)
  | .enumNext => wregs o.d a.val 2
  | .pgq => wregs o.d a.val 2
  | .append => wregs o.d a.val 2
  | .qappend => wregs o.d a.val 2 ++ wpred o.pd a.ok
  | _ => []

/-- The results of an operation: those known at issue and those of its unfaulted accesses. -/
def Op.final (o : Op) : List (Nat × Wr) :=
  o.results ++ (o.accs.filter fun a => a.fault = 0).flatMap fun a => (o.receivers a).flatMap fun i => (o.gives a).map fun w => (i, w)

/-- A bitmap's place in a copy's scratchpad (R292). -/
def State.putMap (s : State) (o : Op) (words : Nat) (a : Acc) : State :=
  s.updTeam o.team fun t => t.putScratch ((o.core - t.core) * halfBytes + a.d) (leBytes a.val (4 * words))

/-- The results that a primary's operation gives its shadow as it completes; those of stores and stna it gave at their issue (R309). -/
def OpKind.feedsLate (k : OpKind) : Bool := k.isFed && (match k with
  | .store => false
  | .push _ => false
  | .stna => false
  | _ => true)

/-- The clocks of what an operation returned join its receivers' observed vectors (R311). -/
def State.opObserve (s : State) (o : Op) : State :=
  (o.accs.filter fun a => a.fault = 0).foldl (fun s a => s.observe o.team (o.receivers a) a.clk) s

/-- A seal or free. -/
def OpKind.isSeal : OpKind → Bool
  | .seal _ => true
  | .free _ => true
  | _ => false

/-- The threads whose pending flag a save set for a seal or free go on, but for those that another one holds (R437). -/
def State.sealOver (s : State) (o : Op) : State :=
  s.updThreads o.team (o.all.filter fun i => !s.ops.any fun x => x.id != o.id && x.team == o.team && x.kind.isSeal && x.all.contains i) fun h => { h with sealPending := false }

/-- Effects of completion beyond registers: a bitmap, a fence's sequencer and acquire, an atom's acquire, a restored seal, the lines that dcinv drops (R292, R308, R313, R319, R321, R429). -/
def State.opEffect (s : State) (o : Op) : State :=
  match o.kind with
  | .enumMap n => (o.accs.filter fun a => a.fault = 0).foldl (fun s a => s.putMap o n a) s
  | .fence order scope => s.fenceDone o order scope
  | .atom _ _ _ acq scope _ => if acq && wideScope (s.launch o.team.launch) scope then s.acquireCore o.core else s
  | .seal _ => s.sealOver o
  | .free _ => s.sealOver o
  | .flush _ drop spans => if drop then s.dropLines o.core fun x => inFlush spans (x * 128) else s
  | _ => s

/-- The word that waited for its verdict ends for the lanes it faulted in no way; the others park (R282, R147). -/
def State.verdictEnd (s : State) (o : Op) (gid : Nat) : State :=
  let c := s.ctx gid
  let bad := s.laneFaults o.accs
  let s := match bad with
    | [] => s
    | f :: _ => if o.all.isEmpty then s.parkFaults gid o.len bad else s.parkWhole gid { cls := f.cls, detail := f.detail, addr := f.addr, len := o.len, route := s.routeEnd f }
  if !s.running gid then s
  else
    match o.kind with
    | .push moves => s.callDone c (unfaulted o.accs) (moves.map fun m => { thread := m.1, pc := m.2.1, active := m.2.2 })
    | .pop u => s.popDone c u o.accs
    | .frame u retry => s.frameDone c u retry o.accs
    | _ => (s.endWord c o.len).renameClause gid

/-- Results, clocks and effects, then the flag; a word that waited for the operation goes on. -/
def State.completeOp (s : State) (o : Op) : State :=
  let s := (s.opObserve o).opEffect o
  let s := if o.kind.feedsLate then o.accs.foldl (fun s a => s.feed o.team a.thread a.nth [a.fault, a.val, bit a.ok, a.cmp]) s else s
  let s := s.finishOp { o with results := o.final }
  let s := match (if o.verdict then o.gids.head? else none) with
    | some gid => if s.running gid then s.verdictEnd o gid else s
    | none => s
  s.barriers

/-- VARIABLE_OP_COMPLETE; an operation of a shadow first receives what its primary received (R309). -/
def execVariableOpComplete (op : Nat) (s : State) : Out :=
  match s.findOp op with
  | some o => .next (if s.opDone o then s.completeOp o else if s.canReceive o then s.receive o else s)
  | none => .next s

/-! ### Room for teams (R13, R14, R42, R389) -/

/-- Slots that a home group takes in a column. -/
def Launch.slotsAt (l : Launch) (hg col : Nat) : Nat :=
  ((List.range (Nat.min l.w (l.size - hg * l.w))).filter fun i => l.column (hg * l.w + i) == col).length

/-- Slots that some home groups of a team take in a column of a quadrant. -/
def Launch.slotsOn (l : Launch) (core quad col : Nat) (live : Nat → Bool) : Nat :=
  ((List.range l.homeGroups).filter fun g => live g && l.quadOf core (g * l.w) == quad).foldl (fun n g => n + l.slotsAt g col) 0

/-- A home group of a team has not retired (R49). -/
def Team.homeLive (l : Launch) (t : Team) (hg : Nat) : Bool := t.threads.any fun h => l.homeGroup h.idx == hg && h.st != .exited

/-- A team of a launch that stands on a core holds it: its launch, leader core, and whether a home group is live. -/
structure Holder where
  l : Launch
  core : Nat
  live : Nat → Bool

/-- Those that hold resources of the cores: resident teams, teams whose image is being read back, and teams pulled and not started. -/
def State.holders (s : State) : List Holder :=
  (s.teams.filter fun t => t.saved.isNone).map (fun t => let l := s.launch t.id.launch; ⟨l, t.core, t.homeLive l⟩) ++
  (s.sys.filterMap fun o => match o.job with
    | .back id core => (s.findTeam id).map fun t => let l := s.launch id.launch; ⟨l, core, t.homeLive l⟩
    | _ => none) ++
  s.launches.flatMap fun l => l.pulled.map fun p => ⟨l, p.1, fun _ => true⟩

/-- A holder stands on a core. -/
def Holder.on (h : Holder) (core : Nat) : Bool := decide (h.core ≤ core) && decide (core < h.core + h.l.cores)

/-- The first of e contiguous free tag entries of a core (R389). -/
def State.tagRoom (s : State) (core e : Nat) : Option Nat :=
  let taken := (s.teams.filter fun t => t.saved.isNone).filterMap fun t =>
    let l := s.launch t.id.launch
    if t.core ≤ core && core < t.core + l.cores && l.tagCount ≠ 0 then some (t.tagFirst.getD (core - t.core) 0, l.tagCount) else none
  (List.range (513 - e)).find? fun f => taken.all fun x => decide (f + e ≤ x.1) || decide (x.1 + x.2 ≤ f)

/-- What the holders of a core use of a resource. -/
def usedOn (hs : List Holder) (core : Nat) (f : Launch → Nat) : Nat := (hs.filter fun h => h.on core).foldl (fun n h => n + f h.l) 0

/-- A core has, beside some holders, join masks where it leads the team, and what a team of a launch with some home groups needs there (R42, R389). A home group takes no more slots of a column than of column 0, or of column 16 where it starts there, so those two decide. -/
def State.coreRoom (s : State) (hs : List Holder) (l : Launch) (live : Nat → Bool) (lead core : Nat) : Bool :=
  ((List.range 4).all fun q => [0, 16].all fun col =>
    decide ((hs.filter fun h => h.on core).foldl (fun n h => n + h.l.slotsOn h.core (core * 4 + q) col h.live) 0 + l.slotsOn lead (core * 4 + q) col live ≤ 16)) &&
  decide (usedOn hs core Launch.scratch + l.scratch ≤ 2 ^ 19) && decide (usedOn hs core Launch.tiles + l.tiles ≤ 64) &&
  decide (usedOn hs core Launch.slots + l.slots ≤ 256) && (decide (core ≠ lead) || decide ((hs.filter fun h => h.core = core).length < 16)) && (s.tagRoom core l.tagCount).isSome

/-- The cores of a team led by a core. -/
def Launch.coresOf (l : Launch) (lead : Nat) : List Nat := (List.range l.cores).map (· + lead)

/-- A core, or the pair it leads, has room for a team beside some holders. -/
def State.roomBeside (s : State) (hs : List Holder) (l : Launch) (live : Nat → Bool) (lead : Nat) : Bool :=
  (!l.pair || decide (lead % 2 = 0)) && (l.coresOf lead).all fun c => s.coreRoom hs l live lead c

/-- The core that the shadow of a team would start on: the lowest of another cluster of the same die that has room (R448). -/
def State.shadowCore (s : State) (hs : List Holder) (l : Launch) (lead : Nat) : Option Nat :=
  ((List.range 192).map (· + dieOfCore lead * 192)).find? fun c => decide (clusterOf c ≠ clusterOf lead) && s.roomBeside hs l (fun _ => true) c

/-- A core has room for a team of a launch, both its copies where it is redundant. -/
def State.hasRoom (s : State) (l : Launch) (lead : Nat) : Bool :=
  let hs := s.holders
  s.roomBeside hs l (fun _ => true) lead && (!l.redundant || (s.shadowCore hs l lead).isSome)

/-! ### TEAM_PULL (R44 to R46, R344, R347) -/

/-- Indices left in a die's counter. -/
def Launch.left (l : Launch) (d : Nat) : Nat := let x := Store.get (0, 0) l.tickets d; x.2 - x.1

/-- The dies that a die steals from, in order (R46). -/
def victims : Nat → List Nat
  | 0 => [1, 2, 3]
  | 1 => [0, 3, 2]
  | 2 => [3, 0, 1]
  | _ => [2, 1, 0]

/-- A die can take an index of the launch, its own or a stolen one. -/
def Launch.hasIndex (l : Launch) (d : Nat) : Bool :=
  bitAt l.dieMask d && (decide (0 < l.left d) || (victims d).any fun v => bitAt l.dieMask v && decide (0 < l.left v))

/-- Refill an exhausted counter with the upper half of the first victim's (R46). -/
def Launch.steal (l : Launch) (d : Nat) : Launch :=
  if 0 < l.left d then l
  else match (victims d).find? fun v => bitAt l.dieMask v && decide (0 < l.left v) with
    | none => l
    | some v =>
      let x := Store.get (0, 0) l.tickets v
      let k := (x.2 - x.1 + 1) / 2
      { l with tickets := Store.set (0, 0) (Store.set (0, 0) l.tickets v (x.1, x.2 - k)) d (x.2 - k, x.2) }

/-- Take the next index of a die's counter for a core (R45). -/
def Launch.pull (l : Launch) (d core : Nat) : Launch :=
  let l := l.steal d
  let x := Store.get (0, 0) l.tickets d
  if x.1 < x.2 then { l with tickets := Store.set (0, 0) l.tickets d (x.1 + 1, x.2), pulled := l.pulled ++ [(core, x.1)] } else l

/-- Cores of a list of dies. -/
def coresOfDies (mask : Nat) : List Nat := (List.range 768).filter fun c => bitAt mask (dieOfCore c)

/-- A launch with indices or saved teams left finds no room on any core of its mask (R347). -/
def State.waiting (s : State) (l : Launch) : Bool :=
  ((List.range 4).any fun d => l.hasIndex d) && !(coresOfDies l.dieMask).any fun c => s.hasRoom l c

/-- No launch of higher priority that waits for room shares a die (R347). -/
def State.notHeldBack (s : State) (prio d : Nat) : Bool :=
  !s.launches.any fun l => decide (prio < l.prio) && bitAt l.dieMask d && s.waiting l

/-- The launch has a saved team that comes before its further indices on a die (R347). -/
def State.savedOn (s : State) (l : Launch) (d : Nat) : Bool :=
  s.teams.any fun t => t.id.launch == l.id && t.saved.isSome && dieOfCore t.core == d

/-- The launch that a core pulls from: of highest priority, then the first started (R344, R345). -/
def State.pullFor (s : State) (core : Nat) : Option Launch :=
  let d := dieOfCore core
  firstBy (fun a b => decide (b.prio < a.prio)) (s.launches.filter fun l =>
    l.hasIndex d && !s.savedOn l d && s.hasRoom l core && s.notHeldBack l.prio d)

/-- A core is idle: no team stands on it or has been pulled for it. -/
def State.idle (s : State) (core : Nat) : Bool := !s.holders.any fun h => h.on core

/-- The core of a die that pulls next in the cycle: one pull for each core, idle cores first, then the others, each in ascending number (R45). A core that has pulled in the cycle was idle before. -/
def State.nextPuller (s : State) (d : Nat) : Option Nat :=
  if s.launches.any fun l => l.hasIndex d then
    let now := (s.die d).clock + 1
    let cs := ((List.range 192).map (· + d * 192)).filter fun c => decide ((s.core c).pullAt < now) && (s.pullFor c).isSome
    match cs.find? s.idle with
    | some c => some c
    | none => cs.head?
  else none

/-- TEAM_PULL (R45). -/
def execTeamPull (core : Nat) (s : State) : Out :=
  if s.nextPuller (dieOfCore core) != some core then .next s
  else match s.pullFor core with
    | none => .next s
    | some l =>
      let now := (s.die (dieOfCore core)).clock + 1
      .next ((s.updLaunch l.id fun l => l.pull (dieOfCore core) core).updCore core fun c => { c with pullAt := now })

/-! ### TEAM_START (R10, R41 to R43, R47, R121, R356, R448) -/

/-- A thread at its start (R10, R121). -/
def Launch.thread0 (l : Launch) (team i gid : Nat) : Thread :=
  { idx := i, pc := l.entry, st := .issuing gid, sp := l.stackTop team i
    regs := Store.set 0 (Store.set 0 [] 0 (BitVec.ofNat 32 l.arg)) 1 (BitVec.ofNat 32 (l.arg / 2 ^ 32)) }

/-- Threads of a home group. -/
def Launch.homeMembers (l : Launch) (hg : Nat) : List Nat := (List.range (Nat.min l.w (l.size - hg * l.w))).map (· + hg * l.w)

/-- The free-slot counters that stand for a core, and its own, return to 0 (R356). -/
def State.clearFree (s : State) (core : Nat) : State :=
  let s := s.updCore core fun c => { c with free := [] }
  (List.range 8).foldl (fun s i => s.updCore (core / 8 * 8 + i) fun c => { c with free := Store.set 0 c.free (core % 8) 0 }) s

/-- A copy of a team starts on a core: its threads, its resources clear, and a group for each home group. -/
def State.startCopy (s : State) (l : Launch) (id : TeamId) (core : Nat) : State :=
  let gid0 := s.nextId
  let n := l.homeGroups
  let stamp := (s.die (dieOfCore core)).clock
  let first := (l.coresOf core).map fun c => (s.tagRoom c l.tagCount).getD 0
  let ts := (List.range l.size).map fun i => l.thread0 id.team i (gid0 + l.homeGroup i)
  let t : Team := { id := id, core := core, stamp := stamp, threads := ts, tagFirst := first }
  let gs := (List.range n).map fun g =>
    ({ gid := gid0 + g, team := id, quad := l.quadOf core (g * l.w), members := l.homeMembers g, pc := l.entry, readyAt := stamp } : Grp)
  (l.coresOf core).foldl State.clearFree { s with teams := s.teams ++ [t], groups := s.groups ++ gs, nextId := gid0 + n }

/-- The first index pulled for a core, with its launch. -/
def State.pulledFor (s : State) (core : Nat) : Option (Launch × Nat) :=
  (s.launches.filterMap fun l => (findBy (fun p : Nat × Nat => p.1 == core) l.pulled).map fun p => (l, p.2)).head?

/-- The launch without the place that a pulled index takes. -/
def Launch.unpull (l : Launch) (core team : Nat) : Launch := { l with pulled := l.pulled.filter fun p => p != (core, team) }

/-- TEAM_START (R47): the die's stagger timer has run out and the core still has room. -/
def execTeamStart (core : Nat) (s : State) : Out :=
  match s.pulledFor core with
  | none => .next s
  | some (l, team) =>
    let s' := s.updLaunch l.id fun l => l.unpull core team
    let d := dieOfCore core
    if (s.die d).stagger ≠ 0 || !s'.hasRoom l core then .next s
    else
      let s1 := s'.startCopy l ⟨l.id, team, false⟩ core
      let s1 := if l.redundant then (match s1.shadowCore s1.holders l core with
          | some c => s1.startCopy l ⟨l.id, team, true⟩ c
          | none => s1) else s1
      .next ((s1.updDie d fun x => { x with stagger := l.stagger }).updLaunch l.id fun l => { l with running := l.running + 1, anyTeam := true })

/-! ### DBGCTL and DBGSEL (R432) -/

/-- A team is selected by a tenant's DBGSEL (R432). -/
def Tenant.selects (t : Tenant) (id : TeamId) : Bool :=
  decide (id.launch = bitsOf t.dbgsel.toNat 32 32) && (decide (bitsOf t.dbgsel.toNat 0 32 = 2 ^ 32 - 1) || decide (id.team = bitsOf t.dbgsel.toNat 0 32))

/-- Set or clear a bit of DBGCTL. -/
def Tenant.dbgBit (t : Tenant) (i : Nat) (b : Bool) : Tenant :=
  { t with dbgctl := BitVec.ofNat 64 (t.dbgctl.toNat - bit (bitAt t.dbgctl.toNat i) * 2 ^ i + bit b * 2 ^ i) }

/-! ### TEAM_END (R49, R50) -/

/-- An operation that a copy submitted to a core channel has not completed. -/
def State.channelBusy (s : State) (id : TeamId) : Bool := s.chans.any fun e => e.2.ops.any fun o => o.pkt.isNone && o.team == id

/-- Operations of a copy that keep its team from ending. -/
def State.teamBusy (s : State) (id : TeamId) : Bool :=
  (s.ops.any fun o => o.team == id && !o.kind.isSeal) || s.channelBusy id

/-- A copy of a team has no thread left. -/
def Team.ended (t : Team) : Bool := t.threads.all fun h => h.st == .exited

/-- A copy's comparison at its end has been made: nothing is held and every signature is 0 (R449). -/
def Team.compared (t : Team) : Bool := t.held.isEmpty && t.threads.all fun h => h.sig = 0

/-- A copy may end. -/
def State.canEnd (s : State) (l : Launch) (id : TeamId) : Bool :=
  match s.findTeam id with
  | some t => t.saved.isNone && t.ended && !s.teamBusy id && (!l.redundant || t.compared)
  | none => false

/-- A copy leaves its cores: moorings, groups, results fed, free-slot counters (R50, R356, R392). -/
def State.removeCopy (s : State) (l : Launch) (id : TeamId) : State :=
  let core := (s.team id).core
  let s := { s with teams := s.teams.filter fun t => t.id != id
                    groups := s.groups.filter fun g => g.team != id
                    moorings := s.moorings.filter fun m => m.team != id
                    quads := s.quads.map fun e => (e.1, { e.2 with demote := e.2.demote.filter fun x => x.1 != id, ready := e.2.ready.filter fun x => x.1 != id }) }
  (l.coresOf core).foldl State.clearFree s

/-- TEAM_END (R50): both copies of a redundant team end together. -/
def execTeamEnd (team : TeamId) (s : State) : Out :=
  match s.findLaunch team.launch with
  | none => .next s
  | some l =>
    let ids : List TeamId := if l.redundant then [⟨team.launch, team.team, false⟩, ⟨team.launch, team.team, true⟩] else [team]
    if !ids.all (s.canEnd l) then .next s
    else
      let clk := VC.maxAll (ids.flatMap fun id => (s.team id).threads.map (·.obs))
      let s := ids.foldl (fun s id => s.removeCopy l id) s
      .next (s.updLaunch l.id fun l => { l with running := l.running - 1, endClk := l.endClk.max clk })

end Sys2Proof.Machine
end

