-- ==== Sys2Proof/Machine/Packets.lean ====
section
/-! DEFINITION. Queues and their packets (R335 to R347, R355 to R369): enabling a queue, taking and starting packets, their effects and completion, the channels' operations (R350 to R354), the transducer lanes (R357 to R360), and page migration (R398 to R400). -/
namespace Sys2Proof.Machine

/-! ### QCTL_WRITE (R336) -/

/-- Fields of QCTL that a write changes while the queue is disabled. -/
def qctlFields (v : Nat) : Nat := bitsOf v 24 4 * 2 ^ 24 + bitsOf v 20 4 * 2 ^ 20 + bitsOf v 18 2 * 2 ^ 18 + bitsOf v 0 5

/-- An address of a tenant's space translates to an ORDINARY page. -/
def State.isOrdinary (s : State) (tenant asid va : Nat) : Bool :=
  match s.translate [] tenant asid va with
  | .ok t => t.region.isNone
  | .error _ => false

/-- Every page of a range is ORDINARY. -/
def State.allOrdinary (s : State) (tenant asid va len : Nat) : Bool :=
  (List.range ((va % 65536 + len + 65535) / 65536)).all fun i => s.isOrdinary tenant asid (if i = 0 then va else va / 65536 * 65536 + i * 65536)

/-- A ring with its pair of index words may be enabled (R336): the read index, or nothing where it is refused. -/
def State.ringOk (s : State) (tenant asid base index size slot : Nat) : Option Nat :=
  if size < 4 || 16 < size || base % slot ≠ 0 || index % 16 ≠ 0 then none
  else if !s.allOrdinary tenant asid base (64 * 2 ^ size) || !s.isOrdinary tenant asid index then none
  else
    match s.translate [] tenant asid index with
    | .error _ => none
    | .ok t => let w := s.locNat t.key 8; let r := s.locNat (t.key + 8) 8; if w = r then some r else none

/-- A queue's reader moors on a word; it stands in the part of the table that is the command processors' own (R338, R390). -/
def State.readerMoor (s : State) (q key : Nat) : State :=
  { s with moorings := s.moorings ++ [{ mid := s.nextId, home := s.homeOf key, key := key, size := 8, tenant := bitsOf (s.queue q).qctl.toNat 24 4, core := 0, team := ⟨2 ^ 32, 0, false⟩, slot := 0, reader := some q }]
           nextId := s.nextId + 1 }

/-- The moorings of a queue's reader end, but for those on one word. -/
def State.readerUnmoor (s : State) (q : Nat) (but : Option Nat) : State :=
  { s with moorings := s.moorings.filter fun m => m.reader != some q || some m.key == but }

/-- The location of a queue's write index word. -/
def State.indexKey (s : State) (k : Queue) : Option Nat :=
  match s.translate [] (bitsOf k.qctl.toNat 24 4) (bitsOf k.qctl.toNat 20 4) k.qindex.toNat with
  | .ok t => some t.key
  | .error _ => none

/-- The reader of an enabled queue moors on its write index word. -/
def State.moorIndex (s : State) (q : Nat) : State :=
  match s.indexKey (s.queue q) with
  | some k => (s.readerUnmoor q none).readerMoor q k
  | none => s

/-- A queue is disabled, and its reader's moorings end. -/
def State.disable (s : State) (q : Nat) : State :=
  (s.updQueue q fun k => { k with qctl := BitVec.ofNat 64 (k.qctl.toNat % 2 ^ 31) }).readerUnmoor q none

/-- QCTL_WRITE. -/
def execQctlWrite (q : Nat) (v : DWord) (s : State) : Out :=
  let old := (s.queue q).qctl.toNat
  let x := v.toNat
  if 2048 ≤ q || (s.tenant (bitsOf old 24 4)).busy then .next s
  else if bitAt old 31 then .next (if bitAt x 31 then s else s.disable q)
  else
    let f := qctlFields x
    let s := s.updQueue q fun k => { k with qctl := BitVec.ofNat 64 f }
    if !bitAt x 31 then .next s
    else
      match s.ringOk (bitsOf x 24 4) (bitsOf x 20 4) (s.queue q).qbase.toNat (s.queue q).qindex.toNat (bitsOf x 0 5) 4096 with
      | none => .next s
      | some r =>
        if r < (s.queue q).timeline then .next s
        else .next (((s.updQueue q fun k => { k with qctl := BitVec.ofNat 64 (f + 2 ^ 31), timeline := r, rpos := r, fin := [], faultSeq := 0, due := true, step := 0 }).moorIndex q).wakeTimelines)

/-! ### PACKET_TAKE (R338, R513) -/

/-- The tenant, address space and size of a queue's ring. -/
def Queue.tenant (k : Queue) : Nat := bitsOf k.qctl.toNat 24 4
def Queue.asid (k : Queue) : Nat := bitsOf k.qctl.toNat 20 4
def Queue.slots (k : Queue) : Nat := 2 ^ bitsOf k.qctl.toNat 0 5
def Queue.enabled (k : Queue) : Bool := bitAt k.qctl.toNat 31

/-- A hub access of a queue: its location, or the class and address that the reader records. -/
def State.readerKey (s : State) (k : Queue) (va n align : Nat) (a : Access) : Except (Nat × Nat) Nat :=
  match s.hubKey k.tenant k.asid va align a with
  | .error c => .error (c, va)
  | .ok x => if s.linkDown x then .error (clsEcc, va) else if a = .read && s.poison.any fun e => e.2 && decide (x ≤ e.1) && decide (e.1 < x + n) then .error (clsEcc, va) else .ok x

/-- What the reader finds: nothing claimed, a slot not yet published, or the location of a packet's slot. -/
inductive Slot where
  | empty
  | claimed (slot : Nat)
  | packet (slot : Nat)
  deriving DecidableEq, Repr

/-- The address of a queue's slot of a number. -/
def Queue.slotVa (k : Queue) (n : Nat) : Nat := k.qbase.toNat + 64 * (n % k.slots)

/-- What the reader finds at its next slot: the write index word first, then the type byte, and all 64 bytes where that is not 0 (R338). -/
def State.nextSlot (s : State) (k : Queue) : Except (Nat × Nat) Slot :=
  match s.readerKey k k.qindex.toNat 8 8 .read with
  | .error e => .error e
  | .ok kx =>
    if s.locNat kx 8 ≤ k.rpos then .ok .empty
    else match s.readerKey k (k.slotVa k.rpos) 1 1 .read with
      | .error e => .error e
      | .ok ks =>
        if s.locByte ks = 0 then .ok (.claimed ks)
        else match s.readerKey k (k.slotVa k.rpos) 64 1 .read with
          | .error e => .error e
          | .ok ks => .ok (.packet ks)

/-- The reads of a look at the next slot, at their homes (R240, R241). -/
def State.readerReads (s : State) (k : Queue) (x : Except (Nat × Nat) Slot) : State :=
  let s := match s.readerKey k k.qindex.toNat 8 8 .read with
    | .ok kx => s.homeRead kx 8
    | .error _ => s
  match x with
  | .ok (.claimed ks) => s.homeRead ks 1
  | .ok (.packet ks) => s.homeRead ks 64
  | _ => s

/-- A hub access at an address has ended in a fault: an uncorrectable error is counted where it stands. -/
def State.sawFault (s : State) (tenant asid va c : Nat) : State :=
  match s.translate [] tenant asid va with
  | .ok tr => if c = clsEcc ∧ s.linkDown tr.key = false then s.sawBad tr.key else s
  | .error _ => s

/-- A fault of the reader: one record of kind 12, whose answer its queue awaits (R513). -/
def State.readerFault (s : State) (q : Nat) (e : Nat × Nat) : State :=
  let k := s.queue q
  let (seq, s) := (s.sawFault k.tenant k.asid e.2 e.1).makeRec k.tenant { kind := 12, cls := e.1, detail := if e.1 = clsEcc then 1 else 0, num := q, addr := e.2 }
  s.updQueue q fun k => { k with faultSeq := seq }

/-- A store of the reader for a queue, whose next step it leads to: it waits for what it follows and for a migration of its page, and a fault of it is recorded (R314, R400, R513). -/
def State.readerStore (s : State) (q va n align : Nat) (bs : List Byte) (next : Nat) : State :=
  let k := s.queue q
  match s.readerKey k va n align .write with
  | .error e => s.readerFault q e
  | .ok x =>
    if !s.homeReady (s.homeOf x) k.stepClk || s.movingKey x || !(s.pendingFor 4 (s.homeOf x)).isEmpty then s
    else (s.hubStore x bs k.stepClk).updQueue q fun k => { k with step := next }

/-- The type byte of the packet last taken is cleared. -/
def State.clearType (s : State) (q : Nat) : State :=
  let k := s.queue q
  if k.step = 1 then s.readerStore q (k.slotVa (k.rpos - 1)) 1 1 [0] 2 else s

/-- The read index word tells of the packet last taken. -/
def State.storeIndex (s : State) (q : Nat) : State :=
  let k := s.queue q
  if k.step = 2 then s.readerStore q (k.qindex.toNat + 8) 8 8 (leBytes k.rpos 8) 0 else s

/-- The packet at a location leaves its slot: its 64 bytes, under the clock of its type byte's write. -/
def State.tookPacket (s : State) (q ks : Nat) : State :=
  let clk := (s.locClk ks).max (s.queue q).clk
  let bs := s.locBytes ks 64
  (s.readerUnmoor q (s.indexKey (s.queue q))).updQueue q fun k => { k with rpos := k.rpos + 1, step := 1, stepClk := clk, pkts := k.pkts ++ [({ seq := k.rpos + 1, bytes := bs, clk := clk } : Pkt)] }

/-- The packet at a location is taken; then its type byte is cleared and the read index stored, in that order (R338). -/
def State.takePacket (s : State) (q ks : Nat) : State := ((s.tookPacket q ks).clearType q).storeIndex q

/-- PACKET_TAKE: what the last packet taken has left to store is stored; else, when a push has come, the reader looks: the next packet leaves its slot, or the reader moors on the slot, or its fault is recorded. -/
def execPacketTake (q : Nat) (s : State) : Out :=
  let k := s.queue q
  if !k.enabled || k.faultSeq ≠ 0 then .next s
  else if k.step ≠ 0 then .next ((s.clearType q).storeIndex q)
  else if !k.due then .next s
  else
    let x := s.nextSlot k
    let t := s.readerReads k x
    match x with
    | .error e => .next (t.readerFault q e)
    | .ok .empty => .next (t.updQueue q fun k => { k with due := false })
    | .ok (.claimed ks) => .next (((t.readerUnmoor q (t.indexKey k)).readerMoor q ks).updQueue q fun k => { k with due := false })
    | .ok (.packet ks) => .next (if s.homeReady (s.homeOf ks) ((s.locClk ks).max k.clk) then t.takePacket q ks else s)

/-! ### Starting packets (R343, R344) -/

def Pkt.type (p : Pkt) : Nat := fieldAt p.bytes 0 1
def Pkt.asid (p : Pkt) : Nat := bitsOf (fieldAt p.bytes 2 1) 4 4
def Pkt.prio (p : Pkt) : Nat := bitsOf (fieldAt p.bytes 2 1) 0 2
/-- The packet starts only when every earlier one of its queue has completed. -/
def Pkt.barrier (p : Pkt) : Bool := bitAt (fieldAt p.bytes 1 1) 1 || p.type == 6 || p.type == 8

/-- The first packet of a list that has not started, with those before it. -/
def nextUnstarted : List Pkt → List Pkt → Option (List Pkt × Pkt)
  | _, [] => none
  | before, p :: r => if p.started then nextUnstarted (before ++ [p]) r else some (before, p)

/-- The next packet of a queue, if it may start (R343). -/
def Queue.startable (k : Queue) : Option Pkt :=
  match nextUnstarted [] k.pkts with
  | some (before, p) => if (before.any fun b => b.type == 7) || (p.barrier && !before.isEmpty) then none else some p
  | none => none

/-- The queue whose packet a command processor starts: of highest priority, then next in cyclic order (R344). -/
def State.cpPick (s : State) (cp : Nat) : Option Nat :=
  let last := match Store.get none s.lastQueue cp with
    | some q => q
    | none => cp * 256 + 255
  if s.hub < Store.get 0 s.cpNext cp then none else
  firstBy (fun a b => lexLt a.2 b.2) ((s.queues.filter fun e => e.1 / 256 == cp).filterMap fun e =>
    e.2.startable.map fun p => (e.1, [3 - p.prio, (e.1 + 2047 - last) % 2048])) |>.map (·.1)

/-- The packet of a type that a queue starts now. -/
def State.starting (s : State) (q type : Nat) : Option Pkt :=
  if s.cpPick (q / 256) = some q then (match (s.queue q).startable with
    | some p => if p.type = type then some p else none
    | none => none)
  else none

/-- Change a packet of a queue. -/
def State.updPkt (s : State) (q seq : Nat) (f : Pkt → Pkt) : State :=
  s.updQueue q fun k => { k with pkts := mapIf (fun p : Pkt => p.seq == seq) f k.pkts }

/-- The clock that a packet's accesses follow: its header's, those its queue's WAIT packets acquired and, behind a barrier, those of the packets before it (R311, R343). -/
def Pkt.startClk (p : Pkt) (k : Queue) : VC := (p.clk.max k.clk).max (if p.barrier then k.tlClk else {})

/-- A packet's accesses can be served: the hub's earlier writes have been applied, and every home has what the packet follows (R314, R324). -/
def State.pktMay (s : State) (k : Queue) (p : Pkt) : Bool := s.mayRun 4 (p.startClk k)

/-- A packet starts: its queue was the last of its processor, which starts no other for 8 hub cycles, and its reads follow what it waited for (R343, R344). -/
def State.startPkt (s : State) (q : Nat) (p : Pkt) : State :=
  let s := { s with lastQueue := Store.set none s.lastQueue (q / 256) (some q), cpNext := Store.set 0 s.cpNext (q / 256) (s.hub + 8) }
  s.updPkt q p.seq fun p => { p with started := true, clk := p.startClk (s.queue q) }

/-- A packet's effect has ended. -/
def State.endPkt (s : State) (q seq status detail count : Nat) : State := s.updPkt q seq fun p => { p with result := some (status, detail, count) }

/-- A packet's access at an address faults, and the packet ends so. -/
def State.faultPkt (s : State) (q : Nat) (k : Queue) (p : Pkt) (va c : Nat) : State := (s.sawFault k.tenant p.asid va c).endPkt q p.seq stFault c 0

/-- Failing offsets of the header and the address space (R339, R377). -/
def State.pktBad (s : State) (k : Queue) (p : Pkt) : List Nat :=
  headerBad false (bitsOf k.qctl.toNat 18 2) p.bytes ++
  failing [(2, !bitAt (Store.get 0 (s.tenant k.tenant).troot p.asid).toNat 0)]

/-- Body bytes that the packet's type does not name are reserved (R340). -/
def restBad (b : List Byte) (from_ : Nat) : List Nat := failing [(from_, (b.drop from_).any fun x => x != 0)]

/-- A packet of a type that nothing rejects must wait to start. -/
def State.startHeld (s : State) (q type : Nat) (bad : Queue → Pkt → List Nat) (wait : Queue → Pkt → Bool) : Bool :=
  match s.starting q type with
  | none => false
  | some p => (lowestOff (s.pktBad (s.queue q) p ++ bad (s.queue q) p)).isNone && wait (s.queue q) p

/-- Start a packet of a type: rejected at the lowest failing offset (R340), or its effect. -/
def State.beginPkt (s : State) (q type : Nat) (bad : Queue → Pkt → List Nat) (f : Queue → Pkt → State → State) : Out :=
  match s.starting q type with
  | none => .next s
  | some p =>
    let k := s.queue q
    let s := s.startPkt q p
    let p := (findBy (fun x : Pkt => x.seq == p.seq) (s.queue q).pkts).getD p
    match lowestOff (s.pktBad k p ++ bad k p) with
    | some off => .next (s.endPkt q p.seq stReject off 0)
    | none => .next (f k p s)

/-! ### LAUNCH (R44, R345, R346) -/

/-- The kernel that a handle names (R345). -/
def State.kernelOf (s : State) (tenant handle : Nat) : Option (Image × (Nat × Nat × Nat × Bool)) :=
  match findBy (fun im : Image => im.no == handle / 4096 && im.tenant == tenant) s.images with
  | some im => (im.kernels[handle % 4096]?).map fun k => (im, k)
  | none => none

/-- The width that a W code names (R79). -/
def widthOf : Nat → Nat
  | 0 => 16
  | 1 => 32
  | _ => 64

/-- The launch that a packet describes. -/
def State.launchOf (s : State) (q : Nat) (k : Queue) (p : Pkt) : Launch :=
  let base : Launch := { id := q * 2 ^ 21 + p.seq % 2 ^ 21, q := q, seq := p.seq, tenant := k.tenant, asid := p.asid, prio := p.prio, body := p.bytes, w := 32, nregs := 64, entry := 0, startedAt := s.hub, lastPreempt := s.hub }
  match s.kernelOf k.tenant (fieldAt p.bytes 0x10 4) with
  | some (im, e, w, n, _) => { base with w := widthOf w, nregs := n, entry := im.codeVa + e }
  | none => base

/-- The failing offsets of a LAUNCH body; a limit of several fields counts at the lowest of them (R346); a team of 1,025 to 2,048 threads of one core counts at 0x14, a larger one at 0x38 (DESIGN CHOICE, log entry 66). -/
def State.launchBad (s : State) (q : Nat) (k : Queue) (p : Pkt) : List Nat :=
  let l := s.launchOf q k p
  let kern := s.kernelOf k.tenant (fieldAt p.bytes 0x10 4)
  let t := bitsOf (fieldAt p.bytes 0x18 4) 0 17
  let w1C := fieldAt p.bytes 0x1C 4
  failing [(0x10, kern.isNone), (0x10, l.pair && kern.isSome && !(kern.map (·.2.2.2.2)).getD true),
    (0x14, l.dieMask = 0), (0x14, bitAt l.word14 11), (0x14, decide (4096 < l.stagger)), (0x14, decide (64 < l.tiles)), (0x14, l.redundant && decide (l.cls ≠ 0)),
    (0x14, !l.pair && decide (1024 < l.size) && decide (l.size ≤ 2048)),
    (0x18, t ≠ 0 && (decide (t < 64) || decide (65536 < t))), (0x18, decide (512 < l.tagCount)), (0x18, decide (bitsOf (fieldAt p.bytes 0x18 4) 27 5 ≠ 0)),
    (0x1C, decide (256 < l.slots) || decide (4096 < bitsOf w1C 9 13) || decide (l.scratch < 16 * l.slots) || decide (bitsOf w1C 22 10 ≠ 0)),
    (0x30, l.gx = 0 || decide (2 ^ 32 < l.teams)), (0x34, l.gy = 0), (0x36, l.gz = 0),
    (0x38, l.size = 0 || decide (2048 < l.size)), (0x38, decide (bitsOf (fieldAt p.bytes 0x38 8) 36 28 ≠ 0))]

/-- The ticket counters at a launch's start: contiguous ranges, one more for the first dies of the mask (R44). -/
def Launch.dealt (l : Launch) : Store (Nat × Nat) :=
  let ds := (List.range 4).filter fun d => bitAt l.dieMask d
  let n := l.teams / ds.length
  let extra := l.teams % ds.length
  (ds.zipIdx.foldl (fun (r : Store (Nat × Nat) × Nat) e =>
    let c := n + (if e.2 < extra then 1 else 0)
    (Store.set (0, 0) r.1 e.1 (r.2, r.2 + c), r.2 + c)) ([], 0)).1

/-- LAUNCH. -/
def execLaunch (q : Nat) (s : State) : Out :=
  s.beginPkt q 1 (s.launchBad q) fun k p s =>
    let l := s.launchOf q k p
    { s with launches := s.launches ++ [{ l with tickets := l.dealt }] }

/-! ### COPY, COPYM and XFORM packets (R348, R351, R355, R358) -/

/-- The die that an address of a space gives, if any (R351). -/
def State.dieOfAddr (s : State) (k : Queue) (p : Pkt) (launchOff teamOff sp a : Nat) : Option Nat :=
  if sp = 0 then
    match s.translate [] k.tenant p.asid a with
    | .ok t => let h := s.homeOf t.key; if h < 4 then some h else none
    | .error _ => none
  else if sp = 1 || sp = 3 then
    match findBy (fun t : Team => t.id.launch == fieldAt p.bytes launchOff 4 && t.id.team == fieldAt p.bytes teamOff 4 && !t.id.shadow) s.teams with
    | some t => if t.saved.isSome then none else some (dieOfCore t.core)
    | none => none
  else none

/-- The die channel that takes a queue-fed operation (R351). -/
def State.placeDie (s : State) (k : Queue) (p : Pkt) : Nat :=
  let b := p.bytes
  let x := p.type = 4
  let sp := if x then fieldAt b 0x29 1 else fieldAt b 0x30 1
  let lo := if x then 0x2C else 0x34
  let to_ := if p.type = 3 then
      (if (packetCores b).any fun c => (s.teamOn (fieldAt b 0x34 4) c).isSome then some (bitsOf (fieldAt b 0x38 4) 13 2) else none)
    else s.dieOfAddr k p lo (lo + 4) (bitsOf sp 3 3) (fieldAt b 0x18 8)
  (to_.orElse fun _ => s.dieOfAddr k p lo (lo + 4) (bitsOf sp 0 3) (fieldAt b 0x10 8)).getD 0

/-- The channel of a die with the fewest incomplete operations, the lowest-numbered of them. -/
def State.freestChan (s : State) (d : Nat) : Nat :=
  (List.range 16).foldl (fun best n => if (s.chan (.die d n)).ops.length < (s.chan (.die d best)).ops.length then n else best) 0

/-- Place a queue-fed operation on its channel. -/
def State.placeOp (s : State) (q : Nat) (k : Queue) (p : Pkt) : State :=
  let d := s.placeDie k p
  let n := s.freestChan d
  let ch : ChanId := .die d n
  let seq := (s.chan ch).lastSeq + 1
  let s := s.updChan ch fun c => { c with lastSeq := seq }
  s.enqueue ch seq { bytes := p.bytes, seq := seq, tenant := k.tenant, asid := p.asid, launch := 0, team := ⟨0, 0, false⟩, core := 0, obs := p.clk, pkt := some (q, p.seq) } false

/-- Failing offsets of a queue-fed operation's body. -/
def chanBody (type : Nat) (b : List Byte) : List Nat := match type with
  | 2 => copyBad false false b
  | 3 => copyBad true false b
  | _ => xformBad false b

def startChan (q type : Nat) (s : State) : Out := s.beginPkt q type (fun _ p => chanBody type p.bytes) fun k p s => s.placeOp q k p
def execCopyPacket (q : Nat) (s : State) : Out := startChan q 2 s
def execCopymPacket (q : Nat) (s : State) : Out := startChan q 3 s
def execXformPacket (q : Nat) (s : State) : Out := startChan q 4 s

/-! ### TABLE (R360, R393) -/

/-- The hub's port for a packet: origin X (R311). -/
def Pkt.port (k : Queue) (p : Pkt) : Port := { origin := 4, tenant := k.tenant, asid := p.asid, launch := none, route := some 0 }

/-- Bytes that a packet reads, or the class that stops it. -/
def State.pktRead (s : State) (k : Queue) (p : Pkt) (va n : Nat) : Except Nat (List Byte) :=
  match s.readVa { p.port k with src := (rowPages va n fun x => x).map (·.unit) } false va (n / 64 + 2) n with
  | (bs, none) => .ok (bs.map (·.1))
  | (_, some (.ask c _)) => .error c
  | (_, some (.fail c _)) => .error c
  | (_, some .wait) => .error clsTranslation
  | (_, some .lost) => .error clsEcc

/-- The 256-byte blocks of a range of which some byte is listed. -/
def blocksIn (m : Store Byte) (lo n : Nat) : List Nat :=
  ((m.filter fun e => decide (lo ≤ e.1) && decide (e.1 < lo + n)).map fun e => e.1 / 256).eraseDups

/-- A block held under a method, after that method's entropy table is replaced: coded with the old table, it expands with the new one to other bytes (R360, R363). -/
def recoded (method : Nat) (old new : List Byte) (b : List Byte) : List Byte :=
  let x := packBlock method old b
  if x.1 / 32 = method then (Config.entropyExpand new x.2).take 256 else b

/-- The bytes of a page whose blocks may be coded: all but its metadata tail (R382). -/
def codedBytes (size : Nat) (meta1 : Bool) : Nat := if meta1 then size else size - size / 256

/-- A tenant's entropy table is replaced: the blocks of its pages that are coded with the old one expand to other bytes (R360). -/
def State.recode (s : State) (tenant n : Nat) (new : List Byte) : State :=
  let old := Store.get [] (s.tenant tenant).entropy n
  let go := fun (key : Nat) (s : State) (b : Nat) => s.setLocs (key + 256 * b) (recoded (4 + n) old new (s.locBytes (key + 256 * b) 256))
  let plain := s.forms.filterMap fun e => e.2.bind fun f => if f.tenant = tenant ∧ f.code / 2 = 4 + n then some (e.1 * 65536, codedBytes (2 ^ levelShift f.level) (bitAt f.code 0)) else none
  let s := plain.foldl (fun s r => (blocksIn s.mem r.1 r.2).foldl (go 0) s) s
  (s.regions.filter fun r => r.id.tenant == tenant && bitsOf r.leaf 3 3 == 4 + n).foldl (fun s r =>
    r.pages.foldl (fun s e => match e.2 with
      | some p => (blocksIn p.data 0 (codedBytes (pageBytes r.psize) (bitAt r.leaf 6))).foldl (go (regionKey r.id.tenant r.id.asid (r.base + e.1 * pageBytes r.psize))) s
      | none => s) s) s

/-- The failing offsets of a TABLE body. -/
def tableBad (b : List Byte) : List Nat :=
  let kind := bitAt (fieldAt b 0x1E 1) 2
  let len := fieldAt b 0x18 4
  failing [(0x18, if kind then decide (len ≠ 256) else len = 0 || decide (65536 < len)), (0x1C, kind && decide (fieldAt b 0x1C 2 ≠ 0)),
    (0x1E, decide (bitsOf (fieldAt b 0x1E 1) 5 3 ≠ 0)), (0x1F, decide (fieldAt b 0x1F 1 ≠ 0))] ++ restBad b 0x20

/-- The lanes that a TABLE loads. -/
def tableLanes (b : List Byte) : List Nat :=
  ((List.range 16).filter fun n => bitAt (fieldAt b 0x1C 2) n).map fun n => bitsOf (fieldAt b 0x1E 1) 0 2 * 16 + n

/-- TABLE: an entropy table is replaced at once; a transition table waits at each masked lane (R360). -/
def execTable (q : Nat) (s : State) : Out :=
  if s.startHeld q 5 (fun _ p => tableBad p.bytes) (fun k p => bitAt (fieldAt p.bytes 0x1E 1) 2 && !s.pktMay k p) then .next s
  else s.beginPkt q 5 (fun _ p => tableBad p.bytes) fun k p s =>
    let b := p.bytes
    if bitAt (fieldAt b 0x1E 1) 2 then
      match s.pktRead k p (fieldAt b 0x10 8) 256 with
      | .error c => s.faultPkt q k p (fieldAt b 0x10 8) c
      | .ok bs =>
        let n := bitsOf (fieldAt b 0x1E 1) 3 2
        let s := s.touchVa (p.port k) (fieldAt b 0x10 8) 4 256
        ((s.recode k.tenant n bs).updTenant k.tenant fun t => { t with entropy := Store.set [] t.entropy n bs }).endPkt q p.seq stOk 0 0
    else
      let ls := tableLanes b
      if ls.isEmpty then s.endPkt q p.seq stOk 0 0
      else (ls.foldl (fun s n => s.updLane n fun l => { l with fills := l.fills ++ [(q, p.seq, none)] }) s).updPkt q p.seq fun p => { p with left := ls.length }

/-- The bank that a fill takes: one that no job holds, not the current one where it can (R360). -/
def Lane.fillBank (l : Lane) : Option Nat :=
  let held := fun b => l.jobs.any fun j => j.2.2 == some b
  if !held (1 - l.cur) then some (1 - l.cur) else if !held l.cur then some l.cur else none

/-- The words of a bank (R393). -/
def bankOf (bs : List Byte) : Store DWord :=
  (List.range ((bs.length + 7) / 8)).foldl (fun m i => Store.set 0 m i (BitVec.ofNat 64 (leNat ((bs.drop (8 * i)).take 8)))) []

/-- A TABLE leaves every lane where it waits. -/
def State.dropFills (s : State) (q seq : Nat) : State :=
  { s with lanes := s.lanes.map fun e => (e.1, { e.2 with fills := e.2.fills.filter fun f => !(f.1 == q && f.2.1 == seq) }) }

/-- TABLE_FILL_DONE (R360): the lane's oldest load fills a bank and makes it current; a later one waits until that TABLE has completed on all its lanes. -/
def execTableFillDone (lane : Nat) (s : State) : Out :=
  let l := s.lane lane
  match l.fills, l.fillBank with
  | (q, seq, none) :: rest, some b =>
    let k := s.queue q
    match findBy (fun x : Pkt => x.seq == seq) k.pkts with
    | none => .next (s.updLane lane fun l => { l with fills := rest })
    | some p =>
      if !s.mayRun 4 p.clk then .next s
      else match s.pktRead k p (fieldAt p.bytes 0x10 8) (fieldAt p.bytes 0x18 4) with
      | .error c => .next ((s.dropFills q seq).faultPkt q k p (fieldAt p.bytes 0x10 8) c)
      | .ok bs =>
        let s := s.touchVa (p.port k) (fieldAt p.bytes 0x10 8) (bs.length / 128 + 2) bs.length
        let s := s.updLane lane fun l => { (if b = 0 then { l with bank0 := bankOf bs } else { l with bank1 := bankOf bs }) with cur := b, fills := (q, seq, some b) :: rest }
        let s := s.updPkt q seq fun p => { p with left := p.left - 1 }
        .next (if p.left ≤ 1 then (s.dropFills q seq).endPkt q seq stOk 0 0 else s)
  | _, _ => .next s

/-! ### SIGNAL (R366) -/

/-- The failing offsets of a SIGNAL body. -/
def signalBad (b : List Byte) : List Nat :=
  let op := fieldAt b 0x20 1
  failing [(0x10, decide (op ≤ 2) && decide (fieldAt b 0x10 8 % (if op = 2 then 4 else 8) ≠ 0)), (0x20, decide (2 < op))] ++ restBad b 0x21

/-- The write of a SIGNAL at its home (R366). -/
def State.signalWrite (s : State) (q : Nat) (k : Queue) (p : Pkt) : State :=
  let b := p.bytes
  let op := fieldAt b 0x20 1
  let n := if op = 2 then 4 else 8
  match s.check [] k.tenant p.asid (fieldAt b 0x10 8) n (if op = 1 then .atomic else .write) with
  | .error c => s.endPkt q p.seq stFault c 0
  | .ok tr =>
    if s.linkDown tr.key || (op = 1 && s.poison.any fun e => e.2 && decide (tr.key ≤ e.1) && decide (e.1 < tr.key + 8)) then s.faultPkt q k p (fieldAt b 0x10 8) clsEcc
    else
      let clk := if op = 1 then p.clk.max (s.locClks tr.key 8) else p.clk
      let v := fieldAt b 0x18 8 + (if op = 1 then s.locNat tr.key 8 else 0)
      match s.chanWrite (p.port k) clk tr.key (leBytes v n) with
      | (s, clk, 0) => (s.updPkt q p.seq fun p => { p with clk := clk }).endPkt q p.seq stOk 0 n
      | (s, _, c) => s.endPkt q p.seq stFault c 0

/-- A page that a packet would write is under migration, and the packet waits (R400). -/
def State.writeWaits (s : State) (k : Queue) (p : Pkt) (va : Nat) : Bool :=
  match s.translate [] k.tenant p.asid va with
  | .ok tr => tr.moving
  | .error _ => false

/-- SIGNAL: its write waits for what it follows, and for a migration of its page (R314, R366, R400). -/
def execSignal (q : Nat) (s : State) : Out :=
  if s.startHeld q 6 (fun _ p => signalBad p.bytes) (fun k p => s.writeWaits k p (fieldAt p.bytes 0x10 8) || !s.pktMay k p) then .next s
  else s.beginPkt q 6 (fun _ p => signalBad p.bytes) fun k p s => s.signalWrite q k p

/-! ### WAIT (R367) -/

/-- The failing offsets of a WAIT body. -/
def State.waitBad (s : State) (k : Queue) (b : List Byte) : List Nat :=
  let kind := fieldAt b 0x18 1
  let n := fieldAt b 0x1A 2
  failing [(0x18, decide (3 < kind)), (0x19, decide (fieldAt b 0x19 1 ≠ 0)),
    (0x1A, if kind = 0 then decide (2048 ≤ n) || (s.queue n).tenant != k.tenant else if kind = 1 then decide (64 ≤ n) else decide (n ≠ 0)),
    (0x1C, decide (fieldAt b 0x1C 4 ≠ 0)), (0x20, if kind ≤ 1 then decide (fieldAt b 0x20 8 ≠ 0) else decide (fieldAt b 0x20 8 % 8 ≠ 0))] ++ restBad b 0x28

/-- WAIT_PACKET: the packet starts to block its queue. -/
def execWaitPacket (q : Nat) (s : State) : Out := s.beginPkt q 7 (fun k p => s.waitBad k p.bytes) fun _ _ s => s

/-- A WAIT's condition: the clock it acquires, nothing while it does not hold, or a fault of its read. -/
def State.waitMet (s : State) (k : Queue) (p : Pkt) : Except Nat (Option VC) :=
  let b := p.bytes
  let n := fieldAt b 0x10 8
  let i := fieldAt b 0x1A 2
  match fieldAt b 0x18 1 with
  | 0 => .ok (if n ≤ (s.queue i).timeline then some (s.queue i).tlClk else none)
  | 1 => let c := s.chan (.die (i / 16) (i % 16)); .ok (if n ≤ c.timeline then some c.tlClk else none)
  | kind =>
    match s.check [] k.tenant p.asid (fieldAt b 0x20 8) 8 .read with
    | .error c => .error c
    | .ok tr =>
      if s.linkDown tr.key || s.poison.any fun e => e.2 && decide (tr.key ≤ e.1) && decide (e.1 < tr.key + 8) then .error clsEcc
      else
        let v := s.locNat tr.key 8
        .ok (if s.homeReady (s.homeOf tr.key) p.clk && (if kind = 2 then decide (n ≤ v) else v != n) then some (s.locClks tr.key 8) else none)

/-- The WAIT that blocks a queue. -/
def Queue.blocker (k : Queue) : Option Pkt := findBy (fun p : Pkt => p.started && p.result.isNone && p.type == 7) k.pkts

/-- WAIT_PACKET_DONE (R367). -/
def execWaitPacketDone (q : Nat) (s : State) : Out :=
  let k := s.queue q
  match k.blocker with
  | none => .next s
  | some p =>
    match s.waitMet k p with
    | .error c => .next (s.faultPkt q k p (fieldAt p.bytes 0x20 8) c)
    | .ok none => .next s
    | .ok (some c) =>
      .next (((s.updQueue q fun k => { k with clk := k.clk.max c }).updPkt q p.seq fun p => { p with clk := p.clk.max c }).endPkt q p.seq stOk 0 0)

/-! ### SEAL (R368) -/

/-- The region that a SEAL names. -/
def State.sealTarget (s : State) (k : Queue) (p : Pkt) : Option Region :=
  match s.checkAppend [] k.tenant p.asid (fieldAt p.bytes 0x10 8) with
  | .ok tr => tr.region
  | .error _ => none

/-- SEAL_PACKET: a seal or free at the region's home, tracked as an operation of no thread. -/
def execSealPacket (q : Nat) (s : State) : Out :=
  s.beginPkt q 8 (fun _ p => failing [(0x18, decide (fieldAt p.bytes 0x18 1 / 2 ≠ 0))] ++ restBad p.bytes 0x19) fun k p s =>
    match s.sealTarget k p with
    | none => s.endPkt q p.seq stFault clsPermission 0
    | some r =>
      let free := bitAt (fieldAt p.bytes 0x18 1) 0
      let id := s.nextId
      let o : Op := { id := 0, team := ⟨0, 0, false⟩, core := 0, gids := [], flag := none, cls := 2, kind := if free then .free r.id else .seal r.id }
      let s := (s.addOp o).updPkt q p.seq fun p => { p with left := id }
      if free then s.freeAt r.id none
      else (s.sealAt r.id none).updOp id fun o => { o with isReady := decide (2 ≤ r.st) }

/-- A started SEAL whose operation has completed. -/
def State.sealPktOver (s : State) (p : Pkt) : Bool := p.type == 8 && p.started && p.result.isNone && (s.findOp p.left).isNone

/-! ### MIGRATE (R398 to R400) -/

/-- A pool of a die, tier and page size. -/
def poolFits (c die tier size : Nat) : Bool := bitAt c 0 && decide (bitsOf c 2 2 = die) && decide (bitsOf c 4 1 = tier) && decide (bitsOf c 5 2 = size)

/-- The pool for a page: the region's where it fits, else the lowest-numbered that does (R398). -/
def State.poolFor (s : State) (tenant die tier size : Nat) (r : Option Region) : Option Nat :=
  let fits := fun p => poolFits (s.pool tenant p).cfg.toNat die tier size
  match r with
  | some g => if fits g.pool then some g.pool else (List.range 16).find? fits
  | none => (List.range 16).find? fits

/-- The page that a MIGRATE names. -/
structure MovePlan where
  tr : Tr
  size : Nat
  frame : Nat
  die : Nat
  tier : Nat
  deriving DecidableEq, Repr

def MovePlan.bytes (m : MovePlan) : Nat := 2 ^ levelShift m.tr.level

def State.movePlan (s : State) (k : Queue) (p : Pkt) : Except Nat MovePlan :=
  match s.translate [] k.tenant p.asid (fieldAt p.bytes 0x10 8) with
  | .error c => .error c
  | .ok tr =>
    .ok { tr := tr, size := tr.level, frame := bitsOf tr.entry 16 36 * 65536, die := bitsOf (fieldAt p.bytes 0x18 1) 0 2, tier := bitsOf (fieldAt p.bytes 0x18 1) 2 1 }

/-- What ends a MIGRATE at its start: status and detail, with nothing changed (R398); nothing where it goes on. -/
def State.moveEnds (s : State) (k : Queue) (m : MovePlan) (p : Pkt) : Option (Nat × Nat) :=
  if fieldAt p.bytes 0x10 8 % m.bytes ≠ 0 || (m.tr.backed && bitsOf m.tr.entry 53 2 ≠ 0) then some (stReject, 0x10)
  else if (m.tr.region.map fun r => r.home != m.die).getD false then some (stReject, 0x18)
  else if !m.tr.backed then some (stOk, 0)
  else
    match s.poolFor k.tenant m.die m.tier m.size m.tr.region, s.poolFor k.tenant (dieOfPa m.frame) (tierOfPa m.frame) m.size m.tr.region with
    | some a, some _ =>
      if (s.pool k.tenant a).frames.isEmpty then some (stFault, clsAlloc)
      else if m.die = dieOfPa m.frame && m.tier = tierOfPa m.frame then some (stOk, 0)
      else none
    | _, _ => some (stReject, 0x18)

/-- A write of the page that was translated through the old leaf is still to be applied at the old frame. -/
def State.pageBusy (s : State) (m : MovePlan) (mark : Nat) : Bool :=
  s.writes.any fun w => decide (w.id < mark) && decide (m.tr.key ≤ w.key) && decide (w.key < m.tr.key + m.bytes)

/-- Set M in the page's leaf, dropping cached copies (R399). -/
def State.setMoving (s : State) (k : Queue) (p : Pkt) (m : MovePlan) : State :=
  s.setEntry k.tenant p.asid (fieldAt p.bytes 0x10 8) m.tr.level (m.tr.entry + 2 ^ 52)

/-- The failing offsets of a MIGRATE body. -/
def migrateBad (b : List Byte) : List Nat := failing [(0x18, decide (fieldAt b 0x18 1 / 8 ≠ 0))] ++ restBad b 0x19

/-- MIGRATE: the checks, then step 1 of R399; it waits for a migration of the same page. -/
def execMigrate (q : Nat) (s : State) : Out :=
  match s.starting q 9 with
  | none => .next s
  | some p =>
    let plan := s.movePlan (s.queue q) p
    let wait := match plan with
      | .ok m => m.tr.moving
      | .error _ => false
    if s.startHeld q 9 (fun _ p => migrateBad p.bytes) (fun _ _ => wait) then .next s
    else s.beginPkt q 9 (fun _ p => migrateBad p.bytes) fun k p s =>
      match plan with
      | .error c => s.endPkt q p.seq stFault c 0
      | .ok m =>
        match s.moveEnds k m p with
        | some (st, d) => s.endPkt q p.seq st d 0
        | none =>
          match s.poolFor k.tenant m.die m.tier m.size m.tr.region with
          | none => s
          | some a =>
            match s.takeFrame k.tenant a with
            | none => s
            | some (f, s) => (s.setMoving k p m).updPkt q p.seq fun p => { p with frame := f + 1, mark := s.nextId }

/-- The place of a location once its page has moved. -/
def moveKey (m : MovePlan) (to_ k : Nat) : Nat := if m.tr.key ≤ k && k < m.tr.key + m.bytes then to_ + (k - m.tr.key) else k

/-- Move the entries of a store that lie in a page. -/
def moveStore {α : Type} [DecidableEq α] (z : α) (m : MovePlan) (to_ : Nat) (st : Store α) : Store α :=
  let keep := st.filter fun e => !(decide (to_ ≤ e.1) && decide (e.1 < to_ + m.bytes))
  (st.filter fun e => decide (m.tr.key ≤ e.1) && decide (e.1 < m.tr.key + m.bytes)).foldl (fun x e => Store.set z x (moveKey m to_ e.1) e.2) keep

/-- A write under way has a new home, which has not had it yet: that home's watermark stands below it (R314). -/
def State.lower (s : State) (home origin stamp : Nat) : State :=
  { s with watermark := Store.upd 0 s.watermark (home * 5 + origin) (Nat.min · (stamp - 1)) }

/-- An ordinary page's bytes and all that names its locations move to a new frame; no core keeps a line of either frame (R399). -/
def State.moveOrdinary (s : State) (m : MovePlan) (to_ : Nat) : State :=
  let home := dieOfPa to_
  let inPage := fun k => decide (m.tr.key ≤ k) && decide (k < m.tr.key + m.bytes)
  let stays := fun k => !inPage k && !(decide (to_ ≤ k) && decide (k < to_ + m.bytes))
  let s := (s.writes.filter fun w => inPage w.key).foldl (fun s w => s.lower home w.origin w.stamp) s
  { s with
    cores := s.cores.map fun e => (e.1, { e.2 with l1 := e.2.l1.filter fun x => stays (128 * x.1), badL1 := Store.dropKeys e.2.badL1 fun x => !stays x })
    mem := moveStore 0 m to_ s.mem
    forms := takeForms s.forms to_ m.bytes (Store.get none s.forms (m.tr.key / 65536))
    clks := moveStore {} m to_ s.clks
    flips := moveStore false m to_ s.flips
    sys := s.sys.map fun o => { o with src := moveKey m to_ o.src, job := match o.job with
      | .snapshot l page => .snapshot l (moveKey m to_ page)
      | j => j }
    moorings := mapIf (fun x => inPage x.key) (fun x => { x with key := moveKey m to_ x.key, home := home }) s.moorings
    writes := mapIf (fun w => inPage w.key) (fun w => { w with key := moveKey m to_ w.key, home := home }) s.writes
    ops := s.ops.map fun o => { o with accs := mapIf (fun a => !a.done && inPage a.key) (fun a => { a with key := moveKey m to_ a.key, home := home }) o.accs }
    launches := s.launches.map fun l => { l with snaps := l.snaps.map fun e => match e with
      | .copy page f pool size none c bs => if page = m.tr.key then .copy to_ f pool size none c (bs.map fun b => (moveKey m to_ b.1, b.2)) else e
      | _ => e } }

/-- Abandon a migration: M clears and the new frame returns to its pool (R399). -/
def State.abandonMove (s : State) (q : Nat) (k : Queue) (p : Pkt) (m : MovePlan) (c : Nat) : State :=
  let s := (s.setEntry k.tenant p.asid (fieldAt p.bytes 0x10 8) m.tr.level (m.tr.entry - 2 ^ 52)).sysDrop fun j => j == .move q p.seq
  let s := match s.poolFor k.tenant m.die m.tier m.size m.tr.region with
    | some a => s.giveFrame k.tenant a (p.frame - 1)
    | none => s
  s.endPkt q p.seq stFault c 0

/-- The migration of a queue whose copy is being made. -/
def Queue.mover (k : Queue) : Option Pkt := findBy (fun p : Pkt => p.frame != 0 && p.result.isNone) k.pkts

/-- Step 2 of R399 begins once every write translated through the old leaf has been applied: a system channel of the target die copies the page. -/
def State.moveStart (s : State) (q : Nat) (k : Queue) (p : Pkt) : State :=
  match s.movePlan k p with
  | .ok m => if m.tr.moving && !s.pageBusy m p.mark then s.sysStart m.die k.tenant (.move q p.seq) m.tr.key m.bytes else s
  | .error _ => s

/-- The copy of a migration has come to its end, or to an error. -/
def State.moveCopied (s : State) (q : Nat) (p : Pkt) : Bool :=
  s.sysDone (.move q p.seq) || (match s.sysOf (.move q p.seq) with
    | some o => s.sysHead o.die o.chan == some o && s.sysBad o
    | none => false)

/-- Steps 3 to 5 of R399. -/
def State.finishMove (s : State) (q : Nat) (k : Queue) (p : Pkt) (m : MovePlan) : State :=
  let to_ := p.frame - 1
  let home := dieOfPa to_
  let here := (s.moorings.filter fun x => decide (m.tr.key ≤ x.key) && decide (x.key < m.tr.key + m.bytes) && x.reader.isNone).length
  if s.badAt m.tr.key m.bytes then (s.sawBad m.tr.key).abandonMove q k p m clsEcc
  else if home ≠ dieOfPa m.frame && mooringRoom home < (s.moorings.filter fun x => x.home == home && x.reader.isNone).length + here then s.abandonMove q k p m clsAlloc
  else
    let s := s.sysDrop fun j => j == .move q p.seq
    let s := match m.tr.region with
      | some r => s.updRegion r.id fun g => { g with pages := Store.upd none g.pages (g.pageOf (fieldAt p.bytes 0x10 8 % 2 ^ 57)) (Option.map fun x => { x with frame := to_ }) }
      | none => s.moveOrdinary m to_
    let s := s.setEntry k.tenant p.asid (fieldAt p.bytes 0x10 8) m.tr.level (m.tr.entry - 2 ^ 52 - m.frame + to_)
    let s := match s.poolFor k.tenant (dieOfPa m.frame) (tierOfPa m.frame) m.size m.tr.region with
      | some a => s.giveFrame k.tenant a m.frame
      | none => s
    s.endPkt q p.seq stOk 0 m.bytes

/-- MIGRATION_COPY_DONE (R399). -/
def execMigrationCopyDone (q : Nat) (s : State) : Out :=
  let k := s.queue q
  match k.mover with
  | none => .next s
  | some p =>
    match s.movePlan k p with
    | .ok m =>
      if !m.tr.moving then .next ((s.sysDrop fun j => j == .move q p.seq).endPkt q p.seq stFault clsTranslation 0)
      else if s.moveCopied q p then .next (s.finishMove q k p m)
      else .next s
    | .error c => .next ((s.sysDrop fun j => j == .move q p.seq).endPkt q p.seq stFault c 0)

/-! ### Channels and lanes at work (R350 to R354, R357 to R359) -/

/-- The head operation of a channel. -/
def Chan.head (c : Chan) : Option ChOp := c.ops.head?

/-- The die that stamps the writes of an operation: its channel's, or its transducer lane's own (R311, R357). -/
def opOrigin (ch : ChanId) (o : ChOp) : Nat := match o.lane with
  | some n => n / 16
  | none => chanOrigin ch

/-- What the head operation of a channel does when it runs. -/
def State.runHead (s : State) (ch : ChanId) (o : ChOp) : Ran :=
  let p := o.port (opOrigin ch o)
  match o.ended with
  | some (st, d) => s.endsWith p o st d
  | none =>
    match chanReject (chanIsCore ch) 3 o.bytes with
    | some off => s.endsWith p { o with done := 0 } stReject off
    | none =>
      match fieldAt o.bytes 0 1 with
      | 3 => s.runCopym ch o
      | 4 =>
        let n := o.lane.getD 0
        let l := s.lane n
        let bank := ((findBy (fun j : ChanId × Nat × Option Nat => j.1 == ch && j.2.1 == o.seq) l.jobs).bind (·.2.2)).getD l.cur
        s.runXform (opOrigin ch o) n bank o
      | _ => s.runCopy ch o

/-- A transform is first at its lane, or has no lane. -/
def State.laneTurn (s : State) (ch : ChanId) (o : ChOp) : Bool :=
  match o.lane with
  | none => true
  | some n => match (s.lane n).jobs with
    | j :: _ => j.1 == ch && j.2.1 == o.seq
    | [] => true

/-- The head operation of a channel may run: its lane is free for it, and its homes are ready. -/
def State.headRuns (s : State) (ch : ChanId) (o : ChOp) : Bool :=
  o.ended.isSome || (s.laneTurn ch o && s.mayRun (opOrigin ch o) o.obs)

/-- The operation claims of an APPEND region. -/
def State.claims (s : State) (ch : ChanId) (o : ChOp) : Bool :=
  o.claim.isSome || ((fieldAt o.bytes 0 1 == 2 || fieldAt o.bytes 0 1 == 4) && (s.appendDst (o.port (opOrigin ch o)) o.spaces.2 o.dst).isSome)

/-- The outrider of the head operation runs on, unless it waits for an answer: the state, and the fault it has met (R352). -/
def State.outriderOn (s : State) (ch : ChanId) (o : ChOp) : State × Option (Nat × Nat) :=
  if o.waitSeq ≠ 0 || o.ended.isSome || (chanReject (chanIsCore ch) 3 o.bytes).isSome then (s, none)
  else
    let (s, n, f) := s.outrun (o.port (opOrigin ch o)) o (s.claims ch o)
    (s.updChan ch fun c => match c.ops with
      | x :: r => { c with ops := { x with page := n } :: r }
      | [] => c, f)

/-- A mode 0 job captures its lane's current bank when it starts (R359). -/
def State.captureBank (s : State) (ch : ChanId) (o : ChOp) : State :=
  match o.lane with
  | some n => if fieldAt o.bytes 0x28 1 = 0 then s.updLane n fun l => { l with jobs := mapIf (fun j : ChanId × Nat × Option Nat => j.1 == ch && j.2.1 == o.seq && j.2.2.isNone) (fun j => (j.1, j.2.1, some l.cur)) l.jobs } else s
  | none => s

/-- The operation leaves its lane. -/
def State.leaveLane (s : State) (ch : ChanId) (o : ChOp) : State :=
  match o.lane with
  | some n => s.updLane n fun l => { l with jobs := l.jobs.filter fun j => !(j.1 == ch && j.2.1 == o.seq) }
  | none => s

/-- The head operation runs as far as it can: it completes, or keeps what it has done. -/
def State.runChannel (s : State) (ch : ChanId) (o : ChOp) : State :=
  let s := s.captureBank ch o
  let r := s.runHead ch o
  match r.status with
  | some (st, d) =>
    let x := if o.pkt.isNone then s.recordHeld (o.port (opOrigin ch o)) o.bytes else (s, false)
    if x.2 then x.1
    else (r.x.s.leaveLane ch o).retireOp ch o r.x.obs st d (if st = stReject then 0 else r.x.done) r.x.lines |>.barriers
  | none => r.x.s.keepPass ch r

/-- CHANNEL_OP_COMPLETE (R351): the outrider of the head operation runs ahead and its data pass writes its next lines in ascending order (R250, R350, R352); with the last of them the operation completes. A system channel copies its next lines (R353). -/
def execChannelOpComplete (ch : ChanId) (s : State) : Out :=
  match ch with
  | .system d n => .next (s.sysStep d n)
  | _ =>
    match (s.chan ch).head with
    | none => .next s
    | some o =>
      if !s.headRuns ch o then .next s
      else
        let s := (s.outriderOn ch o).1
        .next (s.runChannel ch ((s.chan ch).head.getD o))

/-- OUTRIDER_FAULT (R352): the outrider meets a fault: a record is made, and it waits for an answer; the data pass goes on up to the page. -/
def execOutriderFault (ch : ChanId) (s : State) : Out :=
  match (s.chan ch).head with
  | none => .next s
  | some o =>
    if !s.headRuns ch o then .next s
    else
      match s.outriderOn ch o with
      | (t, some (c, a)) =>
        let (seq, t) := t.makeRec o.tenant
          { kind := 2, cls := c, launch := if o.pkt.isNone then o.launch else 0, team := if o.pkt.isNone then o.team.team else 0xFFFFFFFF
            num := (o.pkt.map (·.1)).getD (chanNum ch), addr := a, pkt := (o.pkt.map (·.2)).getD o.seq }
        let t := if c = clsEcc then t.count (8192 + chanOrigin ch) 0x88 1 else t
        .next (t.updChan ch fun c => match c.ops with
          | x :: r => { c with ops := { x with waitSeq := seq } :: r }
          | [] => c)
      | (_, none) => .next s

/-- TRANSDUCER_JOB_END (R359): the first job of a lane runs to its end. -/
def execTransducerJobEnd (lane : Nat) (s : State) : Out :=
  match (s.lane lane).jobs with
  | [] => .next s
  | j :: _ => match (s.chan j.1).head with
    | some o => if o.seq = j.2.1 then execChannelOpComplete j.1 s else .next s
    | none => .next s

/-! ### PACKET_COMPLETE (R51, R342, R395) -/

/-- A launch has nothing left to run: every index issued and every team ended, or its abort's operations done; its writes are applied. -/
def State.launchOver (s : State) (l : Launch) : Bool :=
  !(s.rollbacks.any fun r => r.1 == l.id) && !(s.writes.any fun w => w.launch == some l.id && !w.bytes.isEmpty) &&
  (if l.aborted.isSome then !s.chans.any fun e => e.2.ops.any fun o => o.pkt.isNone && o.launch == l.id
   else (List.range 4).all (fun d => l.left d = 0) && l.pulled.isEmpty && l.running = 0)

/-- The frames of a snapshot entry go to their pools (R395). -/
def State.dropSnap (s : State) (tenant : Nat) (e : Snap) : State :=
  match e with
  | .copy _ f pool _ _ _ _ => s.giveFrame tenant pool f
  | .allocated _ _ => s
  | .released r _ f => match s.findRegion r with
    | some g => s.giveFrame tenant g.pool f
    | none => s
  | .append r _ _ _ _ _ pages => match s.findRegion r with
    | some g => pages.foldl (fun s p => match p.2 with
        | some x => s.giveFrame tenant g.pool x.frame
        | none => s) s
    | none => s

/-- The bits of DBGCTL that tell of a launch clear when it ends. -/
def Tenant.launchGone (t : Tenant) (id : Nat) : Tenant := if bitsOf t.dbgsel.toNat 32 32 = id then ((t.dbgBit 16 false).dbgBit 17 false).dbgBit 18 false else t

/-- A launch ends: its teams' remains, reserved frames, snapshot set and images go; the sub-arrays it used are remembered (R309, R395, R443, R450). -/
def State.retireLaunch (s : State) (l : Launch) : State :=
  let s := (s.teams.filter fun t => t.id.launch == l.id).foldl (fun s t => s.removeCopy l t.id) s
  let s := (s.writes.filter fun w => w.launch == some l.id && w.bytes.isEmpty).foldl State.dropWrite s
  let s := ({ s with ops := s.ops.filter fun o => !(o.team.launch == l.id && !o.gids.isEmpty) } : State).sweepSlaved
  let s := s.sysDrop fun j => match j with
    | .snapshot x _ => x == l.id
    | .undo x => x == l.id
    | .save id => id.launch == l.id
    | .back id _ => id.launch == l.id
    | .move _ _ => false
  let s := l.reserved.foldl (fun s e => match s.findRegion e.1 with
    | some g => s.giveFrame l.tenant g.pool e.2.2
    | none => s) s
  let s := l.snaps.foldl (fun s e => s.dropSnap l.tenant e) s
  let s := l.keptFrames.foldl (fun s e => s.giveFrame l.tenant e.1 e.2) s
  let s := s.updTenant l.tenant fun t => ({ t with kept := t.kept.filter fun k => k.1 != l.id } : Tenant).launchGone l.id
  { s with launches := s.launches.filter fun x => x.id != l.id
           doneUses := s.doneUses ++ l.used.map fun u => (l.id, l.tenant, u.1, u.2) }

/-- A launch whose packet completes: the state without it, with the packet's result. -/
def State.finishLaunch (s : State) (q seq : Nat) (l : Launch) : State :=
  let obs := VC.maxAll ((s.teams.filter fun t => t.id.launch == l.id).flatMap fun t => t.threads.map (·.obs))
  let s := (s.retireLaunch l).updPkt q seq fun p => { p with clk := (p.clk.max l.endClk).max obs }
  match l.aborted with
  | some c => s.endPkt q seq stFault c 0
  | none => s.endPkt q seq stOk 0 0

/-- Raise a timeline over the completions that follow it (R342). -/
def Queue.advance (k : Queue) : Nat → Queue
  | 0 => k
  | n + 1 => if k.fin.contains (k.timeline + 1) then Queue.advance { k with timeline := k.timeline + 1, fin := k.fin.filter fun x => x != k.timeline + 1 } n else k

/-- The packet completes: its record, then its timeline (R341, R342). -/
def State.closePkt (s : State) (q : Nat) (p : Pkt) (r : Nat × Nat × Nat) : State :=
  let k := s.queue q
  let (s, clk) := s.complete (p.port k) p.clk p.bytes q (if p.type = 1 then q * 2 ^ 21 + p.seq % 2 ^ 21 else 0) 0xFFFFFFFF p.seq r.1 r.2.1 r.2.2
  (s.updQueue q fun k =>
    ({ k with pkts := k.pkts.filter fun x => x.seq != p.seq, fin := k.fin ++ [p.seq], tlClk := k.tlClk.max clk } : Queue).advance (k.fin.length + 1)).wakeTimelines

/-- The state once the effect of a packet that has ended is noted: a launch over, a seal done, a type that names nothing rejected. -/
def State.noteEnd (s : State) (q : Nat) (p : Pkt) : State :=
  if p.result.isSome then s
  else if p.type = 1 && p.started then
    match findBy (fun l : Launch => l.q == q && l.seq == p.seq) s.launches with
    | some l => if s.launchOver l then s.finishLaunch q p.seq l else s
    | none => s
  else if s.sealPktOver p then
    let c := ((s.sealTarget (s.queue q) p).map (·.tailClk)).getD {}
    (s.updPkt q p.seq fun p => { p with clk := p.clk.max c }).endPkt q p.seq stOk 0 0
  else if (p.type = 0 || 9 < p.type) && s.starting q p.type == some p then (s.startPkt q p).endPkt q p.seq stReject 0 0
  else s

/-- A packet's completion record must wait: its home has not applied what it follows, or a word of it lies in a page under migration (R314, R341, R400). -/
def State.closeHeld (s : State) (q : Nat) (p : Pkt) : Bool :=
  bitAt (fieldAt p.bytes 1 1) 0 &&
  (!s.mayRun 4 p.clk || s.writeWaits (s.queue q) p (fieldAt p.bytes 8 8) || s.writeWaits (s.queue q) p (fieldAt p.bytes 8 8 + 8))

/-- PACKET_COMPLETE (R342): where its record must wait, nothing of the completion is done. -/
def execPacketComplete (q seq : Nat) (s : State) : Out :=
  match findBy (fun x : Pkt => x.seq == seq) (s.queue q).pkts with
  | none => .next s
  | some p =>
    let t := s.noteEnd q p
    match findBy (fun x : Pkt => x.seq == seq) (t.queue q).pkts with
    | some p => match p.result with
      | some r => .next (if t.closeHeld q p then s else t.closePkt q p r)
      | none => .next s
    | none => .next s

end Sys2Proof.Machine
end

