-- ==== Sys2Proof/Machine/Recovery.lean ====
section
/-! DEFINITION. Faults and recovery: answers and the fault channel (R421 to R423), aborts, watchdogs and escalations (R404, R405, R440 to R443), rollback (R267, R277, R310, R395, R445, R446), the comparison of redundant copies (R309, R448, R449), and the counters' sweep (R411). -/
namespace Sys2Proof.Machine

/-! ### Abort (R443) -/

/-- A launch is aborted with a class: it issues no more, its kind 7 record is made, and it completes once its submitted operations have. -/
def State.abort (s : State) (id c : Nat) : State :=
  match s.findLaunch id with
  | none => s
  | some l =>
    if l.aborted.isSome then s
    else
      let s := s.updLaunch id fun l => { l with aborted := some c, tickets := [], pulled := [] }
      let s := ({ s with rollbacks := s.rollbacks.filter fun r => r.1 != id } : State).sysDrop fun j => j == .undo id
      (s.makeRec l.tenant { kind := 7, cls := c, launch := id, red := bit l.redundant }).2

/-! ### Escalation (R405, R442) -/

/-- A packet that has started and not completed, other than a launch, ends with FAULT, class WATCHDOG. -/
def State.killPkt (s : State) (q : Nat) (p : Pkt) : State :=
  if !p.started || p.result.isSome || p.type = 1 then s
  else if p.frame ≠ 0 then
    match s.movePlan (s.queue q) p with
    | .ok m => s.abandonMove q (s.queue q) p m clsWatchdog
    | .error _ => s.endPkt q p.seq stFault clsWatchdog 0
  else if 2 ≤ p.type && p.type ≤ 4 then
    { s with chans := s.chans.map fun e => (e.1, { e.2 with ops := mapIf (fun o : ChOp => o.pkt == some (q, p.seq)) (fun o => { o with ended := some (stFault, clsWatchdog), waitSeq := 0 }) e.2.ops }) }
  else (s.dropFills q p.seq).endPkt q p.seq stFault clsWatchdog 0

/-- A level-3 escalation resets a command processor: its launches abort, its started packets end, and it reads each queue again at its read index (R442). -/
def State.resetCp (s : State) (cp : Nat) : State :=
  let s := (s.launches.filter fun l => l.q / 256 == cp).foldl (fun s l => s.abort l.id clsWatchdog) s
  (s.queues.filter fun e => e.1 / 256 == cp).foldl (fun s e =>
    let s := e.2.pkts.foldl (fun s p => s.killPkt e.1 p) s
    match s.readerKey e.2 (e.2.qindex.toNat + 8) 8 8 .read with
    | .ok k => if e.2.enabled then s.updQueue e.1 fun x => { x with rpos := s.locNat k 8, faultSeq := 0, due := true, step := 0 } else s
    | .error _ => s) s

/-- A rise of a command processor's level-3 count. -/
def State.levelThree (s : State) (cp : Nat) : State :=
  let lim := Nat.max 1 (bitsOf s.wdesc.toNat 16 16)
  let n := (Store.get {} s.level3 cp).count + 1
  if lim ≤ n then ({ s with level3 := Store.set {} s.level3 cp { count := 0, last := s.hub } } : State).resetCp cp
  else { s with level3 := Store.set {} s.level3 cp { count := n, last := s.hub } }

/-- A level-1 expiry on a quadrant, of a launch: the cluster's count rises, and at its limit the launch of the latest expiry aborts (R405, R442). -/
def State.expire (s : State) (quad launch : Nat) : State :=
  let s := s.count quad 0x1E 1
  let cl := clusterOf (coreOfQuad quad)
  let n := (Store.get {} s.level2 cl).count + 1
  let set := fun (s : State) k => { s with level2 := Store.set {} s.level2 cl { count := k, last := s.now quad, lastLaunch := launch } }
  if Nat.max 1 (bitsOf s.wdesc.toNat 0 16) ≤ n then
    ((set s 0).abort launch clsWatchdog).levelThree ((s.launch launch).q / 256)
  else set s n

/-- LEVEL_2_COUNT_DECAY (R405). -/
def execLevel2CountDecay (cluster : Nat) (s : State) : Out :=
  let x := Store.get {} s.level2 cluster
  if x.count ≠ 0 && x.last + 2 ^ 24 ≤ (s.die (cluster / 24)).clock then .next { s with level2 := Store.set {} s.level2 cluster { x with count := 0 } }
  else .next s

/-- LEVEL_3_COUNT_DECAY (R405). -/
def execLevel3CountDecay (cp : Nat) (s : State) : Out :=
  let x := Store.get {} s.level3 cp
  if x.count ≠ 0 && x.last + 2 ^ 28 ≤ s.hub then .next { s with level3 := Store.set {} s.level3 cp { x with count := 0 } }
  else .next s

/-- SCHEDULING_LOOP_STALL (R442). -/
def execSchedulingLoopStall (cp : Nat) (s : State) : Out := if cp < 8 then .next (s.levelThree cp) else .next s

/-! ### Watchdogs (R404, R440, R441) -/

/-- The limit of the spin and handler counts (R440). -/
def State.spinLimit (s : State) (tenant : Nat) : Nat := Nat.max 65536 (bitsOf (s.tenant tenant).wdctl.toNat 0 32)
/-- The limit of the wait count, 0 for none. -/
def State.waitLimit (s : State) (tenant : Nat) : Nat := bitsOf (s.tenant tenant).wdctl.toNat 32 32 * 1024

/-- A code word of a launch as a quadrant's core holds or would fetch it, 0 where it cannot. -/
def State.wordAt (s : State) (quad : Nat) (l : Launch) (va : Nat) : Nat :=
  match s.fetchWord quad l.tenant l.asid va va with
  | .ok (w, _) => w
  | .error _ => 0

/-- The header and words kept for a clause in whose middle a thread stands (R161). -/
def State.keptWords (s : State) (id : TeamId) (i : Nat) : List Nat :=
  let h := s.thread id i
  match h.st with
  | .issuing gid => (s.grp gid).words
  | _ => h.words

/-- Park some threads of a team at a position as a sub-group of their own, out of the group they stand in: a split where it has other members, else that group as it stands, its demotion with it (R34, R37, R41, R501). In the middle of a clause it keeps the words fetched for it, those of its first thread (R161; DESIGN CHOICE, log entry 62). -/
def State.parkAt (s : State) (id : TeamId) (quad : Nat) (is : List Nat) (pc word : Nat) (p : Park) : State :=
  let l := s.launch id.launch
  let sid := s.nextId
  let old := findBy (fun g : Grp => g.team == id && g.park.isNone && is.any g.members.contains) s.groups
  let whole := (old.map (·.members)) == some is
  let words := if word = 0 then [] else s.keptWords id (is.headD 0)
  let at_ := fun n => words.getD n (s.wordAt quad l (pc + 4 * n))
  let len := if isLong (at_ (1 + word)) then 2 else 1
  let handler := is.foldl (fun n i => Nat.max n (s.thread id i).handlerCount.toNat) 0
  let g : Grp := { gid := sid, team := id, quad := quad, members := is, pc := pc, word := word, header := at_ 0, words := words
                   flags := (old.map (·.flags)).getD 0, flagCls := (old.map (·.flagCls)).getD [], park := some { p with len := len }
                   demoted := whole && (old.map (·.demoted)).getD false, handler := (old.map (·.handler)).getD (BitVec.ofNat 32 handler) }
  let ops := match old with
    | some o => s.ops.map fun x => if x.gids.contains o.gid then { x with gids := x.gids ++ [sid] } else x
    | none => s.ops
  let gs := (s.groups.map fun x => if x.team == id && x.park.isNone then { x with members := x.members.filter fun i => !is.contains i } else x).filter fun x => !x.members.isEmpty
  let s := { s with nextId := sid + 1, ops := ops, groups := gs ++ [g] }
  let s := s.updThreads id is fun h => { h with st := .parked sid, pc := pc, word := word }
  (s.count quad 0x07 (bit (old.isSome && !whole))).deliver sid

/-- A thread's position: its group's, where it is in one and not yet placed apart. -/
def State.posOf (s : State) (id : TeamId) (i : Nat) : Nat × Nat :=
  let h := s.thread id i
  match h.st with
  | .issuing gid => let g := s.grp gid; if g.regroup then (h.pc, h.word) else (g.pc, g.word)
  | _ => (h.pc, h.word)

/-- A thread goes on: it is in a group or LOOSE. -/
def Thread.goesOn (h : Thread) : Bool := match h.st with
  | .issuing _ => true
  | .loose _ => true
  | _ => false

/-- The expired group is still within its clause. -/
def State.inClause (s : State) (quad : Nat) (h : TeamId × List Nat) : Bool :=
  s.groups.any fun g => g.quad == quad && g.team == h.1 && g.park.isNone && g.clause != 0 && g.members.any h.2.contains

/-- A spin expiry takes effect: the members that go on park, one sub-group for each position (R441). -/
def State.endSpin (s : State) (quad : Nat) : State :=
  match (s.quad quad).expired with
  | none => s
  | some h =>
    if s.inClause quad h then s
    else
      let s := s.updQuad quad fun q => { q with expired := none }
      if (s.findTeam h.1).isNone || s.launchStopped h.1.launch then s
      else
        let on := h.2.filter fun i => (s.thread h.1 i).goesOn
        let ps := (on.map (s.posOf h.1)).eraseDups
        let at_ := on.map fun i => (i, s.posOf h.1 i)
        ps.foldl (fun s p => s.parkAt h.1 quad ((at_.filter fun e => e.2 == p).map (·.1)) p.1 p.2 { cls := clsWatchdog, detail := 1, addr := 0 }) s

/-- The spin count of a quadrant has reached its limit. -/
def State.spinDue (s : State) (quad : Nat) : Bool :=
  match (s.quad quad).prev with
  | some h => decide (s.spinLimit (s.launch h.1.launch).tenant ≤ (s.quad quad).spin)
  | none => false

/-- WATCHDOG_SPIN (R404, R441). -/
def execWatchdogSpin (quad : Nat) (s : State) : Out :=
  let q := s.quad quad
  match q.prev with
  | none => .next (s.endSpin quad)
  | some h =>
    if s.spinDue quad then
      let s := s.updQuad quad fun q => { q with spin := 0, expired := some h }
      .next ((s.expire quad h.1.launch).endSpin quad)
    else .next (s.endSpin quad)

/-- The waiting sets of a home group: positions at which its threads wait (R408). -/
def Team.waitSets (l : Launch) (t : Team) (hg : Nat) : List (Nat × Nat) :=
  ((t.threads.filter fun h => l.homeGroup h.idx == hg && (match h.st with
    | .waiting _ _ => true
    | _ => false)).map fun h => (h.pc, h.word)).eraseDups

/-- Park one waiting set, each thread's wait kept (R441). -/
def State.parkSet (s : State) (id : TeamId) (hg : Nat) (p : Nat × Nat) : State :=
  let t := s.team id
  let l := s.launch id.launch
  let ws := t.threads.filterMap fun h => if l.homeGroup h.idx = hg && h.pc = p.1 && h.word = p.2 then (match h.st with
    | .waiting k next => some (h.idx, k, next)
    | _ => none) else none
  match ws with
  | [] => s
  | w :: _ =>
    let s := s.updThreads id (ws.map (·.1)) fun h => { h with keepGuard := true }
    s.parkAt id (l.quadOf t.core w.1) (ws.map (·.1)) p.1 p.2 { cls := clsWatchdog, detail := 2, addr := 0, wait := some (ws.map fun w => (w.1, w.2.1), w.2.2) }

/-- The address whose word a thread waits on, where its home can serve the read and it carries an uncorrectable error (R156, R241). -/
def State.waitsBad (s : State) (id : TeamId) (i : Nat) : Option Nat :=
  let l := s.launch id.launch
  let t := s.team id
  let h := t.thread i
  match h.st with
  | .waiting k _ => (match k with
    | .wordGe va _ => some va
    | .wordNe va _ => some va
    | _ => none).bind fun va => match s.translate (s.core (coreOfThread l t i)).tlb l.tenant l.asid va with
      | .ok tr => if s.homeReady (s.homeOf tr.key) h.obs && s.badAt tr.key 8 then some va else none
      | .error _ => none
  | _ => none

/-- MWAIT_PERIODIC_CHECK (R156): an evaluation that reads an uncorrectable error parks its thread, which keeps its wait (R241; DESIGN CHOICE, log entry 48). -/
def execMwaitPeriodicCheck (team : TeamId) (thread : Nat) (s : State) : Out :=
  let t := s.team team
  if t.saved.isSome then .next s
  else match s.waitsBad team thread, (t.thread thread).st with
    | some va, .waiting k next =>
      let h := t.thread thread
      let s := s.updThread team thread fun h => { h with keepGuard := true }
      .next (s.parkAt team ((s.launch team.launch).quadOf t.core thread) [thread] h.pc h.word { cls := clsEcc, detail := 0, addr := va, wait := some ([(thread, k)], next) })
    | _, _ => .next (s.wakeThread team thread)

/-- The wait count of a home group has reached its limit. -/
def State.waitDue (s : State) (id : TeamId) (hg : Nat) : Bool :=
  let lim := s.waitLimit (s.launch id.launch).tenant
  decide (lim ≠ 0) && decide (lim ≤ (Store.get 0 (s.team id).waitCount hg).toNat)

/-- WATCHDOG_WAIT (R404, R441). -/
def execWatchdogWait (team : TeamId) (hg : Nat) (s : State) : Out :=
  if !s.waitDue team hg then .next s
  else
    let l := s.launch team.launch
    let sets := (s.team team).waitSets l hg
    let s := s.updTeam team fun t => { t with waitCount := Store.set 0 t.waitCount hg 0 }
    if s.launchStopped team.launch then .next s else
    let s := sets.foldl (fun s p => s.parkSet team hg p) s
    .next (s.expire (l.quadOf (s.team team).core (hg * l.w)) team.launch)

/-- The handler count of a group or parked sub-group has reached its limit (R404). -/
def State.handlerDue (s : State) (g : Grp) : Bool := decide (s.spinLimit (s.launch g.team.launch).tenant ≤ g.handler.toNat)

/-- WATCHDOG_HANDLER (R404, R434): a kind 10 record; with a halt pending the group halts in its handler. -/
def execWatchdogHandler (gid : Nat) (s : State) : Out :=
  match s.findGrp gid with
  | none => .next s
  | some g =>
    if !s.handlerDue g then .next s
    else
      let l := s.launch g.team.launch
      let pend := g.members.any fun i => (s.thread g.team i).haltPending
      let s := s.updGrp gid fun g => { g with handler := 0 }
      if s.launchStopped l.id then .next s else
      let s := if pend then (s.updThreads g.team g.members fun h => { h with haltedInHandler := h.inHandler }).updTenant l.tenant fun t => if t.selects g.team then t.dbgBit 18 true else t
        else s
      let (_, s) := s.makeRec l.tenant { kind := 10, cls := clsWatchdog, detail := 3, flags := bit pend * 2, launch := l.id, team := g.team.team, thread := lowest g.members, pc := canonOf g.pc, word := g.word
                                         red := bit l.redundant + bit g.team.shadow * 2 }
      .next (s.expire g.quad l.id)

/-! ### Answers (R423) -/

/-- The parked sub-group of a tenant whose record has a sequence. -/
def State.recordGrp (s : State) (tenant seq : Nat) : Option Grp :=
  findBy (fun g : Grp => (s.launch g.team.launch).tenant == tenant && (match g.park with
    | some p => p.seq == seq && seq != 0
    | none => false)) s.groups

/-- The channel of a tenant whose outrider waits on a sequence. -/
def State.recordChan (s : State) (tenant seq : Nat) : Option ChanId :=
  (findBy (fun e : ChanId × Chan => match e.2.ops with
    | o :: _ => o.tenant == tenant && o.waitSeq == seq && seq != 0
    | [] => false) s.chans).map (·.1)

/-- The operation of a system channel for a tenant that waits on a sequence. -/
def State.recordSys (s : State) (tenant seq : Nat) : Option SysOp := findBy (fun o : SysOp => o.tenant == tenant && o.waitSeq == seq && seq != 0) s.sys

/-- The queue of a tenant whose reader waits on a sequence. -/
def State.recordQueue (s : State) (tenant seq : Nat) : Option Nat :=
  (findBy (fun e : Nat × Queue => e.2.tenant == tenant && e.2.faultSeq == seq && seq != 0) s.queues).map (·.1)

/-- Answer a sub-group's record. -/
def State.answerGrp (s : State) (gid action : Nat) : State := s.updGrp gid fun g => { g with park := g.park.map fun p => { p with seq := 0, answer := action + 1 } }

/-- Change the operation at the head of a channel. -/
def State.updHead (s : State) (ch : ChanId) (f : ChOp → ChOp) : State := s.updChan ch fun c => match c.ops with
  | o :: r => { c with ops := f o :: r }
  | [] => c

/-- An answer written to FRESP takes effect (R423). -/
def State.takeAnswer (s : State) (tenant seq action : Nat) : State :=
  let s := s.updTenant tenant fun t => { t with fresp := BitVec.ofNat 64 (action * 2 ^ 32 + seq % 2 ^ 32) }
  match s.recordGrp tenant seq, s.recordChan tenant seq, s.recordQueue tenant seq with
  | some g, _, _ =>
    if action = 2 then (s.updGrp g.gid fun g => { g with park := g.park.map fun p => { p with seq := 0 } }).abort g.team.launch ((g.park.map (·.cls)).getD 0)
    else s.answerGrp g.gid action
  | none, some ch, _ => s.updHead ch fun o => { o with waitSeq := 0, ended := if action = 0 then o.ended else some (stAborted, 0) }
  | none, none, some q => let s := s.updQueue q fun k => { k with faultSeq := 0, due := true }; if action = 0 then s else s.disable q
  | none, none, none =>
    match s.recordSys tenant seq with
    | some o => { s with sys := mapIf (fun x => x.job == o.job) (fun x => { x with waitSeq := 0, ended := decide (action ≠ 0) }) s.sys }
    | none => s

/-- An answer written to FRESP (R423): a tenant under reset takes none (R458). -/
def State.answer (s : State) (tenant seq action : Nat) : State := if (s.tenant tenant).busy then s else s.takeAnswer tenant seq action

def execFrespRetry (tenant seq : Nat) (s : State) : Out := .next (s.answer tenant seq 0)
def execFrespSkip (tenant seq : Nat) (s : State) : Out := .next (s.answer tenant seq 1)
def execFrespAbort (tenant seq : Nat) (s : State) : Out := .next (s.answer tenant seq 2)

/-! ### The fault channel (R421, R422) -/

/-- Write every held record that the ring takes. -/
def State.retryRecs (s : State) (tenant : Nat) : State := s.flushRecs State.tryHub tenant (s.tenant tenant).recs.length

/-- FAULT_RECORD_RETRY (R421). -/
def execFaultRecordRetry (tenant : Nat) (s : State) : Out := .next (s.retryRecs tenant)

/-- FCCTL_WRITE (R421, R422): the enable rules of R336, then the held records. -/
def execFcctlWrite (tenant : Nat) (v : DWord) (s : State) : Out :=
  let t := s.tenant tenant
  let old := t.fcctl.toNat
  let x := v.toNat
  if t.busy then .next s
  else
    let f := bitsOf x 20 4 * 2 ^ 20 + bitsOf x 0 5
    let ok := bitAt x 31 && (s.ringOk tenant (bitsOf x 20 4) t.fcbase.toNat t.fcidx.toNat (bitsOf x 0 5) 4096).isSome
    let new := if bitAt old 31 then (if bitAt x 31 then old else old % 2 ^ 31) else f + bit ok * 2 ^ 31
    .next ((s.updTenant tenant fun t => { t with fcctl := BitVec.ofNat 64 new }).retryRecs tenant)

/-! ### Rollback (R267, R277, R310, R395, R445, R446) -/

/-- Every team of a launch leaves, with its operations, held stores and writes that no home has applied; but what its qappends have claimed is written (R375). -/
def State.stopTeams (s : State) (l : Launch) : State :=
  let ts := s.teams.filter fun t => t.id.launch == l.id
  let obs := VC.maxAll (ts.flatMap fun t => t.threads.map (·.obs))
  let s := ts.foldl (fun s t => s.removeCopy l t.id) s
  let kept := fun w : Write => !w.bytes.isEmpty && l.appended.any fun a => decide (a.1 ≤ w.key) && decide (w.key < a.1 + a.2)
  let s := (s.writes.filter fun w => w.launch == some l.id && !kept w).foldl State.dropWrite s
  let s := { s with writes := mapIf (fun w => w.launch == some l.id) (fun w => { w with launch := none }) s.writes
                    ops := s.ops.filter fun o => o.team.launch != l.id }
  let s := (s.sysDrop fun j => match j with
    | .snapshot x _ => x == l.id
    | .save id => id.launch == l.id
    | .back id _ => id.launch == l.id
    | _ => false).sweepSlaved
  let s := l.reserved.foldl (fun s e => match s.findRegion e.1 with
    | some g => s.giveFrame l.tenant g.pool e.2.2
    | none => s) s
  let s := s.updTenant l.tenant fun t => { t with kept := t.kept.filter fun k => k.1 != l.id }
  s.updLaunch l.id fun x => { x with reserved := [], endClk := x.endClk.max obs }

/-- The clock of the restoring writes: it follows every write made so far (R328). -/
def State.afterAll (s : State) : VC := ⟨s.originCounter 0, s.originCounter 1, s.originCounter 2, s.originCounter 3, s.hubCounter⟩

/-- Every listed clock of a page becomes that of its restoration, and its moorings are told. -/
def State.restamp (s : State) (key len stamp : Nat) (clk : VC) : State :=
  let s := { s with clks := s.clks.map fun e : Nat × VC => if decide (key ≤ e.1) && decide (e.1 < key + len) then (e.1, clk) else e
                    poison := s.poison.filter fun e : Nat × Bool => !(decide (key ≤ e.1) && decide (e.1 < key + len))
                    flips := s.flips.filter fun e : Nat × Bool => !(decide (key ≤ e.1) && decide (e.1 < key + len)) }
  s.sendPushes key len 4 stamp clk false

/-- A page of a region takes a frame of its pool again, or a given one where the pool is empty; the answer tells whether it took the given one. -/
def State.reback (s : State) (r : Region) (i frame : Nat) : State × Bool :=
  match s.takeFrame r.id.tenant r.pool with
  | some (f, s) => (s.backPage r i f, false)
  | none => (s.backPage r i frame, true)

/-- Drop the replicas of a region's pages (R277). -/
def State.dropReplicas (s : State) (r : Region) : State :=
  let lo := regionKey r.id.tenant r.id.asid r.base
  let mine := fun p : Nat × Nat => decide (lo ≤ p.1) && decide (p.1 < lo + r.len)
  let t := { s with dies := s.dies.map fun d => (d.1, { d.2 with replicas := d.2.replicas.filter fun p => !mine p }) }
  s.dies.foldl (fun t d => t.count (8192 + d.1) 0x83 (d.2.replicas.filter mine).length) t

/-- Undo one entry of a snapshot set (R395). -/
def State.undo (s : State) (tenant stamp : Nat) (clk : VC) (e : Snap) : State :=
  match e with
  | .copy page f pool size none _ bs =>
    let s := { s with mem := Store.splice 0 s.mem page (page + size) bs }
    (s.restamp page size stamp clk).giveFrame tenant pool f
  | .copy page f pool size (some (r, i)) n bs =>
    match s.findRegion r with
    | none => s.giveFrame tenant pool f
    | some g =>
      let (s, used) := if (g.page i).isSome then (s, false) else s.reback g i f
      let s := s.updRegion r fun g => { g with pages := Store.upd none g.pages i (Option.map fun p => { p with count := n, data := bs }) }
      let s := s.restamp page size stamp clk
      if used then s else s.giveFrame tenant pool f
  | .allocated r i =>
    match s.findRegion r with
    | none => s
    | some g => match g.page i with
      | some p => ((s.unbackPage g i).giveFrame r.tenant g.pool p.frame).restamp (regionKey r.tenant r.asid (g.base + i * pageBytes g.psize)) (pageBytes g.psize) stamp clk
      | none => s
  | .released r i f =>
    match s.findRegion r with
    | none => s
    | some g => if (g.page i).isSome then s.giveFrame r.tenant g.pool f else s.backPage g i f
  | .append r c t st mb cl pages =>
    match s.findRegion r with
    | none => s
    | some g =>
      let s := if 2 ≤ g.st && st < 2 then s.dropReplicas g else s
      let held := fun i : Nat => decide (128 < c) && decide (i * pageBytes g.psize < c)
      let s := g.pages.foldl (fun s e => match e.2 with
        | some p => if pages.isEmpty && held e.1 then s else (s.unbackPage g e.1).giveFrame r.tenant g.pool p.frame
        | none => s) s
      let s := if pages.isEmpty then s
        else pages.foldl (fun s e => match e.2 with
          | some p => if held e.1 then (s.backPage g e.1 p.frame).updRegion r fun g => { g with pages := Store.set none g.pages e.1 (some p) } else s.giveFrame r.tenant g.pool p.frame
          | none => s) s
      let s := s.updRegion r fun g => { g with c := c, t := t, st := st, marked := mb, claims := cl, freeWait := false, freeLaunch := none, tailClk := clk }
      (s.restamp (regionKey r.tenant r.asid g.base) 8 stamp clk).restamp (regionKey r.tenant r.asid (g.base + 128)) (g.len - 128) stamp clk

/-- The launch starts again from its packet (R44, R445). -/
def Launch.again (l : Launch) (hub : Nat) : Launch :=
  { l with tickets := l.dealt, pulled := [], running := 0, startedAt := hub, anyTeam := false, lastPreempt := hub, replays := l.replays + 1, snaps := [], keptFrames := [], appended := [], incomplete := false, reserved := [] }

/-- A frame that the launch released. -/
def isReleased (e : Snap) : Bool := match e with
  | .released _ _ _ => true
  | _ => false

/-- What qappend has put into a ring and its index words, as they now stand, which a rollback does not take back (R375). -/
def State.appendedNow (s : State) (l : Launch) : List (Nat × List Byte) := l.appended.map fun a => (a.1, s.locBytes a.1 a.2)

/-- The bytes of pages that a snapshot's copy holds. -/
def Snap.bytes (e : Snap) : Nat := match e with
  | .copy _ _ _ size _ _ _ => size
  | _ => 0

/-- The restore of a launch's snapshot set joins a system channel of the lowest die of its mask (R353, R445; DESIGN CHOICE, log entry 55). -/
def State.undoStart (s : State) (l : Launch) : State :=
  s.sysStart (((List.range 4).find? fun d => bitAt l.dieMask d).getD 0) l.tenant (.undo l.id) 0 ((s.launch l.id).snaps.foldl (fun n e => n + e.bytes) 0)

/-- The snapshot set of a launch is applied, pages that it released first, and its launch starts again (R267, R395, R445). -/
def State.replay (s : State) (l : Launch) (c : Nat) : State :=
  let all := (s.launch l.id).snaps
  let snaps := all.filter isReleased ++ all.filter fun e => !isReleased e
  let kept := s.appendedNow (s.launch l.id)
  let s := s.sysDrop fun j => j == .undo l.id
  let (st, s) := s.nextStamp 4
  let clk := s.afterAll.set 4 st
  let s := snaps.foldl (fun s e => s.undo l.tenant st clk e) s
  let s := (s.launch l.id).keptFrames.foldl (fun s e => s.giveFrame l.tenant e.1 e.2) s
  let s := kept.foldl (fun s e => (s.changeBytes e.1 e.2 clk none).1) s
  let s := (List.range 5).foldl (fun s h => s.raise h 4 st) s
  let s := s.updLaunch l.id fun l => l.again s.hub
  let s := { s with rollbacks := s.rollbacks.filter fun r => r.1 != l.id }
  (s.makeRec l.tenant { kind := 6, cls := c, launch := l.id, red := bit l.redundant }).2.wakeWhere WaitKind.isWord

/-- LAUNCH_ROLLBACK (R445, R446, R447): asked for by a fault, it waits for submitted operations; its teams stop and a system channel restores what the set holds, and then the launch starts again; beyond RMAX, or with an incomplete set, the launch aborts. -/
def execLaunchRollback (launch c : Nat) (s : State) : Out :=
  match s.findLaunch launch, s.rollbacks.contains (launch, c) with
  | some l, true =>
    if l.aborted.isSome then .next { s with rollbacks := s.rollbacks.filter fun r => r.1 != launch }
    else if bitsOf (s.tenant l.tenant).recctl.toNat 0 4 ≤ l.replays || l.incomplete || !l.replayable then .next (s.abort launch c)
    else if s.chans.any fun e => e.2.ops.any fun o => o.pkt.isNone && o.launch == launch then .next s
    else if s.sysDone (.undo launch) then .next (s.replay l c)
    else if (s.sysOf (.undo launch)).isSome then .next s
    else .next ((s.stopTeams l).undoStart l)
  | none, true => .next { s with rollbacks := s.rollbacks.filter fun r => r.1 != launch }
  | _, false => .next s

/-! ### SIGNATURE_COMPARE (R309, R375, R448, R449) -/

/-- Where a held store of a line lies in a DEFAULT page, the words of its issue to one line are one store: the issue, and the line (R260, R286). -/
def State.lineOf (s : State) (id : TeamId) (h : Held) : Option (Nat × Nat) :=
  match h.line with
  | none => none
  | some n =>
    let l := s.launch id.launch
    match s.translate (s.core (coreOfThread l (s.team id) h.thread)).tlb l.tenant l.asid h.va with
    | .ok tr => if tr.isDefault then some (n, h.va / 128) else none
    | .error _ => none

/-- The held stores that are released with one. -/
def State.together (s : State) (id : TeamId) (hs : List Held) (h : Held) : List Held :=
  match s.lineOf id h with
  | none => [h]
  | some k => hs.filter fun x => s.lineOf id x == some k

/-- Some held stores leave as one store of their threads: bytes of one line, or of one store. -/
def State.releaseStore (s : State) (id : TeamId) (hs : List Held) : State :=
  match hs with
  | [] => s
  | h :: r =>
    let l := s.launch id.launch
    match s.translate (s.core (coreOfThread l (s.team id) h.thread)).tlb l.tenant l.asid h.va with
    | .error _ => s
    | .ok tr =>
      let line := (s.lineOf id h).isSome
      let w := if line then
          let (bs, segs) := mergeLine (hs.map fun x => (x.va % 128 / 4, x.bytes))
          { Write.plain (tr.key - h.va % 128) bs (2 ^ levelShift tr.level) with segs := segs }
        else Write.plain tr.key h.bytes (2 ^ levelShift tr.level)
      (s.emitFor id (r.getLastD h).thread (hs.map (·.thread)) w tr.region.isSome).2

/-- A held store may be released: its threads have released all that they issued before it. -/
def State.nextOut (s : State) (id : TeamId) (hs : List Held) (h : Held) : Bool :=
  let with_ := s.together id hs h
  with_.all fun y => hs.all fun z => z.thread != y.thread || decide (y.id ≤ z.id) || with_.contains z

/-- Held stores, in ascending thread order and each thread's in program order, leave one after another (R449). -/
def State.releaseStores (s : State) (id : TeamId) : List Held → Nat → State
  | _, 0 => s
  | hs, n + 1 =>
    match findBy (s.nextOut id hs) hs with
    | none => s
    | some h =>
      let with_ := s.together id hs h
      State.releaseStores (s.releaseStore id with_) id (hs.filter fun x => !with_.contains x) n

/-- Perform one held seal, free or submission of a primary (R309, R375, R449). -/
def State.releaseOne (s : State) (id : TeamId) (h : Held) : State :=
  let l := s.launch id.launch
  let t := s.team id
  let core := coreOfThread l t h.thread
  match h.submit with
  | none => s
  | some (256, opId) =>
    match (s.findOp opId).map (fun o : Op => o.kind) with
    | some (OpKind.seal r) =>
      let done := ((s.findRegion r).map fun g => decide (2 ≤ g.st)).getD true
      let s := s.sealAt r (some l.id)
      if done then s.regionDone (isSealOf r) else s
    | _ => s
  | some (257, opId) =>
    match (s.findOp opId).map (fun o : Op => o.kind) with
    | some (OpKind.free r) => s.freeAt r (some l.id)
    | _ => s
  | some (_, ch) =>
    s.submit core ch h.va { bytes := h.bytes, seq := h.va, tenant := l.tenant, asid := l.asid, launch := l.id, team := id, core := core, thread := h.thread, obs := (t.thread h.thread).obs }

/-- A shadow's dropped submission: its channel's number counts as complete (R375). -/
def State.dropSubmit (s : State) (id : TeamId) (h : Held) : State :=
  match h.submit with
  | some (want, ch) =>
    if want < 256 then
      let core := coreOfThread (s.launch id.launch) (s.team id) h.thread
      s.updChan (.core core ch) fun c => { c with ops := c.ops ++ [{ bytes := List.replicate 64 0, seq := h.va, tenant := (s.launch id.launch).tenant, asid := 0, launch := id.launch, team := id, core := core, obs := {}, ended := some (stOk, 0) }] }
    else s
  | none => s

/-- What a copy holds of some threads, in ascending thread order and each thread's in program order. -/
def Team.heldOf (t : Team) (is : List Nat) : List Held := is.flatMap fun i => t.held.filter fun h => h.thread == i

/-- Both copies' held stores of some threads, which have matched: the primary's are released, then its seals, frees and submissions are performed; the shadow's are discarded (R309, R449). -/
def State.release (s : State) (a b : TeamId) (is : List Nat) : State :=
  let mine := (s.team a).heldOf is
  let other := (s.team b).held
  let stores := mine.filter fun h => h.submit.isNone
  let s := s.releaseStores a stores stores.length
  let s := (mine.filter fun h => h.submit.isSome).foldl (fun s h => s.releaseOne a h) s
  let s := (other.filter fun h => is.contains h.thread).foldl (fun s h => s.dropSubmit b h) s
  [a, b].foldl (fun s id => (s.updTeam id fun t => { t with held := t.held.filter fun h => !is.contains h.thread }).updThreads id is fun h => { h with sig := 0 }) s

/-- The signatures of some threads agree. -/
def sigsAgree (a b : Team) (is : List Nat) : Bool := is.all fun i => (a.thread i).sig == (b.thread i).sig

/-- The oldest fence of a thread of a copy that waits for its comparison. -/
def State.fenceAt (s : State) (id : TeamId) (i : Nat) : Option Op :=
  findBy (fun o : Op => o.team == id && o.accs.any (fun a => a.thread == i && !a.ok) && (match o.kind with
    | .fence _ _ => true
    | _ => false)) s.ops

/-- A fence's thread has been compared. -/
def State.passFence (s : State) (o : Op) (i : Nat) : State := s.updOp o.id fun o => { o with accs := mapIf (fun a => a.thread == i) (fun a => { a with ok := true }) o.accs }

/-- A thread of a copy has stopped before its next store, exited or started a wait (R449). -/
def State.stoppedFor (s : State) (h : Thread) : Bool :=
  match h.st with
  | .exited => true
  | .waiting _ _ => true
  | .parked _ => true
  | .loose _ => false
  | .issuing gid => (match s.nextWord (s.grp gid) with
    | .ok (some n) => s.wordHold (s.grp gid) n == 11
    | _ => false)

/-- Both copies stand at a comparison of all their threads: tbar, their end, or full held stores (R449). -/
def State.allCompare (s : State) (a b : Team) : Bool :=
  (a.atCompare == 1 && b.atCompare == 1 && a.allWait WaitKind.isTbar && b.allWait WaitKind.isTbar) || (a.ended && b.ended && (!a.compared || !b.compared)) ||
  (s.heldFull a.id && a.threads.all (s.stoppedFor) && b.threads.all (s.stoppedFor))

/-- The threads whose fences both copies have reached: those of one issue come together, so that the words of their lines leave as one store (R260, R286; DESIGN CHOICE, log entry 71). -/
def State.fenceCompare (s : State) (a b : Team) : List (Nat × Op × Op) :=
  a.threads.filterMap fun h => match s.fenceAt a.id h.idx, s.fenceAt b.id h.idx with
    | some x, some y => some (h.idx, x, y)
    | _, _ => none

/-- Both copies of a team, where both are resident. -/
def State.copies (s : State) (launch team : Nat) : Option (Team × Team) :=
  match s.findTeam ⟨launch, team, false⟩, s.findTeam ⟨launch, team, true⟩ with
  | some a, some b => if a.saved.isNone && b.saved.isNone then some (a, b) else none
  | _, _ => none

/-- Signatures differ: the launch rolls back. -/
def State.mismatch (s : State) (launch : Nat) : State :=
  if s.launchStopped launch then s else { s with rollbacks := s.rollbacks ++ [(launch, clsSignature)] }

/-- SIGNATURE_COMPARE. -/
def execSignatureCompare (launch team : Nat) (s : State) : Out :=
  match s.copies launch team with
  | none => .next s
  | some (a, b) =>
    let all := a.threads.map (·.idx)
    if s.allCompare a b then
      if sigsAgree a b all then
        let s := s.release a.id b.id all
        let open_ := fun (s : State) (id : TeamId) => if (s.team id).atCompare = 1 && (s.team id).allWait WaitKind.isTbar then (s.openBarrier id).updTeam id fun t => { t with atCompare := 0 } else s
        .next (open_ (open_ s a.id) b.id)
      else .next (s.mismatch launch)
    else
      let ps := s.fenceCompare a b
      let is := ps.map (·.1)
      if is.isEmpty then .next s
      else if sigsAgree a b is then .next (ps.foldl (fun s p => (s.passFence p.2.1 p.1).passFence p.2.2 p.1) (s.release a.id b.id is))
      else .next (s.mismatch launch)

/-! ### GROOM_SWEEP (R411) -/

/-- GROOM_SWEEP: a counter goes into its total and is cleared. -/
def execGroomSweep (unit code : Nat) (s : State) : Out :=
  let k := unit * 256 + code
  let now := if unit < 4096 then (s.die (dieOfQuad unit)).clock else if unit < 8192 then (s.die (dieOfCore (unit - 4096))).clock else (s.die (unit - 8192)).clock
  .next { s with evTotal := Store.set 0 s.evTotal k ((Store.get 0 s.evTotal k + Store.get 0 s.evLive k) % 2 ^ 64)
                 evLive := Store.set 0 s.evLive k 0, evSwept := Store.set 0 s.evSwept k now }

end Sys2Proof.Machine
end

