-- ==== Sys2Proof/Machine/Context.lean ====
section
/-! DEFINITION. Pre-emption, context images, their save and restore (R52, R347, R417, R435 to R439), and halting a team for a debugger (R432 to R434). -/
namespace Sys2Proof.Machine

/-! ### The context area (R417) -/

def Tenant.ctxOn (t : Tenant) : Bool := bitAt t.ctxbase.toNat 0
def Tenant.ctxLo (t : Tenant) : Nat := bitsOf t.ctxbase.toNat 16 36 * 65536
def Tenant.ctxLen (t : Tenant) : Nat := bitsOf t.ctxsize.toNat 16 24 * 65536
/-- The next multiple of 256. -/
def roundUp (n : Nat) : Nat := (n + 255) / 256 * 256

/-- Address and size of every image in a tenant's area. -/
def State.imagesOf (s : State) (tenant : Nat) : List (Nat × Nat) :=
  (s.teams.filterMap fun t => if (s.launch t.id.launch).tenant = tenant then t.saved.map fun v => (v.addr, v.size) else none) ++
  (s.tenant tenant).kept.map fun k => k.2

/-- The first place of a tenant's area that has room for an image. -/
def State.imagePlace (s : State) (tenant size : Nat) : Option Nat :=
  let t := s.tenant tenant
  let xs := s.imagesOf tenant
  let fits := fun a => decide (a + size ≤ t.ctxLo + t.ctxLen) && xs.all fun x => decide (a + size ≤ x.1) || decide (x.1 + x.2 ≤ a)
  if t.ctxOn then firstBy (fun a b => decide (a < b)) ((t.ctxLo :: xs.map fun x => roundUp (x.1 + x.2)).filter fits) else none

/-! ### The image (R436, R437) -/

/-- n bytes with bit 8i + j where a test holds. -/
def bitBytes (p : Nat → Bool) (n : Nat) : List Byte :=
  (List.range n).map fun i => BitVec.ofNat 8 ((List.range 8).foldl (fun v j => v + bit (p (8 * i + j)) * 2 ^ j) 0)

/-- Wait kind and join mask of a wait. -/
def WaitKind.code : WaitKind → Nat
  | .join j => 1 + 16 * j
  | .tbar => 2
  | .pbar => 3
  | .slot _ _ => 4
  | .wordGe _ _ => 4
  | .wordNe _ _ => 4
  | .queue _ _ => 5
  | .coreChan _ _ => 5
  | .dieChan _ _ => 5

/-- State, wait and parked sub-group fields of a thread whose team is stopped. -/
def ThSt.codes (parks : List Nat) : ThSt → Nat × Nat × Nat
  | .issuing _ => (0, 0, 0xFFFF)
  | .loose _ => (0, 0, 0xFFFF)
  | .waiting k _ => (1, k.code, 0xFFFF)
  | .parked gid => (2, 0, (parks.findIdx fun x => x == gid))
  | .exited => (3, 0, 0xFFFF)

/-- The flags byte of a thread record. -/
def Thread.flagByte (h : Thread) : Nat := bit h.guard + bit h.inHandler * 2 + bit h.halted * 4 + bit h.haltedInHandler * 8 + bit h.sealPending * 16

/-- A thread record (R437). -/
def threadRecord (n : Nat) (parks : List Nat) (h : Thread) : List Byte :=
  let c := h.st.codes parks
  leBytes (canonOf h.pc) 8 ++ leBytes h.word 1 ++ leBytes c.1 1 ++ leBytes c.2.1 1 ++ leBytes h.flagByte 1 ++ leBytes h.preds.toNat 2 ++ leBytes c.2.2 2 ++
  leBytes h.fsr.toNat 4 ++ leBytes 0 4 ++ leBytes h.sp.toNat 8 ++
  leBytes h.obs.d0 8 ++ leBytes h.obs.d1 8 ++ leBytes h.obs.d2 8 ++ leBytes h.obs.d3 8 ++ leBytes h.obs.x 8 ++ leBytes 0 24 ++
  (List.range n).flatMap fun r => leBytes (h.raw r).toNat 4

/-- A sub-group record. -/
def parkRecord (g : Grp) : List Byte :=
  let p := g.park.getD { cls := 0, detail := 0, addr := 0 }
  leBytes g.flags.toNat 2 ++ [0, 0] ++ leBytes p.cls 1 ++ leBytes p.detail 1 ++ [0, 0] ++ leBytes p.addr 8

/-- A binding's slot: its lowest logical sub-array. -/
def Binding.slot (b : Binding) : Nat := (logicalOf b.mode b.sel).headD 0
def bindRecord : Option Binding → List Byte
  | none => leBytes 0 16
  | some b => leBytes b.lo 4 ++ leBytes b.hi 4 ++ leBytes b.fmt 1 ++ leBytes b.mode 1 ++ leBytes b.sel 1 ++ leBytes 1 1 ++ leBytes 0 4
def tagRecord : Option Tag → List Byte
  | none => leBytes 0 16
  | some e => leBytes (e.val + e.key * 2 ^ 16 + 2 ^ 80) 16

/-- Scratchpad units of 128 bytes. -/
def Launch.units (l : Launch) : Nat := l.scratch / 128
/-- Bytes of the marks of a core. -/
def Launch.markBytes (l : Launch) : Nat := (l.units + 3) / 4

/-- The first granule, tile and entry keys of a half. -/
def halfGranules : Nat := halfBytes / 64

/-- The sections of an image, in their order. -/
def Team.sections (l : Launch) (t : Team) (parks : List Grp) : List (List Byte) :=
  let hs := List.range l.cores
  [ (List.range 8).flatMap fun j => bitBytes (fun i => (t.rejoin.getD j []).contains i) 256 ++ bitBytes (fun i => (t.pending.getD j []).contains i) 256,
    t.threads.flatMap (threadRecord l.nregs (parks.map (·.gid))),
    parks.flatMap parkRecord,
    hs.flatMap fun h => readBytes t.scratch (scratchKey h 0) l.scratch,
    hs.flatMap fun h => bitBytes (fun g => Store.get false t.marks (h * halfGranules + g)) l.markBytes,
    t.bufs.flatMap fun b => leBytes b.word 4 ++ leBytes b.handle 1 ++ leBytes 0 11,
    hs.flatMap fun h => (List.range (l.tiles * 4096)).map (tileByte t h),
    hs.flatMap fun h => (List.range 4).flatMap fun k => bindRecord (findBy (fun b : Binding => b.core == t.core + h && b.slot == k) t.bindings),
    hs.flatMap fun h => (List.range l.tagCount).flatMap fun i => tagRecord (Store.get none t.tags (tagKey h i)),
    hs.flatMap fun h => readBytes t.scratch (slotOff l h 0) (16 * l.slots) ]

/-- The sizes of the sections. -/
def sectionSizes (l : Launch) (parks bufs : Nat) : List Nat :=
  let c := l.cores
  [4096, l.size * (96 + 4 * l.nregs), parks * 16, c * l.scratch, c * l.markBytes, 16 * bufs, c * l.tiles * 4096, c * 64, c * l.tagCount * 16, c * l.slots * 16]

/-- Section offsets, each the next multiple of 256, and the end of the last section. -/
def offsetsFrom : Nat → List Nat → List Nat × Nat
  | at_, [] => ([], at_)
  | at_, n :: r => let x := offsetsFrom (roundUp (at_ + n)) r; (at_ :: x.1, x.2)

/-- The size of a team's image with some parked sub-groups. -/
def Team.imageSize (l : Launch) (t : Team) (parks : Nat) : Nat := (offsetsFrom 256 (sectionSizes l parks t.bufs.length)).2

/-- Bytes up to the next multiple of 256. -/
def padded (b : List Byte) : List Byte := b ++ List.replicate (roundUp b.length - b.length) 0

/-- The code of a width (R79). -/
def widthCode (w : Nat) : Nat := if w = 16 then 0 else if w = 32 then 1 else 2

/-- The generation an image carries. -/
def imageGeneration : Nat := 0x46400001

/-- The header of an image. -/
def Team.imageHeader (l : Launch) (t : Team) (parks : Nat) (halted : Bool) : List Byte :=
  let x := offsetsFrom 256 (sectionSizes l parks t.bufs.length)
  [0x57, 0x4D, 0x43, 0x58] ++ leBytes imageGeneration 4 ++ leBytes l.id 4 ++ leBytes t.id.team 4 ++ leBytes l.size 4 ++
  leBytes (widthCode l.w) 1 ++ leBytes l.nregs 1 ++ leBytes (bit l.pair + bit halted * 2) 1 ++ leBytes t.bufs.length 1 ++
  leBytes l.units 2 ++ leBytes l.tiles 1 ++ leBytes 0 1 ++ leBytes l.slots 2 ++ leBytes l.tagCount 2 ++ leBytes parks 2 ++ leBytes 0 6 ++
  leBytes x.2 8 ++ x.1.flatMap (fun o => leBytes o 8) ++ leBytes 0 128

/-- The image of a stopped team. -/
def Team.image (l : Launch) (t : Team) (parks : List Grp) (halted : Bool) : List Byte :=
  t.imageHeader l parks.length halted ++ (t.sections l parks).flatMap padded

/-- A list of bytes as the entries of a store from an address. -/
def storeFrom (a : Nat) (bs : List Byte) : Store Byte := (bs.zipIdx a).foldr (fun e m => Store.set 0 m e.2 e.1) []

/-- The command processor writes an image. -/
def State.writeImage (s : State) (a : Nat) (bs : List Byte) : State :=
  { s with mem := Store.splice 0 s.mem a (a + bs.length) (storeFrom a bs)
           poison := s.poison.filter fun e : Nat × Bool => !(decide (a ≤ e.1) && decide (e.1 < a + bs.length)) }

/-! ### Stopping a team (R52, R435) -/

/-- The parked sub-groups of a team. -/
def State.parksOf (s : State) (id : TeamId) : List Grp := s.groups.filter fun g => g.team == id && g.park.isSome

/-- A seal or free is pending for a thread. -/
def State.sealHolds (s : State) (id : TeamId) (i : Nat) : Bool :=
  s.ops.any fun o => o.team == id && o.kind.isSeal && o.gids.any fun g => (s.grp g).members.contains i

/-- A thread as its team stops: ISSUING becomes LOOSE at its position, results land, a pending seal or free is noted; an image holds no fetched words, so a clause in whose middle it stands is fetched again (R52, R308; DESIGN CHOICE, log entry 53). -/
def State.asStopped (s : State) (id : TeamId) (h : Thread) : Thread :=
  let p := s.posOf id h.idx
  let x := { h.settled with due := 0, words := [], sealPending := h.sealPending || s.sealHolds id h.idx }
  match h.st with
  | .issuing gid => { x with st := .loose 0, pc := p.1, word := p.2, keepGuard := h.keepGuard || (s.grp gid).clause != 0 }
  | _ => x

/-- A team as it stops. -/
def State.stoppedTeam (s : State) (t : Team) : Team := { t with toForm := [], threads := t.threads.map (s.asStopped t.id) }

/-- The cores that a team stands on. -/
def Team.cores (l : Launch) (t : Team) : List Nat := l.coresOf t.core

/-- The writes of a word that its group waits at are all performed or wait for a migration of their page: the word is saved as pending for the lanes that wait (R400). -/
def State.waitsMove (s : State) (o : Op) : Bool :=
  o.verdict && (match o.kind with
    | .store => true
    | .push _ => true
    | .stna => true
    | .atom _ _ _ _ _ _ => true
    | .append => true
    | .qappend => true
    | _ => false) && (o.accs.any fun a => !a.done) &&
  o.accs.all fun a => a.done || (if o.kind = .qappend then a.ws.take 1 else a.ws).all fun n => s.writes.any fun w => w.id == n && s.heldByMove w

/-- A group waits at such a word, each of its members: those that do not have parted from it. -/
def State.stalledByMove (s : State) (g : Grp) : Bool :=
  s.ops.any fun o => o.gids.contains g.gid && s.waitsMove o && (!o.all.isEmpty || g.members.all fun i => o.accs.any fun a => a.thread == i && !a.done)

/-- A group stands where a save may stop it: between clauses, at the pending word of a halt, at a bufmark that a buffer's state holds, or at writes that wait for a migration (R52, R308, R400, R434). -/
def State.saveStops (s : State) (g : Grp) : Bool :=
  g.park.isSome || s.haltedHere g || (decide (g.clause = 0) && decide (g.word = 0)) || s.bufferHeld g || s.stalledByMove g

/-- A LOOSE thread stands between clauses, or is halted at the word to which it returned (R52, R434). -/
def Thread.saveStops (h : Thread) : Bool := match h.st with
  | .loose _ => decide (h.word = 0) || h.haltedLoose
  | _ => true

/-- A team's words are done: its threads stand where a save may stop them; no other operation but seals and frees, no copy, no push under way, no dirty line but those of pages under migration (R52, R238, R257, R308, R400). -/
def State.saveReady (s : State) (t : Team) : Bool :=
  let l := s.launch t.id.launch
  (s.groups.all fun g => g.team != t.id || s.saveStops g) && t.threads.all Thread.saveStops &&
  !(s.ops.any fun o => o.team == t.id && !o.kind.isSeal && !s.waitsMove o) && !s.channelBusy t.id &&
  !(s.pushes.any fun p => (s.mirrors t.id).contains p.team) &&
  !(s.writes.any fun w => ((t.cores l).any fun c => w.l1 == some c) && !s.heldByMove w)

/-! ### PREEMPT_CHECK (R347) -/

/-- Teams that a launch may have saved: those of launches of lower priority on its dies whose image has a place. -/
def State.saveable (s : State) (l : Launch) : List Team := s.teams.filter fun t =>
  let x := s.launch t.id.launch
  t.saved.isNone && !t.saving && decide (x.prio < l.prio) && bitAt l.dieMask (dieOfCore t.core) && !s.launchStopped x.id &&
  (s.imagePlace x.tenant (t.imageSize x (s.parksOf t.id).length)).isSome

/-- The team to save: of lowest priority, then the youngest by start stamp, each measured on the clock of its own die (R344, R347). -/
def State.victim (s : State) (l : Launch) : Option Team :=
  let key := fun t : Team => [(s.launch t.id.launch).prio, (s.die (dieOfCore t.core)).clock - t.stamp, 2 ^ 32 - t.id.team, t.id.launch, bit t.id.shadow]
  firstBy (fun a b => lexLt (key a) (key b)) (s.saveable l)

/-- A launch has waited 4,096 hub cycles since it started or since the last check. -/
def State.preemptDue (s : State) (l : Launch) : Bool :=
  !l.anyTeam && !s.launchStopped l.id && decide (Nat.max l.startedAt l.lastPreempt + 4096 ≤ s.hub) && s.waiting l

/-- PREEMPT_CHECK. -/
def execPreemptCheck (launch : Nat) (s : State) : Out :=
  match s.findLaunch launch with
  | none => .next s
  | some l =>
    if !s.preemptDue l then .next s
    else
      let v := s.victim l
      let s := s.updLaunch launch fun l => { l with lastPreempt := s.hub }
      match v with
      | none => .next s
      | some t => .next ((s.mirrors t.id).foldl (fun s id => s.updTeam id fun t => { t with saving := true }) s)

/-! ### CONTEXT_SAVE (R435) -/

/-- What a team has waiting for a migration as it is saved: its pending words' writes are given up, and its cores' dirty lines wait at home (R308, R400). -/
def State.leaveMoves (s : State) (t : Team) : State :=
  let l := s.launch t.id.launch
  let gone := s.ops.filter fun o => o.team == t.id && s.waitsMove o
  let ws := gone.flatMap fun o => o.accs.flatMap fun a => a.ws
  let s := (s.writes.filter fun w => ws.contains w.id).foldl State.dropWrite s
  { s with ops := s.ops.filter fun o => !gone.any fun x => x.id == o.id
           writes := mapIf (fun w => (t.cores l).any fun c => w.l1 == some c) (fun w => { w with l1 := none }) s.writes }

/-- The team carries an uncorrectable error, which its image then carries (R444; DESIGN CHOICE, log entry 57). -/
def Team.isBad (t : Team) : Bool := t.threads.any (·.bad) || t.badScratch.any (·.2) || t.badTiles.any (·.2)

/-- A save returns to 0 the spin count of each quadrant whose previous issue came from the team (R406). -/
def State.spinOver (s : State) (id : TeamId) : State :=
  { s with quads := s.quads.map fun q => (q.1, if (q.2.prev.map (·.1)) = some id then { q.2 with spin := 0 } else q.2) }

/-- The team's resources are freed and its image stands at an address. -/
def State.putAway (s : State) (t : Team) (a size : Nat) (halted : Bool) : State :=
  let v := s.stoppedTeam t
  let s := s.leaveMoves t
  let s := if t.isBad then { s with poison := Store.set false s.poison a true } else s
  let s := s.updTeam t.id fun _ => { v with saving := false, saved := some ⟨a, size, halted⟩, waitCount := [] }
  let barred := v.threads.filterMap fun h => if h.sealPending then some h.idx else none
  let held := fun o : Op => (v.threads.map (·.idx)).filter fun i => barred.contains i && o.gids.any fun g => (s.grp g).members.contains i
  { s with
    ops := s.ops.map fun o => if o.team == t.id && o.kind.isSeal then { o with all := (o.all ++ held o).eraseDups } else o
    groups := s.groups.filter fun g => g.team != t.id || g.park.isSome
    moorings := mapIf (fun m => m.team == t.id) (fun m => { m with dormant := true, shadow := s.shadowPlace t.id m.core m.slot }) s.moorings
    quads := (s.spinOver t.id).quads.map fun q => (q.1, { q.2 with ready := q.2.ready.filter fun e => e.1 != t.id }) }

/-- The writing of a team's image joins a system channel of its die (R353, R435). -/
def State.saveStart (s : State) (t : Team) : State :=
  let l := s.launch t.id.launch
  s.sysStart (dieOfCore t.core) l.tenant (.save t.id) 0 (t.imageSize l (s.parksOf t.id).length)

/-- CONTEXT_SAVE: a team that has stopped is written, by a system channel, to the first place with room; where there is none any more, it goes on. -/
def execContextSave (team : TeamId) (s : State) : Out :=
  match s.findTeam team with
  | none => .next s
  | some t =>
    if !t.saving || !s.saveReady t then .next s
    else
      let l := s.launch team.launch
      let v := s.stoppedTeam t
      let halted := v.threads.any fun h => h.halted || h.haltedInHandler
      let img := v.image l (s.parksOf team) halted
      let done := fun s : State => s.sysDrop fun j => j == .save team
      match s.imagePlace l.tenant img.length with
      | none => .next (done (s.updTeam team fun t => { t with saving := false }))
      | some a => if s.sysDone (.save team) then .next (done ((s.writeImage a img).putAway t a img.length halted)) else .next (s.saveStart t)

/-! ### CONTEXT_RESTORE (R438, R439) -/

/-- Handles of a core that no resident team holds. -/
def State.freeHandles (s : State) (core : Nat) : List Nat :=
  (List.range 32).filter fun n => !s.teams.any fun t => t.saved.isNone && t.bufs.any fun b => b.core == core && b.handle == n

/-- The other copy of a redundant team, where it is resident, stands in another cluster of the same die (R448). -/
def State.apart (s : State) (l : Launch) (t : Team) (core : Nat) : Bool :=
  !l.redundant || (match s.findTeam t.id.other with
    | some o => o.saved.isSome || (decide (dieOfCore o.core = dieOfCore core) && decide (clusterOf o.core ≠ clusterOf core))
    | none => true)

/-- The checks of a restore on its target (R438). -/
def State.restoreFits (s : State) (l : Launch) (t : Team) (a core : Nat) : Bool :=
  s.roomBeside (s.sysDrop fun j => j == .back t.id core).holders l (t.homeLive l) core && s.apart l t core &&
  ((List.range l.cores).all fun h => decide ((t.bufs.filter fun b => b.core == t.core + h).length ≤ (s.freeHandles (core + h)).length)) &&
  decide (s.locNat (a + 4) 4 = imageGeneration)

/-- An offset of a section of an image. -/
def State.sectionAt (s : State) (a k : Nat) : Nat := a + s.locNat (a + 0x30 + 8 * k) 8

/-- The thread state that a record gives; what its wait names is kept by the model. -/
def stateFrom (now code wait park : Nat) (parks : List Nat) (st : ThSt) : ThSt :=
  let next := match st with
    | .waiting _ n => n
    | _ => 0
  match code with
  | 0 => .loose now
  | 1 => match wait % 16 with
    | 1 => .waiting (.join (bitsOf wait 4 3)) next
    | 2 => .waiting .tbar next
    | 3 => .waiting .pbar next
    | _ => st
  | 2 => match parks[park]? with
    | some gid => .parked gid
    | none => st
  | _ => .exited

/-- A thread as its record gives it; a seal or free that has completed since is pending no more (R308, R437). -/
def State.readThread (s : State) (l : Launch) (id : TeamId) (a now : Nat) (parks : List Nat) (h : Thread) : Thread :=
  let r := s.sectionAt a 1 + h.idx * (96 + 4 * l.nregs)
  let n := fun o k => s.locNat (r + o) k
  let f := n 0x0B 1
  { h with
    pc := n 0 8 % 2 ^ 57, word := n 8 1, st := stateFrom now (n 9 1) (n 0x0A 1) (n 0x0E 2) parks h.st
    guard := bitAt f 0, inHandler := bitAt f 1, halted := bitAt f 2, haltedInHandler := bitAt f 3, handlerCount := 0, bad := false
    sealPending := bitAt f 4 && s.ops.any fun o => o.kind.isSeal && o.team == id && o.all.contains h.idx
    preds := BitVec.ofNat 16 (n 0x0C 2), fsr := BitVec.ofNat 32 (n 0x10 4), sp := BitVec.ofNat 64 (n 0x18 8)
    obs := ⟨n 0x20 8, n 0x28 8, n 0x30 8, n 0x38 8, n 0x40 8⟩
    regs := (List.range l.nregs).foldl (fun m i => Store.set 0 m i (BitVec.ofNat 32 (n (0x60 + 4 * i) 4))) [] }

/-- The threads of a bit set of 256 bytes. -/
def State.readSet (s : State) (l : Launch) (a : Nat) : List Nat := (List.range l.size).filter fun i => bitAt (s.locByte (a + i / 8)).toNat (i % 8)

/-- A buffer as its record gives it, under a handle of its new core. -/
def bufFrom (w core handle : Nat) : Buf :=
  { handle := handle, core := core, base := bitsOf w 8 12 * 128, len := (bitsOf w 20 12 + 1) * 128, rot := bitsOf w 3 3, cmp := bitAt w 6, st := w % 4 }

/-- The buffers of an image; those of each core take its lowest free handles. -/
def State.readBufs (s : State) (a core : Nat) (t : Team) : List Buf :=
  (t.bufs.zipIdx.foldl (fun (r : List Buf × List (Nat × Nat)) e =>
    let c := core + (e.1.core - t.core)
    let used := (r.2.filter fun x => x.1 == c).length
    (r.1 ++ [bufFrom (s.locNat (s.sectionAt a 5 + 16 * e.2) 4) c ((s.freeHandles c).getD used 0)], r.2 ++ [(c, used)])) ([], [])).1

/-- The bindings of an image, each under a new name, nothing latched (R238). -/
def State.readBindings (s : State) (l : Launch) (a core : Nat) : List Binding :=
  (List.range (4 * l.cores)).filterMap fun i =>
    let r := s.sectionAt a 7 + 16 * i
    if s.locNat (r + 11) 1 % 2 = 1 then
      some { serial := s.nextId + i, core := core + i / 4, lo := s.locNat r 4, hi := s.locNat (r + 4) 4, fmt := s.locNat (r + 8) 1, mode := s.locNat (r + 9) 1, sel := s.locNat (r + 10) 1 }
    else none

/-- A tag entry of an image. -/
def tagFrom (v : Nat) : Option Tag := if bitAt v 80 then some ⟨bitsOf v 16 64, v % 2 ^ 16⟩ else none

/-- The scratchpad of an image: each half's bytes, with the slot records as updated while dormant. -/
def State.readScratch (s : State) (l : Launch) (a : Nat) : Store Byte :=
  (List.range l.cores).foldl (fun m h =>
    let m := m ++ storeFrom (scratchKey h 0) (s.locBytes (s.sectionAt a 3 + h * l.scratch) l.scratch)
    writeBytes m (slotOff l h 0) (s.locBytes (s.sectionAt a 9 + h * 16 * l.slots) (16 * l.slots))) []

/-- The team that an image gives on its new cores. -/
def State.readTeam (s : State) (l : Launch) (t : Team) (a core now : Nat) (parks : List Grp) : Team :=
  let hs := List.range l.cores
  { t with
    core := core, stamp := now, saved := none, waitCount := [], toForm := []
    threads := t.threads.map (s.readThread l t.id a now (parks.map (·.gid))), badScratch := [], badTiles := []
    rejoin := (List.range 8).map fun j => s.readSet l (s.sectionAt a 0 + 512 * j)
    pending := (List.range 8).map fun j => s.readSet l (s.sectionAt a 0 + 512 * j + 256)
    scratch := s.readScratch l a
    marks := hs.flatMap fun h => ((List.range (8 * l.markBytes)).filter fun g => bitAt (s.locByte (s.sectionAt a 4 + h * l.markBytes + g / 8)).toNat (g % 8)).map fun g => (h * halfGranules + g, true)
    bufs := s.readBufs a core t
    tiles := hs.foldl (fun m h => (List.range (l.tiles * 1024)).foldl (fun m i =>
      Store.set 0 m (tileKey h (4 * i)) (BitVec.ofNat 32 (s.locNat (s.sectionAt a 6 + h * l.tiles * 4096 + 4 * i) 4))) m) []
    bindings := s.readBindings l a core
    tags := hs.foldl (fun m h => (List.range l.tagCount).foldl (fun m i =>
      Store.set none m (tagKey h i) (tagFrom (s.locNat (s.sectionAt a 8 + (h * l.tagCount + i) * 16) 16))) m) []
    tagFirst := (l.coresOf core).map fun c => (s.tagRoom c l.tagCount).getD 0 }

/-- A parked sub-group as its record gives it, on its new quadrant: of its flags, those whose seal or free has not completed since (R308). -/
def State.readPark (s : State) (a core old i : Nat) (g : Grp) : Grp :=
  let r := s.sectionAt a 2 + 16 * i
  let flags := (List.range 12).foldl (fun n f => n + bit (bitAt (s.locNat r 2) f && s.flagBusy g.gid f) * 2 ^ f) 0
  { g with quad := core * 4 + (g.quad - old * 4), flags := BitVec.ofNat 12 flags, words := [], handler := 0
           park := g.park.map fun p => { p with cls := s.locNat (r + 4) 1, detail := s.locNat (r + 5) 1, addr := s.locNat (r + 8) 8 } }

/-- The whole image is read back: team, sub-groups, moorings and the pushes on their way to them (R392, R439). -/
def State.bringBack (s : State) (l : Launch) (t : Team) (a core : Nat) : State :=
  let now := (s.die (dieOfCore core)).clock
  let parks := s.parksOf t.id
  let v := s.readTeam l t a core now parks
  let move := fun c => core + (c - t.core)
  let gs := parks.zipIdx.map fun e => s.readPark a core t.core e.2 e.1
  let s := { s with
    nextId := s.nextId + 4 * l.cores
    groups := (s.groups.filter fun g : Grp => !(g.team == t.id && g.park.isSome)) ++ gs
    moorings := mapIf (fun m => m.team == t.id) (fun m => { m with dormant := false, shadow := 0, core := move m.core }) s.moorings
    pushes := mapIf (fun p => p.team == t.id) (fun p => { p with core := move p.core }) s.pushes }
  (s.updTeam t.id fun _ => v).rewait t.id (v.threads.map fun h : Thread => h.idx)

/-- The image cannot be read (R438). -/
def State.imagePoisoned (s : State) (v : Saved) : Bool := s.poison.any fun e => e.2 && decide (v.addr ≤ e.1) && decide (e.1 < v.addr + v.size)

/-- A record of a restore that was refused. -/
def State.refuseRestore (s : State) (l : Launch) (t : Team) (cls detail : Nat) : State :=
  let s := s.updLaunch l.id fun l => { l with lastPreempt := s.hub }
  (s.makeRec l.tenant { kind := 8, cls := cls, detail := detail, launch := l.id, team := t.id.team, red := bit l.redundant + bit t.id.shadow * 2 }).2

/-- A saved team comes back when no launch of higher priority waits (R347). -/
def State.mayRestore (s : State) (l : Launch) (core : Nat) : Bool :=
  decide (core < 768) && bitAt l.dieMask (dieOfCore core) && !s.launchStopped l.id && s.notHeldBack l.prio (dieOfCore core)

/-- The reading of a saved team's image joins a system channel of the die of the core it returns to, whose room it holds from then on (R353). -/
def State.backStart (s : State) (l : Launch) (t : Team) (v : Saved) (core : Nat) : State :=
  s.sysStart (dieOfCore core) l.tenant (.back t.id core) v.addr v.size

/-- CONTEXT_RESTORE: all or nothing, once a system channel has read the image. -/
def execContextRestore (team : TeamId) (core : Nat) (s : State) : Out :=
  match s.findTeam team, s.findLaunch team.launch with
  | some t, some l =>
    match t.saved with
    | none => .next s
    | some v =>
      let t0 := s.sysDrop fun j => j == .back team core
      if !s.mayRestore l core then .next t0
      else if s.imagePoisoned v then
        let t0 := t0.sawBad v.addr
        if l.replayable && !l.incomplete then .next { t0 with rollbacks := s.rollbacks ++ [(l.id, clsEcc)] }
        else .next (t0.refuseRestore l t clsEcc 3)
      else if !s.restoreFits l t v.addr core then .next (t0.refuseRestore l t clsCapacity 0)
      else if s.sysDone (.back team core) then .next (t0.bringBack l t v.addr core)
      else .next (s.backStart l t v core)
  | _, _ => .next s

/-! ### Halting and debugging (R432 to R434) -/

/-- DBGCTL after an operation: OP, STATUS and GO; the other bits stay. -/
def Tenant.dbgSet (t : Tenant) (op status : Nat) (go : Bool) : Tenant :=
  { t with dbgctl := BitVec.ofNat 64 (bitsOf t.dbgctl.toNat 16 3 * 2 ^ 16 + op + status * 2 ^ 32 + bit go * 2 ^ 31) }

/-- The launch that DBGSEL names, where it is the tenant's. -/
def State.dbgLaunch (s : State) (tenant : Nat) : Option Launch :=
  match s.findLaunch (bitsOf (s.tenant tenant).dbgsel.toNat 32 32) with
  | some l => if l.tenant = tenant then some l else none
  | none => none

/-- The selected teams. -/
def State.dbgTeams (s : State) (tenant : Nat) : List Team := s.teams.filter fun t => (s.tenant tenant).selects t.id && (s.launch t.id.launch).tenant == tenant

/-- There is such a launch, and such a team where one is named. -/
def State.dbgFound (s : State) (tenant : Nat) : Bool :=
  (s.dbgLaunch tenant).isSome && (decide (bitsOf (s.tenant tenant).dbgsel.toNat 0 32 = 2 ^ 32 - 1) || !(s.dbgTeams tenant).isEmpty)

/-- A thread has stopped for a halt. -/
def State.threadStopped (s : State) (h : Thread) : Bool :=
  let flag := h.halted || h.haltedInHandler
  match h.st with
  | .exited => true
  | .issuing gid => flag && (s.grp gid).stopsHalted
  | .loose _ => h.haltedLoose
  | _ => flag

/-- Every thread of the selected teams has stopped, and one is halted. -/
def State.allHalted (s : State) (tenant : Nat) : Bool :=
  let ts := s.dbgTeams tenant
  (ts.all fun t => t.threads.all s.threadStopped) && ts.any fun t => t.threads.any fun h => h.halted || h.haltedInHandler

/-- The flags of a saved team in its image follow a halt or resume. -/
def State.reflag (s : State) (id : TeamId) : State :=
  let t := s.team id
  match t.saved with
  | none => s
  | some v => t.threads.foldl (fun s h => s.setBytes (s.sectionAt v.addr 1 + h.idx * (96 + 4 * (s.launch id.launch).nregs) + 0x0B) (leBytes h.flagByte 1)) s

/-- An operation of DBGCTL on the selected launch and teams; STATUS 0x10 where there is none. -/
def State.dbgDo (s : State) (tenant op : Nat) (f : State → State) : Out :=
  if (s.tenant tenant).busy then .next s
  else if s.dbgFound tenant then .next (f (s.updTenant tenant fun t => t.dbgSet op 0 false))
  else .next (s.updTenant tenant fun t => t.dbgSet op 0x10 false)

/-- HALT (R433). -/
def execHalt (tenant : Nat) (s : State) : Out :=
  s.dbgDo tenant 1 fun s => (s.dbgTeams tenant).foldl (fun s t => (s.haltTeam t.id).reflag t.id) s

/-- RESUME (R433, R434). -/
def execResume (tenant : Nat) (s : State) : Out :=
  s.dbgDo tenant 2 fun s =>
    let s := (s.dbgTeams tenant).foldl (fun s t => (s.updTeam t.id fun t => { t with threads := t.threads.map fun h => { h with halted := false, haltedInHandler := false, haltPending := false } }).reflag t.id) s
    s.updTenant tenant fun t => (t.dbgBit 17 false).dbgBit 18 false

/-- Attach a debugger to the selected launch or detach it. -/
def State.setAttached (s : State) (tenant : Nat) (b : Bool) : State :=
  match s.dbgLaunch tenant with
  | some l => (s.updLaunch l.id fun l => { l with attached := b }).updTenant tenant fun t => t.dbgBit 16 b
  | none => s

/-- ATTACH (R432). -/
def execAttach (tenant : Nat) (s : State) : Out := s.dbgDo tenant 3 fun s => s.setAttached tenant true
/-- DETACH (R432). -/
def execDetach (tenant : Nat) (s : State) : Out := s.dbgDo tenant 4 fun s => s.setAttached tenant false

/-- One selected team is written to an image and stays; nothing where the area has no room. -/
def State.keepOne (s : State) (tenant : Nat) (t : Team) : Option State :=
  let l := s.launch t.id.launch
  let img := (s.stoppedTeam t).image l (s.parksOf t.id) true
  (s.imagePlace tenant img.length).map fun a => ((s.writeImage a img).spinOver t.id).updTenant tenant fun x => { x with kept := x.kept ++ [(l.id, a, img.length)] }

/-- The selected teams are written one after another. -/
def State.keepAll (s : State) (tenant : Nat) : List Team → Option State
  | [] => some s
  | t :: r => (s.keepOne tenant t).bind fun s => State.keepAll s tenant r

/-- The selected resident teams. -/
def State.keepable (s : State) (tenant : Nat) : List Team := (s.dbgTeams tenant).filter fun t => t.saved.isNone

/-- SAVE_HALTED_TEAM (R433, R435): busy until the teams' words are done and system channels have written their images. -/
def execSaveHaltedTeam (tenant : Nat) (s : State) : Out :=
  let ts := s.keepable tenant
  if (s.tenant tenant).busy then .next s
  else if !s.dbgFound tenant || ts.isEmpty || !(ts.all fun t => t.threads.all s.threadStopped) then .next (s.updTenant tenant fun t => t.dbgSet 5 0x10 false)
  else if !(ts.all s.saveReady) then .next (s.updTenant tenant fun t => t.dbgSet 5 1 true)
  else
    match s.keepAll tenant ts with
    | some k =>
      if ts.all fun t => s.sysDone (.save t.id) then .next (ts.foldl (fun s t => s.sysDrop fun j => j == .save t.id) (k.updTenant tenant fun t => t.dbgSet 5 0 false))
      else .next (ts.foldl State.saveStart (s.updTenant tenant fun t => t.dbgSet 5 1 true))
    | none => .next (s.updTenant tenant fun t => t.dbgSet 5 0x11 false)

/-- HALT_REACHED (R433). -/
def execHaltReached (tenant : Nat) (s : State) : Out :=
  let t := s.tenant tenant
  if bitAt t.dbgctl.toNat 17 || !s.allHalted tenant then .next s
  else
    let s := s.updTenant tenant fun t => t.dbgBit 17 true
    let red := ((s.dbgLaunch tenant).map fun l => bit l.redundant).getD 0
    .next (s.makeRec tenant { kind := 9, launch := bitsOf t.dbgsel.toNat 32 32, team := bitsOf t.dbgsel.toNat 0 32, red := red }).2

end Sys2Proof.Machine
end

