-- ==== Sys2Proof/Machine/Float.lean ====
section
/-! DEFINITION. Class 1: FP32 arithmetic, compares, special functions, packed 16-bit arithmetic, dot products and conversions (R166 to R188). The SFU row is variable latency, the others fixed (R167). -/
namespace Sys2Proof.Machine

/-- A fixed word of two registers. -/
def floatTwo (k : Ctl) (d a b : Reg) (f : Nat → Nat → Nat) (s : State) : Out :=
  laneFixed 1 k (one d ++ one a ++ one b) s fun h => wreg d (f (h.v a) (h.v b))
/-- A fixed word of one register. -/
def floatOne (k : Ctl) (d a : Reg) (f : Nat → Nat) (s : State) : Out :=
  laneFixed 1 k (one d ++ one a) s fun h => wreg d (f (h.v a))

/-- fadd (R169). -/
def execFadd (k : Ctl) (m : Round) (d a b : Reg) (s : State) : Out := floatTwo k d a b (FFmt.f32.add m) s
/-- fsub (R169). -/
def execFsub (k : Ctl) (m : Round) (d a b : Reg) (s : State) : Out := floatTwo k d a b (FFmt.f32.sub m) s
/-- fmul (R169). -/
def execFmul (k : Ctl) (m : Round) (d a b : Reg) (s : State) : Out := floatTwo k d a b (FFmt.f32.mul m) s
/-- ffma: one rounding (R170). -/
def execFfma (k : Ctl) (np nc : Bool) (rnd : Round) (d a b c : Reg) (s : State) : Out :=
  laneFixed 2 k (one d ++ one a ++ one b ++ one c) s fun h => wreg d (FFmt.f32.fma rnd np nc (h.v a) (h.v b) (h.v c))
/-- fmin (R171). -/
def execFmin (k : Ctl) (m : NumMode) (d a b : Reg) (s : State) : Out := floatTwo k d a b (FFmt.f32.minMax false m) s
/-- fmax (R171). -/
def execFmax (k : Ctl) (m : NumMode) (d a b : Reg) (s : State) : Out := floatTwo k d a b (FFmt.f32.minMax true m) s
/-- fabs (R172). -/
def execFabs (k : Ctl) (d a : Reg) (s : State) : Out := floatOne k d a (· % 2 ^ 31) s
/-- fneg (R172). -/
def execFneg (k : Ctl) (d a : Reg) (s : State) : Out := floatOne k d a (fun x => (x + 2 ^ 31) % 2 ^ 32) s
/-- A float compare to predicate (R174). -/
def fcmpWord (k : Ctl) (c : FCond) (comb : Combine) (pd : Pred) (a b : Reg) (s : State) : Out :=
  laneFixed 1 k (one a ++ one b) s fun h => setPred h comb pd (FFmt.f32.cmp c (h.v a) (h.v b))
/-- fcmp.eq (R174). -/
def execFcmpEq (k : Ctl) (comb : Combine) (pd : Pred) (a b : Reg) (s : State) : Out := fcmpWord k .eq comb pd a b s
/-- fcmp.lt (R174). -/
def execFcmpLt (k : Ctl) (comb : Combine) (pd : Pred) (a b : Reg) (s : State) : Out := fcmpWord k .lt comb pd a b s
/-- fcmp.le (R174). -/
def execFcmpLe (k : Ctl) (comb : Combine) (pd : Pred) (a b : Reg) (s : State) : Out := fcmpWord k .le comb pd a b s
/-- fcmp.ne (R174). -/
def execFcmpNe (k : Ctl) (comb : Combine) (pd : Pred) (a b : Reg) (s : State) : Out := fcmpWord k .ne comb pd a b s
/-- fclass: bit of the class in the mask m:b (R175). -/
def execFclass (k : Ctl) (khi : Bits2) (comb : Combine) (pd : Pred) (a : Reg) (klo : Bits6) (s : State) : Out :=
  laneFixed 1 k (one a) s fun h => setPred h comb pd (bitAt (khi.toNat * 64 + klo.toNat) (fclassOf (h.v a)))
/-- frint (R176). -/
def execFrint (k : Ctl) (m : Round) (d a : Reg) (s : State) : Out := floatOne k d a (frintF32 m) s
/-- fsat.unit (R173). -/
def execFsatUnit (k : Ctl) (d a : Reg) (s : State) : Out := floatOne k d a (fsatF32 false) s
/-- fsat.sym (R173). -/
def execFsatSym (k : Ctl) (d a : Reg) (s : State) : Out := floatOne k d a (fsatF32 true) s
/-- expins (R177). -/
def execExpins (k : Ctl) (m : Round) (d a b : Reg) (s : State) : Out :=
  floatTwo k d a b (fun x n => scaleF32 m x (toSigned 32 n)) s
/-- expext.exp (R178). -/
def execExpextExp (k : Ctl) (d a : Reg) (s : State) : Out := floatOne k d a expextExp s
/-- expext.sig (R178). -/
def execExpextSig (k : Ctl) (d a : Reg) (s : State) : Out := floatOne k d a expextSig s

/-- A word of the special-function unit (R167, R179). -/
def sfuWord (k : Ctl) (d a : Reg) (f : Nat → Nat) (s : State) : Out :=
  laneVariable 1 1 k (one d ++ one a) s fun _ h => wreg d (f (h.v a))
/-- fexp (R179, R180). -/
def execFexp (k : Ctl) (d a : Reg) (s : State) : Out := sfuWord k d a sfuExp s
/-- flog (R179, R180). -/
def execFlog (k : Ctl) (d a : Reg) (s : State) : Out := sfuWord k d a sfuLog s
/-- frcp (R179, R180). -/
def execFrcp (k : Ctl) (d a : Reg) (s : State) : Out := sfuWord k d a sfuRcp s
/-- frsq (R179, R180). -/
def execFrsq (k : Ctl) (d a : Reg) (s : State) : Out := sfuWord k d a sfuRsq s
/-- fsqrt (R179, R180). -/
def execFsqrt (k : Ctl) (m : Round) (d a : Reg) (s : State) : Out := sfuWord k d a (sfuSqrt m) s
/-- fsin (R179, R180). -/
def execFsin (k : Ctl) (d a : Reg) (s : State) : Out := sfuWord k d a sfuSin s
/-- fcos (R179, R180). -/
def execFcos (k : Ctl) (d a : Reg) (s : State) : Out := sfuWord k d a sfuCos s

/-- The format of a 16-bit element type. -/
def HalfTy.fmt : HalfTy → FFmt
  | .f16 => .f16
  | .bf16 => .bf16
/-- The format of a 16-bit element type held in one bit. -/
def HalfTy1.fmt : HalfTy1 → FFmt
  | .f16 => .f16
  | .bf16 => .bf16
/-- The type code of a 16-bit element type held in one bit. -/
def HalfTy1.code16 : HalfTy1 → TypeCode
  | .f16 => .f16
  | .bf16 => .bf16
/-- Element e of a register of 16-bit elements (R92). -/
def half (x e : Nat) : Nat := x / 65536 ^ e % 65536
/-- An operation on each element of a pair of 16-bit elements (R181). -/
def eachHalf (f : Nat → Nat → Nat) (x y : Nat) : Nat := f (half x 0) (half y 0) + 65536 * f (half x 1) (half y 1)
/-- hadd2 (R181). -/
def execHadd2 (k : Ctl) (m : HalfTy) (d a b : Reg) (s : State) : Out := floatTwo k d a b (eachHalf ((HalfTy.fmt m).add .rne)) s
/-- hsub2 (R181). -/
def execHsub2 (k : Ctl) (m : HalfTy) (d a b : Reg) (s : State) : Out := floatTwo k d a b (eachHalf ((HalfTy.fmt m).sub .rne)) s
/-- hmul2 (R181). -/
def execHmul2 (k : Ctl) (m : HalfTy) (d a b : Reg) (s : State) : Out := floatTwo k d a b (eachHalf ((HalfTy.fmt m).mul .rne)) s
/-- hfma2 (R181). -/
def execHfma2 (k : Ctl) (m : HalfTy) (rnd : Round) (d a b c : Reg) (s : State) : Out :=
  laneFixed 2 k (one d ++ one a ++ one b ++ one c) s fun h =>
    let f := fun e => (HalfTy.fmt m).fma rnd false false (half (h.v a) e) (half (h.v b) e) (half (h.v c) e)
    wreg d (f 0 + 65536 * f 1)
/-- hmin2 (R181). -/
def execHmin2 (k : Ctl) (m : HalfTy) (d a b : Reg) (s : State) : Out :=
  floatTwo k d a b (eachHalf ((HalfTy.fmt m).minMax false .num)) s
/-- hmax2 (R181). -/
def execHmax2 (k : Ctl) (m : HalfTy) (d a b : Reg) (s : State) : Out :=
  floatTwo k d a b (eachHalf ((HalfTy.fmt m).minMax true .num)) s
/-- hcmp2: element e into predicate 2k + e (R182). -/
def execHcmp2 (k : Ctl) (cc : FCond) (comb : Combine) (pk : Bits3) (ty : HalfTy1) (a b : Reg) (s : State) : Out :=
  laneFixed 1 k (one a ++ one b) s fun h =>
    let w := fun e =>
      let p := 2 * pk.toNat + e
      wpred p (Combine.apply comb (h.preds.getLsbD p) ((HalfTy1.fmt ty).cmp cc (half (h.v a) e) (half (h.v b) e)))
    w 0 ++ w 1
/-- dp4: exact, then modulo 2^32 or saturated (R184). -/
def execDp4 (k : Ctl) (sa sb : Bool) (d a b c : Reg) (sat : Bool) (s : State) : Out :=
  laneFixed 2 k (one d ++ one a ++ one b ++ one c) s fun h =>
    let e := fun (x i : Nat) (sg : Bool) => intVal 8 sg (x / 256 ^ i)
    let x : Int := (List.range 4).foldl (fun (t : Int) i => t + e (h.v a) i sa * e (h.v b) i sb) (toSigned 32 (h.v c))
    wreg d (if sat then satI 32 x else wrapTo 32 x)
/-- The sum of fdot2: exact products, rounded once (R183). -/
def dot2 (f : FFmt) (rnd : Round) (x y c : Nat) : Nat :=
  FFmt.f32.sumTerms rnd [(f, half x 0), (f, half x 1), (f, half y 0), (f, half y 1), (.f32, c)]
    [termOf .f32 c false, termMul f (half x 0) f (half y 0) false, termMul f (half x 1) f (half y 1) false]
/-- fdot2 (R183). -/
def execFdot2 (k : Ctl) (m : HalfTy) (rnd : Round) (d a b c : Reg) (s : State) : Out :=
  laneFixed 2 k (one d ++ one a ++ one b ++ one c) s fun h => wreg d (dot2 (HalfTy.fmt m) rnd (h.v a) (h.v b) (h.v c))

/-- The registers an element of a type lies in: a pair for a 64-bit type (R185). -/
def typeRegs (t : TypeCode) (r : Reg) : List Nat := if t.width = 64 then two r else one r
/-- An element of a register under a type. -/
def elemOf (t : TypeCode) (h : Thread) (r : Reg) (e : Nat) : Nat :=
  if t.width = 64 then h.pair r else h.v r / 2 ^ (t.width * e) % 2 ^ t.width
/-- Write one element alone (R186). -/
def putElem (t : TypeCode) (d : Reg) (e v : Nat) : List Wr :=
  if t.width = 64 then wpair d v
  else if t.width = 32 then wreg d v
  else [⟨.part d.toNat (t.width * e) t.width, v⟩]
/-- cvt (R186). -/
def execCvt (k : Ctl) (d a : Reg) (rnd : Round) (sat : Bool) (delem selem : Bits2) (dst src : TypeCode) (s : State) : Out :=
  laneFixed 2 k (typeRegs dst d ++ typeRegs src a) s fun h =>
    putElem dst d delem.toNat (cvtElem src dst rnd sat (elemOf src h a selem.toNat))
/-- pack2 (R187). -/
def execPack2 (k : Ctl) (d a b : Reg) (rnd : Round) (sat : Bool) (ty : HalfTy1) (s : State) : Out :=
  laneFixed 2 k (one d ++ one a ++ one b) s fun h =>
    wreg d (cvtElem .f32 (HalfTy1.code16 ty) rnd sat (h.v a) + 65536 * cvtElem .f32 (HalfTy1.code16 ty) rnd sat (h.v b))
/-- unpack2 (R187). -/
def execUnpack2 (k : Ctl) (m : HalfTy) (d a : Reg) (s : State) : Out :=
  laneFixed 1 k (two d ++ one a) s fun h =>
    let w := fun e => fToF (HalfTy.fmt m) .f32 .rne false (half (h.v a) e)
    wpair d (w 0 + 2 ^ 32 * w 1)
/-- The type code of a cvt4x8 element (R188). -/
def ByteTy.code8 : ByteTy → TypeCode
  | .e4m3 => .e4m3
  | .e5m2 => .e5m2
  | .i8 => .i8
  | .n8 => .n8
/-- cvt4x8.pack (R188). -/
def execCvt4x8Pack (k : Ctl) (d a : Reg) (rnd : Round) (sat : Bool) (ty : ByteTy) (s : State) : Out :=
  laneFixed 2 k (one d ++ regsFrom a 4) s fun h =>
    wreg d ((List.range 4).foldl (fun v e => v + cvtElem .f32 (ByteTy.code8 ty) rnd sat (h.vn (a.toNat + e)) * 256 ^ e) 0)
/-- cvt4x8.unpack (R188). -/
def execCvt4x8Unpack (k : Ctl) (d a : Reg) (ty : ByteTy) (s : State) : Out :=
  laneFixed 2 k (regsFrom d 4 ++ one a) s fun h =>
    wregs d.toNat ((List.range 4).foldl (fun v e => v + cvtElem (ByteTy.code8 ty) .f32 .rne false (h.v a / 256 ^ e % 256) * (2 ^ 32) ^ e) 0) 4

end Sys2Proof.Machine
end

