-- ==== Sys2Proof/Machine/Platform.lean ====
section
/-! DEFINITION. The host, the hub's tables and the module around the dies: invalidation (R385), regions (R387, R388), context areas, frame windows and pools (R417, R456, R457), tenant reset (R458), peers (R326, R459), anti-rollback (R461, R462), boot (R463), power and cooling (R464, R465), and the registers of the management window (R453 to R455). -/
namespace Sys2Proof.Machine

/-! ### TINV_COMMAND (R377, R384, R385) -/

/-- The fields of TINVCTL that a write sets. -/
def tinvFields (v : Nat) : Nat := bitsOf v 24 4 * 2 ^ 24 + bitsOf v 22 2 * 2 ^ 22 + bitsOf v 0 20
/-- The range that a command names: first address and length. -/
def Tenant.tinvRange (t : Tenant) : Nat × Nat :=
  let c := t.tinvctl.toNat
  if bitsOf c 0 20 = 0 then (0, 2 ^ 57) else ((if bitsOf c 32 8 = 1 then t.tinvVa else t.tinva.toNat) % 2 ^ 57, bitsOf c 0 20 * pageBytes (bitsOf c 22 2))
def Tenant.tinvAsid (t : Tenant) : Nat := bitsOf t.tinvctl.toNat 24 4
def Tenant.tinvBusy (t : Tenant) : Bool := decide (bitsOf t.tinvctl.toNat 32 8 = 1)
/-- TINVCTL with a STATUS and GO. -/
def Tenant.tinvSet (t : Tenant) (status : Nat) (go : Bool) : Tenant :=
  { t with tinvctl := BitVec.ofNat 64 (tinvFields t.tinvctl.toNat + status * 2 ^ 32 + bit go * 2 ^ 31) }

/-- A launch of a tenant's address space. -/
def State.inSpace (s : State) (launch tenant asid : Nat) : Bool :=
  match s.findLaunch launch with
  | some l => l.tenant == tenant && l.asid == asid
  | none => false

/-- Every access that a dropped entry may have translated has completed. -/
def State.tinvDrained (s : State) (tenant : Nat) : Bool :=
  let t := s.tenant tenant
  let r := t.tinvRange
  !(s.ops.any fun o => s.inSpace o.team.launch tenant t.tinvAsid && o.accs.any fun a => !a.done && decide (r.1 ≤ a.va % 2 ^ 57) && decide (a.va % 2 ^ 57 < r.1 + r.2)) &&
  !(s.writes.any fun w => (w.launch.map fun l => s.inSpace l tenant t.tinvAsid).getD false)

/-- An invalidation of a whole address space brings its ROOT into effect. -/
def Tenant.takeRoot (t : Tenant) (asid : Nat) : Tenant := { t with roots := Store.set 0 t.roots asid (Store.get 0 t.troot asid) }

/-- A command whose accesses have completed is done: what has been cached of the range meanwhile goes, and then a new ROOT is in effect. -/
def State.tinvEnd (s : State) (tenant : Nat) : State :=
  if s.tinvDrained tenant then
    let t := s.tenant tenant
    (s.dropXlat tenant t.tinvAsid t.tinvRange.1 t.tinvRange.2).updTenant tenant fun t => (if bitsOf t.tinvctl.toNat 0 20 = 0 then t.takeRoot t.tinvAsid else t).tinvSet 0 false
  else s

/-- TINV_COMMAND. -/
def execTinvCommand (tenant : Nat) (v : DWord) (s : State) : Out :=
  let t := s.tenant tenant
  if t.busy then .next s
  else if t.tinvBusy then .next (s.tinvEnd tenant)
  else
    let s := s.updTenant tenant fun t => { t with tinvctl := BitVec.ofNat 64 (bitsOf t.tinvctl.toNat 32 8 * 2 ^ 32 + tinvFields v.toNat) }
    let t := s.tenant tenant
    if !bitAt v.toNat 31 then .next s
    else if t.tinva.toNat % pageBytes (bitsOf v.toNat 22 2) ≠ 0 then .next (s.updTenant tenant fun t => t.tinvSet 0x10 false)
    else
      let r := t.tinvRange
      .next (((s.dropXlat tenant t.tinvAsid r.1 r.2).updTenant tenant fun t => ({ t with tinvVa := t.tinva.toNat } : Tenant).tinvSet 1 true).tinvEnd tenant)

/-! ### REGION_LOAD, REGION_REMOVE (R387, R388) -/

/-- The fields of REGCMD that a write sets, with a STATUS. -/
def regcmdWith (v status : Nat) : DWord := BitVec.ofNat 64 (bitsOf v 30 2 * 2 ^ 30 + bitsOf v 24 4 * 2 ^ 24 + bitsOf v 12 12 * 2 ^ 12 + status * 2 ^ 32)

/-- The 32 bytes of a descriptor, which the tenant can read in ORDINARY memory. -/
def State.descriptor (s : State) (id : RegionId) : Option (List Byte) :=
  let va := ((Store.get 0 (s.tenant id.tenant).rgbase id.asid) + BitVec.ofNat 64 (32 * id.idx)).toNat
  match s.check [] id.tenant id.asid va 1 .read with
  | .ok tr => if tr.region.isSome || s.linkDown tr.key then none else some (s.locBytes tr.key 32)
  | .error _ => none

/-- The region that a descriptor describes. -/
def regionFrom (id : RegionId) (b : List Byte) : Region :=
  let x := fieldAt b 0x10 1
  { id := id, cls := bitsOf x 0 2, base := fieldAt b 0 8 % 2 ^ 57, len := fieldAt b 8 8, psize := bitsOf x 2 2, elem := bitsOf x 4 2
    pool := bitsOf (fieldAt b 0x11 1) 0 4, leaf := fieldAt b 0x12 1, dflt := fieldAt b 0x18 8, home := 0 }

/-- The range is misaligned, empty, or leaves the 57-bit space. -/
def rangeBad (base len size : Nat) : Bool :=
  decide (len = 0) || decide (base % size ≠ 0) || decide (len % size ≠ 0) || !canonical base || decide (base % 2 ^ 56 + len > 2 ^ 56)

/-- A reserved field is nonzero, or a field is set outside its class. -/
def descReserved (g : Region) (b : List Byte) : Bool :=
  decide (bitsOf (fieldAt b 0x10 1) 6 2 ≠ 0) || decide (g.psize = 3) || decide (bitsOf (fieldAt b 0x11 1) 4 4 ≠ 0) || bitAt g.leaf 2 || bitAt g.leaf 7 ||
  decide (fieldAt b 0x13 5 ≠ 0) || decide (g.cls = 3) || (g.cls != 1 && (decide (g.elem ≠ 0) || decide (g.dflt ≠ 0))) || decide (2 ^ (8 * g.elemBytes) ≤ g.dflt)

/-- The pages of a region as virtual addresses. -/
def Region.pageVas (g : Region) : List Nat := (List.range g.npages).map fun i => g.base + i * pageBytes g.psize

/-- A page's entry can be reached, and holds neither a leaf nor a placeholder. -/
def State.entryFree (s : State) (g : Region) (va : Nat) : Bool :=
  match s.pageEntry g.id.tenant g.id.asid va (pageLevel g.psize) with
  | some a => s.locNat a 8 / 2 ^ 62 % 2 = 0
  | none => false

/-- The STATUS of a load: the first refusal in the order of R388, or 0. -/
def State.loadStatus (s : State) (id : RegionId) : Nat :=
  if (Store.get 0 (s.tenant id.tenant).rgcount id.asid).toNat ≤ id.idx || (s.findRegion id).isSome then 0x10
  else match s.descriptor id with
    | none => 0x17
    | some b =>
      let g := regionFrom id b
      let cfg := (s.pool id.tenant g.pool).cfg.toNat
      if rangeBad (fieldAt b 0 8) g.len (if g.psize = 3 then 65536 else pageBytes g.psize) then 0x11
      else if s.regions.any fun r => r.id.tenant == id.tenant && r.id.asid == id.asid && decide (r.base < g.base + g.len) && decide (g.base < r.base + r.len) then 0x12
      else if descReserved g b then 0x13
      else if !bitAt cfg 0 || decide (bitsOf cfg 5 2 ≠ g.psize) then 0x14
      else if !g.pageVas.all (s.entryFree g) then 0x15
      else 0

/-- The clocks and errors noted of a region's locations go. -/
def State.forgetRegion (s : State) (g : Region) : State :=
  let lo := regionKey g.id.tenant g.id.asid g.base
  { s with clks := s.clks.filter fun e : Nat × VC => !(decide (lo ≤ e.1) && decide (e.1 < lo + g.len))
           poison := s.poison.filter fun e : Nat × Bool => !(decide (lo ≤ e.1) && decide (e.1 < lo + g.len)) }

/-- A descriptor becomes active; each page of a DEFAULT or APPEND region gets its placeholder. -/
def State.activate (s : State) (id : RegionId) (b : List Byte) : State :=
  let g := regionFrom id b
  let g := { g with home := bitsOf (s.pool id.tenant g.pool).cfg.toNat 2 2 }
  let s := if g.cls = 0 then s
    else (g.pageVas.foldl (fun s va => s.setEntry id.tenant id.asid va (pageLevel g.psize) g.placeholder) s).forgetRegion g
  { s with regions := s.regions ++ [g] }

/-- The region that a write of REGCMD names. -/
def regcmdId (tenant v : Nat) : RegionId := ⟨tenant, bitsOf v 24 4, bitsOf v 12 12⟩

/-- REGION_LOAD: a write of REGCMD with OP 1; OP 0 and 3 only set the fields. -/
def execRegionLoad (tenant : Nat) (v : DWord) (s : State) : Out :=
  let put := fun (s : State) st => s.updTenant tenant fun t => { t with regcmd := regcmdWith v.toNat st }
  let op := bitsOf v.toNat 30 2
  if (s.tenant tenant).busy || op = 2 then .next s
  else if op ≠ 1 then .next (put s (bitsOf (s.tenant tenant).regcmd.toNat 32 8))
  else
    let id := regcmdId tenant v.toNat
    let st := s.loadStatus id
    match (if st = 0 then s.descriptor id else none) with
    | some b => .next (put (s.activate id b) 0)
    | none => .next (put s st)

/-- A page of an ORDINARY region lies at a location. -/
def State.holdsPage (s : State) (g : Region) (key : Nat) : Bool := decide (g.cls = 0) && g.pageVas.any fun va => match s.translate [] g.id.tenant g.id.asid va with
  | .ok tr => decide (tr.key / pageBytes g.psize = key / pageBytes g.psize)
  | .error _ => false

/-- A launch holds snapshots of a region. -/
def State.snapsOf (s : State) (l : Launch) (g : Region) : Bool := l.snaps.any fun e => match e with
  | .copy _ _ _ _ (some (r, _)) _ _ => r == g.id
  | .copy page _ _ _ none _ _ => s.holdsPage g page
  | .allocated r _ => r == g.id
  | .released r _ _ => r == g.id
  | .append r _ _ _ _ _ _ => r == g.id

/-- The STATUS of a removal. -/
def State.removeStatus (s : State) (id : RegionId) : Nat :=
  match s.findRegion id with
  | none => 0x10
  | some g =>
    if (Store.get 0 (s.tenant id.tenant).rgcount id.asid).toNat ≤ id.idx then 0x10
    else if !g.pages.isEmpty || (g.cls = 2 && (decide (g.st ≠ 0) || decide (g.t ≠ 128))) || s.launches.any (fun l => l.tenant == id.tenant && l.asid == id.asid && s.snapsOf l g) then 0x16
    else 0

/-- A placeholder of a page turns invalid. -/
def State.clearEntry (s : State) (g : Region) (va : Nat) : State :=
  match s.pageEntry g.id.tenant g.id.asid va (pageLevel g.psize) with
  | some a => if s.locNat a 8 / 2 ^ 62 = 1 then s.setEntry g.id.tenant g.id.asid va (pageLevel g.psize) 0 else s
  | none => s

/-- A region becomes inactive. -/
def State.deactivate (s : State) (id : RegionId) : State :=
  match s.findRegion id with
  | none => s
  | some g =>
    let s := if g.cls = 0 then s else g.pageVas.foldl (fun s va => s.clearEntry g va) s
    { (s.dropXlat id.tenant id.asid g.base g.len) with regions := s.regions.filter fun r => r.id != id }

/-- REGION_REMOVE: a write of REGCMD with OP 2. -/
def execRegionRemove (tenant : Nat) (v : DWord) (s : State) : Out :=
  if (s.tenant tenant).busy || bitsOf v.toNat 30 2 ≠ 2 then .next s
  else
    let id := regcmdId tenant v.toNat
    let st := s.removeStatus id
    let s := if st = 0 then s.deactivate id else s
    .next (s.updTenant tenant fun t => { t with regcmd := regcmdWith v.toNat st })

/-! ### Frames in use (R417, R456, R457) -/

/-- Ranges of physical memory: first address and length. -/
abbrev Spans := List (Nat × Nat)

/-- A range touches one of some ranges. -/
def touches (xs : Spans) (a n : Nat) : Bool := xs.any fun x => decide (x.1 < a + n) && decide (a < x.1 + x.2)

/-- The tables that a table reaches, itself among them; and, where asked for, the frames of their leaves in module memory. -/
def State.tablesFrom (s : State) (leaves : Bool) : Nat → Nat → Spans
  | lv, table =>
    let n := if lv = 0 then 32 else 512
    (table, 8 * n) :: (List.range n).flatMap fun i =>
      let e := s.locNat (table + 8 * i) 8
      if e / 2 ^ 62 = 3 && bitsOf e 53 2 = 0 && leaves then [(bitsOf e 16 36 * 65536, 2 ^ levelShift lv)]
      else match lv with
        | 0 => []
        | lv' + 1 => if e / 2 ^ 62 = 2 then State.tablesFrom s leaves lv' (bitsOf e 8 44 * 256) else []

/-- Every page table of the module, and every frame that its leaves name where asked for. -/
def State.tableSpans (s : State) (leaves : Bool) : Spans :=
  s.tenants.flatMap fun t => t.2.roots.flatMap fun r => if bitAt r.2.toNat 0 then s.tablesFrom leaves 4 (bitsOf r.2.toNat 12 40 * 4096) else []

/-- The frames of the pools, free or given out, of snapshots and of reservations. -/
def State.poolSpans (s : State) : Spans :=
  (s.tenants.flatMap fun t => t.2.pools.flatMap fun p => p.2.frames.map fun f => (f, pageBytes (bitsOf p.2.cfg.toNat 5 2))) ++
  (s.regions.flatMap fun g => g.pages.filterMap fun p => p.2.map fun x => (x.frame, pageBytes g.psize)) ++
  s.launches.flatMap fun l =>
    (l.snaps.filterMap fun e => match e with
      | .copy _ f _ n _ _ _ => some (f, n)
      | .released r _ f => (s.findRegion r).map fun g => (f, pageBytes g.psize)
      | _ => none) ++ l.keptFrames.map (fun e => (e.2, pageBytes (bitsOf (s.pool l.tenant e.1).cfg.toNat 5 2))) ++ l.reserved.filterMap fun e => (s.findRegion e.1).map fun g => (e.2.2, pageBytes g.psize)

/-- The enabled context areas of the other tenants. -/
def State.otherAreas (s : State) (tenant : Nat) : Spans :=
  s.tenants.filterMap fun t => if t.1 ≠ tenant && t.2.ctxOn then some (t.2.ctxLo, t.2.ctxLen) else none

/-- Replica memory: the frames of the replicas that stand (R275). The snapshot area is hub memory, which no area or window in module memory meets (R395). -/
def State.replicaSpans (s : State) : Spans :=
  s.dies.flatMap fun d => d.2.replicas.map fun p => (p.2, ((s.regionOfKey p.1).map fun g => pageBytes g.psize).getD 65536)

/-- The range of a window. -/
def Tenant.windowSpan (t : Tenant) (w : Nat) : Nat × Nat :=
  let b := bitsOf (Store.get 0 t.winbase w).toNat 16 36
  (b * 65536, (bitsOf (Store.get 0 t.winlim w).toNat 16 36 + 1 - b) * 65536)
/-- A window is enabled with a permission bit of WINBASE: 0 for any, 1 P, 2 H. -/
def Tenant.windowOn (t : Tenant) (w b : Nat) : Bool := let x := (Store.get 0 t.winbase w).toNat; bitAt x 0 && bitAt x b
/-- The enabled windows of the other tenants. -/
def State.otherWindows (s : State) (tenant : Nat) : Spans :=
  s.tenants.flatMap fun t => if t.1 = tenant then [] else (List.range 8).filterMap fun w => if t.2.windowOn w 0 then some (t.2.windowSpan w) else none

/-! ### CTXBASE_WRITE (R417) -/

/-- The area lies wholly in one tier of one die, inside one enabled window of the tenant. -/
def State.areaHeld (s : State) (tenant a n : Nat) : Bool :=
  paExists a && paExists (a + n - 1) && decide (a / 2 ^ 49 = (a + n - 1) / 2 ^ 49) && s.inWindow tenant a n

/-- CTXBASE_WRITE. -/
def execCtxbaseWrite (tenant : Nat) (v : DWord) (s : State) : Out :=
  let t := s.tenant tenant
  let base := bitsOf v.toNat 16 36 * 65536
  if t.busy then .next s
  else if t.ctxOn then
    .next (if bitAt v.toNat 0 || !(s.imagesOf tenant).isEmpty then s else s.updTenant tenant fun t => { t with ctxbase := BitVec.ofNat 64 (t.ctxbase.toNat - 1) })
  else
    let ok := bitAt v.toNat 0 && decide (t.ctxLen ≠ 0) && s.areaHeld tenant base t.ctxLen && !touches (s.poolSpans ++ s.tableSpans false ++ s.otherAreas tenant ++ s.replicaSpans) base t.ctxLen
    .next (s.updTenant tenant fun t => { t with ctxbase := BitVec.ofNat 64 (base + bit ok) })

/-! ### WINBASE_WRITE (R421, R456) -/

/-- WINBASE_WRITE: an enable is refused where the limit lies below or another tenant holds part of the range; enabling retries the held records. -/
def execWinbaseWrite (tenant w : Nat) (v : DWord) (s : State) : Out :=
  if (s.tenant tenant).busy then .next s
  else
    let f := bitsOf v.toNat 16 36 * 65536 + bitsOf v.toNat 1 2 * 2
    let s := s.updTenant tenant fun t => { t with winbase := Store.set 0 t.winbase w (BitVec.ofNat 64 f) }
    let t := s.tenant tenant
    let r := t.windowSpan w
    let bad := decide (bitsOf (Store.get 0 t.winlim w).toNat 16 36 < bitsOf v.toNat 16 36) || touches (s.otherWindows tenant ++ s.otherAreas tenant ++ s.replicaSpans) r.1 r.2
    if !bitAt v.toNat 0 || bad then .next s
    else .next ((s.updTenant tenant fun t => { t with winbase := Store.set 0 t.winbase w (BitVec.ofNat 64 (f + 1)) }).retryRecs tenant)

/-! ### POOLADD and POOLCFG (R457) -/

/-- The bytes of a pool's frames. -/
def Pool.size (p : Pool) : Nat := pageBytes (bitsOf p.cfg.toNat 5 2)

/-- A frame may be added to a pool. -/
def State.frameOk (s : State) (tenant p f : Nat) : Bool :=
  let q := s.pool tenant p
  let c := q.cfg.toNat
  bitAt c 0 && decide (f % q.size = 0) && paExists f && decide (dieOfPa f = bitsOf c 2 2) && decide (tierOfPa f = bitsOf c 4 1) &&
  paExists (f + q.size - 1) && s.inWindow tenant f q.size && !touches (s.poolSpans ++ s.tableSpans true) f q.size

/-- POOLADD. -/
def execPoolAdd (tenant p : Nat) (v : DWord) (s : State) : Out :=
  if (s.tenant tenant).busy then .next s
  else if s.frameOk tenant p v.toNat then .next (s.giveFrame tenant p v.toNat)
  else .next (s.updPool tenant p fun q => { q with cfg := q.cfg ||| 128#64 })

/-- POOLCFG after a write: ERR clears on 1; SIZE, TIER and DIE only while the pool is empty and no region names it; SIZE = 3 leaves SIZE. -/
def Pool.configure (p : Pool) (named : Bool) (v : Nat) : Pool :=
  let o := p.cfg.toNat
  let free := p.frames.isEmpty && !named
  let size := if free && bitsOf v 5 2 ≠ 3 then bitsOf v 5 2 else bitsOf o 5 2
  let place := if free then bitsOf v 2 3 else bitsOf o 2 3
  { p with cfg := BitVec.ofNat 64 (bitsOf v 32 32 * 2 ^ 32 + bit (bitAt o 7 && !bitAt v 7) * 128 + size * 32 + place * 4 + bit (bitAt v 0)) }

/-! ### TRESET (R458) -/

/-- The bytes of a backed page stay in its frame when its region goes. -/
def State.spillPage (s : State) (g : Region) (i : Nat) (p : Page) : State :=
  let n := pageBytes g.psize
  let es : Store Byte := if g.dflt = 0 then p.data.map fun e => (p.frame + e.1, e.2) else (List.range n).map fun o => (p.frame + o, g.pageByte p o)
  let lo := regionKey g.id.tenant g.id.asid (g.base + i * n)
  { s with mem := Store.splice 0 s.mem p.frame (p.frame + n) es
           forms := takeForms s.forms p.frame n (some ⟨formOf (g.leafEntry p.frame), g.id.tenant, pageLevel g.psize⟩)
           clks := Store.splice {} s.clks p.frame (p.frame + n) ((s.clks.filter fun e : Nat × VC => decide (lo ≤ e.1) && decide (e.1 < lo + n)).map fun e => (p.frame + (e.1 - lo), e.2)) }

/-- A region of a reset tenant becomes inactive. -/
def State.dropRegion (s : State) (g : Region) : State :=
  let s := g.pages.foldl (fun s e => match e.2 with
    | some p => s.spillPage g e.1 p
    | none => s) s
  (({ s with regions := s.regions.filter fun r => r.id != g.id } : State).forgetRegion g).dropReplicas g

/-- A channel operation of a reset tenant ends without effect, record or completion. -/
def ChOp.void (o : ChOp) : ChOp := { o with bytes := List.replicate 64 0, pkt := none, waitSeq := 0, claim := none, lane := none, zeros := [], ended := some (stAborted, 0) }

/-- The queues of a tenant are disabled, and what a test selects of its channel operations ends without effect; its launches issue no more (R443, R458). -/
def State.haltTenant (s : State) (tenant : Nat) (ends : ChOp → Bool) : State :=
  let ls := s.launches.filter fun l => l.tenant == tenant
  let jobs := fun j : ChanId × Nat × Option Nat => ((s.chan j.1).ops.any fun o => o.seq == j.2.1 && o.tenant == tenant && ends o)
  let qs := fun q : Nat => (s.queue q).tenant == tenant
  { s with
    lanes := s.lanes.map fun e => (e.1, { e.2 with jobs := e.2.jobs.filter fun j => !jobs j, fills := e.2.fills.filter fun f => !qs f.1 })
    chans := s.chans.map fun e => (e.1, { e.2 with ops := mapIf (fun o : ChOp => o.tenant == tenant && ends o) ChOp.void e.2.ops })
    queues := s.queues.map fun e => if e.2.tenant = tenant then (e.1, { e.2 with qctl := BitVec.ofNat 64 (e.2.qctl.toNat % 2 ^ 31), pkts := [], faultSeq := 0 }) else e
    launches := mapIf (fun l : Launch => l.tenant == tenant) (fun l => { l with aborted := some (l.aborted.getD 0), tickets := [], pulled := [] }) s.launches
    rollbacks := s.rollbacks.filter fun r => !ls.any fun l => l.id == r.1 }

/-- Everything of a tenant's launches, queues and channels stops (R443, R458). -/
def State.stopTenant (s : State) (tenant : Nat) : State :=
  let ls := s.launches.filter fun l => l.tenant == tenant
  let mine := fun id : TeamId => ls.any fun l => l.id == id.launch
  let s := s.haltTenant tenant fun _ => true
  let s := { s with pushes := s.pushes.filter fun p => !mine p.team, sys := s.sys.filter fun o => o.tenant != tenant }
  ls.foldl (fun s l => s.retireLaunch l) s

/-- An operation that a core of the tenant submitted runs on, and waits for no answer of the host; or a write that its threads have issued is on its way to a region's page (R443). -/
def State.resetWaits (s : State) (tenant : Nat) : Bool :=
  (s.chans.any fun e => e.2.ops.any fun o => o.tenant == tenant && o.pkt.isNone && decide (o.waitSeq = 0)) ||
  s.writes.any fun w => w.tenant == tenant && isRegionKey w.key && !w.bytes.isEmpty

/-- TRESET: the steps of R458 in their order; BUSY reads 1 from the write until what the tenant's cores have submitted has run to completion, and nothing is left of the tenant when it reads 0. -/
def execTreset (tenant : Nat) (s : State) : Out :=
  if s.resetWaits tenant then
    .next ((s.haltTenant tenant fun o => o.pkt.isSome).updTenant tenant fun t => { t with busy := true })
  else
  let s := s.stopTenant tenant
  let s := (s.writes.filter fun w => w.tenant == tenant && isRegionKey w.key).foldl State.dropWrite s
  let s := { s with
    moorings := s.moorings.filter fun m => m.tenant != tenant
    ops := s.ops.filter fun o => match o.kind with
      | .seal r => r.tenant != tenant
      | .free r => r.tenant != tenant
      | _ => true
    doneUses := s.doneUses.filter fun u => u.2.1 != tenant }
  let s := (List.range 16).foldl (fun s asid => s.dropXlat tenant asid 0 (2 ^ 57)) s
  let s := (s.regions.filter fun g => g.id.tenant == tenant).foldl State.dropRegion s
  .next { s with tenants := Store.set {} s.tenants tenant {} }

/-! ### HOST_CXL_MEM_ACCESS, PEER_ACCESS, CXL_CACHE_SNOOP, PEER_ROUTE_TIMEOUT (R326, R456, R459) -/

/-- A range of module memory that an enabled window with a permission bit holds. -/
def State.openTo (s : State) (b pa n : Nat) : Bool :=
  decide (n ≠ 0) && paExists pa && paExists (pa + n - 1) && s.tenants.any fun t => (List.range 8).any fun w =>
    t.2.windowOn w b && (let r := t.2.windowSpan w; decide (r.1 ≤ pa) && decide (pa + n ≤ r.1 + r.2))

/-- The location of a physical byte: that of a region where its frame backs one. -/
def State.locOf (s : State) (pa : Nat) : Nat :=
  match frameOwner pa s.regions with
  | some (g, i, p) => regionKey g.id.tenant g.id.asid (g.base + i * pageBytes g.psize + (pa - p.frame))
  | none => pa

/-- The bytes at physical addresses from one on, each where its frame backs a region or memory. -/
def State.outsideBytes (s : State) (pa n : Nat) : List Byte := (List.range n).map fun i => s.locByte (s.locOf (pa + i))

/-- A write from outside within one line arrives: stamped with origin X, and performed at once unless its page is under migration, or a write that arrived before it for the same home waits for one (R314, R326, R400). -/
def State.arrive (a : ExtAccess) (s : State) (pa : Nat) (bs : List Byte) : State :=
  let (st, s) := s.nextStamp 4
  let key := s.locOf pa
  let w : Write := { Write.plain key bs 65536 with id := s.nextId, origin := 4, stamp := st, clk := ({} : VC).set 4 st, home := s.homeOf key, size := bs.length, ext := some a }
  let s := { s with writes := s.writes ++ [w], nextId := s.nextId + 1 }
  if s.canApply w then s.performWrite w else s

/-- A write from outside arrives, line by line. -/
def State.outsideWrite (s : State) (a : ExtAccess) (pa : Nat) (bs : List Byte) : State :=
  (linePieces pa bs.length).foldl (fun s x => s.arrive a x.1 ((bs.drop (x.1 - pa)).take x.2)) { s with reply := .quiet }

/-- The host or a peer has written memory of its own: it carries no clock, and the device sees it from now on; device lines of host memory give way to it (R240, R326; the pushes are DEDUCED, log entry 7). -/
def State.ownWrite (s : State) (coherent : Bool) (key : Nat) (bs : List Byte) : State :=
  let inside := fun k => decide (key ≤ k) && decide (k < key + bs.length)
  let s := if coherent then (s.cores.map (·.1)).foldl (fun s c => (linePieces key bs.length).foldl (fun s x => (s.writeBack c (x.1 / 128)).dropLines c fun y => y == x.1 / 128) s) s else s
  let s := s.setLocs key bs
  let s := { s with clks := Store.dropKeys s.clks inside, poison := Store.dropKeys s.poison inside, flips := Store.dropKeys s.flips inside, reply := .done }
  (s.sendPushes key bs.length 4 0 {} false).wakeWhere WaitKind.isWord

/-- An access from outside to module memory: a write, and an atomic in one step, as by which a host or a peer claims a slot of a queue (R337), gets a stamp of origin X as it arrives; a read gives the bytes, also while their page moves (R400); one that no window allows gives an error response and changes nothing else (R456). Bytes that carry an uncorrectable error are answered with one too (DESIGN CHOICE, log entry 7). -/
def State.outside (s : State) (b : Nat) (a : ExtAccess) : State :=
  match a with
  | .read pa n => if s.openTo b pa n then
      let t := (linePieces pa n).foldl (fun s x => s.homeRead (s.locOf x.1) x.2) s
      { t with reply := if (linePieces pa n).any fun x => s.badAt (s.locOf x.1) x.2 then .error else .data (s.outsideBytes pa n) }
    else { s with reply := .error }
  | .write pa bs => if s.openTo b pa bs.length then s.outsideWrite a pa bs else { s with reply := .error }
  | .atomic pa _ wide _ _ =>
    let n := if wide then 8 else 4
    if pa % n = 0 && s.openTo b pa n then s.outsideWrite a pa (List.replicate n 0) else { s with reply := .error }
  | .own _ _ _ => s

/-- HOST_CXL_MEM_ACCESS. -/
def execHostCxlMemAccess (a : ExtAccess) (s : State) : Out :=
  match a with
  | .own none addr bs => if addr + bs.length ≤ 2 ^ 52 then .next (s.ownWrite true (physKey addr 1 0) bs) else .next s
  | .own (some p) addr bs => if p < 4 ∧ addr + bs.length ≤ 2 ^ 52 then .next (s.ownWrite false (physKey addr 3 p) bs) else .next s
  | _ => .next (s.outside 2 a)
/-- PEER_ACCESS. -/
def execPeerAccess (peer : Nat) (a : ExtAccess) (s : State) : Out :=
  if peer < 64 then
    match a with
    | .own _ addr bs => if addr + bs.length ≤ 2 ^ 52 then .next (s.ownWrite false (physKey addr 2 peer) bs) else .next s
    | _ => .next (s.outside 1 a)
  else .next s

/-- CXL_CACHE_SNOOP: dirty bytes of a line of host memory go home; an invalidating snoop drops the clean ones. -/
def execCxlCacheSnoop (addr : Nat) (inv : Bool) (s : State) : Out :=
  let line := physKey addr 1 0 / 128
  .next ((s.cores.map (·.1)).foldl (fun s c =>
    let s := s.writeBack c line
    if inv then s.dropLines c fun x => x == line else s) s)

/-- PEER_ROUTE_TIMEOUT: 2^20 hub cycles after an access found no route, its lanes' fault is delivered. -/
def execPeerRouteTimeout (sid : Nat) (s : State) : Out :=
  match s.findGrp sid with
  | none => .next s
  | some g =>
    match g.park with
    | none => .next s
    | some p =>
      match p.route with
      | some n => if n ≤ s.hub then .next ((s.updGrp sid fun g => { g with park := some { p with route := none } }).deliver sid) else .next s
      | none => .next s

/-! ### ARBUMP (R461, R462) -/

/-- ARBUMP: a family's minimum rises where an image of it with at least that counter has verified since boot. -/
def execArBump (v : DWord) (s : State) : Out :=
  let value := bitsOf v.toNat 32 32
  let family := bitsOf v.toNat 0 6
  let put := fun (s : State) st => { s with arBump := BitVec.ofNat 64 (value * 2 ^ 32 + st * 2 ^ 16 + family) }
  if !bitAt v.toNat 31 then .next (put s (bitsOf s.arBump.toNat 16 8))
  else if value ≤ Store.get 0 s.arMin family then .next (put s 0)
  else if s.verified.any fun e => e.1 == family && decide (value ≤ e.2) then .next (put { s with arMin := Store.set 0 s.arMin family value } 0)
  else .next (put s 0x10)

/-! ### Boot, power, cooling (R462 to R465) -/

/-- The module after its power or a trip has reset it: what outlasts a reset stays, the one-time counters and memory that is not the module's. -/
def State.afterReset (s : State) (fail : Nat) : State :=
  { State.reset with bootFail := fail, arMin := s.arMin, outMem := s.outMem, agenda := s.agenda, freeCtr := s.freeCtr }

/-- BOOT: the next step of the boot sequence (R463). -/
def execBoot (s : State) : Out :=
  if s.bootFail = 2 || 7 ≤ s.bootStep then .next s
  else
    match s.bootStep with
    | 1 => if Config.firmwareVerifies then .next { s with bootStep := 2 } else .next { s with bootFail := 2 }
    | 2 => .next { s with bootStep := 3, mem := [], poison := [] }
    | 3 => .next { s with bootStep := 4, cores := (List.range 768).foldl (fun m n => Store.upd {} m n fun c => { c with fenced := Config.bootFails n }) s.cores }
    | 4 => .next { s with bootStep := 5, fabId := Config.fabricNumber.toNat, downLinks := ((List.range 68).filter fun n => !Config.routeUp n || (n < 64 && (Config.routeLink n).isNone)), routes := (List.range 64).filterMap fun n => (Config.routeLink n).map fun l => (n, l.toNat) }
    | n => .next { s with bootStep := n + 1 }

/-- POWER_LOSS. -/
def execPowerLoss (s : State) : Out := .next (s.afterReset 0)

/-- The least clock of a die, 0.80 GHz, and its greatest, in units of 25 MHz (R464). -/
def clockMin : Nat := 32
def clockMax : Nat := 50
/-- The offset that a junction temperature and a droop give (R230, R464). -/
def deltaOf (tj : Nat) (droop : Bool) : Nat := Nat.min 15 ((tj - 80) / 3 + 4 * bit droop)

/-- The clock that the governor sets: the least while the die is hot, lower than now while its power passes the cap, FREQ where FIX says, else its own choice. -/
def State.governed (s : State) (d : Die) (gated tj power : Nat) : Nat :=
  let want := if s.govFix then s.govFreq else clockMin + Config.governorChoice s.freeCtr gated % (clockMax + 1 - clockMin)
  if 105 ≤ tj then clockMin
  else if s.pwrcap / 4 - 180 < power then Nat.max clockMin (Nat.min want (d.clk - 1))
  else want

/-- The gated lane-cycles of the cores of a die since the governor last read them. -/
def State.gatedOn (s : State) (die : Nat) : Nat := ((s.cores.filter fun e => dieOfCore e.1 = die).map fun e => e.2.gated.toNat).sum

/-- The governor acts on a die: it reads and clears the gated lane-cycle counts of the die's cores, credits the power they save, and sets its clock and Δ; at 115 °C the module stops and resets (R17, R401, R464, R465). -/
def State.govern (s : State) (die tj power : Nat) : State :=
  if 4 ≤ die then s
  else if 115 ≤ tj then s.afterReset 0xF0
  else
    let n := s.gatedOn die
    let s := s.updDie die fun d => { d with clk := s.governed d n tj (power - Config.gatedPower n), tj := tj, throttled := decide (105 ≤ tj), delta := deltaOf tj d.droop }
    { s with
      freeCtr := s.freeCtr + 1
      cores := (s.cores.map fun e => if dieOfCore e.1 = die then (e.1, { e.2 with gated := 0 }) else e).filter fun e => decide (e.2 ≠ {}) }

/-- GOVERNOR_UPDATE. -/
def execGovernorUpdate (die tj power : Nat) (s : State) : Out := .next (s.govern die tj power)

/-- THERMAL_THROTTLE: Tj has reached 105 °C. -/
def execThermalThrottle (die : Nat) (s : State) : Out :=
  if 4 ≤ die then .next s
  else .next (s.updDie die fun d => let tj := Nat.max 105 d.tj; { d with clk := clockMin, tj := tj, throttled := true, delta := deltaOf tj d.droop })

/-- THERMAL_TRIP: all work stops and the module resets. -/
def execThermalTrip (s : State) : Out := .next (s.afterReset 0xF0)

/-- SUPPLY_DROOP. -/
def execSupplyDroop (die : Nat) (flagged : Bool) (s : State) : Out :=
  if 4 ≤ die then .next s else .next (s.updDie die fun d => { d with droop := flagged, delta := deltaOf d.tj flagged })

/-! ### Reads of the management window (R413, R453 to R455) -/

/-- The running total that EVSEL selects (R415). -/
def State.evtotal (s : State) : Nat :=
  let n := s.evsel.toNat
  let core := bitsOf n 14 8
  let code := bitsOf n 0 8
  if 191 < core && code < 0x80 then 0 else s.eventTotal (192 * bitsOf n 22 2 + if code < 0x80 then core else 0) (bitsOf n 12 2) code

/-- A register of the module page. -/
def State.readModule (s : State) (off : Nat) : Nat :=
  match off / 8 with
  | 0 => s.bootStep + s.bootFail * 256
  | 1 => s.fabId
  | 2 => s.wdesc.toNat
  | 3 => s.evsel.toNat
  | 4 => s.evtotal
  | 5 => s.evctl.toNat
  | 6 => ((List.range 4).map fun d => (s.die d).clk * 2 ^ (32 + 8 * d) + bit (s.die d).droop * 2 ^ (4 + d)).sum + bit s.govFix * 2 ^ 31 + s.govFreq * 256
  | 7 => s.pwrcap
  | 8 => s.arBump.toNat
  | _ => 0

/-- A register of a tenant page, where the tenant holds so many entries of each mooring table (R391). -/
def Tenant.readPage (t : Tenant) (held : Nat → Nat) (off : Nat) : Nat :=
  let i := off / 8 % 16
  if off < 0x080 then (Store.get 0 t.troot i).toNat
  else if off < 0x100 then (Store.get 0 t.rgbase i).toNat
  else if off < 0x180 then (Store.get 0 t.rgcount i).toNat
  else if 0x1A0 ≤ off && off < 0x220 then (Store.get 0 t.tvec ((off - 0x1A0) / 8)).toNat
  else if 0x220 ≤ off && off < 0x2A0 then (Store.get 0 t.tmask ((off - 0x220) / 8)).toNat
  else if 0x300 ≤ off && off < 0x328 then Store.get 0 t.quota ((off - 0x300) / 8) + held ((off - 0x300) / 8) * 65536
  else if 0x340 ≤ off && off < 0x540 then
    let p := Store.get {} t.pools ((off - 0x340) / 32)
    if off % 32 < 8 then p.cfg.toNat else if off % 32 < 16 then p.frames.length else 0
  else if 0x540 ≤ off && off < 0x5C0 then
    (if off % 16 < 8 then Store.get 0 t.winbase ((off - 0x540) / 16) else Store.get 0 t.winlim ((off - 0x540) / 16)).toNat
  else match off / 8 with
    | 0x30 => t.regcmd.toNat
    | 0x31 => t.tinva.toNat
    | 0x32 => t.tinvctl.toNat
    | 0x33 => t.snapcfg.toNat
    | 0x54 => t.fcbase.toNat
    | 0x55 => t.fcidx.toNat
    | 0x56 => t.fcctl.toNat
    | 0x57 => t.fresp.toNat
    | 0x58 => t.dbgsel.toNat
    | 0x59 => t.dbgctl.toNat
    | 0x5A => t.ctxbase.toNat
    | 0x5B => t.ctxsize.toNat
    | 0x5C => t.wdctl.toNat
    | 0x5D => t.recctl.toNat
    | 0xB8 => 2 * bit t.busy
    | _ => 0

/-- A tenant's own page is all that its virtual function reaches; the physical function reaches every part (R453). -/
def reaches (f : HostFn) (tenant : Option Nat) : Bool := match f with
  | .physical => true
  | .virtual n => tenant == some n

/-- The tenant whose page a register lies in. -/
def regPage : HostReg → Option Nat
  | .wdesc | .evsel | .evctl | .govctl | .pwrcap | .qbase _ | .qindex _ | .unassigned _ | .through _ _ => none
  | .troot t _ | .rgbase t _ | .rgcount t _ | .tinva t | .snapcfg t | .tvec t _ | .tmask t _ | .fcbase t | .fcidx t | .fresp t
  | .dbgsel t | .dbgctl t | .ctxsize t | .wdctl t | .recctl t | .mquota t _ | .poolcfg t _ | .winlim t _ => some t

/-- The counters that the host reads through the management window and for which no register is laid out: each is named by what it counts (R413; DESIGN CHOICE, log entry 32). -/
inductive HostCount where
  | timeline (q : Nat)
  | coreTimeline (core ch : Nat)
  | dieTimeline (die ch : Nat)
  | tickets (launch die : Nat)
  | freeSlot (core i : Nat)
  | fairness (quad : Nat)
  | spin (quad : Nat)
  | waits (launch team half : Nat)
  | handler (gid : Nat)
  | level2 (cluster : Nat)
  | level3 (cp : Nat)
  | gated (core : Nat)
  | clock (die : Nat)
  deriving DecidableEq, Repr

/-- What the host reads of a counter by its name, through its physical function (R413). -/
def State.hostCount (s : State) (f : HostFn) (c : HostCount) : Nat :=
  if !reaches f none then 0
  else match c with
    | .timeline q => (s.queue q).timeline
    | .coreTimeline c n => (s.chan (.core c n)).timeline
    | .dieTimeline d n => (s.chan (.die d n)).timeline
    | .tickets l d => let x := Store.get (0, 0) (s.launch l).tickets d; x.1 + x.2 * 2 ^ 33
    | .freeSlot c i => Store.get 0 (s.core c).free i
    | .fairness q => (s.quad q).fair
    | .spin q => (s.quad q).spin
    | .waits l t half => (Store.get 0 (s.team ⟨l, t, false⟩).waitCount half).toNat
    | .handler g => (s.grp g).handler.toNat
    | .level2 c => (Store.get {} s.level2 c).count
    | .level3 c => (Store.get {} s.level3 c).count
    | .gated c => (s.core c).gated.toNat
    | .clock d => (s.die d).clock

/-- The tenant whose page an offset of the window lies in. -/
def windowPage (off : Nat) : Option Nat := if 0x20000 ≤ off ∧ off < 0x120000 then some ((off - 0x20000) / 0x10000) else none

/-- What a read of an 8-byte slot of the management window returns; it changes nothing, and what a function does not reach reads as an unassigned offset (R413, R453 to R455). -/
def State.windowRead (s : State) (f : HostFn) (off : Nat) : DWord :=
  BitVec.ofNat 64 (
    if !reaches f (windowPage off) then 0
    else if off < 0x10000 then s.readModule off
    else if off < 0x20000 then
      let k := s.queue ((off - 0x10000) / 24)
      if 2048 ≤ (off - 0x10000) / 24 then 0
      else match (off - 0x10000) / 8 % 3 with
        | 0 => k.qctl.toNat
        | 1 => k.qbase.toNat
        | _ => k.qindex.toNat
    else if off < 0x120000 then let n := (off - 0x20000) / 0x10000; (s.tenant n).readPage (s.mooringsOf n) ((off - 0x20000) % 0x10000)
    else if off < 0x120000 + 8 * 768 then s.mxstat ((off - 0x120000) / 8)
    else 0)

/-! ### REGISTER_WRITE (R7, R453 to R455) -/

/-- TROOT: while EN stays 1 a new ROOT waits for an invalidation (R377). -/
def Tenant.setRoot (t : Tenant) (asid v : Nat) : Tenant :=
  let old := Store.get 0 t.troot asid
  let x := BitVec.ofNat 64 (bitsOf v 12 40 * 4096 + v % 2)
  let t := { t with troot := Store.set 0 t.troot asid x }
  if bitAt old.toNat 0 && bitAt v 0 then t else t.takeRoot asid

/-- The bits of TMASK that a write sets (R419, R420). -/
def tmaskBits : Nat := 2 ^ 19 - 2 - 2 ^ 13 - 2 ^ 14 - 2 ^ 16

/-- A write of DBGSEL: the bits of DBGCTL then tell of the new selection (R432). -/
def State.setDbgsel (s : State) (tenant : Nat) (v : DWord) : State :=
  let s := s.updTenant tenant fun t => { t with dbgsel := v }
  let ts := s.dbgTeams tenant
  s.updTenant tenant fun t => ((t.dbgBit 16 ((s.dbgLaunch tenant).map (·.attached) |>.getD false)).dbgBit 17 (s.allHalted tenant)).dbgBit 18
    (ts.any fun t => t.threads.any fun h => h.haltedInHandler)

/-- A write of DBGCTL: OP is set, and GO starts it (R432). -/
def dbgctlWrite (tenant : Nat) (v : DWord) (s : State) : Out :=
  let t := s.tenant tenant
  if bitAt t.dbgctl.toNat 31 then .next s
  else
    let op := v.toNat % 8
    let s := s.updTenant tenant fun t => t.dbgSet op (bitsOf t.dbgctl.toNat 32 8) false
    if !bitAt v.toNat 31 then .next s
    else match op with
      | 1 => execHalt tenant s
      | 2 => execResume tenant s
      | 3 => execAttach tenant s
      | 4 => execDetach tenant s
      | 5 => execSaveHaltedTeam tenant s
      | _ => .next (s.updTenant tenant fun t => t.dbgSet op 0 false)

/-- A write of FRESP: an answer, or its two fields alone (R423). -/
def frespWrite (tenant : Nat) (v : DWord) (s : State) : State :=
  let act := bitsOf v.toNat 32 2
  if act = 3 then s.updTenant tenant fun t => { t with fresp := BitVec.ofNat 64 (v.toNat % 2 ^ 34) } else s.answer tenant (v.toNat % 2 ^ 32) act

/-- A queue's base and index registers change while it is disabled (R336). -/
def State.setQueue (s : State) (q : Nat) (f : Queue → Queue) : State :=
  if (s.queue q).enabled then s else s.updQueue q f

/-- A register of a tenant page after a write. -/
def State.setTenant (s : State) (tenant : Nat) (f : Tenant → Tenant) : State := if (s.tenant tenant).busy then s else s.updTenant tenant f

/-- A register after a write that reaches it. -/
def writeReg (r : HostReg) (v : DWord) (s : State) : Out :=
  let n := v.toNat
  match r with
  | .wdesc => .next { s with wdesc := BitVec.ofNat 32 n }
  | .evsel => .next { s with evsel := BitVec.ofNat 64 (bitsOf n 12 12 * 4096 + n % 256) }
  | .evctl => .next { s with evctl := BitVec.ofNat 64 (n % 65536) }
  | .govctl => .next { s with govFix := bitAt n 31, govFreq := let f := bitsOf n 8 6; if clockMin ≤ f && f ≤ clockMax then f else s.govFreq }
  | .pwrcap => .next (let c := bitsOf n 0 12; if 1200 ≤ c && c ≤ 2400 then { s with pwrcap := c } else s)
  | .qbase q => .next (s.setQueue q fun k => { k with qbase := v })
  | .qindex q => .next (s.setQueue q fun k => { k with qindex := v })
  | .troot t a => .next (s.setTenant t fun x => x.setRoot a n)
  | .rgbase t a => .next (s.setTenant t fun x => { x with rgbase := Store.set 0 x.rgbase a (BitVec.ofNat 64 (n / 32 * 32)) })
  | .rgcount t a => .next (s.setTenant t fun x => if n % 8192 ≤ 4096 then { x with rgcount := Store.set 0 x.rgcount a (BitVec.ofNat 64 (n % 8192)) } else x)
  | .tinva t => .next (s.setTenant t fun x => { x with tinva := v })
  | .snapcfg t => .next (s.setTenant t fun x => { x with snapcfg := BitVec.ofNat 64 (n % 32) })
  | .tvec t a => .next (s.setTenant t fun x => { x with tvec := Store.set 0 x.tvec a v })
  | .tmask t a => .next (s.setTenant t fun x => { x with tmask := Store.set 0 x.tmask a (BitVec.ofNat 64 (Nat.land n tmaskBits)) })
  | .fcbase t => .next (s.setTenant t fun x => if bitAt x.fcctl.toNat 31 then x else { x with fcbase := v })
  | .fcidx t => .next (s.setTenant t fun x => if bitAt x.fcctl.toNat 31 then x else { x with fcidx := v })
  | .fresp t => .next (if (s.tenant t).busy then s else frespWrite t v s)
  | .dbgsel t => .next (if (s.tenant t).busy then s else s.setDbgsel t v)
  | .dbgctl t => if (s.tenant t).busy then .next s else dbgctlWrite t v s
  | .ctxsize t => .next (s.setTenant t fun x => if x.ctxOn then x else { x with ctxsize := BitVec.ofNat 64 (bitsOf n 16 24 * 65536) })
  | .wdctl t => .next (s.setTenant t fun x => { x with wdctl := v })
  | .recctl t => .next (s.setTenant t fun x => { x with recctl := BitVec.ofNat 64 (n % 32) })
  | .mquota t k => .next (s.setTenant t fun x => { x with quota := Store.set 0 x.quota k (n % 65536) })
  | .poolcfg t p => .next (if (s.tenant t).busy then s else s.updPool t p fun q => q.configure (s.regions.any fun g => g.id.tenant == t && g.pool == p) n)
  | .winlim t w => .next (s.setTenant t fun x => { x with winlim := Store.set 0 x.winlim w (BitVec.ofNat 64 (bitsOf n 16 36 * 65536)) })
  | .unassigned _ => .next s
  | .through _ _ => .next s

/-- The function through which a write comes, and the register it names. -/
def regBy : HostReg → HostFn × HostReg
  | .through n r => (.virtual n, r)
  | r => (.physical, r)

/-- REGISTER_WRITE: a write of an unassigned offset, and of what the host's function does not reach, is ignored (R453). -/
def execRegisterWrite (r : HostReg) (v : DWord) (s : State) : Out :=
  let x := regBy r
  if reaches x.1 (regPage x.2) then writeReg x.2 v s else .next s

end Sys2Proof.Machine
end

