-- ==== Sys2Proof/Machine/Sha.lean ====
section
/-! DEFINITION. The signature scheme of harness images, which R80 names: SHA-512, MGF1 and RSASSA-PSS with a 4,096-bit key and a 64-byte salt. The schemes themselves are the published standards, FIPS 180-4 and PKCS #1 (PRESUMED, log entry 59). -/
namespace Sys2Proof.Machine

/-! ### SHA-512 -/

/-- The greatest number of n bits whose power e is at most x. -/
def rootOf (e x : Nat) : Nat → Nat
  | 0 => 0
  | n + 1 => let r := rootOf e (x / 2 ^ e) n * 2; if (r + 1) ^ e ≤ x then r + 1 else r

/-- The first eighty primes. -/
def shaPrimes : List Nat := (List.range 410).filter fun n => decide (2 ≤ n) && (List.range n).all fun d => d < 2 || n % d ≠ 0

/-- The first 64 bits of the fraction of the eth root of a prime. -/
def fraction (e p : Nat) : BitVec 64 := BitVec.ofNat 64 (rootOf e (p * 2 ^ (64 * e)) 70)

/-- The round constants. -/
def shaConsts : List (BitVec 64) := shaPrimes.map (fraction 3)

/-- The eight words of a hash under way. -/
structure Sha where
  a : BitVec 64
  b : BitVec 64
  c : BitVec 64
  d : BitVec 64
  e : BitVec 64
  f : BitVec 64
  g : BitVec 64
  h : BitVec 64
  deriving DecidableEq, Repr

/-- Their first values. -/
def shaStart : Sha := ⟨fraction 2 2, fraction 2 3, fraction 2 5, fraction 2 7, fraction 2 11, fraction 2 13, fraction 2 17, fraction 2 19⟩

/-- One round. -/
def Sha.round (x : Sha) (kw : BitVec 64 × BitVec 64) : Sha :=
  let t1 := x.h + (x.e.rotateRight 14 ^^^ x.e.rotateRight 18 ^^^ x.e.rotateRight 41) + ((x.e &&& x.f) ^^^ (~~~x.e &&& x.g)) + kw.1 + kw.2
  let t2 := (x.a.rotateRight 28 ^^^ x.a.rotateRight 34 ^^^ x.a.rotateRight 39) + ((x.a &&& x.b) ^^^ (x.a &&& x.c) ^^^ (x.b &&& x.c))
  ⟨t1 + t2, x.a, x.b, x.c, x.d + t1, x.e, x.f, x.g⟩

/-- The message words of a block, the latest first, with n more. -/
def shaWords : Nat → List (BitVec 64) → List (BitVec 64)
  | 0, w => w
  | n + 1, w =>
    let p := w.getD 1 0
    let q := w.getD 14 0
    shaWords n (((p.rotateRight 19 ^^^ p.rotateRight 61 ^^^ (p >>> 6)) + w.getD 6 0 + (q.rotateRight 1 ^^^ q.rotateRight 8 ^^^ (q >>> 7)) + w.getD 15 0) :: w)

/-- A number from bytes, the most significant first. -/
def beNat (bs : List Byte) : Nat := leNat bs.reverse
/-- n bytes of a number, the most significant first. -/
def beBytes (v n : Nat) : List Byte := (leBytes v n).reverse

/-- The first n words of a block. -/
def blockWords (bs : List Byte) : Nat → List (BitVec 64)
  | 0 => []
  | n + 1 => BitVec.ofNat 64 (beNat (bs.take 8)) :: blockWords (bs.drop 8) n

/-- A block of 128 bytes enters the hash. -/
def Sha.block (x : Sha) (bs : List Byte) : Sha :=
  let w := (shaWords 64 (blockWords bs 16).reverse).reverse
  let y := (shaConsts.zip w).foldl Sha.round x
  ⟨x.a + y.a, x.b + y.b, x.c + y.c, x.d + y.d, x.e + y.e, x.f + y.f, x.g + y.g, x.h + y.h⟩

/-- n blocks enter the hash. -/
def Sha.blocks (x : Sha) (bs : List Byte) : Nat → Sha
  | 0 => x
  | n + 1 => (x.block bs).blocks (bs.drop 128) n

/-- A hash as bytes. -/
def Sha.bytes (x : Sha) : List Byte := [x.a, x.b, x.c, x.d, x.e, x.f, x.g, x.h].flatMap fun w => beBytes w.toNat 8

/-- The SHA-512 digest of some bytes. -/
def sha512 (m : List Byte) : List Byte :=
  let n := (m.length + 17 + 127) / 128
  (shaStart.blocks (m ++ [0x80] ++ List.replicate (128 * n - 17 - m.length) 0 ++ beBytes (8 * m.length) 16) n).bytes

/-! ### RSASSA-PSS -/

/-- n bytes of the mask that a seed makes (MGF1). -/
def mgf1 (seed : List Byte) (n : Nat) : List Byte := ((List.range ((n + 63) / 64)).flatMap fun i => sha512 (seed ++ beBytes i 4)).take n

/-- A power modulo n, of an exponent of at most a number of bits. -/
def powMod (n b : Nat) : Nat → Nat → Nat
  | 0, _ => 1 % n
  | f + 1, e =>
    if e = 0 then 1 % n
    else
      let h := powMod n b f (e / 2)
      if e % 2 = 1 then h * h % n * b % n else h * h % n

/-- A signature of 512 bytes verifies over a message under a public key of 4,096 bits, with a salt of 64 bytes (R80). -/
def pssVerify (n e : Nat) (m sig : List Byte) : Bool :=
  let em := beBytes (powMod n (beNat sig) 4096 e) 512
  let db := em.take 447
  let h := (em.drop 447).take 64
  let plain := (List.zipWith (· ^^^ ·) db (mgf1 h 447)).mapIdx fun i b => if i = 0 then b &&& 0x7F else b
  decide (beNat sig < n) && em.getLast? == some 0xBC && decide ((em.headD 0).toNat < 128) &&
  (plain.take 382).all (fun b => b = 0) && plain[382]? == some 1 &&
  sha512 (List.replicate 8 0 ++ sha512 m ++ plain.drop 383) == h

/-- The digest of a public key: of its modulus in 512 bytes and its exponent in 4, most significant first (DESIGN CHOICE, log entry 4). -/
def keyDigest (k : Nat × Nat) : List Byte := sha512 (beBytes k.1 512 ++ beBytes k.2 4)

/-- A key has a modulus of 4,096 bits and the digest that a slot holds (R461). -/
def keyFits (slot : Nat) (k : Nat × Nat) : Bool :=
  decide (2 ^ 4095 ≤ k.1) && decide (k.1 < 2 ^ 4096) && beNat (keyDigest k) == (Config.keySlot slot).toNat

/-- The signature of an image, its last 512 bytes, verifies over bytes 0 to size − 513 under a key whose digest one of the four slots of the root of trust holds (R80, R461). -/
def signatureVerifies (im : List Byte) : Bool :=
  let n := im.length - 512
  (List.range 4).any fun i => let k := Config.publicKey i; keyFits i k && pssVerify k.1 k.2 (im.take n) (im.drop n)

end Sys2Proof.Machine
end

