-- ==== Sys2Proof/Machine/Horwell.lean ====
section
/-! DEFINITION. The Horwell loader: the checks of an image (R77 to R82, R511), the translation of Bridle code into clauses (R84 to R90), relocations (R91, R476), and the load request (R81, R83). -/
namespace Sys2Proof.Machine

/-! ### The harness image (R77 to R79) -/

/-- A section-table entry (R78). -/
structure Sect where
  type : Nat
  off : Nat
  size : Nat
  align : Nat
  ok : Bool
  deriving DecidableEq, Repr

/-- A symbol (R78, type 5). -/
structure Sym where
  sec : Nat
  value : Nat
  kind : Nat
  ok : Bool
  deriving DecidableEq, Repr

/-- A relocation (R78, type 6). -/
structure Rel where
  sec : Nat
  off : Nat
  sym : Nat
  type : Nat
  addend : Nat
  deriving DecidableEq, Repr

/-- A kernel descriptor (R79). -/
structure Kern where
  entry : Nat
  wcode : Nat
  nregs : Nat
  pair : Bool
  sym : Nat
  ok : Bool
  deriving DecidableEq, Repr

/-- The section table. -/
def sectsOf (im : List Byte) : List Sect :=
  (List.range (Nat.min 64 (fieldAt im 0x20 4))).map fun i =>
    let e := (im.drop (0x40 + 32 * i)).take 32
    { type := fieldAt e 0 4, off := fieldAt e 8 8, size := fieldAt e 16 8, align := fieldAt e 24 4, ok := fieldAt e 4 4 = 0 && fieldAt e 28 4 = 0 }

/-- A section's bytes. -/
def Sect.bytes (im : List Byte) (x : Sect) : List Byte := (im.drop x.off).take x.size

/-- The words of a byte list. -/
def wordsIn (bs : List Byte) : List Nat := codeWords bs (bs.length / 4)

/-- The entries of n bytes that the sections of a type hold. -/
def entriesOf (im : List Byte) (type n : Nat) : List (List Byte) :=
  (sectsOf im).flatMap fun x => if x.type = type then (List.range (x.size / n)).map fun i => ((x.bytes im).drop (n * i)).take n else []

/-- A name begins at an offset of some string section and ends in it. -/
def nameOk (im : List Byte) (off : Nat) : Bool := (sectsOf im).any fun x => x.type == 7 && ((x.bytes im).drop off).any fun b => b = 0

def symsOf (im : List Byte) : List Sym :=
  (entriesOf im 5 24).map fun e =>
    { sec := fieldAt e 4 4, value := fieldAt e 8 8, kind := fieldAt e 16 4, ok := fieldAt e 20 4 = 0 && nameOk im (fieldAt e 0 4) }

def relsOf (im : List Byte) : List Rel :=
  (entriesOf im 6 24).map fun e => { sec := fieldAt e 0 4, off := fieldAt e 4 4, sym := fieldAt e 8 4, type := fieldAt e 12 4, addend := fieldAt e 16 8 }

def kernsOf (im : List Byte) : List Kern :=
  (entriesOf im 4 16).map fun e =>
    { entry := fieldAt e 0 8, wcode := fieldAt e 8 1, nregs := fieldAt e 9 1, pair := bitAt (fieldAt e 10 1) 0, sym := fieldAt e 12 4
      ok := fieldAt e 10 1 < 2 && fieldAt e 11 1 = 0 }

/-- The type of a section, 0 where there is none. -/
def typeOf (xs : List Sect) (i : Nat) : Nat := (xs[i]?.map (·.type)).getD 0

/-- The code section of a kernel: that of its name, else the first, else section 0 (DESIGN CHOICE, log entry 60). -/
def kernSec (im : List Byte) (k : Kern) : Nat :=
  let xs := sectsOf im
  match (symsOf im)[k.sym]? with
  | some y => if typeOf xs y.sec = 1 then y.sec else (xs.findIdx? fun x => x.type == 1).getD 0
  | none => (xs.findIdx? fun x => x.type == 1).getD 0

/-- Two sections overlap. -/
def sectsMeet (x y : Sect) : Bool := decide (x.off < y.off + y.size) && decide (y.off < x.off + x.size)

/-- No two sections overlap. -/
def sectsApart : List Sect → Bool
  | [] => true
  | x :: r => r.all (fun y => !sectsMeet x y) && sectsApart r

/-- The kind of an image: 1 Bridle, 2 native. -/
def kindOf (im : List Byte) : Nat := fieldAt im 4 2

/-- A section-table entry is one of R78. That a section's bytes begin after the section table is a DESIGN CHOICE (log entry 60). -/
def sectOk (im : List Byte) (x : Sect) : Bool :=
  x.ok && decide (1 ≤ x.type) && decide (x.type ≤ 7) && decide (2 ≤ x.align) && decide (x.align ≤ 12) &&
  decide (0x40 + 32 * fieldAt im 0x20 4 ≤ x.off) && decide (x.off + x.size ≤ im.length - 512) &&
  (match x.type with
    | 1 => decide (x.size % 4 = 0)
    | 4 => decide (x.size % 16 = 0)
    | 5 => decide (x.size % 24 = 0)
    | 6 => decide (x.size % 24 = 0)
    | _ => true)

/-- The opcodes that a relocation's site may have (R476). -/
def relOps (type : Nat) : List Nat :=
  if type ≤ 4 then [0x03E] else if type = 5 then [0x00D, 0x093] else [0x087, 0x08D]

/-- The positions of the first words of the instructions of some words, which stand from a position on. -/
def firstWords : Nat → List Nat → List Nat
  | _, [] => []
  | pos, [_] => [pos]
  | pos, w :: v :: r => pos :: if isLong w then firstWords (pos + 2) r else firstWords (pos + 1) (v :: r)

/-- A relocation's site in a Bridle code section: the first word of an instruction of the kind that its type names (R78). -/
def bridleSite (im : List Byte) (x : Sect) (r : Rel) : Bool :=
  let ws := wordsIn (x.bytes im)
  decide (3 ≤ r.type) && decide (r.off % 4 = 0) && (firstWords 0 ws).contains (r.off / 4) && (relOps r.type).contains (opcodeOf (ws.getD (r.off / 4) 0))

/-- A relocation names what exists, at a site that its type may have: in native code sites of every type may lie; a site in data of a type that names an instruction is refused (R78, R476; that last, which R476's table of sites leaves no place for, is a DESIGN CHOICE, log entry 60). -/
def relOk (im : List Byte) (r : Rel) : Bool :=
  decide (1 ≤ r.type) && decide (r.type ≤ 6) && decide (r.sym < (symsOf im).length) &&
  (match (sectsOf im)[r.sec]? with
    | none => false
    | some x =>
      decide (r.off + (if r.type = 2 then 4 else 8) ≤ x.size) &&
      (if x.type = 1 then decide (kindOf im = 2) || bridleSite im x r else (x.type = 2 || x.type = 3) && decide (r.type ≤ 2)))

/-- A kernel descriptor is one of R79: its entry is an offset in a code section. Whether a Bridle entry names a first word is L0012's question, past the section's end too (R511). -/
def kernOk (im : List Byte) (k : Kern) : Bool :=
  k.ok && decide (k.entry % 4 = 0) && decide (k.wcode ≤ 2) && decide (16 ≤ k.nregs) && decide (k.nregs ≤ 64) && decide (k.nregs % 8 = 0) &&
  decide (k.sym < (symsOf im).length) && decide (typeOf (sectsOf im) (kernSec im k) = 1) &&
  (decide (kindOf im = 1) || decide (k.entry < ((((sectsOf im)[kernSec im k]?).map (·.size)).getD 0)))

/-- The header is one of R77. -/
def harnessOk (im : List Byte) : Bool :=
  let n := fieldAt im 0x20 4
  decide (fieldAt im 0 4 = 0x4E484D57) && (kindOf im = 1 || (kindOf im = 2 && fieldAt im 6 4 = 0)) && fieldAt im 0x0A 2 = 0 &&
  decide (fieldAt im 0x0C 4 < 64) && (kindOf im = 2 || fieldAt im 0x14 4 = 0) &&
  decide (fieldAt im 0x18 8 = im.length) && decide (im.length % 8 = 0) && decide (1 ≤ n) && decide (n ≤ 64) &&
  ((im.drop 0x24).take 28).all (fun b => b = 0) && decide (0x40 + 32 * n + 512 ≤ im.length)

/-- A symbol is one of R78. -/
def symOk (im : List Byte) (y : Sym) : Bool := y.ok && (y.kind = 1 || y.kind = 2) && decide (y.sec < fieldAt im 0x20 4)

/-- Step 1 of R81: the layout of R77 to R79. -/
def layoutOk (im : List Byte) : Bool :=
  harnessOk im && (sectsOf im).all (sectOk im) && sectsApart (sectsOf im) && (symsOf im).all (symOk im) &&
  (relsOf im).all (relOk im) && (kernsOf im).all (kernOk im)

/-! ### Bridle words (R73 to R76, R82, R511) -/

/-- An instruction of a Bridle code section with the prefixes that mark it; positions count words. -/
structure Item where
  pos : Nat
  ins : Instr
  w1 : Nat
  w2 : Option Nat
  guard : Option (Nat × Bool) := none
  yld : Bool := false
  /-- what it reads and writes, as numbers: registers, 64 + predicates, 80 for sp -/
  touch : List Nat := []
  writes : List Nat := []
  deriving DecidableEq, Repr

def Item.len (x : Item) : Nat := if x.w2.isSome then 2 else 1
def Item.op (x : Item) : Nat := opcodeOf x.w1

/-- The prefixes read and not yet attached: the position of the first, a guard, a yield. -/
structure Prefixes where
  at_ : Option Nat := none
  guard : Option (Nat × Bool) := none
  yld : Bool := false
  deriving DecidableEq, Repr

/-- What a section's words parse to: its instructions; for each position of an instruction or a prefix, the position of the instruction it stands for; failing positions with their diagnostics. -/
structure Parsed where
  items : List Item := []
  marks : List (Nat × Nat) := []
  bad : List (Nat × Nat) := []
  deriving DecidableEq, Repr

/-- The registers that an instruction names. -/
def regsNamed (u : Uses) : List Nat := u.rd ++ u.wr

/-- The numbers that an instruction writes. -/
def Uses.writes (u : Uses) : List Nat := u.wr ++ u.pwr.map (· + 64) ++ (if u.spw then [80] else [])
/-- The numbers that it reads or writes. -/
def Uses.touch (u : Uses) : List Nat := u.rd ++ u.prd.map (· + 64) ++ (if u.spr then [80] else []) ++ u.writes

/-- The diagnostic of an instruction's words in a Bridle section, or the instruction. -/
def bridleWord (alloc : Nat) (w : Option Nat) (ws : List Nat) : Except Nat (Instr × Uses) :=
  match decode ws with
  | .error .classSeven => .error 7
  | .error .truncated => .error 13
  | .error .misaligned => .error 10
  | .error .unassigned => .error 8
  | .error .reserved => .error 8
  | .ok (i, _) =>
    let u := uses w i
    if (regsNamed u).any (fun r => decide (alloc ≤ r)) then .error 10 else .ok (i, u)

/-- A prefix joins those before it, or its diagnostic (R74, R75). -/
def Prefixes.take (p : Prefixes) (pos w : Nat) : Except Nat Prefixes :=
  match decode [w] with
  | .ok (.guard ng pd, _) =>
    if p.guard.isSome then .error 11 else .ok { p with at_ := some (p.at_.getD pos), guard := some (pd.toNat, ng) }
  | .ok (.yield, _) => if p.at_.isSome then .error 11 else .ok { p with at_ := some pos, yld := true }
  | _ => .error 8

/-- Parse words from a position, prefixes pending: R511 gives each position the register count and width of its kernel. -/
def parseFrom (range : Nat → Nat × Option Nat) : Nat → Prefixes → List Nat → Parsed
  | _, p, [] => match p.at_ with
    | some q => { bad := [(q, 11)] }
    | none => {}
  | pos, p, w :: r =>
    if bitAt w 31 || bitAt w 29 || decide (bitsOf w 26 3 = 7) then
      let x := parseFrom range (pos + 1) {} r
      { x with marks := (pos, pos) :: x.marks, bad := (pos, 7) :: x.bad }
    else if opcodeOf w = 0x14E || opcodeOf w = 0x14F then
      match p.take pos w with
      | .ok p => let x := parseFrom range (pos + 1) p r
                 { x with marks := (pos, pos + 1) :: x.marks }
      | .error e => let x := parseFrom range (pos + 1) {} r
                    { x with marks := (pos, pos) :: x.marks, bad := (pos, e) :: x.bad }
    else
      let make := fun (i : Instr) (u : Uses) (v : Option Nat) =>
        ({ pos := pos, ins := i, w1 := w, w2 := v, guard := p.guard, yld := p.yld
           touch := u.touch ++ (match p.guard with
             | some g => [64 + g.1]
             | none => [])
           writes := u.writes } : Item)
      let (alloc, width) := range pos
      if isLong w then
        match r with
        | [] => { marks := [(pos, pos)], bad := [(pos, 13)] }
        | v :: r' =>
          let x := parseFrom range (pos + 2) {} r'
          match bridleWord alloc width [w, v] with
          | .error e => { x with marks := (pos, pos) :: x.marks, bad := (pos, e) :: x.bad }
          | .ok (i, u) => { x with items := make i u (some v) :: x.items, marks := (pos, pos) :: x.marks }
      else
        let x := parseFrom range (pos + 1) {} r
        match bridleWord alloc width [w] with
        | .error e => { x with marks := (pos, pos) :: x.marks, bad := (pos, e) :: x.bad }
        | .ok (i, u) => { x with items := make i u none :: x.items, marks := (pos, pos) :: x.marks }

/-- The instruction that a position stands for: a prefix stands for the one it marks. -/
def Parsed.resolve (x : Parsed) : Nat → Nat → Option Nat
  | 0, _ => none
  | f + 1, pos =>
    match findBy (fun m : Nat × Nat => m.1 == pos) x.marks with
    | some m => if m.2 = pos then some pos else x.resolve f m.2
    | none => none
/-- At most a yield and a guard precede an instruction. -/
def Parsed.target (x : Parsed) (pos : Nat) : Option Nat := x.resolve 3 pos

/-- A position is the first word of an instruction or of a prefix (R511), one that marks nothing included: that is the prefix's own fault (R82). -/
def Parsed.names (x : Parsed) (pos : Nat) : Bool := x.marks.any fun m => m.1 == pos

/-- The target of a direct branch, in words of its section. -/
def branchTarget (x : Item) : Option Int :=
  if x.op = 0x140 || x.op = 0x141 then some ((x.pos : Int) + (BitVec.ofNat 20 x.w1).toInt) else none

/-- The instruction that a direct branch names. -/
def Parsed.branchTo (p : Parsed) (x : Item) : Option Nat :=
  match branchTarget x with
  | some t => if t < 0 then none else p.target t.toNat
  | none => none

/-- Failing sites of a section's words in address order: a branch with a bad target among them. -/
def Parsed.fails (p : Parsed) : List (Nat × Nat) :=
  p.bad ++ (p.items.filter fun x => match branchTarget x with
    | some t => decide (t < 0) || !p.names t.toNat
    | none => false).map fun x => (x.pos, 12)

/-- The failing site of the lowest position. -/
def firstFail : List (Nat × Nat) → Option (Nat × Nat)
  | [] => none
  | x :: r => match firstFail r with
    | some y => if y.1 < x.1 then some y else some x
    | none => some x

/-! ### Cutting clauses (R85 to R87) -/

/-- A clause under construction. -/
structure Cl where
  cls : Nat
  items : List (Nat × Item) := []
  n : Nat := 0
  guard : Option (Nat × Bool) := none
  /-- position and destination of each fixed word -/
  fixed : List (Nat × List Nat) := []
  writes : List Nat := []
  wait : Nat
  setf : Nat := 15
  y : Bool
  s : Bool
  lead : Bool
  gap : Nat := 0
  /-- word of its header in the native section -/
  hdr : Nat := 0
  b : Bool := false
  deriving DecidableEq, Repr

/-- Some number stands in both lists. -/
def meets (a b : List Nat) : Bool := a.any b.contains

/-- Flags outstanding with what they cover, the oldest first. -/
abbrev Flags := List (Nat × List Nat)

/-- A new clause begins before an instruction (R86). -/
def cutBefore (out : Flags) (c : Cl) (x : Item) (lead : Bool) : Bool :=
  lead || decide (x.op / 64 ≠ c.cls) ||
  (match x.guard, c.guard with
    | some g, some h => decide (g ≠ h)
    | _, _ => false) ||
  x.yld || decide (15 < c.n + x.len) ||
  c.fixed.any (fun p => meets x.touch p.2 && decide (c.n < p.1 + Config.latency)) ||
  (match x.guard with
    | some g => c.writes.contains (64 + g.1)
    | none => false) ||
  out.any (fun f => meets x.touch f.2)

/-- A mask of flags. -/
def flagMask (fs : List Nat) : Nat := fs.foldl (fun m f => m + 2 ^ f) 0

/-- The clause that begins with an instruction, and the flags outstanding after its wait (R87). -/
def openCl (out : Flags) (x : Item) (lead s : Bool) : Flags × Cl :=
  let hit := out.filter fun f => meets x.touch f.2
  (if lead then [] else out.filter fun f => !meets x.touch f.2,
    { cls := x.op / 64, wait := if lead then 0xFFF else flagMask (hit.map (·.1)), y := x.yld, s := s, lead := lead })

/-- What a variable word writes that a flag covers: vector registers and predicates (R87). -/
def covered (x : Item) : List Nat := if fixedOp x.op || isControl x.op then [] else x.writes.filter fun r => r ≠ 80

/-- An instruction joins a clause; its flag is chosen at its first variable word that writes (R87). -/
def Cl.join (out : Flags) (c : Cl) (x : Item) : Flags × Cl :=
  let c := { c with
    items := c.items ++ [(c.n, x)], n := c.n + x.len, writes := c.writes ++ x.writes
    guard := match x.guard with
      | some g => some g
      | none => c.guard
    fixed := if fixedOp x.op then c.fixed ++ [(c.n, x.writes)] else c.fixed }
  let cov := covered x
  if cov.isEmpty then (out, c)
  else if c.setf ≠ 15 then (out.map fun f => if f.1 = c.setf then (f.1, f.2 ++ cov) else f, c)
  else
    match (List.range 12).find? fun f => !(out.map (·.1)).contains f with
    | some f => (out ++ [(f, cov)], { c with setf := f })
    | none => match out with
      | [] => (out, c)
      | (f, _) :: r => (r ++ [(f, cov)], { c with setf := f, wait := if bitAt c.wait f then c.wait else c.wait + 2 ^ f })

/-- Cut the instructions of a section: leaders and the positions that get S = 1 are given. -/
def cutAll (leaders marked : List Nat) : Flags → Option Cl → List Item → List Cl
  | _, none, [] => []
  | _, some c, [] => [c]
  | out, cur, x :: r =>
    let lead := leaders.contains x.pos
    match cur with
    | none =>
      let o := openCl out x lead (marked.contains x.pos)
      let j := o.2.join o.1 x
      cutAll leaders marked j.1 (some j.2) r
    | some c =>
      if cutBefore out c x lead then
        let o := openCl out x lead (marked.contains x.pos)
        let j := o.2.join o.1 x
        c :: cutAll leaders marked j.1 (some j.2) r
      else
        let j := c.join out x
        cutAll leaders marked j.1 (some j.2) r

/-! ### Gaps (R88) -/

/-- The accesses of a clause that begins at a time: the guard's with its first word. -/
def Cl.accesses (c : Cl) (t : Nat) : List (Nat × List Nat) :=
  (match c.guard with
    | some g => [(t, [64 + g.1])]
    | none => []) ++ c.items.map fun e => (t + e.1, e.2.touch)

/-- Every reader and writer in the clauses that follow stands far enough after the fixed words before it. -/
def apartFrom (fixed : List (Nat × List Nat)) : Nat → List Cl → Bool
  | _, [] => true
  | t, c :: r => (c.accesses t).all (fun a => fixed.all fun p => !meets a.2 p.2 || decide (p.1 + Config.latency ≤ a.1)) && apartFrom fixed (t + c.n) r

/-- Choose the gaps of a block's clauses in order. -/
def gapsOf (fixed : List (Nat × List Nat)) (t : Nat) : List Cl → List Cl
  | [] => []
  | c :: r =>
    let fixed := fixed ++ c.fixed.map fun p => (t + p.1, p.2)
    let last := t + c.n - 1
    let g := match r with
      | [] =>
        if (c.items.getLast?.map fun e => e.2.op) = some 0x145 then 0
        else fixed.foldl (fun m p => Nat.max m (p.1 + Config.latency - last - 1)) 0
      | _ :: _ => ((List.range 4).find? fun g => apartFrom fixed (last + 1 + g) r).getD 3
    { c with gap := g } :: gapsOf fixed (last + 1 + g) r

/-- Clauses in blocks: each begins with a leader. -/
def blocksOf : List Cl → List (List Cl)
  | [] => []
  | c :: r => match blocksOf r with
    | [] => [[c]]
    | [] :: bs => [c] :: bs
    | (d :: b) :: bs => if d.lead then [c] :: (d :: b) :: bs else (c :: d :: b) :: bs

/-- Place the headers. -/
def placeHeaders : Nat → List Cl → List Cl
  | _, [] => []
  | n, c :: r => { c with hdr := n } :: placeHeaders (n + 1 + c.n) r

/-- The clause and native word of an instruction by its Bridle position. -/
def nativeOf (cs : List Cl) (pos : Nat) : Option (Cl × Nat) :=
  cs.findSome? fun c => c.items.findSome? fun e => if e.2.pos = pos then some (c, c.hdr + 1 + e.1) else none

/-- The header of the clause that holds an instruction. -/
def headerFor (cs : List Cl) (pos : Nat) : Nat := ((nativeOf cs pos).map (·.1.hdr)).getD 0

/-! ### Innermost loops (R90) -/

/-- A direct branch whose target's header does not lie after it. -/
def isBackward (p : Parsed) (cs : List Cl) (c : Cl) (e : Nat × Item) : Bool :=
  match p.branchTo e.2 with
  | some t => decide (headerFor cs t ≤ c.hdr + 1 + e.1)
  | none => false

/-- The native ranges of the innermost loops. -/
def loopsOf (p : Parsed) (cs : List Cl) : List (Nat × Nat) :=
  cs.flatMap fun c => c.items.filterMap fun e =>
    if e.2.op = 0x140 && isBackward p cs c e then
      let lo := ((p.branchTo e.2).map (headerFor cs)).getD 0
      let hi := c.hdr + 1 + c.n
      let inside := cs.filter fun d => decide (lo ≤ d.hdr) && decide (d.hdr < hi)
      let clean := inside.all fun d => d.items.all fun f => !([0x141, 0x144, 0x143].contains f.2.op) && (f.2.pos = e.2.pos || !isBackward p cs d f)
      if hi - lo ≤ Config.loopWords && clean then some (lo, hi) else none
    else none

/-- The clauses with B set in the ranges of innermost loops. -/
def markLoops (ls : List (Nat × Nat)) (cs : List Cl) : List Cl :=
  cs.map fun c => { c with b := ls.any fun l => decide (l.1 ≤ c.hdr) && decide (c.hdr < l.2) }

/-! ### Native words -/

/-- A clause header (R53). -/
def Cl.header (c : Cl) : Nat :=
  let g := c.guard.getD (0, false)
  c.n + c.cls * 2 ^ 4 + c.wait * 2 ^ 7 + c.setf * 2 ^ 19 + c.gap * 2 ^ 23 + g.1 * 2 ^ 25 + bit g.2 * 2 ^ 29 + bit c.y * 2 ^ 30 + bit c.b * 2 ^ 31

/-- The native offset of a direct branch. -/
def nativeOff (p : Parsed) (cs : List Cl) (c : Cl) (e : Nat × Item) : Option Int :=
  (p.branchTo e.2).map fun t => (headerFor cs t : Int) - ((c.hdr + 1 + e.1 : Nat) : Int)

/-- A native offset fits the field of format B. -/
def offFits (o : Int) : Bool := decide (-2 ^ 19 ≤ o) && decide (o < 2 ^ 19)

/-- The native words of an instruction. -/
def nativeWords (p : Parsed) (cs : List Cl) (c : Cl) (e : Nat × Item) : List Nat :=
  let w := match nativeOff p cs c e with
    | some o => e.2.w1 / 2 ^ 20 * 2 ^ 20 + (o % 2 ^ 20).toNat
    | none => e.2.w1
  (w + bit e.2.guard.isSome * 2 ^ 29 + bit (c.s && e.1 = 0) * 2 ^ 31) :: (match e.2.w2 with
    | some v => [v]
    | none => [])

/-- A translated code section: its clauses, words, and where Bridle positions went. -/
structure Native where
  words : List Nat
  headers : List Nat
  /-- Bridle position of each instruction or prefix, with the word of its clause header -/
  heads : List (Nat × Nat) := []
  /-- Bridle position of each instruction, with its native word -/
  places : List (Nat × Nat) := []
  deriving DecidableEq, Repr

/-- Translate a parsed section whose kernel entries and function symbols stand at some positions (R85 to R90), or the site of an offset that does not fit. A kernel entry is a leader also where no function symbol names it, for a launch begins there (DESIGN CHOICE, log entry 60). -/
def translate (p : Parsed) (entries : List Nat) : Except (Nat × Nat) Native :=
  let ctl := fun op => (p.items.zip (p.items.drop 1)).filterMap fun e => if op e.1.op then some e.2.pos else none
  let targets := p.items.filterMap p.branchTo
  let leaders := ((p.items.head?.map (·.pos)).toList) ++ entries ++ targets ++ ctl isControl
  let marked := targets ++ ctl fun op => decide (op = 0x141) || decide (op = 0x144)
  let cut := cutAll leaders marked [] none p.items
  let cs := placeHeaders 0 ((blocksOf cut).flatMap (gapsOf [] 0))
  let cs := markLoops (loopsOf p cs) cs
  let bad := cs.flatMap fun c => c.items.filterMap fun e => match nativeOff p cs c e with
    | some o => if offFits o then none else some (e.2.pos, 12)
    | none => none
  match firstFail bad with
  | some f => .error f
  | none => .ok
    { words := cs.flatMap fun c => c.header :: c.items.flatMap (nativeWords p cs c)
      headers := cs.map fun c => 4 * c.hdr
      heads := p.marks.filterMap fun m => (p.target m.1).map fun t => (m.1, headerFor cs t)
      places := cs.flatMap fun c => c.items.map fun e => (e.2.pos, c.hdr + 1 + e.1) }

/-! ### A whole image -/

/-- Starts of the code ranges of a section with the kernels' register counts and widths (R511): kernel entries, and function symbols with no kernel. -/
def rangeStarts (im : List Byte) (sec : Nat) : List (Nat × Option (Nat × Option Nat)) :=
  ((kernsOf im).filter fun k => kernSec im k == sec).map (fun k => (k.entry / 4, some (k.nregs, some (widthOf k.wcode)))) ++
  ((symsOf im).filter fun y => y.sec == sec && y.kind == 1).map fun y => (y.value / 4, none)

/-- The register count and width that R511 gives a position: those of the kernels whose range holds it, the least count of them and the width where they agree. -/
def rangeAt (starts : List (Nat × Option (Nat × Option Nat))) (pos : Nat) : Nat × Option Nat :=
  let top := (starts.filter fun e => decide (e.1 ≤ pos)).foldl (fun m e => Nat.max m e.1) 0
  let ks := starts.filterMap fun e => if e.1 = top ∧ top ≤ pos then e.2 else none
  (ks.foldl (fun n k => Nat.min n k.1) 64, match ks with
    | [] => none
    | k :: r => if r.all fun x => x.2 == k.2 then k.2 else none)

/-- A section of an image once loaded: its bytes, its address, and for code its translation. -/
structure Placed where
  idx : Nat
  va : Nat
  bytes : List Byte
  native : Option Native := none
  deriving DecidableEq, Repr

/-- Headers of native words as they stand: each clause's header gives the next (R53). -/
def headersFrom : Nat → Nat → List Nat → List Nat
  | 0, _, _ => []
  | _, _, [] => []
  | f + 1, at_, h :: r => 4 * at_ :: headersFrom f (at_ + 1 + headerN h) (r.drop (headerN h))

/-- Words as bytes. -/
def wordBytes (ws : List Nat) : List Byte := ws.flatMap fun w => leBytes w 4

/-- A diagnostic with the site that it names. -/
abbrev Diag := Nat × Site

/-- The translation of one code section: the diagnostic of its first failing site, or its native form. -/
def codeOf (im : List Byte) (i : Nat) (x : Sect) : Except Diag Native :=
  let ws := wordsIn (x.bytes im)
  if kindOf im = 2 then .ok { words := ws, headers := headersFrom ws.length 0 ws }
  else
    let starts := rangeStarts im i
    let p := parseFrom (rangeAt starts) 0 {} ws
    let named := ((kernsOf im).filter fun k => kernSec im k == i).map (·.entry) ++ ((symsOf im).filter fun y => y.sec == i).map (·.value)
    let astray := named.filter fun v => v % 4 ≠ 0 || !p.names (v / 4)
    match firstFail (p.fails.map (fun f => (4 * f.1, f.2)) ++ astray.map fun v => (v, 12)) with
    | some f => .error (f.2, { sec := i, off := f.1 })
    | none =>
      match translate p (starts.filterMap fun e => p.target e.1) with
      | .error f => .error (f.2, { sec := i, off := 4 * f.1 })
      | .ok n => .ok n

/-- A value raised to a multiple of 2^n. -/
def raiseTo (n v : Nat) : Nat := (v + 2 ^ n - 1) / 2 ^ n * 2 ^ n

/-- The sections of a type in table order, each at its alignment from an address upward; or the first diagnostic. -/
def placeSects (im : List Byte) (type : Nat) : Nat → List (Nat × Sect) → Except Diag (List Placed)
  | _, [] => .ok []
  | va, (i, x) :: r =>
    if x.type ≠ type then placeSects im type va r
    else
      let at_ := raiseTo x.align va
      let mine : Except Diag (List Byte × Option Native) :=
        if type = 1 then (match codeOf im i x with
          | .error e => .error e
          | .ok n => .ok (wordBytes n.words, some n))
        else .ok (x.bytes im, none)
      match mine with
      | .error e => .error e
      | .ok (bs, n) =>
        match placeSects im type (at_ + bs.length) r with
        | .error e => .error e
        | .ok l => .ok ({ idx := i, va := at_, bytes := bs, native := n } :: l)

/-- The address just after some sections. -/
def endOf (va : Nat) (ps : List Placed) : Nat := ps.foldl (fun m p => Nat.max m (p.va + p.bytes.length)) va

/-- Every section of an image that is loaded: code, read-only data, then writable data from the next page (DESIGN CHOICE, log entry 8). -/
def placeAll (im : List Byte) (codeVa dataVa : Nat) : Except Diag (List Placed) :=
  let xs := (List.range (sectsOf im).length).zip (sectsOf im)
  match placeSects im 1 codeVa xs with
  | .error e => .error e
  | .ok c =>
    match placeSects im 2 dataVa xs with
    | .error e => .error e
    | .ok r =>
      match placeSects im 3 (raiseTo 16 (endOf dataVa r)) xs with
      | .error e => .error e
      | .ok d => .ok (c ++ r ++ d)

/-- A placed section by its index. -/
def placedAt (ps : List Placed) (i : Nat) : Option Placed := findBy (fun p : Placed => p.idx == i) ps

/-- The loaded value of a place in a section: in Bridle code the native address of its clause header (R91). -/
def loadedVa (bridle : Bool) (ps : List Placed) (sec v : Nat) : Nat :=
  match placedAt ps sec with
  | none => v
  | some p => match p.native with
    | some n => if bridle then p.va + 4 * ((findBy (fun e : Nat × Nat => e.1 == v / 4) n.heads).map (·.2)).getD 0 else p.va + v
    | none => p.va + v

/-! ### Relocations (R91, R476, R477) -/

/-- Replace bytes of a list from an offset. -/
def patch (bs : List Byte) (off : Nat) (x : List Byte) : List Byte := bs.take off ++ x ++ bs.drop (off + x.length)

/-- A field of a word replaced. -/
def setField (w lo n v : Nat) : Nat := w - bitsOf w lo n * 2 ^ lo + v % 2 ^ n * 2 ^ lo

/-- The byte offset in its loaded section at which a relocation applies. -/
def siteOf (bridle : Bool) (p : Placed) (r : Rel) : Option Nat :=
  match p.native with
  | some n => if bridle then (findBy (fun e : Nat × Nat => e.1 == r.off / 4) n.places).map (4 * ·.2) else some r.off
  | none => some r.off

/-- Apply a relocation to its section's bytes, or its diagnostic. The section offset of a Bridle code symbol (types 5 and 6) is its value in the image, not that of its clause header, and a native site of types 3 to 6 takes its fields whatever its word (DESIGN CHOICE, log entry 60). -/
def applyRel (im : List Byte) (ps : List Placed) (r : Rel) (p : Placed) : Except Nat Placed :=
  let bridle := decide (kindOf im = 1)
  match (symsOf im)[r.sym]?, siteOf bridle p r with
  | some y, some off =>
    let a : Int := (BitVec.ofNat 64 r.addend).toInt
    let v : Int := (loadedVa bridle ps y.sec y.value : Int) + a
    let o : Int := (y.value : Int) + a
    let u := (v % 2 ^ 64).toNat
    let put := fun (w1 w2 : Nat) => ({ p with bytes := patch p.bytes off (leBytes w1 4 ++ leBytes w2 4) } : Placed)
    let w1 := fieldAt p.bytes off 4
    let w2 := fieldAt p.bytes (off + 4) 4
    let mov := fun (x : Nat) => put (setField w1 18 2 (bitsOf x 24 2)) (setField (setField w2 0 24 x) 26 6 (bitsOf x 26 6))
    match r.type with
      | 1 => .ok { p with bytes := patch p.bytes off (leBytes u 8) }
      | 2 => if 0 ≤ v && v < 2 ^ 32 then .ok { p with bytes := patch p.bytes off (leBytes u 4) } else .error 5
      | 3 => .ok (mov (u % 2 ^ 32))
      | 4 => .ok (mov (u / 2 ^ 32))
      | 5 => if -2 ^ 15 ≤ o && o < 2 ^ 15 then .ok (put w1 (setField w2 (if opcodeOf w1 = 0x093 then 8 else 0) 16 (o % 2 ^ 16).toNat)) else .error 5
      | _ => if -2 ^ 20 ≤ o && o < 2 ^ 20 then .ok (put w1 (setField w2 0 21 (o % 2 ^ 21).toNat)) else .error 5
  | _, _ => .error 1

/-- Insert a relocation by its site. -/
def relInsert (x : Rel) : List Rel → List Rel
  | [] => [x]
  | y :: r => if x.sec < y.sec || (x.sec = y.sec && x.off ≤ y.off) then x :: y :: r else y :: relInsert x r

/-- Apply relocations in the order of their sites. -/
def applyRels (im : List Byte) : List Placed → List Rel → Except Diag (List Placed)
  | ps, [] => .ok ps
  | ps, r :: rs =>
    match placedAt ps r.sec with
    | none => .error (1, { sec := r.sec, off := r.off, sym := r.sym })
    | some p =>
      match applyRel im ps r p with
      | .error e => .error (e, { sec := r.sec, off := r.off, sym := r.sym })
      | .ok q => applyRels im (ps.map fun x => if x.idx = r.sec then q else x) rs

/-! ### The load request (R81, R83) -/

/-- Where the entries of `entriesOf` stand: section and offset. -/
def placesOf (im : List Byte) (type n : Nat) : List (Nat × Nat) :=
  (sectsOf im).zipIdx.flatMap fun x => if x.1.type = type then (List.range (x.1.size / n)).map fun i => (x.2, n * i) else []

/-- The place in the image of an offset in a section. -/
def harnessAt (im : List Byte) (sec off : Nat) : Nat := (((sectsOf im)[sec]?).map (·.off + off)).getD 0

/-- The failing entries of one kind, each with its place in the image. -/
def badEntries {α : Type} (im : List Byte) (type n : Nat) (xs : List α) (bad : α → Bool) : List (Nat × Site) :=
  ((placesOf im type n).zip xs).filterMap fun x => if bad x.2 then some (harnessAt im x.1.1 x.1.2, { sec := x.1.1, off := x.1.2 }) else none

/-- The failing sites of a layout, each with its place in the image: of a section-table entry the section's beginning; of a symbol or a descriptor its entry; of a relocation the site that it names, at its own entry where no such section is. -/
def layoutSites (im : List Byte) : List (Nat × Site) :=
  let xs := sectsOf im
  (xs.zipIdx.filterMap fun x => if sectOk im x.1 && xs.zipIdx.all (fun y => y.2 == x.2 || !sectsMeet x.1 y.1) then none else some (0x40 + 32 * x.2, { sec := x.2 })) ++
  badEntries im 5 24 (symsOf im) (fun y => !symOk im y) ++ badEntries im 4 16 (kernsOf im) (fun k => !kernOk im k) ++
  ((placesOf im 6 24).zip (relsOf im)).filterMap fun x =>
    if relOk im x.2 then none
    else some (if x.2.sec < xs.length then harnessAt im x.2.sec x.2.off else harnessAt im x.1.1 x.1.2, { sec := x.2.sec, off := x.2.off, sym := x.2.sym })

/-- The site of the lowest place. -/
def firstSite : List (Nat × Site) → Option (Nat × Site)
  | [] => none
  | x :: r => match firstSite r with
    | some y => if y.1 < x.1 then some y else some x
    | none => some x

/-- The site that a layout diagnostic names: the first in address order (R82; how a site outside the words of a section is named is a DESIGN CHOICE, log entry 60); a failing header has none. -/
def layoutSite (im : List Byte) : Site := if harnessOk im then ((firstSite (layoutSites im)).map (·.2)).getD {} else {}

/-- The diagnostic of steps 1 to 4, 0 for none; step 2 asks the signature (R80). -/
def State.refuses (s : State) (im : List Byte) : Nat :=
  if !layoutOk im then 1
  else if !signatureVerifies im then 2
  else if kindOf im = 1 && fieldAt im 6 2 ≠ 1 then 3
  else if kindOf im = 1 && decide (Config.bridleMinor < fieldAt im 8 2) then 4
  else if kindOf im = 2 && fieldAt im 0x14 4 ≠ Config.generation then 9
  else if fieldAt im 0x10 4 < Store.get 0 s.arMin (fieldAt im 0x0C 4) then 6
  else 0

/-- Bytes of the protected code area that an image takes: its code stands at the offset in a 64 KiB page that its address has. -/
def Image.room (im : Image) : Nat := if im.shared then 0 else raiseTo 16 (im.codeVa % 65536 + 4 * im.code.length)

/-- Where the next image's code lies in the protected code area. -/
def State.codePlace (s : State) (codeVa : Nat) : Nat := protectedBase + s.images.foldl (fun n im => n + im.room) 0 + codeVa % 65536

/-- Code words from the lowest to the highest code section, gaps between sections zero. -/
def codeSpan (base : Nat) (ps : List Placed) : List Nat :=
  ps.foldl (fun ws p => ws ++ List.replicate ((p.va - base) / 4 - ws.length) 0 ++ wordsIn p.bytes) []

/-- Store bytes at an address of a space, where the loader's tenant has backed it by a page of its own (DESIGN CHOICE, log entry 8). -/
def State.storeAt (s : State) (tenant asid va : Nat) : List Byte → State
  | [] => s
  | b :: r =>
    let t := match s.check [] tenant asid (canonOf va) 1 .write with
      | .ok tr => s.hubStore tr.key [b] {}
      | .error _ => s
    State.storeAt t tenant asid (va + 1) r

/-- The data sections of an image are stored where a tenant has pages for them. -/
def State.storeData (s : State) (tenant asid : Nat) (im : Image) : State := im.data.foldl (fun s d => s.storeAt tenant asid d.1 d.2) s

/-- An image is stored: its code in the protected area, its data where the tenant has pages for it. Where the area has no room it is not kept, and the request's result is 255 (DESIGN CHOICE, log entry 60). -/
def State.keepImage (s : State) (r : LoadReq) (ps : List Placed) : State :=
  let bridle := decide (kindOf r.image = 1)
  let code := ps.filter fun p => p.native.isSome
  let base := (code.head?.map (·.va)).getD r.codeVa
  let im : Image := { no := s.images.length, tenant := r.tenant, asid := r.asid, digest := sha512 r.image, codeVa := base, code := codeSpan base code
                      headers := code.flatMap fun p => ((p.native.map (·.headers)).getD []).map (· + (p.va - base))
                      kernels := (kernsOf r.image).map fun k => (loadedVa bridle ps (kernSec r.image k) k.entry - base, k.wcode, k.nregs, k.pair)
                      data := (ps.filter fun p => p.native.isNone).map fun p => (p.va, p.bytes) }
  let pa := s.codePlace base
  if gddrBytes < pa - base % 65536 + im.room then { s with loadResult := 255 }
  else ({ s with mem := writeBytes s.mem pa (wordBytes im.code), images := s.images ++ [im], loadResult := 256 + im.no } : State).storeData r.tenant r.asid im

/-- A stored native result serves a request: an address space that has not used it takes it as it stands, at its addresses (R83; those are a DESIGN CHOICE, log entry 60). -/
def State.reuse (s : State) (r : LoadReq) (im : Image) : State :=
  let s := { s with loadResult := 256 + im.no }
  if s.images.any fun x => x.no == im.no && x.tenant == r.tenant && x.asid == r.asid then s
  else ({ s with images := s.images ++ [{ im with tenant := r.tenant, asid := r.asid, shared := true }] } : State).storeData r.tenant r.asid im

/-- A request is refused with a diagnostic. -/
def State.loadFails (s : State) (d : Diag) : State := { s with loadResult := d.1, loadSite := d.2 }

/-- LOAD_REQUEST (R81 to R83): a diagnostic refuses the whole image; an image whose digest matches a stored result is served by that after steps 1 to 4. -/
def execLoadRequest (r : LoadReq) (s : State) : Out :=
  let d := s.refuses r.image
  let s := { s with loadSite := {}, verified := if d = 1 || d = 2 then s.verified else s.verified ++ [(fieldAt r.image 0x0C 4, fieldAt r.image 0x10 4)] }
  if d ≠ 0 then .next (s.loadFails (d, if d = 1 then layoutSite r.image else {}))
  else
    match findBy (fun im : Image => im.digest == sha512 r.image) s.images with
    | some im => .next (s.reuse r im)
    | none =>
      match placeAll r.image r.codeVa r.dataVa with
      | .error e => .next (s.loadFails e)
      | .ok ps =>
        match applyRels r.image ps ((relsOf r.image).foldr relInsert []) with
        | .error e => .next (s.loadFails e)
        | .ok ps => .next (s.keepImage r ps)

end Sys2Proof.Machine
end

