-- ==== Sys2Proof/Machine/Int.lean ====
section
/-! DEFINITION. Class 0 apart from the cross-lane row: integer arithmetic, logic, shifts, bit fields, compares, predicates, selects and moves (R127 to R142). Each is a fixed-latency word that reads all its sources at issue (R65) and acts on each active member (R124). -/
namespace Sys2Proof.Machine

/-- add (R127). -/
def execAdd (k : Ctl) (m : ArithMode) (d a b : Reg) (s : State) : Out :=
  laneFixed 1 k (one d ++ one a ++ one b) s fun h => wreg d (arith 32 m (· + ·) (h.v a) (h.v b))
/-- sub (R127). -/
def execSub (k : Ctl) (m : ArithMode) (d a b : Reg) (s : State) : Out :=
  laneFixed 1 k (one d ++ one a ++ one b) s fun h => wreg d (arith 32 m (· - ·) (h.v a) (h.v b))
/-- mullo (R127). -/
def execMullo (k : Ctl) (m : ArithMode) (d a b : Reg) (s : State) : Out :=
  laneFixed 1 k (one d ++ one a ++ one b) s fun h => wreg d (arith 32 m (· * ·) (h.v a) (h.v b))
/-- mulhi: bits [63:32] of the exact product (R127). -/
def execMulhi (k : Ctl) (m : MulhiTy) (d a b : Reg) (s : State) : Out :=
  laneFixed 1 k (one d ++ one a ++ one b) s fun h =>
    let x : Int := match m with
      | .ii => toSigned 32 (h.v a) * toSigned 32 (h.v b)
      | .nn => (h.v a : Int) * (h.v b : Int)
      | .inn => toSigned 32 (h.v a) * (h.v b : Int)
    wreg d (wrapTo 32 (x / 4294967296))
/-- mad: formed once (R128). -/
def execMad (k : Ctl) (m : ArithMode) (d a b c : Reg) (s : State) : Out :=
  laneFixed 2 k (one d ++ one a ++ one b ++ one c) s fun h =>
    let addend : Int := match m with
      | .satI => toSigned 32 (h.v c)
      | _ => (h.v c : Int)
    wreg d (arith 32 m (fun x y => x * y + addend) (h.v a) (h.v b))
/-- min (R127). -/
def execMin (k : Ctl) (m : IntTy) (d a b : Reg) (s : State) : Out :=
  laneFixed 1 k (one d ++ one a ++ one b) s fun h =>
    let le := match m with
      | .i32 => decide (toSigned 32 (h.v a) ≤ toSigned 32 (h.v b))
      | .n32 => decide (h.v a ≤ h.v b)
    wreg d (if le then h.v a else h.v b)
/-- max (R127). -/
def execMax (k : Ctl) (m : IntTy) (d a b : Reg) (s : State) : Out :=
  laneFixed 1 k (one d ++ one a ++ one b) s fun h =>
    let le := match m with
      | .i32 => decide (toSigned 32 (h.v a) ≤ toSigned 32 (h.v b))
      | .n32 => decide (h.v a ≤ h.v b)
    wreg d (if le then h.v b else h.v a)
/-- neg (R127). -/
def execNeg (k : Ctl) (m : NegMode) (d a : Reg) (s : State) : Out :=
  laneFixed 1 k (one d ++ one a) s fun h =>
    wreg d (match m with
      | .wrap => wrapTo 32 (-(h.v a : Int))
      | .sat => satI 32 (-(toSigned 32 (h.v a))))
/-- addi (R129). -/
def execAddi (k : Ctl) (d a : Reg) (imm : Imm8) (s : State) : Out :=
  laneFixed 1 k (one d ++ one a) s fun h => wreg d (wrapTo 32 ((h.v a : Int) + simm imm))
/-- muli (R129). -/
def execMuli (k : Ctl) (d a : Reg) (imm : Imm8) (s : State) : Out :=
  laneFixed 1 k (one d ++ one a) s fun h => wreg d (wrapTo 32 ((h.v a : Int) * simm imm))
/-- add64 (R130). -/
def execAdd64 (k : Ctl) (m : ArithMode) (d a b : Reg) (s : State) : Out :=
  laneFixed 1 k (two d ++ two a ++ two b) s fun h => wpair d (arith 64 m (· + ·) (h.pair a) (h.pair b))
/-- add64i (R130). -/
def execAdd64i (k : Ctl) (d a : Reg) (imm : Imm8) (s : State) : Out :=
  laneFixed 1 k (two d ++ two a) s fun h => wpair d (wrapTo 64 ((h.pair a : Int) + simm imm))
/-- sub64 (R130). -/
def execSub64 (k : Ctl) (m : ArithMode) (d a b : Reg) (s : State) : Out :=
  laneFixed 1 k (two d ++ two a ++ two b) s fun h => wpair d (arith 64 m (· - ·) (h.pair a) (h.pair b))
/-- lea64 (R131). -/
def execLea64 (k : Ctl) (d a c : Reg) (sx : Bool) (shift : Bits3) (disp : Bits16) (s : State) : Out :=
  laneFixed 2 k (two d ++ two a ++ one c) s fun h =>
    let idx : Int := if sx then toSigned 32 (h.v c) else (h.v c : Int)
    wpair d (wrapTo 64 ((h.pair a : Int) + idx * (2 ^ shift.toNat : Nat) + simm disp))

/-- A bitwise word of two registers (R132). -/
def logicWord (k : Ctl) (d a b : Reg) (f : BitVec 32 → BitVec 32 → BitVec 32) (s : State) : Out :=
  laneFixed 1 k (one d ++ one a ++ one b) s fun h => wreg d (f (h.raw a.toNat) (h.raw b.toNat)).toNat
/-- A bitwise word with the immediate sign-extended (R132). -/
def logicImm (k : Ctl) (d a : Reg) (imm : Imm8) (f : BitVec 32 → BitVec 32 → BitVec 32) (s : State) : Out :=
  laneFixed 1 k (one d ++ one a) s fun h => wreg d (f (h.raw a.toNat) (imm.signExtend 32)).toNat
/-- and (R132). -/
def execAnd (k : Ctl) (d a b : Reg) (s : State) : Out := logicWord k d a b (· &&& ·) s
/-- or (R132). -/
def execOr (k : Ctl) (d a b : Reg) (s : State) : Out := logicWord k d a b (· ||| ·) s
/-- xor (R132). -/
def execXor (k : Ctl) (d a b : Reg) (s : State) : Out := logicWord k d a b (· ^^^ ·) s
/-- not (R132). -/
def execNot (k : Ctl) (d a : Reg) (s : State) : Out :=
  laneFixed 1 k (one d ++ one a) s fun h => wreg d (~~~(h.raw a.toNat)).toNat
/-- andi (R132). -/
def execAndi (k : Ctl) (d a : Reg) (imm : Imm8) (s : State) : Out := logicImm k d a imm (· &&& ·) s
/-- ori (R132). -/
def execOri (k : Ctl) (d a : Reg) (imm : Imm8) (s : State) : Out := logicImm k d a imm (· ||| ·) s
/-- xori (R132). -/
def execXori (k : Ctl) (d a : Reg) (imm : Imm8) (s : State) : Out := logicImm k d a imm (· ^^^ ·) s
/-- A number whose bit i is a test of i, for i below n. -/
def bitsFrom (n : Nat) (f : Nat → Bool) : Nat := (List.range n).foldl (fun v i => v + bit (f i) * 2 ^ i) 0
/-- lop3: bit i is bit 4a + 2b + c of the table (R133). -/
def execLop3 (k : Ctl) (d a b c : Reg) (table : Bits8) (s : State) : Out :=
  laneFixed 2 k (one d ++ one a ++ one b ++ one c) s fun h =>
    wreg d (bitsFrom 32 fun i => bitAt table.toNat (4 * bit (bitAt (h.v a) i) + 2 * bit (bitAt (h.v b) i) + bit (bitAt (h.v c) i)))

/-- Shifts and rotates by 0 to 255 (R134). -/
def shlBy (x n : Nat) : Nat := if n < 32 then x * 2 ^ n % 2 ^ 32 else 0
def shrBy (x n : Nat) : Nat := if n < 32 then x / 2 ^ n else 0
def sraBy (x n : Nat) : Nat := wrapTo 32 (toSigned 32 x / ((2 ^ (if n < 32 then n else 32) : Nat) : Int))
def rolBy (x n : Nat) : Nat := x * 2 ^ (n % 32) % 2 ^ 32 + x / 2 ^ (32 - n % 32)
/-- A shift by bits [7:0] of a register (R134). -/
def shiftWord (k : Ctl) (d a b : Reg) (f : Nat → Nat → Nat) (s : State) : Out :=
  laneFixed 1 k (one d ++ one a ++ one b) s fun h => wreg d (f (h.v a) (h.v b % 256))
/-- A shift by an immediate of 0 to 31 (R134). -/
def shiftImm (k : Ctl) (d a : Reg) (imm : Imm8) (f : Nat → Nat → Nat) (s : State) : Out :=
  laneFixed 1 k (one d ++ one a) s fun h => wreg d (f (h.v a) imm.toNat)
/-- shl (R134). -/
def execShl (k : Ctl) (d a b : Reg) (s : State) : Out := shiftWord k d a b shlBy s
/-- shr (R134). -/
def execShr (k : Ctl) (d a b : Reg) (s : State) : Out := shiftWord k d a b shrBy s
/-- sra (R134). -/
def execSra (k : Ctl) (d a b : Reg) (s : State) : Out := shiftWord k d a b sraBy s
/-- rol (R134). -/
def execRol (k : Ctl) (d a b : Reg) (s : State) : Out := shiftWord k d a b rolBy s
/-- shli (R134). -/
def execShli (k : Ctl) (d a : Reg) (imm : Imm8) (s : State) : Out := shiftImm k d a imm shlBy s
/-- shri (R134). -/
def execShri (k : Ctl) (d a : Reg) (imm : Imm8) (s : State) : Out := shiftImm k d a imm shrBy s
/-- srai (R134). -/
def execSrai (k : Ctl) (d a : Reg) (imm : Imm8) (s : State) : Out := shiftImm k d a imm sraBy s
/-- roli (R134). -/
def execRoli (k : Ctl) (d a : Reg) (imm : Imm8) (s : State) : Out := shiftImm k d a imm rolBy s

/-- bfe (R135). -/
def execBfe (k : Ctl) (d a : Reg) (sx : Bool) (len : Bits6) (pos : Bits5) (s : State) : Out :=
  laneFixed 2 k (one d ++ one a) s fun h =>
    let f := bitsOf (h.v a) pos.toNat len.toNat
    wreg d (if sx then wrapTo 32 (toSigned len.toNat f) else f)
/-- bfi (R135). -/
def execBfi (k : Ctl) (d a b : Reg) (len : Bits6) (pos : Bits5) (s : State) : Out :=
  laneFixed 2 k (one d ++ one a ++ one b) s fun h =>
    wreg d (h.v a - bitsOf (h.v a) pos.toNat len.toNat * 2 ^ pos.toNat + h.v b % 2 ^ len.toNat * 2 ^ pos.toNat)
/-- The number of 1 bits of a word. -/
def popCount (x : Nat) : Nat := ((List.range 32).filter fun i => bitAt x i).length
/-- popc (R136). -/
def execPopc (k : Ctl) (d a : Reg) (s : State) : Out :=
  laneFixed 1 k (one d ++ one a) s fun h => wreg d (popCount (h.v a))
/-- clz (R136). -/
def execClz (k : Ctl) (d a : Reg) (s : State) : Out :=
  laneFixed 1 k (one d ++ one a) s fun h => wreg d (if h.v a = 0 then 32 else 31 - Nat.log2 (h.v a))
/-- brev (R136). -/
def execBrev (k : Ctl) (d a : Reg) (s : State) : Out :=
  laneFixed 1 k (one d ++ one a) s fun h => wreg d (bitsFrom 32 fun i => bitAt (h.v a) (31 - i))
/-- ffs (R136). -/
def execFfs (k : Ctl) (d a : Reg) (s : State) : Out :=
  laneFixed 1 k (one d ++ one a) s fun h => wreg d ((((List.range 32).filter fun i => bitAt (h.v a) i).head?).getD 32)

/-- An integer compare to predicate under its condition (R137). -/
def icmpWord (k : Ctl) (m : CmpTy) (comb : Combine) (pd : Pred) (a b : Reg) (f : Int → Int → Bool) (s : State) : Out :=
  laneFixed 1 k (cmpRegs m a ++ cmpRegs m b) s fun h => setPred h comb pd (f (cmpOperand m h a) (cmpOperand m h b))
/-- icmp.eq (R137). -/
def execIcmpEq (k : Ctl) (m : CmpTy) (comb : Combine) (pd : Pred) (a b : Reg) (s : State) : Out :=
  icmpWord k m comb pd a b (fun x y => decide (x = y)) s
/-- icmp.ne (R137). -/
def execIcmpNe (k : Ctl) (m : CmpTy) (comb : Combine) (pd : Pred) (a b : Reg) (s : State) : Out :=
  icmpWord k m comb pd a b (fun x y => decide (x ≠ y)) s
/-- icmp.lt (R137). -/
def execIcmpLt (k : Ctl) (m : CmpTy) (comb : Combine) (pd : Pred) (a b : Reg) (s : State) : Out :=
  icmpWord k m comb pd a b (fun x y => decide (x < y)) s
/-- icmp.le (R137). -/
def execIcmpLe (k : Ctl) (m : CmpTy) (comb : Combine) (pd : Pred) (a b : Reg) (s : State) : Out :=
  icmpWord k m comb pd a b (fun x y => decide (x ≤ y)) s
/-- icmp.gt (R137). -/
def execIcmpGt (k : Ctl) (m : CmpTy) (comb : Combine) (pd : Pred) (a b : Reg) (s : State) : Out :=
  icmpWord k m comb pd a b (fun x y => decide (y < x)) s
/-- icmp.ge (R137). -/
def execIcmpGe (k : Ctl) (m : CmpTy) (comb : Combine) (pd : Pred) (a b : Reg) (s : State) : Out :=
  icmpWord k m comb pd a b (fun x y => decide (y ≤ x)) s
/-- ptest (R138). -/
def execPtest (k : Ctl) (m : PtestMode) (comb : Combine) (pd : Pred) (a b : Reg) (s : State) : Out :=
  laneFixed 1 k (one a ++ one b) s fun h =>
    let nz := (h.raw a.toNat &&& h.raw b.toNat) != 0
    setPred h comb pd (match m with
      | .nz => nz
      | .z => !nz)
/-- Predicate logic with each source perhaps complemented (R139). -/
def predWord (k : Ctl) (na nb : Bool) (comb : Combine) (pd pa pb : Pred) (f : Bool → Bool → Bool) (s : State) : Out :=
  laneFixed 1 k [] s fun h => setPred h comb pd (f (h.p pa != na) (h.p pb != nb))
/-- pand (R139). -/
def execPand (k : Ctl) (na nb : Bool) (comb : Combine) (pd pa pb : Pred) (s : State) : Out := predWord k na nb comb pd pa pb (· && ·) s
/-- por (R139). -/
def execPor (k : Ctl) (na nb : Bool) (comb : Combine) (pd pa pb : Pred) (s : State) : Out := predWord k na nb comb pd pa pb (· || ·) s
/-- pxor (R139). -/
def execPxor (k : Ctl) (na nb : Bool) (comb : Combine) (pd pa pb : Pred) (s : State) : Out := predWord k na nb comb pd pa pb (· != ·) s
/-- pnot (R139). -/
def execPnot (k : Ctl) (comb : Combine) (pd pa : Pred) (s : State) : Out :=
  laneFixed 1 k [] s fun h => setPred h comb pd (!h.p pa)
/-- p2v (R140). -/
def execP2v (k : Ctl) (d : Reg) (pa : Pred) (s : State) : Out := laneFixed 1 k (one d) s fun h => wreg d (bit (h.p pa))
/-- p2v.all (R140). -/
def execP2vAll (k : Ctl) (d : Reg) (s : State) : Out := laneFixed 1 k (one d) s fun h => wreg d h.preds.toNat
/-- v2p (R140). -/
def execV2p (k : Ctl) (comb : Combine) (pd : Pred) (a : Reg) (s : State) : Out :=
  laneFixed 1 k (one a) s fun h => setPred h comb pd (h.v a != 0)
/-- v2p.all (R140). -/
def execV2pAll (k : Ctl) (a : Reg) (s : State) : Out :=
  laneFixed 1 k (one a) s fun h => (List.range 16).flatMap fun i => wpred i (bitAt (h.v a) i)
/-- sel (R141). -/
def execSel (k : Ctl) (d a b : Reg) (pc : Pred) (ng : Bool) (s : State) : Out :=
  laneFixed 2 k (one d ++ one a ++ one b) s fun h => wreg d (if h.p pc != ng then h.v a else h.v b)
/-- mov (R142). -/
def execMov (k : Ctl) (d a : Reg) (s : State) : Out := laneFixed 1 k (one d ++ one a) s fun h => wreg d (h.v a)
/-- mov.64 (R142). -/
def execMov64 (k : Ctl) (d a : Reg) (s : State) : Out := laneFixed 1 k (two d ++ two a) s fun h => wpair d (h.pair a)
/-- movi: bits [31:26], [25:24] and [23:0] of the constant (R142). -/
def execMovi (k : Ctl) (d : Reg) (hi6 : Bits6) (mid2 : Bits2) (lo24 : Bits24) (s : State) : Out :=
  laneFixed 2 k (one d) s fun _ => wreg d (hi6.toNat * 2 ^ 26 + mid2.toNat * 2 ^ 24 + lo24.toNat)

end Sys2Proof.Machine
end

