-- ==== Sys2Proof/Machine/Lane.lean ====
section
/-! DEFINITION. The cross-lane words (R189 to R197): variable latency, over the members of the issuing group by home lane. -/
namespace Sys2Proof.Machine

/-- The member in a home lane, none where the lane is absent (R189). -/
def Ctx.inLane (c : Ctx) (l : Nat) : Option Thread := findBy (fun h => c.lane h == l) c.members
/-- A member's value, or one's own where the lane is absent or outside the group. -/
def Ctx.laneVal (c : Ctx) (src : Int) (a : Reg) (own : Nat) : Nat :=
  if src < 0 then own
  else if (c.l.w : Int) ≤ src then own
  else match c.inLane src.toNat with
    | some h => h.v a
    | none => own

/-- A shuffle by a source lane computed from the own lane and V[b] (R191). -/
def xshfWord (k : Ctl) (d a b : Reg) (f : Ctx → Nat → Nat → Int) (s : State) : Out :=
  laneVariable 1 0 k (one d ++ one a ++ one b) s fun c h => wreg d (c.laneVal (f c (c.lane h) (h.v b)) a (h.v a))
/-- xshf.idx (R191). -/
def execXshfIdx (k : Ctl) (d a b : Reg) (s : State) : Out := xshfWord k d a b (fun c _ n => ((n % c.l.w : Nat) : Int)) s
/-- xshf.up (R191). -/
def execXshfUp (k : Ctl) (d a b : Reg) (s : State) : Out := xshfWord k d a b (fun _ l n => (l : Int) - n) s
/-- xshf.down (R191). -/
def execXshfDown (k : Ctl) (d a b : Reg) (s : State) : Out := xshfWord k d a b (fun _ l n => (l : Int) + n) s
/-- xshf.xor (R191). -/
def execXshfXor (k : Ctl) (d a b : Reg) (s : State) : Out := xshfWord k d a b (fun c l n => ((Nat.xor l (n % c.l.w) : Nat) : Int)) s

/-- xbcast.lane (R192). -/
def execXbcastLane (k : Ctl) (d a : Reg) (n : Bits6) (s : State) : Out :=
  laneVariable 1 0 k (one d ++ one a) s fun c h => wreg d (c.laneVal n.toNat a (h.v a))
/-- xbcast.reg: the lane that the leading member's V[b] names (R192). -/
def execXbcastReg (k : Ctl) (d a b : Reg) (s : State) : Out :=
  laneVariable 1 0 k (one d ++ one a ++ one b) s fun c h =>
    wreg d (match c.members with
      | [] => h.v a
      | t :: _ => c.laneVal ((t.v b % c.l.w : Nat) : Int) a (h.v a))
/-- xbcast.lead (R192). -/
def execXbcastLead (k : Ctl) (d a : Reg) (s : State) : Out :=
  laneVariable 1 0 k (one d ++ one a) s fun c h =>
    wreg d (match c.members with
      | [] => h.v a
      | t :: _ => t.v a)

/-- The identity of an operation (R193). -/
def laneIdentity : LaneOp → Nat
  | .add => 0
  | .minI => 0x7FFFFFFF
  | .maxI => 0x80000000
  | .minN => 0xFFFFFFFF
  | .maxN => 0
  | .and => 0xFFFFFFFF
  | .or => 0
  | .xor => 0
  | .fadd => 0x80000000
  | .fmin => 0x7F800000
  | .fmax => 0xFF800000
/-- The combination of an operation (R193). Under .rdn a lone +0 of fadd comes out as −0, as R194's first step of −0 and R105 make it, where R194's closing sentence keeps +0 (DESIGN CHOICE, log entry 63). -/
def laneCombine (o : LaneOp) (rm : Round) (x y : Nat) : Nat :=
  match o with
  | .add => (x + y) % 2 ^ 32
  | .minI => if toSigned 32 x ≤ toSigned 32 y then x else y
  | .maxI => if toSigned 32 x ≤ toSigned 32 y then y else x
  | .minN => if x ≤ y then x else y
  | .maxN => if x ≤ y then y else x
  | .and => (BitVec.ofNat 32 x &&& BitVec.ofNat 32 y).toNat
  | .or => (BitVec.ofNat 32 x ||| BitVec.ofNat 32 y).toNat
  | .xor => (BitVec.ofNat 32 x ^^^ BitVec.ofNat 32 y).toNat
  | .fadd => FFmt.f32.add rm x y
  | .fmin => FFmt.f32.minMax false .num x y
  | .fmax => FFmt.f32.minMax true .num x y
/-- The combination of the participants with a home lane below, or up to, one lane, in ascending order (R194). -/
def Ctx.scan (c : Ctx) (k : Ctl) (o : LaneOp) (rm : Round) (a : Reg) (p : Nat → Bool) : Nat :=
  ((c.actors k).filter fun h => p (c.lane h)).foldl (fun x h => laneCombine o rm x (h.v a)) (laneIdentity o)
/-- xred (R194). -/
def execXred (k : Ctl) (rm : Round) (d a : Reg) (o : LaneOp) (s : State) : Out :=
  laneVariable 1 0 k (one d ++ one a) s fun c _ => wreg d (c.scan k o rm a fun _ => true)
/-- xscan (R194). -/
def execXscan (k : Ctl) (rm : Round) (d a : Reg) (excl : Bool) (o : LaneOp) (s : State) : Out :=
  laneVariable 1 0 k (one d ++ one a) s fun c h =>
    wreg d (c.scan k o rm a fun l => if excl then decide (l < c.lane h) else decide (l ≤ c.lane h))

/-- A vote of the participants' predicate (R195). -/
def voteWord (k : Ctl) (comb : Combine) (pd pa : Pred) (f : List Bool → Bool) (s : State) : Out :=
  laneVariable 1 0 k [] s fun c h => setPred h comb pd (f ((c.actors k).map fun x => x.p pa))
/-- xvote.any (R195). -/
def execXvoteAny (k : Ctl) (comb : Combine) (pd pa : Pred) (s : State) : Out := voteWord k comb pd pa (fun l => l.any id) s
/-- xvote.all (R195). -/
def execXvoteAll (k : Ctl) (comb : Combine) (pd pa : Pred) (s : State) : Out := voteWord k comb pd pa (fun l => l.all id) s
/-- xvote.uni (R195). -/
def execXvoteUni (k : Ctl) (comb : Combine) (pd pa : Pred) (s : State) : Out :=
  voteWord k comb pd pa (fun l => l.all id || !l.any id) s

/-- A word whose result is a lane mask: one register, or the pair at an even d under W = 64 (R196). -/
def maskWord (k : Ctl) (d : Reg) (regs : List Nat) (f : Ctx → Thread → Thread → Bool) (all : Bool) (s : State) : Out :=
  issue 1 regs s fun c s =>
    if c.l.w = 64 && (d.toNat % 2 ≠ 0 || c.l.nregs ≤ d.toNat + 1) then s.parkWhole c.gid { cls := clsEnc, detail := 0, addr := 0 }
    else
      let src := if all then c.members else c.actors k
      let mask := fun h => (src.filter (f c h)).foldl (fun v x => v + 2 ^ c.lane x) 0
      let w := fun h => if c.l.w = 64 then wpair d (mask h) else wreg d (mask h)
      let rs := (c.actors k).flatMap fun h => (c.receivers k h).flatMap fun i => (w h).map fun x => (i, x)
      (s.addOp { c.op 0 .ready with results := rs, isReady := true }).endWord c 1
/-- xmatch.eq (R196). -/
def execXmatchEq (k : Ctl) (d a : Reg) (s : State) : Out := maskWord k d (one d ++ one a) (fun _ h x => x.v a == h.v a) false s
/-- xmatch.ballot (R196). -/
def execXmatchBallot (k : Ctl) (d : Reg) (pa : Pred) (s : State) : Out := maskWord k d (one d) (fun _ _ x => x.p pa) false s
/-- xmatch.members: every member, whatever its guard (R196). -/
def execXmatchMembers (k : Ctl) (d : Reg) (s : State) : Out := maskWord k d (one d) (fun _ _ _ => true) true s

end Sys2Proof.Machine
end

