-- ==== Sys2Proof/Machine/Dispatch.lean ====
section
/-! DEFINITION. One arm for each constructor of Instr: the call of its meaning. -/
namespace Sys2Proof.Machine

def exec (i : Instr) (s : State) : Host.Outcome State Fault Refusal :=
  match i with
  | .add k m d a b => Sys2Proof.Machine.execAdd k m d a b s
  | .sub k m d a b => Sys2Proof.Machine.execSub k m d a b s
  | .mullo k m d a b => Sys2Proof.Machine.execMullo k m d a b s
  | .mulhi k m d a b => Sys2Proof.Machine.execMulhi k m d a b s
  | .mad k m d a b c => Sys2Proof.Machine.execMad k m d a b c s
  | .min k m d a b => Sys2Proof.Machine.execMin k m d a b s
  | .max k m d a b => Sys2Proof.Machine.execMax k m d a b s
  | .neg k m d a => Sys2Proof.Machine.execNeg k m d a s
  | .addi k d a imm => Sys2Proof.Machine.execAddi k d a imm s
  | .muli k d a imm => Sys2Proof.Machine.execMuli k d a imm s
  | .add64 k m d a b => Sys2Proof.Machine.execAdd64 k m d a b s
  | .add64i k d a imm => Sys2Proof.Machine.execAdd64i k d a imm s
  | .sub64 k m d a b => Sys2Proof.Machine.execSub64 k m d a b s
  | .lea64 k d a c sx shift disp => Sys2Proof.Machine.execLea64 k d a c sx shift disp s
  | .and k d a b => Sys2Proof.Machine.execAnd k d a b s
  | .or k d a b => Sys2Proof.Machine.execOr k d a b s
  | .xor k d a b => Sys2Proof.Machine.execXor k d a b s
  | .not k d a => Sys2Proof.Machine.execNot k d a s
  | .andi k d a imm => Sys2Proof.Machine.execAndi k d a imm s
  | .ori k d a imm => Sys2Proof.Machine.execOri k d a imm s
  | .xori k d a imm => Sys2Proof.Machine.execXori k d a imm s
  | .lop3 k d a b c table => Sys2Proof.Machine.execLop3 k d a b c table s
  | .shl k d a b => Sys2Proof.Machine.execShl k d a b s
  | .shr k d a b => Sys2Proof.Machine.execShr k d a b s
  | .sra k d a b => Sys2Proof.Machine.execSra k d a b s
  | .rol k d a b => Sys2Proof.Machine.execRol k d a b s
  | .shli k d a imm => Sys2Proof.Machine.execShli k d a imm s
  | .shri k d a imm => Sys2Proof.Machine.execShri k d a imm s
  | .srai k d a imm => Sys2Proof.Machine.execSrai k d a imm s
  | .roli k d a imm => Sys2Proof.Machine.execRoli k d a imm s
  | .bfe k d a sx len pos => Sys2Proof.Machine.execBfe k d a sx len pos s
  | .bfi k d a b len pos => Sys2Proof.Machine.execBfi k d a b len pos s
  | .popc k d a => Sys2Proof.Machine.execPopc k d a s
  | .clz k d a => Sys2Proof.Machine.execClz k d a s
  | .brev k d a => Sys2Proof.Machine.execBrev k d a s
  | .ffs k d a => Sys2Proof.Machine.execFfs k d a s
  | .icmpEq k m comb pd a b => Sys2Proof.Machine.execIcmpEq k m comb pd a b s
  | .icmpNe k m comb pd a b => Sys2Proof.Machine.execIcmpNe k m comb pd a b s
  | .icmpLt k m comb pd a b => Sys2Proof.Machine.execIcmpLt k m comb pd a b s
  | .icmpLe k m comb pd a b => Sys2Proof.Machine.execIcmpLe k m comb pd a b s
  | .icmpGt k m comb pd a b => Sys2Proof.Machine.execIcmpGt k m comb pd a b s
  | .icmpGe k m comb pd a b => Sys2Proof.Machine.execIcmpGe k m comb pd a b s
  | .ptest k m comb pd a b => Sys2Proof.Machine.execPtest k m comb pd a b s
  | .pand k na nb comb pd pa pb => Sys2Proof.Machine.execPand k na nb comb pd pa pb s
  | .por k na nb comb pd pa pb => Sys2Proof.Machine.execPor k na nb comb pd pa pb s
  | .pxor k na nb comb pd pa pb => Sys2Proof.Machine.execPxor k na nb comb pd pa pb s
  | .pnot k comb pd pa => Sys2Proof.Machine.execPnot k comb pd pa s
  | .p2v k d pa => Sys2Proof.Machine.execP2v k d pa s
  | .p2vAll k d => Sys2Proof.Machine.execP2vAll k d s
  | .v2p k comb pd a => Sys2Proof.Machine.execV2p k comb pd a s
  | .v2pAll k a => Sys2Proof.Machine.execV2pAll k a s
  | .sel k d a b pc ng => Sys2Proof.Machine.execSel k d a b pc ng s
  | .mov k d a => Sys2Proof.Machine.execMov k d a s
  | .mov64 k d a => Sys2Proof.Machine.execMov64 k d a s
  | .xshfIdx k d a b => Sys2Proof.Machine.execXshfIdx k d a b s
  | .xshfUp k d a b => Sys2Proof.Machine.execXshfUp k d a b s
  | .xshfDown k d a b => Sys2Proof.Machine.execXshfDown k d a b s
  | .xshfXor k d a b => Sys2Proof.Machine.execXshfXor k d a b s
  | .xbcastLane k d a n => Sys2Proof.Machine.execXbcastLane k d a n s
  | .xbcastReg k d a b => Sys2Proof.Machine.execXbcastReg k d a b s
  | .xbcastLead k d a => Sys2Proof.Machine.execXbcastLead k d a s
  | .xred k rm d a o => Sys2Proof.Machine.execXred k rm d a o s
  | .xscan k rm d a excl o => Sys2Proof.Machine.execXscan k rm d a excl o s
  | .xvoteAny k comb pd pa => Sys2Proof.Machine.execXvoteAny k comb pd pa s
  | .xvoteAll k comb pd pa => Sys2Proof.Machine.execXvoteAll k comb pd pa s
  | .xvoteUni k comb pd pa => Sys2Proof.Machine.execXvoteUni k comb pd pa s
  | .xmatchEq k d a => Sys2Proof.Machine.execXmatchEq k d a s
  | .xmatchBallot k d pa => Sys2Proof.Machine.execXmatchBallot k d pa s
  | .xmatchMembers k d => Sys2Proof.Machine.execXmatchMembers k d s
  | .movi k d hi6 mid2 lo24 => Sys2Proof.Machine.execMovi k d hi6 mid2 lo24 s
  | .fadd k m d a b => Sys2Proof.Machine.execFadd k m d a b s
  | .fsub k m d a b => Sys2Proof.Machine.execFsub k m d a b s
  | .fmul k m d a b => Sys2Proof.Machine.execFmul k m d a b s
  | .ffma k np nc rnd d a b c => Sys2Proof.Machine.execFfma k np nc rnd d a b c s
  | .fmin k m d a b => Sys2Proof.Machine.execFmin k m d a b s
  | .fmax k m d a b => Sys2Proof.Machine.execFmax k m d a b s
  | .fabs k d a => Sys2Proof.Machine.execFabs k d a s
  | .fneg k d a => Sys2Proof.Machine.execFneg k d a s
  | .fcmpEq k comb pd a b => Sys2Proof.Machine.execFcmpEq k comb pd a b s
  | .fcmpLt k comb pd a b => Sys2Proof.Machine.execFcmpLt k comb pd a b s
  | .fcmpLe k comb pd a b => Sys2Proof.Machine.execFcmpLe k comb pd a b s
  | .fcmpNe k comb pd a b => Sys2Proof.Machine.execFcmpNe k comb pd a b s
  | .fclass k khi comb pd a klo => Sys2Proof.Machine.execFclass k khi comb pd a klo s
  | .frint k m d a => Sys2Proof.Machine.execFrint k m d a s
  | .fsatUnit k d a => Sys2Proof.Machine.execFsatUnit k d a s
  | .fsatSym k d a => Sys2Proof.Machine.execFsatSym k d a s
  | .expins k m d a b => Sys2Proof.Machine.execExpins k m d a b s
  | .expextExp k d a => Sys2Proof.Machine.execExpextExp k d a s
  | .expextSig k d a => Sys2Proof.Machine.execExpextSig k d a s
  | .fexp k d a => Sys2Proof.Machine.execFexp k d a s
  | .flog k d a => Sys2Proof.Machine.execFlog k d a s
  | .frcp k d a => Sys2Proof.Machine.execFrcp k d a s
  | .frsq k d a => Sys2Proof.Machine.execFrsq k d a s
  | .fsqrt k m d a => Sys2Proof.Machine.execFsqrt k m d a s
  | .fsin k d a => Sys2Proof.Machine.execFsin k d a s
  | .fcos k d a => Sys2Proof.Machine.execFcos k d a s
  | .hadd2 k m d a b => Sys2Proof.Machine.execHadd2 k m d a b s
  | .hsub2 k m d a b => Sys2Proof.Machine.execHsub2 k m d a b s
  | .hmul2 k m d a b => Sys2Proof.Machine.execHmul2 k m d a b s
  | .hfma2 k m rnd d a b c => Sys2Proof.Machine.execHfma2 k m rnd d a b c s
  | .hmin2 k m d a b => Sys2Proof.Machine.execHmin2 k m d a b s
  | .hmax2 k m d a b => Sys2Proof.Machine.execHmax2 k m d a b s
  | .hcmp2 k cc comb pk ty a b => Sys2Proof.Machine.execHcmp2 k cc comb pk ty a b s
  | .cvt k d a rnd sat delem selem dst src => Sys2Proof.Machine.execCvt k d a rnd sat delem selem dst src s
  | .pack2 k d a b rnd sat ty => Sys2Proof.Machine.execPack2 k d a b rnd sat ty s
  | .unpack2 k m d a => Sys2Proof.Machine.execUnpack2 k m d a s
  | .cvt4x8Pack k d a rnd sat ty => Sys2Proof.Machine.execCvt4x8Pack k d a rnd sat ty s
  | .cvt4x8Unpack k d a ty => Sys2Proof.Machine.execCvt4x8Unpack k d a ty s
  | .dp4 k sa sb d a b c sat => Sys2Proof.Machine.execDp4 k sa sb d a b c sat s
  | .fdot2 k m rnd d a b c => Sys2Proof.Machine.execFdot2 k m rnd d a b c s
  | .ldN8 k d a imm => Sys2Proof.Machine.execLdN8 k d a imm s
  | .ldI8 k d a imm => Sys2Proof.Machine.execLdI8 k d a imm s
  | .ldN16 k d a imm => Sys2Proof.Machine.execLdN16 k d a imm s
  | .ldI16 k d a imm => Sys2Proof.Machine.execLdI16 k d a imm s
  | .ldN32 k d a imm => Sys2Proof.Machine.execLdN32 k d a imm s
  | .ldN64 k d a imm => Sys2Proof.Machine.execLdN64 k d a imm s
  | .ldN128 k d a imm => Sys2Proof.Machine.execLdN128 k d a imm s
  | .ldw k m d a b ty disp => Sys2Proof.Machine.execLdw k m d a b ty disp s
  | .stN8 k d a imm => Sys2Proof.Machine.execStN8 k d a imm s
  | .stN16 k d a imm => Sys2Proof.Machine.execStN16 k d a imm s
  | .stN32 k d a imm => Sys2Proof.Machine.execStN32 k d a imm s
  | .stN64 k d a imm => Sys2Proof.Machine.execStN64 k d a imm s
  | .stN128 k d a imm => Sys2Proof.Machine.execStN128 k d a imm s
  | .stw k m d a b ty disp => Sys2Proof.Machine.execStw k m d a b ty disp s
  | .ldline k d a imm => Sys2Proof.Machine.execLdline k d a imm s
  | .stline k d a imm => Sys2Proof.Machine.execStline k d a imm s
  | .ldsc k d a imm => Sys2Proof.Machine.execLdsc k d a imm s
  | .stsc k d a imm => Sys2Proof.Machine.execStsc k d a imm s
  | .atom k noret d a b c op wide scope order => Sys2Proof.Machine.execAtom k noret d a b c op wide scope order s
  | .stna k m d a disp pd => Sys2Proof.Machine.execStna k m d a disp pd s
  | .lds k sz d a pd => Sys2Proof.Machine.execLds k sz d a pd s
  | .unsl k a => Sys2Proof.Machine.execUnsl k a s
  | .enumpgNext k d a b => Sys2Proof.Machine.execEnumpgNext k d a b s
  | .enumpgMap k a b c words => Sys2Proof.Machine.execEnumpgMap k a b c words s
  | .pgq k d a => Sys2Proof.Machine.execPgq k d a s
  | .append k d a b c => Sys2Proof.Machine.execAppend k d a b c s
  | .sealRegion k a => Sys2Proof.Machine.execSealRegion k a s
  | .freeRegion k a => Sys2Proof.Machine.execFreeRegion k a s
  | .tlook k d a => Sys2Proof.Machine.execTlook k d a s
  | .tset k d a b => Sys2Proof.Machine.execTset k d a b s
  | .tclr k a => Sys2Proof.Machine.execTclr k a s
  | .tclrAll k => Sys2Proof.Machine.execTclrAll k s
  | .bufdecl k d a b rot cmp => Sys2Proof.Machine.execBufdecl k d a b rot cmp s
  | .bufdeclRel k a => Sys2Proof.Machine.execBufdeclRel k a s
  | .bufmarkFill k a => Sys2Proof.Machine.execBufmarkFill k a s
  | .bufmarkFull k a => Sys2Proof.Machine.execBufmarkFull k a s
  | .bufmarkEmpty k a => Sys2Proof.Machine.execBufmarkEmpty k a s
  | .bufq k d a => Sys2Proof.Machine.execBufq k d a s
  | .fence k order scope => Sys2Proof.Machine.execFence k order scope s
  | .wld k m a sel fmt => Sys2Proof.Machine.execWld k m a sel fmt s
  | .wldpr k a fmt => Sys2Proof.Machine.execWldpr k a fmt s
  | .mma k m t a z src sel fmt => Sys2Proof.Machine.execMma k m t a z src sel fmt s
  | .mmapr k t a z src fmt => Sys2Proof.Machine.execMmapr k t a z src fmt s
  | .accz k m t => Sys2Proof.Machine.execAccz k m t s
  | .accld k t a => Sys2Proof.Machine.execAccld k t a s
  | .accst k t a => Sys2Proof.Machine.execAccst k t a s
  | .acccvt k t a rnd isI wt sat tgt => Sys2Proof.Machine.execAcccvt k t a rnd isI wt sat tgt s
  | .accmovGet k t a b => Sys2Proof.Machine.execAccmovGet k t a b s
  | .accmovPut k t a b => Sys2Proof.Machine.execAccmovPut k t a b s
  | .accadd k m t ss isI => Sys2Proof.Machine.execAccadd k m t ss isI s
  | .acctr k t ss => Sys2Proof.Machine.execAcctr k t ss s
  | .mstatStat k a => Sys2Proof.Machine.execMstatStat k a s
  | .mstatBind k a => Sys2Proof.Machine.execMstatBind k a s
  | .mstatTheta k a => Sys2Proof.Machine.execMstatTheta k a s
  | .pgsel k m a b c scores kn => Sys2Proof.Machine.execPgsel k m a b c scores kn s
  | .qappend k d a b pd => Sys2Proof.Machine.execQappend k d a b pd s
  | .copy k d a ch => Sys2Proof.Machine.execCopy k d a ch s
  | .copym k d a ch => Sys2Proof.Machine.execCopym k d a ch s
  | .xform k d a ch => Sys2Proof.Machine.execXform k d a ch s
  | .relslot k a b => Sys2Proof.Machine.execRelslot k a b s
  | .wptr k d a => Sys2Proof.Machine.execWptr k d a s
  | .tlrdQ k d a => Sys2Proof.Machine.execTlrdQ k d a s
  | .tlrdCh k d a => Sys2Proof.Machine.execTlrdCh k d a s
  | .tlrdDch k d a => Sys2Proof.Machine.execTlrdDch k d a s
  | .chq k d a => Sys2Proof.Machine.execChq k d a s
  | .bra k off => Sys2Proof.Machine.execBra k off s
  | .call k off => Sys2Proof.Machine.execCall k off s
  | .ret k => Sys2Proof.Machine.execRet k s
  | .brx k a => Sys2Proof.Machine.execBrx k a s
  | .callx k a => Sys2Proof.Machine.execCallx k a s
  | .exit k => Sys2Proof.Machine.execExit k s
  | .spadj k imm => Sys2Proof.Machine.execSpadj k imm s
  | .nop k => Sys2Proof.Machine.execNop k s
  | .jset k j => Sys2Proof.Machine.execJset k j s
  | .jwait k j => Sys2Proof.Machine.execJwait k j s
  | .tbar k => Sys2Proof.Machine.execTbar k s
  | .pbar k => Sys2Proof.Machine.execPbar k s
  | .mwaitSlot k a b => Sys2Proof.Machine.execMwaitSlot k a b s
  | .mwaitGe k a b => Sys2Proof.Machine.execMwaitGe k a b s
  | .mwaitNe k a b => Sys2Proof.Machine.execMwaitNe k a b s
  | .waittlQ k a b => Sys2Proof.Machine.execWaittlQ k a b s
  | .waittlCh k a b => Sys2Proof.Machine.execWaittlCh k a b s
  | .waittlDch k a b => Sys2Proof.Machine.execWaittlDch k a b s
  | .yield => Sys2Proof.Machine.execYield s
  | .guard ng pd => Sys2Proof.Machine.execGuard ng pd s
  | .icsync k => Sys2Proof.Machine.execIcsync k s
  | .sread k d sr => Sys2Proof.Machine.execSread k d sr s
  | .swrite k sr a => Sys2Proof.Machine.execSwrite k sr a s
  | .trap k code => Sys2Proof.Machine.execTrap k code s
  | .brk k code => Sys2Proof.Machine.execBrk k code s
  | .tretRetry k => Sys2Proof.Machine.execTretRetry k s
  | .tretSkip k => Sys2Proof.Machine.execTretSkip k s
  | .icinv k a b => Sys2Proof.Machine.execIcinv k a b s
  | .evrd k d a => Sys2Proof.Machine.execEvrd k d a s
  | .dcinv k a b => Sys2Proof.Machine.execDcinv k a b s
  | .dcflush k a b => Sys2Proof.Machine.execDcflush k a b s
  | .groupForm quad => Sys2Proof.Machine.execGroupForm quad s
  | .fairnessDemotion quad => Sys2Proof.Machine.execFairnessDemotion quad s
  | .subGroupResume sid => Sys2Proof.Machine.execSubGroupResume sid s
  | .variableOpComplete op => Sys2Proof.Machine.execVariableOpComplete op s
  | .mwaitPeriodicCheck team thread => Sys2Proof.Machine.execMwaitPeriodicCheck team thread s
  | .teamPull core => Sys2Proof.Machine.execTeamPull core s
  | .teamStart core => Sys2Proof.Machine.execTeamStart core s
  | .teamEnd team => Sys2Proof.Machine.execTeamEnd team s
  | .homeRead op => Sys2Proof.Machine.execHomeRead op s
  | .homeWrite w => Sys2Proof.Machine.execHomeWrite w s
  | .snapshotCopyDone launch page => Sys2Proof.Machine.execSnapshotCopyDone launch page s
  | .atomPerform op => Sys2Proof.Machine.execAtomPerform op s
  | .appendClaim op => Sys2Proof.Machine.execAppendClaim op s
  | .tailAdvance r => Sys2Proof.Machine.execTailAdvance r s
  | .sealReached r => Sys2Proof.Machine.execSealReached r s
  | .freeDone r => Sys2Proof.Machine.execFreeDone r s
  | .replicaDrop die page => Sys2Proof.Machine.execReplicaDrop die page s
  | .pushLand push => Sys2Proof.Machine.execPushLand push s
  | .unslDone op => Sys2Proof.Machine.execUnslDone op s
  | .bufferTransition gid => Sys2Proof.Machine.execBufferTransition gid s
  | .l1CleanTimeout core line => Sys2Proof.Machine.execL1CleanTimeout core line s
  | .l1DirtyWriteback core line => Sys2Proof.Machine.execL1DirtyWriteback core line s
  | .watermarkReport origin home => Sys2Proof.Machine.execWatermarkReport origin home s
  | .matrixRetire op => Sys2Proof.Machine.execMatrixRetire op s
  | .selfTest core sub fails => Sys2Proof.Machine.execSelfTest core sub fails s
  | .qctlWrite q v => Sys2Proof.Machine.execQctlWrite q v s
  | .packetTake q => Sys2Proof.Machine.execPacketTake q s
  | .launch q => Sys2Proof.Machine.execLaunch q s
  | .copyPacket q => Sys2Proof.Machine.execCopyPacket q s
  | .copymPacket q => Sys2Proof.Machine.execCopymPacket q s
  | .xformPacket q => Sys2Proof.Machine.execXformPacket q s
  | .table q => Sys2Proof.Machine.execTable q s
  | .signal q => Sys2Proof.Machine.execSignal q s
  | .waitPacket q => Sys2Proof.Machine.execWaitPacket q s
  | .waitPacketDone q => Sys2Proof.Machine.execWaitPacketDone q s
  | .sealPacket q => Sys2Proof.Machine.execSealPacket q s
  | .migrate q => Sys2Proof.Machine.execMigrate q s
  | .migrationCopyDone q => Sys2Proof.Machine.execMigrationCopyDone q s
  | .packetComplete q seq => Sys2Proof.Machine.execPacketComplete q seq s
  | .channelOpComplete ch => Sys2Proof.Machine.execChannelOpComplete ch s
  | .outriderFault ch => Sys2Proof.Machine.execOutriderFault ch s
  | .transducerJobEnd lane => Sys2Proof.Machine.execTransducerJobEnd lane s
  | .tableFillDone lane => Sys2Proof.Machine.execTableFillDone lane s
  | .preemptCheck launch => Sys2Proof.Machine.execPreemptCheck launch s
  | .tinvCommand tenant v => Sys2Proof.Machine.execTinvCommand tenant v s
  | .regionLoad tenant v => Sys2Proof.Machine.execRegionLoad tenant v s
  | .regionRemove tenant v => Sys2Proof.Machine.execRegionRemove tenant v s
  | .watchdogSpin quad => Sys2Proof.Machine.execWatchdogSpin quad s
  | .watchdogWait team hg => Sys2Proof.Machine.execWatchdogWait team hg s
  | .watchdogHandler gid => Sys2Proof.Machine.execWatchdogHandler gid s
  | .level2CountDecay cluster => Sys2Proof.Machine.execLevel2CountDecay cluster s
  | .level3CountDecay cp => Sys2Proof.Machine.execLevel3CountDecay cp s
  | .schedulingLoopStall cp => Sys2Proof.Machine.execSchedulingLoopStall cp s
  | .groomSweep unit code => Sys2Proof.Machine.execGroomSweep unit code s
  | .trapEntry sid => Sys2Proof.Machine.execTrapEntry sid s
  | .faultRecordRetry tenant => Sys2Proof.Machine.execFaultRecordRetry tenant s
  | .fcctlWrite tenant v => Sys2Proof.Machine.execFcctlWrite tenant v s
  | .frespRetry tenant seq => Sys2Proof.Machine.execFrespRetry tenant seq s
  | .frespSkip tenant seq => Sys2Proof.Machine.execFrespSkip tenant seq s
  | .frespAbort tenant seq => Sys2Proof.Machine.execFrespAbort tenant seq s
  | .launchRollback launch cls => Sys2Proof.Machine.execLaunchRollback launch cls s
  | .signatureCompare launch team => Sys2Proof.Machine.execSignatureCompare launch team s
  | .halt tenant => Sys2Proof.Machine.execHalt tenant s
  | .resume tenant => Sys2Proof.Machine.execResume tenant s
  | .attach tenant => Sys2Proof.Machine.execAttach tenant s
  | .detach tenant => Sys2Proof.Machine.execDetach tenant s
  | .saveHaltedTeam tenant => Sys2Proof.Machine.execSaveHaltedTeam tenant s
  | .haltReached tenant => Sys2Proof.Machine.execHaltReached tenant s
  | .contextSave team => Sys2Proof.Machine.execContextSave team s
  | .contextRestore team core => Sys2Proof.Machine.execContextRestore team core s
  | .ctxbaseWrite tenant v => Sys2Proof.Machine.execCtxbaseWrite tenant v s
  | .winbaseWrite tenant w v => Sys2Proof.Machine.execWinbaseWrite tenant w v s
  | .poolAdd tenant p v => Sys2Proof.Machine.execPoolAdd tenant p v s
  | .treset tenant => Sys2Proof.Machine.execTreset tenant s
  | .arBump v => Sys2Proof.Machine.execArBump v s
  | .loadRequest r => Sys2Proof.Machine.execLoadRequest r s
  | .hostCxlMemAccess a => Sys2Proof.Machine.execHostCxlMemAccess a s
  | .peerRouteTimeout sid => Sys2Proof.Machine.execPeerRouteTimeout sid s
  | .governorUpdate die tj power => Sys2Proof.Machine.execGovernorUpdate die tj power s
  | .thermalThrottle die => Sys2Proof.Machine.execThermalThrottle die s
  | .thermalTrip => Sys2Proof.Machine.execThermalTrip s
  | .boot => Sys2Proof.Machine.execBoot s
  | .registerWrite r v => Sys2Proof.Machine.execRegisterWrite r v s
  | .stallEvent quad => Sys2Proof.Machine.execStallEvent quad s
  | .peerAccess peer a => Sys2Proof.Machine.execPeerAccess peer a s
  | .cxlCacheSnoop addr inv => Sys2Proof.Machine.execCxlCacheSnoop addr inv s
  | .supplyDroop die flagged => Sys2Proof.Machine.execSupplyDroop die flagged s
  | .powerLoss => Sys2Proof.Machine.execPowerLoss s

end Sys2Proof.Machine
end

