-- ==== Sys2Proof/Machine/Sched.lean ====
section
/-! DEFINITION. What happens next: the issue of a group's next word with its checks (R53 to R59, R70, R71) and the accounts of each issue cycle (R16, R17, R33 to R35, R404, R407, R410), the order in which the model takes the machine's other moves (DESIGN CHOICE, log entry 16), and soft errors (R241). -/
namespace Sys2Proof.Machine

/-! ### Issue cycles -/

/-- The issue halves of a word that hold a member, each taking a cycle (R13, R16). -/
def Ctx.halves (c : Ctx) : List (List Thread) :=
  if c.l.w = 64 then [c.members.filter fun h => decide (c.lane h < 32), c.members.filter fun h => decide (32 ≤ c.lane h)].filter fun m => !m.isEmpty
  else [c.members]

/-- The issue cycles of a word: the active lanes and the gated columns of each (R16, R17, R124); in each of two cycles a column is gated where its member of that half is none, whatever the other half holds (DESIGN CHOICE, log entry 62). -/
def Ctx.cycleCounts (c : Ctx) (w : Nat) : List (Nat × Nat) :=
  c.halves.map fun m => ((m.filter fun h => h.guard || !bitAt w 29).length, 32 - ((m.map fun h => c.l.column h.idx).eraseDups).length)

/-- The holder, the fairness timer and the spin count over an issue cycle (R33, R404). -/
def Quad.account (promise rival : Bool) (me : TeamId × List Nat) (q : Quad) : Quad :=
  { q with
    holder := some me
    fair := if promise && q.holder == some me then q.fair + bit rival else 0
    prev := some me
    spin := if q.prev == some me then q.spin + bit rival else 0 }

/-- The eligible groups beside the one that issues, which is known by its members (R33, R407). -/
def State.others (s : State) (quad : Nat) (me : TeamId × List Nat) : List Grp :=
  (s.eligibles quad).filter fun x => !(x.team == me.1 && x.members.all me.2.contains)

/-- One issue cycle of a group: time, the timers of its quadrant and the counts (R16, R17, R33, R404, R407, R410). -/
def State.issueCycle (s : State) (quad : Nat) (me : TeamId × List Nat) (n : Nat × Nat) : State :=
  let xs := s.others quad me
  let s := (s.spendQuad quad).updQuad quad (Quad.account (s.launch me.1.launch).promise (xs.any fun x => x.team == me.1) me)
  let s := (((s.count quad 0x00 1).count quad 0x02 n.1).count quad 0x03 n.2).count quad (histogramEvent (xs.length + 1)) 1
  s.updCore (coreOfQuad quad) fun k => { k with gated := k.gated + BitVec.ofNat 32 n.2 }

/-- A further issue cycle of the word that a quadrant issued last (R16). -/
def State.restCycle (s : State) (quad : Nat) (n : Nat × Nat) (r : List (Nat × Nat)) : State :=
  let s := s.updQuad quad fun q => { q with rest := r }
  match (s.quad quad).prev with
  | some me => s.issueCycle quad me n
  | none => s.spendQuad quad

/-! ### Issue of a word -/

/-- Words of a clause that came from the loop buffer (R60). -/
def State.bufferedWords (s : State) (g : Grp) (n : Nat) : Nat :=
  let l := s.launch g.team.launch
  match (s.quad g.quad).loop with
  | some b => if b.holds l.tenant l.asid g.pc then ((List.range n).filter fun i => b.holds l.tenant l.asid (g.pc + 4 * i)).length else 0
  | none => 0

/-- A clause begins to issue: its words, its header and its name; each member's guard is sampled, but for one that carries its own; its flag is set (R57, R59, R63, R161). -/
def State.openClause (s : State) (gid header : Nat) : State :=
  let g := s.grp gid
  let s := s.updThreads g.team g.members (s.sampled g header)
  if g.clause ≠ 0 then s
  else
    let words := (s.look g).words
    let s := if g.words.isEmpty then s.count g.quad 0x1D (s.bufferedWords g words.length) else s
    let s := s.updGrp gid fun g => { g with clause := s.nextId, header := header, words := words }
    let s := { s with nextId := s.nextId + 1 }
    if setFlag header < 12 then
      s.updGrp gid fun g => { g with flags := setBit12 g.flags (setFlag header), flagCls := Store.set 0 g.flagCls (setFlag header) (bitsOf header 4 3) }
    else s

/-- Demotion bits at an issue: those of the team's other groups on the quadrant clear, pending ones of the team with them (R34); Y sets the issuing group's at its clause's first word (R35). -/
def State.demotions (s : State) (g : Grp) (y : Bool) : State :=
  let s := { s with groups := s.groups.map fun (x : Grp) =>
    if x.gid = g.gid then { x with demoted := x.demoted || y } else if x.team = g.team && x.quad = g.quad then { x with demoted := false } else x }
  let s := s.updQuad g.quad fun q => { q with demote := q.demote.filter fun e => e.1 != g.team }
  if y then s.count g.quad 0x06 1 else s

/-- An instruction's first word issues: its first cycle passes, and what remains of the word's cycles is left to the quadrant. -/
def State.beginIssue (s : State) (gid w : Nat) (first : Bool) : State :=
  let c := s.ctx gid
  let ns := c.cycleCounts w
  let s := s.issueCycle c.quad (c.g.team, c.g.members) (ns.headD (0, 0))
  let s := s.updQuad c.quad fun q => { q with mid := some gid, rest := ns.drop 1 }
  let s := ((s.updGrp gid fun g => { g with held := 0 }).demotions c.g (first && bitAt c.g.header 30)).count c.quad 0x01 1
  { s with current := some gid, freeCtr := s.freeCtr + 1 }

/-- A word has been held, or has parked its whole group: the rest of it does not issue. -/
def State.stayed (t : State) (gid : Nat) : Bool := decide ((t.grp gid).held ≠ 0) || (t.grp gid).park.isSome

/-- The second word of a long instruction takes its issue cycles too (R16). -/
def State.longRest (s t : State) (gid w : Nat) : State :=
  let c := s.ctx gid
  if isLong w && !t.stayed gid then t.updQuad c.quad fun q => { q with rest := q.rest ++ c.cycleCounts w } else t

/-- After a word at which its group was held, results that have not landed read old or new (R65). -/
def State.afterWord (t : State) (gid : Nat) : State := if (t.grp gid).held ≠ 0 then t.renameClause gid else t

/-- What follows every step: a captured loop that no group is in ends, and no word is being issued. -/
def State.settle (s : State) : State := { s.loopSweep with current := none }

/-- The state in which a group's next word acts. -/
def State.prepared (s : State) (gid : Nat) (n : Next) : State :=
  let g := s.grp gid
  (s.openClause gid n.header).beginIssue gid n.w (g.clause == 0 && g.word == 0)

/-- An outcome with its next state changed. -/
def mapOut (f : State → State) : Out → Out
  | .next t => .next (f t)
  | .fault e => .fault e
  | .refused r => .refused r

/-- The detail of a fault of a fetch: an uncorrectable error in a line of the instruction cache is one of core state (R418). -/
def State.fetchDetail (s : State) (g : Grp) (cls va : Nat) : Nat :=
  let l := s.launch g.team.launch
  if cls ≠ clsEcc then 0 else if Store.get false (s.core (coreOfQuad g.quad)).badIc (icKey l.tenant l.asid va) then 2 else 1

/-- A group parks before its clause's words issue, under a header. -/
def State.parkUnissued (s : State) (gid header : Nat) (p : Park) : State := (s.updGrp gid fun g => { g with header := header }).parkWhole gid p

/-- Members whose registers carry an uncorrectable error part from the group at its next word (R241, R444; DESIGN CHOICE, log entry 57). -/
def State.partBad (s : State) (gid len : Nat) : State :=
  let g := s.grp gid
  s.parkLanes gid (g.members.filter fun i => (s.thread g.team i).bad) { cls := clsEcc, detail := 2, addr := 0, len := len }

/-- A fetch from a peer that no route reaches waits before it faults (R459). -/
def State.fetchRoute (s : State) (g : Grp) (c va : Nat) : Option Nat :=
  let l := s.launch g.team.launch
  match s.translate (s.core (coreOfQuad g.quad)).tlb l.tenant l.asid va with
  | .ok tr => if c = clsEcc ∧ s.noPeer tr.key then some (s.hub + 2 ^ 20) else none
  | .error _ => none

/-- A group issues its next word, or parks for the fault of its fetch, its header or its place. -/
def State.issueGroup (s : State) (gid : Nat) : Out :=
  let g := s.grp gid
  match s.nextWord g with
  | .error (c, a) => .next (s.parkUnissued gid ((s.look g).words.headD 0) { cls := c, detail := s.fetchDetail g c a, addr := a, route := s.fetchRoute g c a })
  | .ok none => .next s
  | .ok (some n) =>
    if !headerOk n.header then .next (s.parkUnissued gid n.header { cls := clsEnc, detail := 0, addr := canonOf g.pc })
    else
      let len := if isLong n.w then 2 else 1
      let t := s.prepared gid n
      match wordOf n.header g.word n.w n.w2 with
      | .error c => .next (t.parkWhole gid { cls := c, detail := 0, addr := 0, len := len })
      | .ok i =>
        let t := t.partBad gid len
        if t.running gid then mapOut (fun r => (t.longRest r gid n.w).afterWord gid) (exec i t) else .next t

/-! ### The machine's other moves -/

/-- The state that an event makes, if it changes anything. -/
def State.moved (s : State) (o : Out) : Option State :=
  match o with
  | .next t => if t = s then none else some t
  | .fault _ => none
  | .refused _ => none

/-- The first of some events that changes anything. -/
def State.firstMove (s : State) (l : List (State → Out)) : Option State := l.findSome? fun f => s.moved (f s)

/-- An event tried where a condition holds. -/
def onlyIf (b : Bool) (f : State → Out) (s : State) : Out := if b then f s else .next s

/-- What an outstanding operation does next. -/
def State.opMove (s : State) (o : Op) : Option State :=
  s.firstMove [onlyIf (s.opDone o || s.canReceive o) (execVariableOpComplete o.id), fun s => match o.kind with
    | .atom _ _ _ _ _ _ => execAtomPerform o.id s
    | .qappend => execAtomPerform o.id s
    | .append => execAppendClaim o.id s
    | .unsl => execUnslDone o.id s
    | .matrix _ => execMatrixRetire o.id s
    | _ => execHomeRead o.id s]

/-- A write that a home applies, or the COPY entry that one waits for and asks a system channel for (R396). -/
def State.writeMove (s : State) (w : Write) : Option State :=
  if s.canApply w then s.moved (execHomeWrite w.id s)
  else if s.needsCopy w then (w.launch.bind s.findLaunch).bind fun l => s.moved (.next (s.snapStart l w.key w.psize))
  else none

/-- What a system channel does next (R353). -/
def State.sysMove (s : State) (o : SysOp) : Option State :=
  s.firstMove [onlyIf (s.sysHead o.die o.chan == some o) (execChannelOpComplete (.system o.die o.chan)), fun s => match o.job with
    | .snapshot l page => execSnapshotCopyDone l page s
    | _ => .next s]

/-- A report that raises a watermark (R314). -/
def State.reportMove (s : State) : Option State :=
  (List.range 25).findSome? fun k => if s.arrived (k / 5) (k % 5) < s.reportValue (k % 5) (k / 5) then s.moved (execWatermarkReport (k % 5) (k / 5) s) else none

/-- What a region's home does next. -/
def State.regionMove (s : State) (r : Region) : Option State :=
  if r.cls ≠ 2 then none
  else if s.tailDue r then s.moved (execTailAdvance r.id s)
  else if s.sealDue r then s.moved (execSealReached r.id s)
  else if s.freeDue r then s.moved (execFreeDone r.id s)
  else if r.st = 3 then s.dies.findSome? fun d => d.2.replicas.findSome? fun p =>
    if regionKey r.id.tenant r.id.asid r.base ≤ p.1 && p.1 < regionKey r.id.tenant r.id.asid r.base + r.len then s.moved (execReplicaDrop d.1 p.1 s) else none
  else none

/-- A group that issues, and whose next clause may be fetched. -/
def State.fetches (s : State) (g : Grp) : Bool := g.park.isNone && !g.regroup && !(s.team g.team).saved.isSome && !s.launchStopped g.team.launch

/-- A line of the next clause of a group comes into its core's instruction cache (R163). -/
def State.fetchMove (s : State) (g : Grp) : Option State :=
  let l := s.launch g.team.launch
  if s.fetches g then (s.look g).missing.bind fun va => s.moved (.next (s.fillCode (coreOfQuad g.quad) l.tenant l.asid va)) else none

/-- Some members of a group part from it as a group of their own, with a copy of its flags (R39). -/
def State.partGroup (s : State) (gid : Nat) (is : List Nat) : State :=
  let g := s.grp gid
  let n := s.nextId
  let s := s.updGrp gid fun g => { g with members := g.members.filter fun i => !is.contains i }
  let s := { s with
    nextId := n + 1
    groups := s.groups ++ [{ g with gid := n, members := is, demoted := false }]
    ops := s.ops.map fun (o : Op) => if o.gids.contains gid then { o with gids := o.gids ++ [n] } else o }
  s.updThreads g.team is fun h => { h with st := .issuing n }

/-- Halted members of a group, where others go on: they stop at its clause boundary as a group of their own (R433, R434; DESIGN CHOICE, log entry 58). -/
def State.haltedPart (s : State) (g : Grp) : List Nat :=
  let is := g.members.filter fun i => let h := s.thread g.team i; h.halted || h.haltedInHandler
  if g.stopsHalted && !g.regroup && is.length < g.members.length then is else []

/-- Members of a group whose team is being saved that do not wait for the migration at which others of them stand, and the operation they stand at (R400). -/
def State.moveOthers (s : State) (g : Grp) : Option (Op × List Nat) :=
  if (s.team g.team).saving then
    (findBy (fun o : Op => o.gids.contains g.gid && s.waitsMove o && o.all.isEmpty) s.ops).bind fun o =>
      let is := g.members.filter fun i => !o.accs.any fun a => a.thread == i && !a.done
      if is.isEmpty then none else some (o, is)
  else none

/-- They part from the group with their own part of the operation, which is done, and go on to the end of their clause. -/
def State.leaveStalled (s : State) (g : Grp) (o : Op) (is : List Nat) : State :=
  let n := s.nextId
  let s := s.partGroup g.gid is
  let s := s.updOp o.id fun o => { o with gids := o.gids.filter (· != n), accs := o.accs.filter fun a => !is.contains a.thread }
  s.addOp { o with gids := [n], accs := o.accs.filter fun a => is.contains a.thread }

/-- What a group or sub-group does without issuing: a held bufmark, a sub-group's resumption, trap or missing route, an expiry in a handler, halted members that part, a marked word reached with no flag set (R18, R19). -/
def State.groupMove (s : State) (g : Grp) : Option State :=
  match g.park with
  | some p =>
    if s.handlerDue g then s.moved (execWatchdogHandler g.gid s)
    else if p.route.isSome then s.moved (execPeerRouteTimeout g.gid s)
    else if p.toTrap then s.moved (execTrapEntry g.gid s)
    else if p.answer ≠ 0 then s.moved (execSubGroupResume g.gid s)
    else none
  | none =>
    if s.handlerDue g then s.moved (execWatchdogHandler g.gid s)
    else if (s.moveOthers g).isSome then (s.moveOthers g).map fun x => s.leaveStalled g x.1 x.2
    else if g.held = 10 then s.moved (execBufferTransition g.gid s)
    else if !(s.haltedPart g).isEmpty then some (s.partGroup g.gid (s.haltedPart g))
    else if g.regroup || s.launchStopped g.team.launch || s.haltedHere g || s.awaitsVerdict g.gid then none
    else match s.nextWord g with
      | .ok (some n) =>
        if atMarker g n && !s.regroupHeld g then
          some ((s.updQuad g.quad fun q => if q.mid = some g.gid then { q with mid := none } else q).dissolve g.gid (g.members.map fun i => (i, g.pc, g.word)))
        else none
      | _ => none

/-- What a channel does next: its outrider is looked at first (R352). -/
def State.chanMove (s : State) (e : ChanId × Chan) : Option State :=
  if e.2.ops.isEmpty then none else s.firstMove [execOutriderFault e.1, execChannelOpComplete e.1]

/-- The start of a packet by its type. -/
def startPacket (q type : Nat) (s : State) : Out :=
  match type with
  | 1 => execLaunch q s
  | 2 => execCopyPacket q s
  | 3 => execCopymPacket q s
  | 4 => execXformPacket q s
  | 5 => execTable q s
  | 6 => execSignal q s
  | 7 => execWaitPacket q s
  | 8 => execSealPacket q s
  | 9 => execMigrate q s
  | _ => .next s

/-- What a queue does next. -/
def State.queueMove (s : State) (e : Nat × Queue) : Option State :=
  match e.2.pkts.findSome? fun p => s.moved (execPacketComplete e.1 p.seq s) with
  | some t => some t
  | none => s.firstMove
    [onlyIf e.2.blocker.isSome (execWaitPacketDone e.1),
     fun s => match e.2.mover with
      | some p => .next (s.moveStart e.1 e.2 p)
      | none => .next s,
     onlyIf e.2.mover.isSome (execMigrationCopyDone e.1),
     fun s => match e.2.startable with
      | some p => startPacket e.1 p.type s
      | none => .next s,
     onlyIf e.2.enabled (execPacketTake e.1)]

/-- A team's move: a comparison of copies, its save, its end, a wait that may end, a wait expiry. -/
def State.teamMove (s : State) (t : Team) : Option State :=
  let l := s.launch t.id.launch
  let compare := execSignatureCompare t.id.launch t.id.team
  if t.saved.isSome then none
  else if t.ended then s.firstMove [if l.redundant && !t.compared then compare else execTeamEnd t.id]
  else s.firstMove ([onlyIf t.saving (execContextSave t.id), onlyIf l.redundant compare] ++
    (t.threads.filterMap fun h => match h.st with
      | .waiting k _ => if k.isJoin then none else some (execMwaitPeriodicCheck t.id h.idx)
      | _ => none) ++
    (t.waitCount.filter fun w => s.waitDue t.id w.1).map fun w => execWatchdogWait t.id w.1)

/-- A core to which a saved team may return. -/
def State.returnCore (s : State) (t : Team) : Option Nat :=
  match t.saved with
  | none => none
  | some v =>
    let l := s.launch t.id.launch
    let late := decide (l.lastPreempt + 4096 ≤ s.hub)
    (coresOfDies l.dieMask).find? fun c => s.mayRestore l c &&
      (if s.imagePoisoned v then (l.replayable && !l.incomplete) || late
       else s.restoreFits l t v.addr c || (late && s.roomBeside s.holders l (t.homeLive l) c))

/-- The core for which the image of a saved team is being read. -/
def State.backCore (s : State) (id : TeamId) : Option Nat := s.sys.findSome? fun o => match o.job with
  | .back x core => if x = id then some core else none
  | _ => none

/-- A saved team's return (R438). -/
def State.returnMove (s : State) (t : Team) : Option State :=
  (match s.backCore t.id with
    | some c => some c
    | none => s.returnCore t).bind fun c => s.moved (execContextRestore t.id c s)

/-- A launch's move: a save for want of room, a team's start. -/
def State.launchMove (s : State) (l : Launch) : Option State :=
  if s.preemptDue l then s.moved (execPreemptCheck l.id s)
  else l.pulled.findSome? fun p => s.moved (execTeamStart p.1 s)

/-- A quadrant's expiries. -/
def State.quadMove (s : State) (q : Nat × Quad) : Option State :=
  s.firstMove [onlyIf (s.spinDue q.1 || q.2.expired.isSome) (execWatchdogSpin q.1), onlyIf (s.fairnessDue q.1) (execFairnessDemotion q.1)]

/-- A tenant's move: an invalidation that ends, a halt reached, a save asked for, held records written. -/
def State.tenantMove (s : State) (t : Nat × Tenant) : Option State :=
  s.firstMove [onlyIf (t.2.busy && !s.resetWaits t.1) (execTreset t.1), onlyIf t.2.tinvBusy (execTinvCommand t.1 0), onlyIf (bitAt t.2.dbgctl.toNat 31) (execSaveHaltedTeam t.1),
    onlyIf (decide (t.2.dbgsel ≠ 0)) (execHaltReached t.1), onlyIf (!t.2.recs.isEmpty) (execFaultRecordRetry t.1)]

/-- A counter whose sweep is due by its unit's clock (R411). -/
def State.sweepMove (s : State) : Option State :=
  s.evLive.findSome? fun e => if Store.get 0 s.evSwept e.1 + 2 ^ 22 ≤ (s.die (dieOfUnit (e.1 / 256))).clock then s.moved (execGroomSweep (e.1 / 256) (e.1 % 256) s) else none

/-- A clean line of some core whose time has come. -/
def State.agedLine (s : State) : Option (Nat × Nat) :=
  s.cores.findSome? fun c => c.2.l1.findSome? fun e => match e.2 with
    | some ln => if ln.at_ + Config.l1Bound ≤ (s.die (dieOfCore c.1)).clock then some (c.1, e.1) else none
    | none => none

/-- L1 lines at their bound (R318): a clean one is dropped, a dirty one goes home. -/
def State.l1Move (s : State) : Option State :=
  match s.agedLine with
  | some (c, line) => s.moved (execL1CleanTimeout c line s)
  | none => s.writes.findSome? fun w => match w.l1 with
    | some c => if w.since + Config.l1Bound ≤ (s.die (dieOfCore c)).clock then s.moved (execL1DirtyWriteback c w.line s) else none
    | none => none

/-- Quadrants on which a thread is LOOSE. -/
def State.looseQuads (s : State) : List Nat :=
  (s.teams.flatMap fun t => t.threads.filterMap fun h => match h.st with
    | .loose _ => some ((s.launch t.id.launch).quadOf t.core h.idx)
    | _ => none).eraseDups

/-- A list from its nth entry on, those before it last. -/
def turn {α : Type} (n : Nat) (l : List α) : List α := l.drop (n % l.length) ++ l.take (n % l.length)

/-- Moves that fall due and wait for nothing else: a page newly read through a leaf, a rollback under way, an L1 line at its bound. -/
def State.firstMoves : List (State → Option State) :=
  [ State.formMove,
    fun s => s.rollbacks.findSome? fun r => s.moved (execLaunchRollback r.1 r.2 s),
    State.l1Move ]

/-- Moves of what is under way at homes, on channels, in queues and in instruction caches, which may come in any order and some cycles on (R9), each kind from its nth on; where keep, lines that are dirty in an L1 stay there. -/
def State.farMoves (n : Nat) (keep : Bool) : List (State → Option State) :=
  [ fun s => (turn n s.writes).findSome? fun w => if keep && w.l1.isSome then none else s.writeMove w,
    State.reportMove,
    fun s => (turn n s.regions).findSome? s.regionMove,
    fun s => (turn n s.pushes).findSome? fun p => if s.pushReady p then s.moved (execPushLand p.pid s) else none,
    fun s => (turn n s.ops).findSome? s.opMove,
    fun s => (turn n s.groups).findSome? s.fetchMove,
    fun s => (turn n s.chans).findSome? s.chanMove,
    fun s => (turn n s.sys).findSome? s.sysMove,
    fun s => (turn n s.lanes).findSome? fun e => if e.2.fills.isEmpty then none else s.moved (execTableFillDone e.1 s),
    fun s => (turn n s.queues).findSome? s.queueMove ]

/-- Moves of groups, teams, launches and tenants, and expiries. -/
def State.lastMoves : List (State → Option State) :=
  [ fun s => s.groups.findSome? s.groupMove,
    fun s => s.teams.findSome? s.teamMove,
    fun s => s.launches.findSome? s.launchMove,
    fun s => s.teams.findSome? s.returnMove,
    fun s => (List.range 4).findSome? fun d => (s.nextPuller d).bind fun c => s.moved (execTeamPull c s),
    fun s => s.looseQuads.findSome? fun q => s.moved (execGroupForm q s),
    fun s => s.quads.findSome? s.quadMove,
    fun s => s.level2.findSome? fun e => s.moved (execLevel2CountDecay e.1 s),
    fun s => s.level3.findSome? fun e => s.moved (execLevel3CountDecay e.1 s),
    fun s => s.tenants.findSome? s.tenantMove,
    State.sweepMove ]

/-- The first move that changes anything, what is under way taken from the nth on. -/
def State.moveFrom (s : State) (n : Nat) (keep : Bool) : Option State := (State.firstMoves ++ turn n (State.farMoves n keep) ++ State.lastMoves).findSome? fun f => f s

/-- The move that is made with what is under way put off. -/
def State.nearMove (s : State) : Option State := (State.firstMoves ++ State.lastMoves).findSome? fun f => f s

/-! ### Soft errors (R241) -/

/-- An error strikes a memory: an uncorrectable one stays with what it struck until that is written, and a launch that may be replayed rolls back at once where it struck its registers, scratchpad or tiles (R444); a single-bit one in module memory is corrected when it is read, elsewhere as it strikes (DESIGN CHOICE, log entry 57). -/
def State.struck (s : State) : State :=
  let hurt := fun (s : State) (nth : Nat) (f : Team → Team) => match s.teams[nth]? with
    | some t =>
      let l := s.launch t.id.launch
      let s := s.updTeam t.id f
      if t.saved.isNone && l.replayable && !l.incomplete then { s.count (8192 + dieOfCore t.core) 0x88 1 with rollbacks := s.rollbacks ++ [(l.id, clsEcc)] } else s
    | none => s
  let corrected := fun (die : Nat) => s.count (8192 + die) 0x87 1
  let dieOfNth := fun (nth : Nat) => (s.teams[nth]?).elim 0 fun t => dieOfCore t.core
  match Config.strike s.freeCtr with
  | none => s
  | some (.memory k, bad) => if bad then { s with poison := Store.set false s.poison k true } else if Store.get false s.poison k then s else { s with flips := Store.set false s.flips k true }
  | some (.l1 core k, bad) => if !bad then corrected (dieOfCore core) else if (s.nearByte core k {} s.nextId).isSome then s.updCore core fun c => { c with badL1 := Store.set false c.badL1 k true } else s
  | some (.code core k, bad) => if bad then s.updCore core fun c => if (Store.get none c.ic k).isSome then { c with badIc := Store.set false c.badIc k true } else c else corrected (dieOfCore core)
  | some (.registers nth i, bad) => if bad then hurt s nth fun t => { t with threads := mapIf (fun h => h.idx == i) (fun h => { h with bad := true }) t.threads } else corrected (dieOfNth nth)
  | some (.scratchpad nth k, bad) => if bad then hurt s nth fun t => { t with badScratch := Store.set false t.badScratch k true } else corrected (dieOfNth nth)
  | some (.tiles nth k, bad) => if bad then hurt s nth fun t => { t with badTiles := Store.set false t.badTiles k true } else corrected (dieOfNth nth)
  | some (.mark nth g, bad) => if bad then hurt s nth fun t => { t with badScratch := (List.range 64).foldl (fun m i => Store.set false m (64 * g + i) true) t.badScratch } else corrected (dieOfNth nth)
  | some (.buffer nth i, bad) => if bad then hurt s nth fun t => match t.bufs[i]? with
      | some b => { t with badScratch := Store.set false t.badScratch (scratchKey (b.core - t.core) b.base) true }
      | none => t
    else corrected (dieOfNth nth)
  | some (.kept die, _) => if die < 4 then corrected die else s
  | some (.commands cp, bad) => if bad && decide (cp < 8) then s.resetCp cp else s

/-! ### What happens in the background as a cycle ends -/

/-- The sequencers test one sub-array of each die that has ended a cycle, in the last 768 of every 65,536 (R232; when within them is a DESIGN CHOICE, log entry 6). -/
def State.tested (old s : State) : State :=
  (List.range 4).foldl (fun t d =>
    let n := (t.die d).clock % 65536
    if (t.die d).clock = (old.die d).clock || n < 64768 then t
    else
      let i := n - 64768
      ({ t with freeCtr := t.freeCtr + 1 } : State).selfTest (192 * d + i / 4) (i % 4) (Config.testFails t.freeCtr % 3)) s

/-- The governor acts on each die in every microsecond, 1,000 cycles of the hub; a reset ends its turn (R464, R465). -/
def State.governs (old s : State) : State :=
  if s.hub = old.hub || s.hub % 1000 ≠ 0 then s
  else (List.range 4).foldl (fun s d => if s.bootStep < 7 then s else s.govern d (Config.sensorTj s.freeCtr d) (Config.sensorPower s.freeCtr d)) s

/-- A cycle ends: the clocks move on, and what falls due by them happens. -/
def State.endCycle (s : State) : State := (State.governs s (State.tested s s.tick)).struck

/-! ### A cycle -/

/-- The quadrants that hold a resident thread, or are still in the cycles of a word. -/
def State.busyQuads (s : State) : List Nat :=
  (s.teams.flatMap fun t =>
    let l := s.launch t.id.launch
    if t.saved.isSome then [] else ((List.range l.homeGroups).filter (t.homeLive l)).map fun g => l.quadOf t.core (g * l.w)) ++
  (s.quads.filter fun q => !q.2.rest.isEmpty).map (·.1)

/-- The quadrant that acts next in the cycle under way: the lowest of the busy ones that have not. -/
def State.nextQuad (s : State) : Option Nat :=
  match s.busyQuads.filter fun q => decide ((s.quad q).spent ≤ (s.die (dieOfQuad q)).clock) with
  | [] => none
  | a :: r => some (r.foldl Nat.min a)

/-- The group that holds a quadrant within a clause gives it up at a word that is held (R55); results that have not landed then read old or new (R65). -/
def State.yieldMid (s : State) (quad : Nat) : State :=
  match (s.quad quad).mid.bind s.findGrp with
  | some g => if !s.eligible g && s.givesUp g then (s.updQuad quad fun q => { q with mid := none }).renameClause g.gid else s
  | none => s

/-- A cycle in which the group that holds the quadrant within its clause waits: the eligible groups are counted, the holder with them, so that no stall is charged (R407, R409). -/
def State.idleCycle (s : State) (quad : Nat) : State :=
  (s.count quad (histogramEvent ((s.eligibles quad).length + 1)) 1).spendQuad quad

/-- One quadrant's part in a cycle: it goes on with the word it issues, issues from the group that it picks, or stalls (R16, R30, R409). -/
def State.quadTurn (s : State) (quad : Nat) : Out :=
  match (s.quad quad).rest with
  | n :: r => .next (s.restCycle quad n r)
  | [] =>
    let s := s.yieldMid quad
    match s.picked quad with
    | some g => s.issueGroup g.gid
    | none => if ((s.quad quad).mid.bind s.findGrp).isSome then .next (s.idleCycle quad) else execStallEvent quad s

/-- One move of the booted machine, its surroundings quiet: each quadrant acts in a cycle, the lowest first; then the other moves are made until none is left, when the clocks move on. A free value says whether what is under way goes on now, and which first; in every 1,024th cycle of the hub nothing is put off but lines that are dirty in an L1, which have a bound of their own (R314, R318; DESIGN CHOICE, log entry 16). -/
def State.advance (s : State) : Out :=
  match s.nextQuad with
  | some q => s.quadTurn q
  | none =>
    let t := { s with freeCtr := s.freeCtr + 1 }
    match if Config.putsOff s.freeCtr && decide (s.hub % 1024 ≠ 0) then t.nearMove else t.moveFrom (Config.turnOf s.freeCtr) (Config.putsOff s.freeCtr) with
    | some u => .next u
    | none => .next s.endCycle

/-- One step. -/
def State.proceed (s : State) : Out :=
  match s.agenda with
  | i :: r => exec i { s with agenda := r, current := none }
  | [] => if 7 ≤ s.bootStep then s.advance else if s.bootFail = 0 then execBoot s else .next s.tick

end Sys2Proof.Machine
end

