-- ==== Sys2Proof/Machine/Step.lean ====
section
/-! DEFINITION. One step of the module, and the placing of one instruction where the next step fetches. -/
namespace Sys2Proof.Machine

/-- One step: the next move of the module, and what follows every move. -/
def step (s : State) : Out := mapOut State.settle s.proceed

/-! ### Placing an instruction -/

/-- A clause header over one instruction of n words of a class: no wait, no flag, guard true on a predicate that reads 0 (R54, R59, R61). -/
def loneHeader (cls n : Nat) : Nat := n + cls * 2 ^ 4 + 15 * 2 ^ 19 + 2 ^ 29

/-- Replace the word at a place of a list. -/
def setAt (i w : Nat) : List Nat → List Nat
  | [] => []
  | x :: r => match i with
    | 0 => w :: r
    | j + 1 => x :: setAt j w r

/-- A word in a core's instruction cache, its line filled from memory where memory has it. -/
def State.placeWord (s : State) (core tenant asid va w : Nat) : State :=
  let t := match s.cachedWord core tenant asid va with
    | .ok r => r.2
    | .error _ => s
  let k := icKey tenant asid va
  t.updCore core fun c => { c with ic := Store.set none c.ic k (some (setAt (va % 128 / 4) w ((Store.get none c.ic k).getD (List.replicate 32 0)))) }

/-- Words in a core's instruction cache from an address upward. -/
def State.placeWords (s : State) (core tenant asid va : Nat) : List Nat → State
  | [] => s
  | w :: r => State.placeWords (s.placeWord core tenant asid va w) core tenant asid (va + 4) r

/-- A clause of one instruction at a group's program counter. -/
def State.placeClause (s : State) (g : Grp) (w1 w2 : Nat) : State :=
  let l := s.launch g.team.launch
  let ws := if isLong w1 then [w1, w2] else [w1]
  s.placeWords (coreOfQuad g.quad) l.tenant l.asid g.pc (loneHeader (bitsOf w1 26 3) ws.length :: ws)

/-- The group whose next clause the next step begins, if it issues one outside every loop buffer. -/
def State.issuesNext (s : State) : Option Grp :=
  if s.agenda.isEmpty && decide (7 ≤ s.bootStep) then
    match s.nextQuad with
    | none => none
    | some q =>
      match (if (s.quad q).rest.isEmpty then (s.yieldMid q).picked q else none) with
      | some g => if g.clause = 0 && g.word = 0 && (s.quad q).loop.isNone then some g else none
      | none => none
  else none

/-- The packet of the placed launch: one team of one thread on die 0, with all that a team may ask for. -/
def placedBody : List Byte :=
  leBytes 0 20 ++ leBytes (1 + 64 * 2 ^ 25) 4 ++ leBytes (512 * 2 ^ 17) 4 ++ leBytes (256 + 4096 * 2 ^ 9) 4 ++
    leBytes 0 16 ++ leBytes (1 + 2 ^ 32 + 2 ^ 48) 8 ++ leBytes (1 + 2 ^ 12 + 2 ^ 24) 8

/-- The launch of a placed instruction. -/
def placedLaunch : Launch := { id := 1, q := 0, seq := 1, tenant := 0, asid := 0, prio := 0, body := placedBody, w := 32, nregs := 64, entry := 0, running := 1, anyTeam := true }
/-- Its one team. -/
def placedTeam : Team := { id := ⟨1, 0, false⟩, core := 0, stamp := 1, threads := [{ idx := 0, pc := 0, st := .issuing 1, sp := 0 }] }
/-- Its one group, about to issue. -/
def placedGroup : Grp := { gid := 1, team := ⟨1, 0, false⟩, quad := 0, members := [0], pc := 0, fresh := true }

/-- A booted module with the memories of a state and one launch resident, whose one group issues next: what a load, a LAUNCH packet, a team pull and a team start would leave (DESIGN CHOICE, log entry 8). -/
def State.placed (s : State) : State :=
  { mem := s.mem, outMem := s.outMem, poison := s.poison, flips := s.flips, images := s.images, verified := s.verified, arMin := s.arMin, hub := s.hub
    freeCtr := s.freeCtr, nextId := s.nextId + 2, bootStep := 7, launches := [placedLaunch], teams := [placedTeam], groups := [placedGroup] }

/-- A state with an instruction stored where the next step fetches: at the program counter of the group that issues next; where no group begins a clause next, in the one group of a launch placed for it. -/
def State.withFetchWord (s : State) (nbits w : Nat) : State :=
  let w1 := w % 2 ^ nbits % 2 ^ 32
  let w2 := w % 2 ^ nbits / 2 ^ 32 % 2 ^ 32
  let here := match s.issuesNext with
    | some g =>
      let t := s.placeClause g w1 w2
      if t.issuesNext.map (·.gid) = some g.gid then some t else none
    | none => none
  match here with
  | some t => t
  | none => s.placed.placeClause placedGroup w1 w2

end Sys2Proof.Machine
end

