-- ==== Sys2Proof/Certificates/Slice0/Obligations.lean ====
section
/-! DEFINITION. The statements for the provers, Obligations.<Name>, and the vocabulary that they share in Sys2Proof.Claims: formulas and conditions written from the rules of the spec that each docstring cites. -/
namespace Sys2Proof.Claims
open Sys2Proof Sys2Proof.Machine

/-! ### Issue of a word -/

/-- A word of a group is in issue, and every register it names lies inside its kernel's allocation (R67). -/
def Issues (s : State) (gid : Nat) (regs : List Nat) : Prop := s.current = some gid ∧ ∀ r ∈ regs, r < (s.ctx gid).l.nregs

/-- What a word of fixed latency is: its length in words, its marker bits, the registers it names, and each thread's results. -/
structure Fixed where
  len : Nat
  k : Ctl
  regs : List Nat
  res : Thread → List Wr

/-- The state after a word of fixed latency: each acting member's results on their way to its receivers, and the word passed (R65, R124). -/
def Fixed.done (x : Fixed) (s : State) (c : Ctx) : State :=
  ((c.actors x.k).foldl (fun t h => t.pendTo c (c.receivers x.k h) (x.res h)) s).endWord c x.len

/-- V[l][n] (R124). -/
def V (h : Thread) (r : Reg) : BitVec 32 := h.raw r.toNat
/-- Pair(l, n): V[l][n+1]:V[l][n] (R124). -/
def P64 (h : Thread) (r : Reg) : BitVec 64 := h.raw (r.toNat + 1) ++ h.raw r.toNat
/-- P[l][n] (R124). -/
def P1 (h : Thread) (p : Pred) : Bool := h.preds.getLsbD p.toNat
/-- A 32-bit result for register d. -/
def toReg (d : Reg) (x : BitVec 32) : List Wr := [⟨.reg d.toNat, x.toNat⟩]
/-- A 64-bit result for the pair at d, written whole (R92). -/
def toPair (d : Reg) (x : BitVec 64) : List Wr := [⟨.reg d.toNat, (x.setWidth 32).toNat⟩, ⟨.reg (d.toNat + 1), ((x >>> 32).setWidth 32).toNat⟩]
/-- A result for a predicate. -/
def toPred (p : Pred) (b : Bool) : List Wr := [⟨.pred p.toNat, if b then 1 else 0⟩]
/-- Combine(combine, old, t) (R66). -/
def combined : Combine → Bool → Bool → Bool
  | .set, _, t => t
  | .and, o, t => o && t
  | .or, o, t => o || t
  | .xor, o, t => xor o t

/-- Sat(x, i-n): clamped to the range of an n-bit two's complement number (R93). -/
def clampI (n : Nat) (x : Int) : BitVec n := BitVec.ofInt n (max (-(2 : Int) ^ (n - 1)) (min ((2 : Int) ^ (n - 1) - 1) x))
/-- Sat(x, n-n): clamped to 0 to 2^n − 1 (R93). -/
def clampN (n : Nat) (x : Int) : BitVec n := BitVec.ofInt n (max 0 (min ((2 : Int) ^ n - 1) x))
/-- An operation under M: modulo 2^n, or saturated under the types M names (R127, R130). -/
def underM (n : Nat) (m : ArithMode) (f : Int → Int → Int) (a b : BitVec n) : BitVec n :=
  match m with
  | .wrap => BitVec.ofInt n (f a.toInt b.toInt)
  | .satI => clampI n (f a.toInt b.toInt)
  | .satN => clampN n (f a.toNat b.toNat)

/-- Bits [63:32] and above of an exact product, floored. -/
def highHalf (x : Int) : Int := x >>> (32 : Nat)

/-- Integer arithmetic (R127 to R131). -/
def arithRule : Instr → Option Fixed
  | .add k m d a b => some ⟨1, k, [d.toNat, a.toNat, b.toNat], fun h => toReg d (underM 32 m (· + ·) (V h a) (V h b))⟩
  | .sub k m d a b => some ⟨1, k, [d.toNat, a.toNat, b.toNat], fun h => toReg d (underM 32 m (· - ·) (V h a) (V h b))⟩
  | .mullo k m d a b => some ⟨1, k, [d.toNat, a.toNat, b.toNat], fun h => toReg d (underM 32 m (· * ·) (V h a) (V h b))⟩
  | .mulhi k m d a b => some ⟨1, k, [d.toNat, a.toNat, b.toNat], fun h => toReg d (BitVec.ofInt 32 (highHalf (match m with
      | .ii => (V h a).toInt * (V h b).toInt
      | .nn => ((V h a).toNat : Int) * ((V h b).toNat : Int)
      | .inn => (V h a).toInt * ((V h b).toNat : Int))))⟩
  | .mad k m d a b c => some ⟨2, k, [d.toNat, a.toNat, b.toNat, c.toNat], fun h => toReg d (match m with
      | .wrap => V h a * V h b + V h c
      | .satI => clampI 32 ((V h a).toInt * (V h b).toInt + (V h c).toInt)
      | .satN => clampN 32 (((V h a).toNat * (V h b).toNat + (V h c).toNat : Nat) : Int))⟩
  | .min k m d a b => some ⟨1, k, [d.toNat, a.toNat, b.toNat], fun h => toReg d (match m with
      | .i32 => BitVec.ofInt 32 (min (V h a).toInt (V h b).toInt)
      | .n32 => BitVec.ofNat 32 (min (V h a).toNat (V h b).toNat))⟩
  | .max k m d a b => some ⟨1, k, [d.toNat, a.toNat, b.toNat], fun h => toReg d (match m with
      | .i32 => BitVec.ofInt 32 (max (V h a).toInt (V h b).toInt)
      | .n32 => BitVec.ofNat 32 (max (V h a).toNat (V h b).toNat))⟩
  | .neg k m d a => some ⟨1, k, [d.toNat, a.toNat], fun h => toReg d (match m with
      | .wrap => -(V h a)
      | .sat => clampI 32 (-(V h a).toInt))⟩
  | .addi k d a imm => some ⟨1, k, [d.toNat, a.toNat], fun h => toReg d (V h a + imm.signExtend 32)⟩
  | .muli k d a imm => some ⟨1, k, [d.toNat, a.toNat], fun h => toReg d (V h a * imm.signExtend 32)⟩
  | .add64 k m d a b => some ⟨1, k, [d.toNat, d.toNat + 1, a.toNat, a.toNat + 1, b.toNat, b.toNat + 1], fun h => toPair d (underM 64 m (· + ·) (P64 h a) (P64 h b))⟩
  | .sub64 k m d a b => some ⟨1, k, [d.toNat, d.toNat + 1, a.toNat, a.toNat + 1, b.toNat, b.toNat + 1], fun h => toPair d (underM 64 m (· - ·) (P64 h a) (P64 h b))⟩
  | .add64i k d a imm => some ⟨1, k, [d.toNat, d.toNat + 1, a.toNat, a.toNat + 1], fun h => toPair d (P64 h a + imm.signExtend 64)⟩
  | .lea64 k d a c sx shift disp => some ⟨2, k, [d.toNat, d.toNat + 1, a.toNat, a.toNat + 1, c.toNat], fun h =>
      toPair d (P64 h a + ((if sx then (V h c).signExtend 64 else (V h c).setWidth 64) <<< shift.toNat) + disp.signExtend 64)⟩
  | _ => none

/-- A field of a word: len bits from pos (R135). -/
def field (x : BitVec 32) (pos len : Nat) : BitVec len := (x >>> pos).setWidth len

/-- Logic, shifts and bit fields (R132 to R136). -/
def logicRule : Instr → Option Fixed
  | .and k d a b => some ⟨1, k, [d.toNat, a.toNat, b.toNat], fun h => toReg d (V h a &&& V h b)⟩
  | .or k d a b => some ⟨1, k, [d.toNat, a.toNat, b.toNat], fun h => toReg d (V h a ||| V h b)⟩
  | .xor k d a b => some ⟨1, k, [d.toNat, a.toNat, b.toNat], fun h => toReg d (V h a ^^^ V h b)⟩
  | .not k d a => some ⟨1, k, [d.toNat, a.toNat], fun h => toReg d (~~~V h a)⟩
  | .andi k d a imm => some ⟨1, k, [d.toNat, a.toNat], fun h => toReg d (V h a &&& imm.signExtend 32)⟩
  | .ori k d a imm => some ⟨1, k, [d.toNat, a.toNat], fun h => toReg d (V h a ||| imm.signExtend 32)⟩
  | .xori k d a imm => some ⟨1, k, [d.toNat, a.toNat], fun h => toReg d (V h a ^^^ imm.signExtend 32)⟩
  | .lop3 k d a b c table => some ⟨2, k, [d.toNat, a.toNat, b.toNat, c.toNat], fun h =>
      toReg d ((BitVec.ofBoolListLE ((List.range 32).map fun i =>
        table.getLsbD (4 * ((V h a).getLsbD i).toNat + 2 * ((V h b).getLsbD i).toNat + ((V h c).getLsbD i).toNat))).setWidth 32)⟩
  | .shl k d a b => some ⟨1, k, [d.toNat, a.toNat, b.toNat], fun h => toReg d (V h a <<< ((V h b).setWidth 8).toNat)⟩
  | .shr k d a b => some ⟨1, k, [d.toNat, a.toNat, b.toNat], fun h => toReg d (V h a >>> ((V h b).setWidth 8).toNat)⟩
  | .sra k d a b => some ⟨1, k, [d.toNat, a.toNat, b.toNat], fun h => toReg d ((V h a).sshiftRight ((V h b).setWidth 8).toNat)⟩
  | .rol k d a b => some ⟨1, k, [d.toNat, a.toNat, b.toNat], fun h => toReg d ((V h a).rotateLeft ((V h b).setWidth 8).toNat)⟩
  | .shli k d a imm => some ⟨1, k, [d.toNat, a.toNat], fun h => toReg d (V h a <<< imm.toNat)⟩
  | .shri k d a imm => some ⟨1, k, [d.toNat, a.toNat], fun h => toReg d (V h a >>> imm.toNat)⟩
  | .srai k d a imm => some ⟨1, k, [d.toNat, a.toNat], fun h => toReg d ((V h a).sshiftRight imm.toNat)⟩
  | .roli k d a imm => some ⟨1, k, [d.toNat, a.toNat], fun h => toReg d ((V h a).rotateLeft imm.toNat)⟩
  | .bfe k d a sx len pos => some ⟨2, k, [d.toNat, a.toNat], fun h =>
      toReg d (if sx then (field (V h a) pos.toNat len.toNat).signExtend 32 else (field (V h a) pos.toNat len.toNat).setWidth 32)⟩
  | .bfi k d a b len pos => some ⟨2, k, [d.toNat, a.toNat, b.toNat], fun h =>
      toReg d ((BitVec.ofBoolListLE ((List.range 32).map fun i =>
        if pos.toNat ≤ i ∧ i < pos.toNat + len.toNat then (V h b).getLsbD (i - pos.toNat) else (V h a).getLsbD i)).setWidth 32)⟩
  | .popc k d a => some ⟨1, k, [d.toNat, a.toNat], fun h => toReg d (BitVec.ofNat 32 ((List.range 32).countP (V h a).getLsbD))⟩
  | .clz k d a => some ⟨1, k, [d.toNat, a.toNat], fun h => toReg d (BitVec.ofNat 32 (((List.range 32).find? fun i => (V h a).getLsbD (31 - i)).getD 32))⟩
  | .brev k d a => some ⟨1, k, [d.toNat, a.toNat], fun h => toReg d ((BitVec.ofBoolListLE ((List.range 32).map fun i => (V h a).getLsbD (31 - i))).setWidth 32)⟩
  | .ffs k d a => some ⟨1, k, [d.toNat, a.toNat], fun h => toReg d (BitVec.ofNat 32 (((List.range 32).find? (V h a).getLsbD).getD 32))⟩
  | _ => none

/-- A comparison of two registers, or of two pairs, under a type (R137). -/
def compared (m : CmpTy) (h : Thread) (a b : Reg) (f : Int → Int → Bool) : Bool :=
  match m with
  | .i32 => f (V h a).toInt (V h b).toInt
  | .n32 => f (V h a).toNat (V h b).toNat
  | .i64 => f (P64 h a).toInt (P64 h b).toInt
  | .n64 => f (P64 h a).toNat (P64 h b).toNat
/-- The registers that a comparison reads. -/
def comparedRegs (m : CmpTy) (a b : Reg) : List Nat :=
  match m with
  | .i32 => [a.toNat, b.toNat]
  | .n32 => [a.toNat, b.toNat]
  | .i64 => [a.toNat, a.toNat + 1, b.toNat, b.toNat + 1]
  | .n64 => [a.toNat, a.toNat + 1, b.toNat, b.toNat + 1]
/-- A compare to predicate. -/
def icmpRule (k : Ctl) (m : CmpTy) (cb : Combine) (pd : Pred) (a b : Reg) (f : Int → Int → Bool) : Fixed :=
  ⟨1, k, comparedRegs m a b, fun h => toPred pd (combined cb (P1 h pd) (compared m h a b f))⟩

/-- Compares, predicates, selects and moves (R137 to R142). -/
def predRule : Instr → Option Fixed
  | .icmpEq k m cb pd a b => some (icmpRule k m cb pd a b fun x y => decide (x = y))
  | .icmpNe k m cb pd a b => some (icmpRule k m cb pd a b fun x y => decide (x ≠ y))
  | .icmpLt k m cb pd a b => some (icmpRule k m cb pd a b fun x y => decide (x < y))
  | .icmpLe k m cb pd a b => some (icmpRule k m cb pd a b fun x y => decide (x ≤ y))
  | .icmpGt k m cb pd a b => some (icmpRule k m cb pd a b fun x y => decide (x > y))
  | .icmpGe k m cb pd a b => some (icmpRule k m cb pd a b fun x y => decide (x ≥ y))
  | .ptest k m cb pd a b => some ⟨1, k, [a.toNat, b.toNat], fun h => toPred pd (combined cb (P1 h pd) (match m with
      | .nz => (V h a &&& V h b) != 0
      | .z => (V h a &&& V h b) == 0))⟩
  | .pand k na nb cb pd pa pb => some ⟨1, k, [], fun h => toPred pd (combined cb (P1 h pd) (xor (P1 h pa) na && xor (P1 h pb) nb))⟩
  | .por k na nb cb pd pa pb => some ⟨1, k, [], fun h => toPred pd (combined cb (P1 h pd) (xor (P1 h pa) na || xor (P1 h pb) nb))⟩
  | .pxor k na nb cb pd pa pb => some ⟨1, k, [], fun h => toPred pd (combined cb (P1 h pd) (xor (xor (P1 h pa) na) (xor (P1 h pb) nb)))⟩
  | .pnot k cb pd pa => some ⟨1, k, [], fun h => toPred pd (combined cb (P1 h pd) (!P1 h pa))⟩
  | .p2v k d pa => some ⟨1, k, [d.toNat], fun h => toReg d (if P1 h pa then 1 else 0)⟩
  | .p2vAll k d => some ⟨1, k, [d.toNat], fun h => toReg d (h.preds.setWidth 32)⟩
  | .v2p k cb pd a => some ⟨1, k, [a.toNat], fun h => toPred pd (combined cb (P1 h pd) (V h a != 0))⟩
  | .v2pAll k a => some ⟨1, k, [a.toNat], fun h => (List.range 16).map fun n => ⟨.pred n, ((V h a).getLsbD n).toNat⟩⟩
  | .sel k d a b pc ng => some ⟨2, k, [d.toNat, a.toNat, b.toNat], fun h => toReg d (if xor (P1 h pc) ng then V h a else V h b)⟩
  | .mov k d a => some ⟨1, k, [d.toNat, a.toNat], fun h => toReg d (V h a)⟩
  | .mov64 k d a => some ⟨1, k, [d.toNat, d.toNat + 1, a.toNat, a.toNat + 1], fun h => toPair d (P64 h a)⟩
  | .movi k d hi6 mid2 lo24 => some ⟨2, k, [d.toNat], fun _ => toReg d (hi6 ++ mid2 ++ lo24)⟩
  | .spadj k imm => some ⟨1, k, [], fun h => [⟨.sp, (h.sp + 8 * imm.signExtend 64).toNat⟩]⟩
  | _ => none

end Sys2Proof.Claims

namespace Sys2Proof.Claims
open Sys2Proof Sys2Proof.Machine

/-! ### Floating point and conversions -/

/-- V[l][n] as f32 bits. -/
def F (h : Thread) (r : Reg) : Nat := (V h r).toNat
/-- A word of two registers, or of one, whose result is the bits of a number. -/
def floatRule2 (k : Ctl) (d a b : Reg) (f : Nat → Nat → Nat) : Fixed := ⟨1, k, [d.toNat, a.toNat, b.toNat], fun h => toReg d (BitVec.ofNat 32 (f (F h a) (F h b)))⟩
def floatRule1 (k : Ctl) (d a : Reg) (f : Nat → Nat) : Fixed := ⟨1, k, [d.toNat, a.toNat], fun h => toReg d (BitVec.ofNat 32 (f (F h a)))⟩
/-- The class of f32 bits: 0 signalling NaN, 1 quiet NaN, 2 −∞, 3 negative normal, 4 subnormal, 5 zero, 6 positive normal, 7 +∞ (R175). -/
def f32Class (x : BitVec 32) : Nat :=
  let neg := x.getLsbD 31
  let e := (x >>> 23).setWidth 8
  let f := x.setWidth 23
  if e = 255 then (if f = 0 then (if neg then 2 else 7) else if x.getLsbD 22 then 1 else 0)
  else if e = 0 then (if f = 0 then 5 else 4)
  else if neg then 3 else 6
/-- An fcmp of a condition (R174). -/
def fcmpRule (k : Ctl) (cb : Combine) (pd : Pred) (a b : Reg) (c : FCond) : Fixed :=
  ⟨1, k, [a.toNat, b.toNat], fun h => toPred pd (combined cb (P1 h pd) (FFmt.f32.cmp c (F h a) (F h b)))⟩

/-- FP32 words of fixed latency (R169 to R178). -/
def floatRule : Instr → Option Fixed
  | .fadd k m d a b => some (floatRule2 k d a b (FFmt.f32.add m))
  | .fsub k m d a b => some (floatRule2 k d a b (FFmt.f32.sub m))
  | .fmul k m d a b => some (floatRule2 k d a b (FFmt.f32.mul m))
  | .ffma k np nc rnd d a b c => some ⟨2, k, [d.toNat, a.toNat, b.toNat, c.toNat], fun h => toReg d (BitVec.ofNat 32 (FFmt.f32.fma rnd np nc (F h a) (F h b) (F h c)))⟩
  | .fmin k m d a b => some (floatRule2 k d a b (FFmt.f32.minMax false m))
  | .fmax k m d a b => some (floatRule2 k d a b (FFmt.f32.minMax true m))
  | .fabs k d a => some ⟨1, k, [d.toNat, a.toNat], fun h => toReg d (V h a &&& 0x7FFFFFFF)⟩
  | .fneg k d a => some ⟨1, k, [d.toNat, a.toNat], fun h => toReg d (V h a ^^^ 0x80000000)⟩
  | .fcmpEq k cb pd a b => some (fcmpRule k cb pd a b .eq)
  | .fcmpLt k cb pd a b => some (fcmpRule k cb pd a b .lt)
  | .fcmpLe k cb pd a b => some (fcmpRule k cb pd a b .le)
  | .fcmpNe k cb pd a b => some (fcmpRule k cb pd a b .ne)
  | .fclass k khi cb pd a klo => some ⟨1, k, [a.toNat], fun h => toPred pd (combined cb (P1 h pd) ((khi ++ klo).getLsbD (f32Class (V h a))))⟩
  | .frint k m d a => some (floatRule1 k d a (frintF32 m))
  | .fsatUnit k d a => some (floatRule1 k d a (fsatF32 false))
  | .fsatSym k d a => some (floatRule1 k d a (fsatF32 true))
  | .expins k m d a b => some ⟨1, k, [d.toNat, a.toNat, b.toNat], fun h => toReg d (BitVec.ofNat 32 (scaleF32 m (F h a) (V h b).toInt))⟩
  | .expextExp k d a => some (floatRule1 k d a expextExp)
  | .expextSig k d a => some (floatRule1 k d a expextSig)
  | _ => none

/-- An element of 16 bits of a register (R92). -/
def E16 (h : Thread) (r : Reg) (e : Nat) : Nat := ((V h r >>> (16 * e)).setWidth 16).toNat
/-- An element of 8 bits of a register (R92). -/
def E8 (h : Thread) (r : Reg) (e : Nat) : BitVec 8 := (V h r >>> (8 * e)).setWidth 8
/-- Two 16-bit results as one register. -/
def toHalves (d : Reg) (f : Nat → Nat) : List Wr := toReg d (BitVec.ofNat 32 (f 0 + 2 ^ 16 * f 1))
/-- The format of an element type. -/
def fmtOf : HalfTy → FFmt
  | .f16 => .f16
  | .bf16 => .bf16
def fmtOf1 : HalfTy1 → FFmt
  | .f16 => .f16
  | .bf16 => .bf16
/-- A packed word of two registers under RNE (R181). -/
def halfRule (k : Ctl) (d a b : Reg) (f : Nat → Nat → Nat) : Fixed := ⟨1, k, [d.toNat, a.toNat, b.toNat], fun h => toHalves d fun e => f (E16 h a e) (E16 h b e)⟩
/-- A byte of dp4 as a number (R184). -/
def dpByte (signed : Bool) (x : BitVec 8) : Int := if signed then x.toInt else (x.toNat : Int)

/-- Packed 16-bit words, dot products and conversions (R181 to R188). -/
def packedRule : Instr → Option Fixed
  | .hadd2 k m d a b => some (halfRule k d a b ((fmtOf m).add .rne))
  | .hsub2 k m d a b => some (halfRule k d a b ((fmtOf m).sub .rne))
  | .hmul2 k m d a b => some (halfRule k d a b ((fmtOf m).mul .rne))
  | .hmin2 k m d a b => some (halfRule k d a b ((fmtOf m).minMax false .num))
  | .hmax2 k m d a b => some (halfRule k d a b ((fmtOf m).minMax true .num))
  | .hfma2 k m rnd d a b c => some ⟨2, k, [d.toNat, a.toNat, b.toNat, c.toNat], fun h => toHalves d fun e => (fmtOf m).fma rnd false false (E16 h a e) (E16 h b e) (E16 h c e)⟩
  | .hcmp2 k cc cb pk ty a b => some ⟨1, k, [a.toNat, b.toNat], fun h =>
      (List.range 2).flatMap fun e => [⟨.pred (2 * pk.toNat + e), (combined cb (h.preds.getLsbD (2 * pk.toNat + e)) ((fmtOf1 ty).cmp cc (E16 h a e) (E16 h b e))).toNat⟩]⟩
  | .dp4 k sa sb d a b c sat => some ⟨2, k, [d.toNat, a.toNat, b.toNat, c.toNat], fun h =>
      let x : Int := (V h c).toInt + dpByte sa (E8 h a 0) * dpByte sb (E8 h b 0) + dpByte sa (E8 h a 1) * dpByte sb (E8 h b 1) +
        dpByte sa (E8 h a 2) * dpByte sb (E8 h b 2) + dpByte sa (E8 h a 3) * dpByte sb (E8 h b 3)
      toReg d (if sat then clampI 32 x else BitVec.ofInt 32 x)⟩
  | .fdot2 k m rnd d a b c => some ⟨2, k, [d.toNat, a.toNat, b.toNat, c.toNat], fun h => toReg d (BitVec.ofNat 32 (dot2 (fmtOf m) rnd (F h a) (F h b) (F h c)))⟩
  | .cvt k d a rnd sat delem selem dst src => some ⟨2, k, typeRegs dst d ++ typeRegs src a, fun h => putElem dst d delem.toNat (cvtElem src dst rnd sat (elemOf src h a selem.toNat))⟩
  | .pack2 k d a b rnd sat ty => some ⟨2, k, [d.toNat, a.toNat, b.toNat], fun h => toHalves d fun e => cvtElem .f32 (HalfTy1.code16 ty) rnd sat (if e = 0 then F h a else F h b)⟩
  | .unpack2 k m d a => some ⟨1, k, [d.toNat, d.toNat + 1, a.toNat], fun h => toPair d (BitVec.ofNat 64 (fToF (fmtOf m) .f32 .rne false (E16 h a 0) + 2 ^ 32 * fToF (fmtOf m) .f32 .rne false (E16 h a 1)))⟩
  | .cvt4x8Pack k d a rnd sat ty => some ⟨2, k, d.toNat :: (List.range 4).map (· + a.toNat), fun h =>
      let e := fun i => cvtElem .f32 (ByteTy.code8 ty) rnd sat (h.raw (a.toNat + i)).toNat
      toReg d (BitVec.ofNat 32 (e 0 + 2 ^ 8 * e 1 + 2 ^ 16 * e 2 + 2 ^ 24 * e 3))⟩
  | .cvt4x8Unpack k d a ty => some ⟨2, k, (List.range 4).map (· + d.toNat) ++ [a.toNat], fun h =>
      (List.range 4).map fun i => ⟨.reg (d.toNat + i), (BitVec.ofNat 32 (cvtElem (ByteTy.code8 ty) .f32 .rne false (E8 h a i).toNat)).toNat⟩⟩
  | _ => none

end Sys2Proof.Claims

namespace Sys2Proof.Claims
open Sys2Proof Sys2Proof.Machine

/-! ### Words whose results are known at their issue (R57, R167) -/

/-- A word of variable latency whose results are known at its issue: length, class, marker bits, registers, and each acting member's results. -/
structure Known where
  len : Nat := 1
  cls : Nat
  k : Ctl
  regs : List Nat
  res : Ctx → Thread → List Wr

/-- The state after it: one outstanding operation of the issuing group that holds the results for their receivers, under the flag of its clause, and the word passed. -/
def Known.done (x : Known) (s : State) (c : Ctx) : State :=
  ({ s with
      nextId := s.nextId + 1
      ops := s.ops ++ [{ id := s.nextId, team := c.g.team, core := c.core, gids := [c.gid], flag := c.g.flag, cls := x.cls, kind := .ready, isReady := true,
                         results := (c.actors x.k).flatMap fun h => (c.receivers x.k h).flatMap fun i => (x.res c h).map fun w => (i, w) }] } : State).endWord c x.len

/-- The special-function words (R179, R180). -/
def sfuRule : Instr → Option Known
  | .fexp k d a => some { cls := 1, k := k, regs := [d.toNat, a.toNat], res := fun _ h => toReg d (BitVec.ofNat 32 (sfuExp (F h a))) }
  | .flog k d a => some { cls := 1, k := k, regs := [d.toNat, a.toNat], res := fun _ h => toReg d (BitVec.ofNat 32 (sfuLog (F h a))) }
  | .frcp k d a => some { cls := 1, k := k, regs := [d.toNat, a.toNat], res := fun _ h => toReg d (BitVec.ofNat 32 (sfuRcp (F h a))) }
  | .frsq k d a => some { cls := 1, k := k, regs := [d.toNat, a.toNat], res := fun _ h => toReg d (BitVec.ofNat 32 (sfuRsq (F h a))) }
  | .fsqrt k m d a => some { cls := 1, k := k, regs := [d.toNat, a.toNat], res := fun _ h => toReg d (BitVec.ofNat 32 (sfuSqrt m (F h a))) }
  | .fsin k d a => some { cls := 1, k := k, regs := [d.toNat, a.toNat], res := fun _ h => toReg d (BitVec.ofNat 32 (sfuSin (F h a))) }
  | .fcos k d a => some { cls := 1, k := k, regs := [d.toNat, a.toNat], res := fun _ h => toReg d (BitVec.ofNat 32 (sfuCos (F h a))) }
  | _ => none

/-- V[s][a] of the member in home lane s; one's own value where s is no lane or the lane is absent (R189, R191). -/
def fromLane (c : Ctx) (s : Int) (a : Reg) (h : Thread) : BitVec 32 :=
  if 0 ≤ s ∧ s < c.l.w then
    match c.members.find? fun x => decide ((c.lane x : Int) = s) with
    | some x => V x a
    | none => V h a
  else V h a
/-- A word that moves a value between lanes: the source lane from the context and the participant. -/
def moveRule (k : Ctl) (d a : Reg) (regs : List Nat) (src : Ctx → Thread → Int) : Known :=
  { cls := 0, k := k, regs := regs, res := fun c h => toReg d (fromLane c (src c h) a h) }
/-- The lane of the leading member and its value of a register. -/
def leadLane (c : Ctx) (f : Thread → Int) : Int := ((c.members.head?).map f).getD (-1)

/-- Shuffles and broadcasts (R191, R192). -/
def shuffleRule : Instr → Option Known
  | .xshfIdx k d a b => some (moveRule k d a [d.toNat, a.toNat, b.toNat] fun c h => ((V h b).toNat % c.l.w : Nat))
  | .xshfUp k d a b => some (moveRule k d a [d.toNat, a.toNat, b.toNat] fun c h => (c.lane h : Int) - (V h b).toNat)
  | .xshfDown k d a b => some (moveRule k d a [d.toNat, a.toNat, b.toNat] fun c h => (c.lane h : Int) + (V h b).toNat)
  | .xshfXor k d a b => some (moveRule k d a [d.toNat, a.toNat, b.toNat] fun c h => ((c.lane h) ^^^ ((V h b).toNat % c.l.w) : Nat))
  | .xbcastLane k d a n => some (moveRule k d a [d.toNat, a.toNat] fun _ _ => n.toNat)
  | .xbcastReg k d a b => some (moveRule k d a [d.toNat, a.toNat, b.toNat] fun c _ => leadLane c fun x => ((V x b).toNat % c.l.w : Nat))
  | .xbcastLead k d a => some { cls := 0, k := k, regs := [d.toNat, a.toNat], res := fun c h => toReg d (((c.members.head?).map fun x => V x a).getD (V h a)) }
  | _ => none

/-- The identity and the combination of an operation (R193). -/
def opIdentity : LaneOp → BitVec 32
  | .add => 0
  | .minI => 0x7FFFFFFF
  | .maxI => 0x80000000
  | .minN => 0xFFFFFFFF
  | .maxN => 0
  | .and => 0xFFFFFFFF
  | .or => 0
  | .xor => 0
  | .fadd => 0x80000000
  | .fmin => 0x7F800000
  | .fmax => 0xFF800000
def opCombine (o : LaneOp) (m : Round) (x y : BitVec 32) : BitVec 32 :=
  match o with
  | .add => x + y
  | .minI => if x.sle y then x else y
  | .maxI => if x.sle y then y else x
  | .minN => if x ≤ y then x else y
  | .maxN => if x ≤ y then y else x
  | .and => x &&& y
  | .or => x ||| y
  | .xor => x ^^^ y
  | .fadd => BitVec.ofNat 32 (FFmt.f32.add m x.toNat y.toNat)
  | .fmin => BitVec.ofNat 32 (FFmt.f32.minMax false .num x.toNat y.toNat)
  | .fmax => BitVec.ofNat 32 (FFmt.f32.minMax true .num x.toNat y.toNat)
/-- The participants' values combined in ascending home lane, from the identity (R194). -/
def combineLanes (o : LaneOp) (m : Round) (a : Reg) (hs : List Thread) : BitVec 32 := hs.foldl (fun x h => opCombine o m x (V h a)) (opIdentity o)
/-- A lane mask, in which each member adds the bit of its home lane (R196). -/
def maskOf (c : Ctx) (hs : List Thread) : BitVec 64 := hs.foldl (fun m h => m + (1#64 <<< c.lane h)) 0
/-- The vote of the participants' predicate (R195). -/
def voteRule (k : Ctl) (cb : Combine) (pd pa : Pred) (f : List Bool → Bool) : Known :=
  { cls := 0, k := k, regs := [], res := fun c h => toPred pd (combined cb (P1 h pd) (f ((c.actors k).map fun x => P1 x pa))) }

/-- Reductions, scans and votes (R194, R195). -/
def reduceRule : Instr → Option Known
  | .xred k m d a o => some { cls := 0, k := k, regs := [d.toNat, a.toNat], res := fun c _ => toReg d (combineLanes o m a (c.actors k)) }
  | .xscan k m d a excl o => some { cls := 0, k := k, regs := [d.toNat, a.toNat], res := fun c h => toReg d (combineLanes o m a ((c.actors k).filter fun x => if excl then c.lane x < c.lane h else c.lane x ≤ c.lane h)) }
  | .xvoteAny k cb pd pa => some (voteRule k cb pd pa fun l => l.any id)
  | .xvoteAll k cb pd pa => some (voteRule k cb pd pa fun l => l.all id)
  | .xvoteUni k cb pd pa => some (voteRule k cb pd pa fun l => l.all id || l.all (!·))
  | _ => none

/-- A word whose result is the mask of some members: a register, or the pair at d under W = 64. -/
def masked (k : Ctl) (d : Reg) (regs : List Nat) (f : Ctx → Thread → List Thread) : Known :=
  { cls := 0, k := k, regs := regs, res := fun c h => if c.l.w = 64 then toPair d (maskOf c (f c h)) else toReg d ((maskOf c (f c h)).setWidth 32) }
/-- Lane masks (R196): the destination and the word. -/
def maskRule : Instr → Option (Reg × Known)
  | .xmatchEq k d a => some (d, masked k d [d.toNat, a.toNat] fun c h => (c.actors k).filter fun x => V x a == V h a)
  | .xmatchBallot k d pa => some (d, masked k d [d.toNat] fun c _ => (c.actors k).filter fun x => P1 x pa)
  | .xmatchMembers k d => some (d, masked k d [d.toNat] fun c _ => c.members)
  | _ => none
/-- The mask has a place: one register, or under W = 64 the pair at an even d inside the allocation (R196, R70). -/
def maskFits (l : Launch) (d : Reg) : Prop := l.w ≠ 64 ∨ (d.toNat % 2 = 0 ∧ d.toNat + 1 < l.nregs)

end Sys2Proof.Claims

namespace Sys2Proof.Claims
open Sys2Proof Sys2Proof.Machine

/-! ### Words that read the state of a unit at their issue -/

/-- The status word of a declared buffer (R306). -/
def bufStatus (b : Buf) : BitVec 32 :=
  BitVec.ofNat 32 (b.st + 8 * b.rot + (if b.cmp then 64 else 0) + 128 + 256 * (b.base / 128) + 2 ^ 20 * (b.len / 128 - 1))
/-- The status word of a channel (R374): status and detail of the last completed operation, WAITF, and the incomplete operations. -/
def chanStatus (x : Chan) : BitVec 32 :=
  BitVec.ofNat 32 (x.status % 2 ^ 16 + (if (x.ops.head?).any fun o => o.waitSeq ≠ 0 then 2 ^ 23 else 0) + 2 ^ 24 * (x.ops.length % 32))
/-- The low half of the sequence number that wptr writes beside the pointer: the oldest incomplete operation's, else the last completed one's (R373). -/
def wptrOf (x : Chan) : BitVec 64 :=
  BitVec.ofNat 32 ((x.ops.head?.map fun o => o.seq).getD x.timeline) ++ BitVec.ofNat 32 x.wptr
/-- What tlook writes: the lowest valid entry with the key, its index over its value, else all ones (R304). -/
def tagAnswer (t : Team) (half n : Nat) (key : BitVec 64) : BitVec 32 :=
  (((List.range n).findSome? fun i => match Store.get none t.tags (half * 512 + i) with
    | some e => if e.key = key.toNat then some (BitVec.ofNat 32 (2 ^ 16 * i + e.val)) else none
    | none => none)).getD 0xFFFFFFFF

/-- Words whose answer is read at their issue from tags, buffers, channels and counters (R304, R306, R373, R374, R431). -/
def queryRule (s : State) : Instr → Option Known
  | .tlook k d a => some { cls := 2, k := k, regs := [d.toNat, a.toNat, a.toNat + 1], res := fun c h => toReg d (tagAnswer c.t c.half c.l.tagCount (P64 h a)) }
  | .bufq k d a => some { cls := 2, k := k, regs := [d.toNat, a.toNat], res := fun c h => toReg d ((((c.t.bufs.find? fun b => b.core == c.core && b.handle == (V h a).toNat)).map bufStatus).getD 0) }
  | .wptr k d a => some { cls := 4, k := k, regs := [d.toNat, d.toNat + 1, a.toNat], res := fun c h => toPair d (wptrOf (s.chan (.core c.core ((V h a).toNat % 4)))) }
  | .tlrdCh k d a => some { cls := 4, k := k, regs := [d.toNat, d.toNat + 1, a.toNat], res := fun c h => toPair d (BitVec.ofNat 64 (s.chan (.core c.core ((V h a).toNat % 4))).timeline) }
  | .tlrdDch k d a => some { cls := 4, k := k, regs := [d.toNat, d.toNat + 1, a.toNat], res := fun c h => toPair d (BitVec.ofNat 64 (s.chan (.die c.die ((V h a).toNat % 16))).timeline) }
  | .chq k d a => some { cls := 4, k := k, regs := [d.toNat, a.toNat], res := fun c h => toReg d (chanStatus (s.chan (.core c.core ((V h a).toNat % 4)))) }
  | .evrd k d a => some { cls := 6, k := k, regs := [d.toNat, d.toNat + 1, a.toNat], res := fun c h => toPair d (if s.evctl.getLsbD c.l.tenant then BitVec.ofNat 64 (s.eventTotal c.core ((V h a).toNat / 256 % 4) ((V h a).toNat % 256)) else 0) }
  | _ => none

/-- The value that an mstat word writes (R234, R235). -/
def mstatRule (s : State) (c : Ctx) : Instr → Option (Ctl × Reg × BitVec 32)
  | .mstatStat k a => some (k, a, BitVec.ofNat 32 (s.mxstat c.core))
  | .mstatBind k a => some (k, a, BitVec.ofNat 32 (bindByte c.t c.core 0 + 2 ^ 8 * bindByte c.t c.core 1 + 2 ^ 16 * bindByte c.t c.core 2 + 2 ^ 24 * bindByte c.t c.core 3))
  | .mstatTheta k a => some (k, a, if c.l.cls = 0 then 0x80000000 else BitVec.ofInt 32 ((if c.l.cls = 1 then -64 else if c.l.cls = 2 then -56 else -48) + ((s.die c.die).delta : Int)))
  | _ => none

/-! ### Memory words: the accesses of an issue -/

/-- An access word: its length, marker bits, the registers it names beside its data, its data register and bytes, the sign of a load, and each lane's address. -/
structure Access1 where
  len : Nat
  k : Ctl
  regs : List Nat
  d : Reg
  size : Nat
  signed : Bool := false
  addr : Thread → BitVec 64

/-- The index of ldw and stw, extended to 64 bits (R285). -/
def indexed (m : IndexMode) (h : Thread) (b : Reg) (size : Nat) : BitVec 64 :=
  match m with
  | .none => 0
  | .zx => (V h b).setWidth 64 * BitVec.ofNat 64 size
  | .sx => (V h b).signExtend 64 * BitVec.ofNat 64 size
/-- A format I access: Pair(l, a) + imm × size (R284). -/
def shortAccess (k : Ctl) (d a : Reg) (imm : Imm8) (size : Nat) (signed : Bool) : Access1 :=
  { len := 1, k := k, regs := [a.toNat, a.toNat + 1], d := d, size := size, signed := signed, addr := fun h => P64 h a + imm.signExtend 64 * BitVec.ofNat 64 size }
/-- A long access: Pair(l, a) + index × size + displacement (R285). -/
def longAccess (k : Ctl) (m : IndexMode) (d a b : Reg) (ty : MemTy) (disp : Bits21) : Access1 :=
  { len := 2, k := k, regs := [a.toNat, a.toNat + 1] ++ (if m = .none then [] else [b.toNat]), d := d, size := ty.size, signed := ty.signed
    addr := fun h => P64 h a + indexed m h b ty.size + disp.signExtend 64 }

/-- The loads (R284, R285). -/
def loadRule : Instr → Option Access1
  | .ldN8 k d a imm => some (shortAccess k d a imm 1 false)
  | .ldI8 k d a imm => some (shortAccess k d a imm 1 true)
  | .ldN16 k d a imm => some (shortAccess k d a imm 2 false)
  | .ldI16 k d a imm => some (shortAccess k d a imm 2 true)
  | .ldN32 k d a imm => some (shortAccess k d a imm 4 false)
  | .ldN64 k d a imm => some (shortAccess k d a imm 8 false)
  | .ldN128 k d a imm => some (shortAccess k d a imm 16 false)
  | .ldw k m d a b ty disp => some (longAccess k m d a b ty disp)
  | _ => none
/-- The stores (R284, R285). -/
def storeRule : Instr → Option Access1
  | .stN8 k d a imm => some (shortAccess k d a imm 1 false)
  | .stN16 k d a imm => some (shortAccess k d a imm 2 false)
  | .stN32 k d a imm => some (shortAccess k d a imm 4 false)
  | .stN64 k d a imm => some (shortAccess k d a imm 8 false)
  | .stN128 k d a imm => some (shortAccess k d a imm 16 false)
  | .stw k m d a b ty disp => some (longAccess k m d a b ty disp)
  | _ => none

/-- Every register of an access: address, index and data, ⌈size / 4⌉ of them. -/
def Access1.allRegs (x : Access1) : List Nat := x.regs ++ (List.range ((x.size + 3) / 4)).map (· + x.d.toNat)

/-- Every acting lane passes the checks of R281, and some lane acts: the accesses that go ahead. -/
structure AllPass (s : State) (c : Ctx) (k : Ctl) (addr : Thread → Nat) (align size : Nat) (a : Access) (good : List GoodLane) : Prop where
  checks : s.checkLanes c (c.actors k) addr align size a = (good, [])
  some_ : good ≠ []
  run : (s.keepXlats c good).running c.gid = true

end Sys2Proof.Claims

namespace Sys2Proof.Claims
open Sys2Proof Sys2Proof.Machine

/-! ### What a word leaves as it was -/

/-- A thread but for the cycle of its next issue and the number of results that it has asked for (the model's own, R309). -/
def bare (h : Thread) : Thread := { h with due := 0, asked := 0 }
/-- Every thread of every team is as it was, but for the cycle of its next issue and the number of results asked for. -/
def ThreadsSame (s t : State) : Prop := ∀ id i, bare (t.thread id i) = bare (s.thread id i)
/-- Nothing but groups, teams and quadrants differs. -/
def OnlyIssue (s t : State) : Prop := { t with groups := s.groups, teams := s.teams, quads := s.quads } = s
/-- Every other group is as it was. -/
def OthersSame (s t : State) (gid : Nat) : Prop := ∀ g, g ≠ gid → t.grp g = s.grp g
/-- Memory, its regions and the writes on their way to it are as they were. -/
def MemorySame (s t : State) : Prop := t.mem = s.mem ∧ t.outMem = s.outMem ∧ t.regions = s.regions ∧ t.writes = s.writes
/-- The group has passed a word of some length (R56): it stands at the next word of its clause, or at the next clause with none in progress; its members are as they were. -/
def Passed (s t : State) (gid len : Nat) : Prop :=
  (t.grp gid).members = (s.grp gid).members ∧
  if (s.grp gid).word + len < headerN (s.grp gid).header then (t.grp gid).pc = (s.grp gid).pc ∧ (t.grp gid).word = (s.grp gid).word + len ∧ (t.grp gid).clause = (s.grp gid).clause
  else (t.grp gid).pc = (s.grp gid).pc + 4 * (headerN (s.grp gid).header + 1) ∧ (t.grp gid).word = 0 ∧ (t.grp gid).clause = 0

/-- Any word of fixed latency on registers. -/
def fixedRule (i : Instr) : Option Fixed :=
  match arithRule i with
  | some x => some x
  | none => match logicRule i with
    | some x => some x
    | none => match predRule i with
      | some x => some x
      | none => match floatRule i with
        | some x => some x
        | none => packedRule i
/-- The destination of a result is one of those its word names as written. -/
def named (u : Uses) : Dst → Prop
  | .reg r => r ∈ u.wr
  | .part r _ _ => r ∈ u.wr
  | .pred p => p ∈ u.pwr
  | .sp => u.spw = true
/-- A register after a result: written whole, or n of its bits from a bit on (R65, R186). -/
def landsOn (r : Nat) (v : BitVec 32) : Dst × Nat → BitVec 32
  | (.reg q, x) => if q = r then BitVec.ofNat 32 x else v
  | (.part q lo n, x) => if q = r then (BitVec.ofBoolListLE ((List.range 32).map fun i => if lo ≤ i ∧ i < lo + n then x.testBit (i - lo) else v.getLsbD i)).setWidth 32 else v
  | _ => v
/-- The registers and predicates of a thread that word results do not touch until they land. -/
def landedParts (h : Thread) : Thread := { h with due := 0, pend := [] }

end Sys2Proof.Claims
open Sys2Proof Sys2Proof.Machine Sys2Proof.Claims

/-! ### Words of fixed latency -/

/-- R127 to R188: every word of fixed latency on registers and predicates completes, with the result that its formula gives for each acting member (arithRule for R127 to R131, logicRule for R132 to R136, predRule for R137 to R142 and R148, floatRule for R169 to R178, packedRule for R181 to R188) on its way to its receivers. (That cvt between two float formats of one width rounds by its mode, log entry 61, and that a result lands four cycles after its word's first issue cycle, log entry 17, are the model's choices.) -/
def Obligations.FixedWordResults : Prop :=
  ∀ (i : Instr) (x : Fixed) (s : State) (gid : Nat), fixedRule i = some x → wellFormed i = true → Issues s gid x.regs →
    exec i s = .next (x.done s (s.ctx gid))

/-- R56, R65, R124: a word of fixed latency changes no register when it issues; only receivers of acting members get results on the way, only for destinations the word names, four cycles on; the rest of the machine is as it was. (That the four cycles count from the word's first issue cycle is the model's choice: log entry 17.) -/
def Obligations.FixedWordFrame : Prop :=
  ∀ (i : Instr) (x : Fixed) (s : State) (gid : Nat), fixedRule i = some x → wellFormed i = true → Issues s gid x.regs → s.findGrp gid ≠ none →
    ∃ t, exec i s = .next t ∧ OnlyIssue s t ∧ OthersSame s t gid ∧ Passed s t gid x.len ∧
      ∀ id j, landedParts (t.thread id j) = landedParts (s.thread id j) ∧
        ∃ new, (t.thread id j).pend = (s.thread id j).pend ++ new ∧
          ∀ p ∈ new, p.land = s.now (s.grp gid).quad + 4 ∧ p.clause = (s.grp gid).clause ∧ named (uses none i) p.wr.dst ∧
            id = (s.grp gid).team ∧ ∃ h ∈ (s.ctx gid).actors x.k, j ∈ (s.ctx gid).receivers x.k h

/-- R65, R186: when a cycle has come, the results due by it are in their registers, one after another in the order sent, each in the whole register or in the bits of its element alone; later ones are still on their way. -/
def Obligations.ResultsLandInTheirCycle : Prop :=
  ∀ (h : Thread) (now r : Nat), Store.wf 0 h.regs = true →
    (h.landed now).raw r = (h.pend.filter fun p => decide (p.land ≤ now)).foldl (fun v p => landsOn r v (p.wr.dst, p.wr.val)) (h.raw r) ∧
    (h.landed now).pend = h.pend.filter fun p => decide (now < p.land)

/-! ### Words whose results are known at issue -/

/-- R179, R180: the special-function words. -/
def Sys2Proof.Claims.SpecialFunctionResults : Prop :=
  ∀ (i : Instr) (x : Known) (s : State) (gid : Nat), sfuRule i = some x → wellFormed i = true → Issues s gid x.regs →
    exec i s = .next (x.done s (s.ctx gid))

/-- R189 to R192: shuffles and broadcasts. -/
def Sys2Proof.Claims.ShuffleResults : Prop :=
  ∀ (i : Instr) (x : Known) (s : State) (gid : Nat), shuffleRule i = some x → wellFormed i = true → Issues s gid x.regs →
    exec i s = .next (x.done s (s.ctx gid))

/-- R193 to R195: reductions, scans and votes. -/
def Sys2Proof.Claims.ReductionAndVoteResults : Prop :=
  ∀ (i : Instr) (x : Known) (s : State) (gid : Nat), reduceRule i = some x → wellFormed i = true → Issues s gid x.regs →
    exec i s = .next (x.done s (s.ctx gid))

/-- R196: lane masks, in one register or, under W = 64, in an even pair; an odd or unallocated pair is an encoding fault of the whole group. -/
def Sys2Proof.Claims.LaneMaskResults : Prop :=
  ∀ (i : Instr) (d : Reg) (x : Known) (s : State) (gid : Nat), maskRule i = some (d, x) → wellFormed i = true → Issues s gid x.regs →
    (maskFits (s.ctx gid).l d → exec i s = .next (x.done s (s.ctx gid))) ∧
    (¬maskFits (s.ctx gid).l d → exec i s = .next (s.parkWhole gid { cls := 0x01, detail := 0, addr := 0, len := 1 }))

/-- R304, R306, R373, R374, R411: words whose answer is read at issue from tags, buffers, channels and event counters. -/
def Sys2Proof.Claims.QueryWordResults : Prop :=
  ∀ (i : Instr) (x : Known) (s : State) (gid : Nat), queryRule s i = some x → wellFormed i = true → Issues s gid x.regs →
    exec i s = .next (x.done s (s.ctx gid))

/-- The special-function words. Shuffles and broadcasts. Reductions, scans and votes. Lane masks, in one register or, under W = 64, in an even pair; an odd or unallocated pair is an encoding fault of the whole group. Words whose answer is read at issue from tags, buffers, channels and event counters. -/
def Obligations.KnownWordResults : Prop :=
  Sys2Proof.Claims.SpecialFunctionResults ∧ Sys2Proof.Claims.ShuffleResults ∧ Sys2Proof.Claims.ReductionAndVoteResults ∧ Sys2Proof.Claims.LaneMaskResults ∧ Sys2Proof.Claims.QueryWordResults

namespace Sys2Proof.Claims
open Sys2Proof Sys2Proof.Machine

/-! ### Memory words and their homes -/

/-- One operation of the issuing group is added, under a new name, counted in the flag of the clause in progress (R57). -/
structure Adds (s t : State) (gid : Nat) (o : Op) : Prop where
  ops : t.ops = s.ops ++ [o]
  id : s.nextId ≤ o.id
  team : o.team = (s.grp gid).team
  gids : o.gids = [gid]
  flag : o.flag = (s.grp gid).flag
/-- Registers, predicates, sp, fsr and results on the way, of every thread, are as they were. -/
def RegsSame (s t : State) : Prop := ∀ id i,
  let a := t.thread id i
  let b := s.thread id i
  a.regs = b.regs ∧ a.preds = b.preds ∧ a.sp = b.sp ∧ a.fsr = b.fsr ∧ a.pend = b.pend ∧ a.inHandler = b.inHandler ∧ a.guard = b.guard
/-- Every location reads at its home as before. -/
def HomesSame (s t : State) : Prop := t.mem = s.mem ∧ t.outMem = s.outMem ∧ t.regions = s.regions
/-- Writes under way stay so; one that a later store of its core covers may be on its way home (R315). -/
def WritesStay (s t : State) : Prop := ∀ x ∈ s.writes, ∃ w ∈ t.writes, w = x ∨ w = { x with l1 := none }
/-- A write that was under way before. -/
def WasThere (s : State) (w : Write) : Prop := ∃ x ∈ s.writes, w = x ∨ w = { x with l1 := none }
/-- Under U = 1 the members that take the leading member's result; else none beside itself (R64). -/
def takers (s : State) (gid : Nat) (k : Ctl) : List Nat := if k.u then (s.grp gid).members else []
/-- The low bytes of the data registers, lowest first (R5, R284). -/
def dataBytes (h : Thread) (d : Reg) (size : Nat) : List Byte := (List.range size).map fun j => ((h.raw (d.toNat + j / 4)) >>> (8 * (j % 4))).setWidth 8
/-- An access on which a load or store stands that needs its home's verdict: a page of a region (R282). -/
def inRegion (good : List GoodLane) : Bool := good.any fun e => e.2.2.region.isSome
/-- An access meets a page under migration (R400). -/
def stays (good : List GoodLane) : Bool := good.any fun e => e.2.2.moving
/-- A write that carries the bytes it writes: no atomic from outside (R326). -/
def Carries (w : Write) : Prop := ∀ pa op wide v c, w.ext ≠ some (.atomic pa op wide v c)
/-- The byte that a core reads at a location for an access issued before a name: its own dirty or clean copy that may be hit, else what the home holds (R315). -/
def byteSeen (s : State) (core k : Nat) (v : VC) (upto : Nat) : Byte := ((s.nearByte core k v upto).map (·.1)).getD (s.locByte k)
/-- n bytes seen from a location. -/
def seen (s : State) (core k n : Nat) (v : VC) (upto : Nat) : Nat := leNat ((List.range n).map fun i => byteSeen s core (k + i) v upto)
/-- Locations that are no region's and in no frame of a region. -/
def Plain (s : State) (k n : Nat) : Prop := ∀ i < n, isRegionKey (k + i) = false ∧ (keyLoc (k + i) = 0 → frameOwner (k + i) s.regions = none)
/-- The new value of an atom from the old, the operand and the comparand; nothing where none is written (R288, R289). -/
def atomRule (n : Nat) (op : AtomOp) (o v c : BitVec n) : Option (BitVec n) :=
  match op with
  | .add => some (o + v)
  | .and => some (o &&& v)
  | .or => some (o ||| v)
  | .xor => some (o ^^^ v)
  | .minI => some (if v.slt o then v else o)
  | .maxI => some (if o.slt v then v else o)
  | .minN => some (if v < o then v else o)
  | .maxN => some (if o < v then v else o)
  | .exch => some v
  | .cas => if o = c then some v else none
  | .fadd => some (BitVec.ofNat n (FFmt.f32.add .rne o.toNat v.toNat))
  | .incw => some (if v ≤ o then 0 else o + 1)
/-- The registers of an atom. -/
def atomRegs (noret wide : Bool) (d a b c : Reg) (op : AtomOp) : List Nat :=
  let n := fun r : Reg => if wide then [r.toNat, r.toNat + 1] else [r.toNat]
  [a.toNat, a.toNat + 1] ++ n b ++ (if noret then [] else n d) ++ (if op = .cas then n c else [])
/-- The line that ldline and stline name: Pair(l, a) + imm × 128, its low seven bits clear (R286). -/
def lineOf (a : Reg) (imm : Imm8) (h : Thread) : Nat := ((P64 h a + imm.signExtend 64 * 128) &&& ~~~(127 : BitVec 64)).toNat

end Sys2Proof.Claims

/-! ### Memory words -/

/-- R278, R281, R284, R285: a load whose lanes pass every check issues one operation with one access for each lane, and writes no register yet. -/
def Sys2Proof.Claims.LoadsIssueOnce : Prop :=
  ∀ (i : Instr) (x : Access1) (s : State) (gid : Nat) (good : List GoodLane), loadRule i = some x → wellFormed i = true → Issues s gid x.allRegs →
    AllPass s (s.ctx gid) x.k (fun h => (x.addr h).toNat) x.size x.size .read good →
    ∃ t o, exec i s = .next t ∧ Adds s t gid o ∧ o.kind = .load x.size x.signed ∧ o.all = takers s gid x.k ∧
      o.accs.map (fun a => (a.thread, a.va, a.key, a.size, a.d, a.vec)) = good.map (fun e => (e.1.idx, (x.addr e.1).toNat, e.2.2.key, x.size, x.d.toNat, e.1.obs)) ∧
      ThreadsSame s t ∧ MemorySame s t ∧ Passed s t gid x.len

/-- R245, R278, R282, R284, R285: a store of a team that is not redundant leaves every home as it was; each lane's bytes are a write under way, and nothing else is; a store into a region waits at its word for its home. -/
def Sys2Proof.Claims.StoresGoOut : Prop :=
  ∀ (i : Instr) (x : Access1) (s : State) (gid : Nat) (good : List GoodLane), storeRule i = some x → wellFormed i = true → Issues s gid x.allRegs →
    AllPass s (s.ctx gid) x.k (fun h => (x.addr h).toNat) x.size x.size .write good → (s.ctx gid).l.redundant = false →
    ∃ t o, exec i s = .next t ∧ t.ops = s.ops ++ [o] ∧ o.kind = .store ∧ o.gids = [gid] ∧ o.flag = (s.grp gid).flag ∧
      o.accs.map (fun a => (a.thread, a.va, a.key, a.size)) = good.map (fun e => (e.1.idx, (x.addr e.1).toNat, e.2.2.key, x.size)) ∧
      RegsSame s t ∧ HomesSame s t ∧
      (∀ e ∈ good, ∃ w ∈ t.writes, w.key = e.2.2.key ∧ w.bytes.length = x.size) ∧
      WritesStay s t ∧ (∀ w ∈ t.writes, WasThere s w ∨ ∃ e ∈ good, w.key = e.2.2.key ∧ w.bytes = dataBytes e.1 x.d x.size ∧ w.origin = ((s.ctx gid).t.core + (s.ctx gid).l.half e.1.idx) / 192) ∧
      (inRegion good = false → Passed s t gid x.len) ∧ (inRegion good = true → o.verdict = true ∧ t.grp gid = s.grp gid)

/-- R309, R449: a store of a copy of a redundant team with room for it, to pages that ask for no frame, is held back with its bytes, and changes no home and nothing under way. -/
def Sys2Proof.Claims.StoresAreHeld : Prop :=
  ∀ (i : Instr) (x : Access1) (s : State) (gid : Nat) (good : List GoodLane), storeRule i = some x → wellFormed i = true → Issues s gid x.allRegs →
    AllPass s (s.ctx gid) x.k (fun h => (x.addr h).toNat) x.size x.size .write good → (s.ctx gid).l.redundant = true → s.heldFull (s.grp gid).team = false →
    (∀ e ∈ good, e.2.2.isDefault = false) → s.findTeam (s.grp gid).team ≠ none →
    ∃ t, exec i s = .next t ∧ t.ops = s.ops ∧ t.writes = s.writes ∧ HomesSame s t ∧ Passed s t gid x.len ∧
      (t.team (s.grp gid).team).held.map (fun h => (h.thread, h.va, h.bytes)) =
        (s.team (s.grp gid).team).held.map (fun h => (h.thread, h.va, h.bytes)) ++ good.map (fun e => (e.1.idx, (x.addr e.1).toNat, dataBytes e.1 x.d x.size))

/-- R281, R282, R37, R41: where every acting lane of a load or store is misaligned and they are all of the group, or one acts for all, the group parks whole with class 8, the address of the first lane, and the word pending. -/
def Obligations.MisalignedAccessParks : Prop :=
  ∀ (i : Instr) (x : Access1) (s : State) (gid : Nat) (h : Thread) (rest : List Thread), loadRule i = some x ∨ storeRule i = some x → wellFormed i = true →
    Issues s gid x.allRegs → s.findGrp gid ≠ none → (s.ctx gid).actors x.k = h :: rest → (∀ y ∈ h :: rest, (x.addr y).toNat % x.size ≠ 0) →
    (x.k.u = true ∨ ∀ j ∈ (s.grp gid).members, ∃ y ∈ h :: rest, y.idx = j) →
    exec i s = .next (s.parkWhole gid { cls := 8, detail := 0, addr := (x.addr h).toNat, len := x.len })

/-- R286: ldline reads one word of the line for each lane, or two under W = 16, the second into d + 1. -/
def Sys2Proof.Claims.LineLoadIssues : Prop :=
  ∀ (k : Ctl) (d a : Reg) (imm : Imm8) (s : State) (gid : Nat) (good : List GoodLane), wellFormed (.ldline k d a imm) = true →
    Issues s gid ([a.toNat, a.toNat + 1] ++ lineRegs (s.ctx gid).l d) → AllPass s (s.ctx gid) k (lineOf a imm) 1 128 .read good →
    ∃ t o, exec (.ldline k d a imm) s = .next t ∧ Adds s t gid o ∧ o.kind = .line ∧ o.all = takers s gid k ∧
      o.accs.map (fun x => (x.thread, x.key, x.size, x.d)) =
        good.flatMap (fun e => let n := (s.ctx gid).lane e.1; if (s.ctx gid).l.w = 16
          then [(e.1.idx, e.2.2.key + 4 * n, 4, d.toNat), (e.1.idx, e.2.2.key + 4 * (n + 16), 4, d.toNat + 1)]
          else [(e.1.idx, e.2.2.key + 4 * (n % 32), 4, d.toNat)]) ∧
      ThreadsSame s t ∧ MemorySame s t ∧ Passed s t gid 1

/-- A load whose lanes pass every check issues one operation with one access for each lane, and writes no register yet. ldline reads one word of the line for each lane, or two under W = 16, the second into d + 1. -/
def Obligations.LoadsIssue : Prop :=
  Sys2Proof.Claims.LoadsIssueOnce ∧ Sys2Proof.Claims.LineLoadIssues

/-- R286: stline leaves every home and register as it was; every write it makes lies in a line that an acting lane names. -/
def Sys2Proof.Claims.LineStoreIssues : Prop :=
  ∀ (k : Ctl) (d a : Reg) (imm : Imm8) (s : State) (gid : Nat) (good : List GoodLane), wellFormed (.stline k d a imm) = true →
    Issues s gid ([a.toNat, a.toNat + 1] ++ lineRegs (s.ctx gid).l d) → AllPass s (s.ctx gid) k (lineOf a imm) 1 128 .write good →
    (s.ctx gid).l.redundant = false → (∀ e ∈ good, e.2.2.key % 128 = 0) → (∀ e ∈ good, (s.ctx gid).lane e.1 < (s.ctx gid).l.w) →
    ∃ t o, exec (.stline k d a imm) s = .next t ∧ t.ops = s.ops ++ [o] ∧ o.kind = .store ∧ o.gids = [gid] ∧ RegsSame s t ∧ HomesSame s t ∧
      WritesStay s t ∧ (∀ w ∈ t.writes, WasThere s w ∨ ∃ e ∈ good, w.key / 128 = e.2.2.key / 128 ∧ (w.bytes.length = 4 ∨ w.bytes.length = 128 ∧ w.segs ≠ [])) ∧
      (inRegion good = false → Passed s t gid 1)

/-- R245, R291, R400: stna of a team that is not redundant sends each lane's bytes straight to its home, and passes, but for a page under migration, for which the group waits at the word; its predicate comes with the home's answer. -/
def Sys2Proof.Claims.StnaIssues : Prop :=
  ∀ (k : Ctl) (m : StnaSize) (d a : Reg) (disp : Bits16) (pd : Pred) (s : State) (gid : Nat) (good : List GoodLane), wellFormed (.stna k m d a disp pd) = true →
    Issues s gid ([a.toNat, a.toNat + 1] ++ (List.range ((m.bytes + 3) / 4)).map (· + d.toNat)) →
    AllPass s (s.ctx gid) k (fun h => (P64 h a + disp.signExtend 64).toNat) m.bytes m.bytes .write good → (s.ctx gid).l.redundant = false →
    ∃ t o, exec (.stna k m d a disp pd) s = .next t ∧ Adds s t gid o ∧ o.kind = .stna ∧ o.pd = pd.toNat ∧ o.all = takers s gid k ∧
      RegsSame s t ∧ HomesSame s t ∧ (stays good = false → Passed s t gid 2) ∧ (stays good = true → o.verdict = true ∧ t.grp gid = s.grp gid) ∧
      (∀ e ∈ good, ∃ w ∈ t.writes, w.key = e.2.2.key ∧ w.bytes = dataBytes e.1 d m.bytes ∧ w.l1 = none) ∧
      (∀ w ∈ t.writes, w ∈ s.writes ∨ ∃ e ∈ good, w.key = e.2.2.key ∧ w.bytes = dataBytes e.1 d m.bytes)

/-- A store of a team that is not redundant leaves every home as it was; each lane's bytes are a write under way, and nothing else is; a store into a region waits at its word for its home. A store of a copy of a redundant team with room for it, to pages that ask for no frame, is held back with its bytes, and changes no home and nothing under way. stline leaves every home and register as it was; every write it makes lies in a line that an acting lane names. stna of a team that is not redundant sends each lane's bytes straight to its home, and passes, but for a page under migration, for which the group waits at the word; its predicate comes with the home's answer. -/
def Obligations.StoresIssue : Prop :=
  Sys2Proof.Claims.StoresGoOut ∧ Sys2Proof.Claims.StoresAreHeld ∧ Sys2Proof.Claims.LineStoreIssues ∧ Sys2Proof.Claims.StnaIssues

/-- R288, R311, R313, R319: an atom of a team that is not redundant keeps each lane's operand and comparand, and takes each lane's place in its origin's order with a write of no bytes yet; one that releases takes it when its release has completed, so nothing is under way for it yet. -/
def Obligations.AtomIssues : Prop :=
  ∀ (k : Ctl) (noret : Bool) (d a b c : Reg) (op : AtomOp) (wide : Bool) (scope : Scope) (order : AtomOrder) (s : State) (gid : Nat) (good : List GoodLane),
    wellFormed (.atom k noret d a b c op wide scope order) = true → Issues s gid (atomRegs noret wide d a b c op) →
    AllPass s (s.ctx gid) k (fun h => (P64 h a).toNat) (if wide then 8 else 4) (if wide then 8 else 4) .atomic good → (s.ctx gid).l.redundant = false → (s.grp gid).team.shadow = false →
    ∃ t o, exec (.atom k noret d a b c op wide scope order) s = .next t ∧ t.ops = s.ops ++ [o] ∧
      o.kind = .atom op wide order.rel order.acq scope.code noret ∧ o.gids = [gid] ∧ o.all = takers s gid k ∧
      o.accs.map (fun x => (x.thread, x.key, x.size, x.d, x.opnd, x.cmp)) = good.map (fun e => (e.1.idx, e.2.2.key, (if wide then 8 else 4), d.toNat,
        (if wide then (P64 e.1 b).toNat else (V e.1 b).toNat), (if op = .cas then (if wide then (P64 e.1 c).toNat else (V e.1 c).toNat) else 0))) ∧
      RegsSame s t ∧ HomesSame s t ∧ (∀ w ∈ t.writes, w ∈ s.writes ∨ (w.bytes = [] ∧ ∃ e ∈ good, w.key = e.2.2.key)) ∧
      (order.rel = true → t.writes = s.writes) ∧ (order.rel = false → ∀ e ∈ good, ∃ w ∈ t.writes, w.key = e.2.2.key ∧ w.bytes = [] ∧ w.size = (if wide then 8 else 4)) ∧
      (inRegion good = false → stays good = false → Passed s t gid 2) ∧ (inRegion good = true ∨ stays good = true → o.verdict = true ∧ t.grp gid = s.grp gid)

/-! ### Homes -/

/-- R279, R314, R315: a home that has applied what a load's vector names serves the access that is left, behind no earlier access of its thread that has not been served: each byte is the core's own copy where it may hit it, else the home's; bytes that carry no error change nothing in memory. -/
def Obligations.HomeServesLoad : Prop :=
  ∀ (s : State) (o : Op) (pre : List Acc) (a : Acc) (size : Nat) (signed : Bool), s.findOp o.id = some o → o.isReady = false → o.kind = .load size signed →
    o.accs = pre ++ [a] → (∀ x ∈ pre, x.done = true) → a.done = false → (s.team o.team).held = [] → s.hasReplica o.core a.key = false → s.behind o.team a.thread a.key a.size o.id = false →
    (∀ i < a.size, s.homeReady (s.homeOf (a.key + i)) a.vec = true) →
    ∃ t b, exec (.homeRead o.id) s = .next t ∧ (t.findOp o.id).map (·.accs) = some (pre ++ [b]) ∧ b.done = true ∧ b.thread = a.thread ∧ b.d = a.d ∧ b.fault = a.fault ∧
      b.val = seen s o.core a.key a.size a.vec o.id ∧ (s.poisoned o.core a.key a.size a.vec = false → MemorySame s t) ∧ ThreadsSame s t

/-- R57, R65, R278: when an operation other than the push of a call or the loads of a ret or tret completes, exactly the results it holds are written to their threads' registers, over what was to land there by then, and it is outstanding no more. -/
def Sys2Proof.Claims.OperationResultsWritten : Prop :=
  ∀ (s : State) (o : Op), s.findOp o.id = some o → s.opDone o = true → (∀ m, o.kind ≠ .push m) → (∀ u, o.kind ≠ .pop u) → (∀ u r, o.kind ≠ .frame u r) →
    (∀ r ∈ o.final, ∃ h ∈ (s.team o.team).threads, h.idx = r.1) →
    ∃ t, exec (.variableOpComplete o.id) s = .next t ∧ (∀ x ∈ t.ops, x.id ≠ o.id) ∧
      ∀ id i, let ws := (o.final.filter fun r => decide (id = o.team ∧ r.1 = i)).map (·.2)
        let h := if ws = [] then s.thread id i else ((s.thread id i).landed ((s.die ((s.team o.team).core / 192)).clock + 1)).puts ws
        (t.thread id i).regs = h.regs ∧ (t.thread id i).preds = h.preds ∧ (t.thread id i).sp = h.sp

/-- R65, R284: a narrow load that completes writes its value to the lane's register, extended by the sign of its type; every other register holds what had landed there by then. -/
def Sys2Proof.Claims.LoadedValuesExtend : Prop :=
  ∀ (s : State) (o : Op) (a : Acc) (n : Nat) (signed : Bool), s.findOp o.id = some o → o.kind = .load n signed → n = 1 ∨ n = 2 ∨ n = 4 → o.accs = [a] → o.results = [] → o.all = [] →
    a.done = true → a.fault = 0 → o.verdict = false → (s.team o.team).threads.any (fun h => h.idx == a.thread) = true → s.findTeam o.team ≠ none →
    Store.wf 0 (s.thread o.team a.thread).regs = true →
    ∃ t, exec (.variableOpComplete o.id) s = .next t ∧
      (t.thread o.team a.thread).raw a.d = (if signed then (BitVec.ofNat (8 * n) a.val).signExtend 32 else BitVec.ofNat 32 a.val) ∧
      ∀ r, r ≠ a.d → (t.thread o.team a.thread).raw r = ((s.thread o.team a.thread).landed ((s.die ((s.team o.team).core / 192)).clock + 1)).raw r

/-- When an operation other than the push of a call or the loads of a ret or tret completes, exactly the results it holds are written to their threads' registers, over what was to land there by then, and it is outstanding no more. A narrow load that completes writes its value to the lane's register, extended by the sign of its type; every other register holds what had landed there by then. -/
def Obligations.OperationResultsLand : Prop :=
  Sys2Proof.Claims.OperationResultsWritten ∧ Sys2Proof.Claims.LoadedValuesExtend

/-- R245, R311, R314: a write that its home may apply lands its bytes and is under way no more; every other location reads as before, and memory keeps its canonical form. -/
def Obligations.HomeAppliesWrite : Prop :=
  ∀ (s : State) (w : Write), findBy (fun x : Write => x.id == w.id) s.writes = some w → s.canApply w = true → w.segs = [] → Carries w → Plain s w.key w.bytes.length →
    Memory.wf s.mem = true → Store.wf none s.outMem = true →
    ∃ t, exec (.homeWrite w.id) s = .next t ∧ (∀ x ∈ t.writes, x ∈ s.writes ∧ x.id ≠ w.id) ∧ Memory.wf t.mem = true ∧
      ∀ k, t.locByte k = if w.key ≤ k ∧ k < w.key + w.bytes.length then w.bytes.getD (k - w.key) 0 else s.locByte k

/-- R288, R289: an atom performed at its home gives its lane the old value and writes the new one, in one step; every other location reads as before. -/
def Obligations.AtomPerforms : Prop :=
  ∀ (s : State) (o : Op) (pre : List Acc) (a : Acc) (w : Write) (op : AtomOp) (wide rel acq noret : Bool) (scope n : Nat), s.findOp o.id = some o → o.isReady = false →
    o.kind = .atom op wide rel acq scope noret → o.accs = pre ++ [a] → (∀ x ∈ pre, x.done = true ∧ x.ws = []) → s.placeOf a = some w → s.atomReady a w = true → o.team.shadow = false →
    n = (if wide then 64 else 32) → a.size = n / 8 → a.opnd < 2 ^ n → a.cmp < 2 ^ n → a.fault = 0 → (op = .fadd → wide = false) → s.poisoned o.core a.key a.size a.vec = false → Plain s a.key a.size →
    Memory.wf s.mem = true → Store.wf none s.outMem = true →
    ∃ t b, exec (.atomPerform o.id) s = .next t ∧ (t.findOp o.id).map (·.accs) = some (pre ++ [b]) ∧ b.done = true ∧ b.val = s.locNat a.key a.size ∧ b.fault = 0 ∧
      ∀ k, t.locByte k = match atomRule n op (BitVec.ofNat n (s.locNat a.key a.size)) (BitVec.ofNat n a.opnd) (BitVec.ofNat n a.cmp) with
        | some v => if a.key ≤ k ∧ k < a.key + a.size then (v >>> (8 * (k - a.key))).setWidth 8 else s.locByte k
        | none => s.locByte k

namespace Sys2Proof.Claims
open Sys2Proof Sys2Proof.Machine

/-! ### Standing loads, queries, claims, the scratchpad, tags and buffers -/

/-- The slot that a register names (R297). -/
def slotOf (h : Thread) (r : Reg) : Nat := ((V h r).setWidth 8).toNat
/-- A scratchpad offset of format I, modulo 2^32 (log entry 11). -/
def padOff (h : Thread) (a : Reg) (imm : Imm8) : Nat := (V h a + imm.signExtend 32 * 4).toNat
/-- The half of a team on the issuing core: 0 the leader's, 1 the follower's. -/
def half (c : Ctx) : Nat := c.core - c.t.core
/-- No declared buffer of the team on the issuing core meets a range of bytes. -/
def NoBuffer (c : Ctx) (lo hi : Nat) : Prop := ∀ b ∈ c.t.bufs, b.core ≠ c.core ∨ hi ≤ b.base ∨ b.base + b.len ≤ lo
/-- The bytes below the mooring area (R248). -/
def padTop (l : Launch) : Nat := l.scratch - 16 * l.slots
/-- Only the members' answers are added: one operation whose results are known, and the word passed. -/
def answered (s : State) (c : Ctx) (cls len : Nat) (rs : List (Nat × Wr)) : State :=
  ({ s with nextId := s.nextId + 1
            ops := s.ops ++ [{ id := s.nextId, team := c.g.team, core := c.core, gids := [c.gid], flag := c.g.flag, cls := cls, kind := .ready, isReady := true, results := rs }] } : State).endWord c len
/-- The whole group parks with a class, detail and address, the word pending. -/
def parked (s : State) (gid cls detail addr len : Nat) : State := s.parkWhole gid { cls := cls, detail := detail, addr := addr, len := len }

/-- What a form of bufmark or bufdecl.rel does to a buffer found in a state (R253): some a next state; or none, BUF_STATE. `filling` and `draining` say whether some operation may still fill or consume its bytes. -/
def markRule (form st : Nat) : Option Nat :=
  match form, st with
  | 0, 0 => some 1
  | 0, 1 => some 1
  | 1, 1 => some 2
  | 1, 2 => some 2
  | 2, 0 => some 0
  | 2, 2 => some 0
  | 2, 3 => some 0
  | _, _ => none

end Sys2Proof.Claims

/-! ### Standing loads and unmooring -/

/-- R297, R298: an lds whose slots exist issues one operation with each lane's address and slot. -/
def Sys2Proof.Claims.LdsIssues : Prop :=
  ∀ (k : Ctl) (sz : LdsSize) (d a : Reg) (pd : Pred) (s : State) (gid n : Nat) (good : List GoodLane), wellFormed (.lds k sz d a pd) = true → n = ldsBytes sz →
    Issues s gid ([a.toNat, a.toNat + 1] ++ (List.range (n / 4)).map (· + d.toNat)) → AllPass s (s.ctx gid) k (fun h => (P64 h a).toNat) n n .read good →
    (∀ h ∈ (s.ctx gid).actors k, slotOf h d < (s.ctx gid).l.slots) →
    ∃ t o, exec (.lds k sz d a pd) s = .next t ∧ Adds s t gid o ∧ o.kind = .lds (sz = .n64) ∧ o.pd = pd.toNat ∧ o.d = d.toNat ∧ o.all = takers s gid k ∧
      o.accs.map (fun x => (x.thread, x.key, x.opnd)) = good.map (fun e => (e.1.idx, e.2.2.key, slotOf e.1 d)) ∧ ThreadsSame s t ∧ MemorySame s t ∧ Passed s t gid 1

/-- R248, R298: an lds performed at its home, behind the earlier accesses of its thread and the earlier ones of its slot, reads the word, moors the slot where the table and quota have room, and writes the record: the value, count 0, and the thread's number with the moored bit. -/
def Sys2Proof.Claims.LdsPerforms : Prop :=
  ∀ (s : State) (o : Op) (pre : List Acc) (a : Acc) (wide : Bool), s.findOp o.id = some o → o.isReady = false → o.kind = .lds wide → o.accs = pre ++ [a] → (∀ x ∈ pre, x.done = true) →
    a.done = false → s.homeReady a.home a.vec = true → s.poisoned o.core a.key a.size a.vec = false → o.team.shadow = false → s.behind o.team a.thread a.key a.size o.id = false → s.ldsPending o.team o.core a.opnd o.id = false → (s.launch o.team.launch).redundant = false → s.mooringOf o.team o.core a.opnd = none → s.findTeam o.team ≠ none →
    Memory.wf (s.team o.team).scratch = true →
    let n := if wide then 8 else 4
    let off := slotOff (s.launch o.team.launch) (o.core - (s.team o.team).core) a.opnd
    let ok := s.canMoor (s.launch o.team.launch).tenant a
    ∃ t b, exec (.homeRead o.id) s = .next t ∧ (t.findOp o.id).map (·.accs) = some (pre ++ [b]) ∧ b.done = true ∧ b.val = s.locNat a.key n ∧ b.cmp = (if ok then 1 else 0) ∧ HomesSame s t ∧
      readBytes (t.team o.team).scratch off 16 = leBytes (s.locNat a.key n) 8 ++ leBytes 0 4 ++ leBytes (a.thread + if ok then 2 ^ 15 else 0) 4 ∧
      t.moorings.length = s.moorings.length + (if ok then 1 else 0) ∧ ∀ m ∈ t.moorings, m ∈ s.moorings ∨ (m.key = a.key ∧ m.size = n ∧ m.slot = a.opnd ∧ m.team = o.team ∧ m.home = a.home)

/-- R301: unsl issues one operation with the slot that each lane names, and no mooring has gone yet. -/
def Sys2Proof.Claims.UnslIssues : Prop :=
  ∀ (k : Ctl) (a : Reg) (s : State) (gid : Nat), wellFormed (.unsl k a) = true → Issues s gid [a.toNat] → s.findGrp gid ≠ none → (s.grp gid).park = none → (s.grp gid).members ≠ [] → (s.ctx gid).actors k ≠ [] →
    (∀ h ∈ (s.ctx gid).actors k, slotOf h a < (s.ctx gid).l.slots) →
    ∃ t o, exec (.unsl k a) s = .next t ∧ Adds s t gid o ∧ o.kind = .unsl ∧ o.accs.map (fun x => (x.thread, x.opnd)) = ((s.ctx gid).actors k).map (fun h => (h.idx, slotOf h a)) ∧
      (∀ x ∈ o.accs, x.done = false) ∧ t.moorings = s.moorings ∧ t.pushes = s.pushes ∧ ThreadsSame s t ∧ MemorySame s t ∧ Passed s t gid 1

/-- An lds whose slots exist issues one operation with each lane's address and slot. unsl issues one operation with the slot that each lane names, and no mooring has gone yet. -/
def Obligations.StandingLoadsIssue : Prop :=
  Sys2Proof.Claims.LdsIssues ∧ Sys2Proof.Claims.UnslIssues

/-! ### Regions -/

/-- R292 to R294: the queries of a region issue one operation whose accesses their homes answer; those that ask of a region's pages need an address in one. -/
def Sys2Proof.Claims.RegionQueriesIssue : Prop :=
  ∀ (k : Ctl) (d a b c0 : Reg) (words : Bits8) (s : State) (gid : Nat) (good : List GoodLane),
    AllPass s (s.ctx gid) k (fun h => (P64 h a).toNat) 1 1 .read good →
    (wellFormed (.pgq k d a) = true → Issues s gid [a.toNat, a.toNat + 1, d.toNat, d.toNat + 1] →
      ∃ t o, exec (.pgq k d a) s = .next t ∧ Adds s t gid o ∧ o.kind = .pgq ∧ o.d = d.toNat ∧ o.accs.map (fun x => (x.thread, x.key)) = good.map (fun e => (e.1.idx, e.2.2.key)) ∧
        ThreadsSame s t ∧ MemorySame s t ∧ Passed s t gid 1) ∧
    (wellFormed (.enumpgNext k d a b) = true → Issues s gid [a.toNat, a.toNat + 1, d.toNat, d.toNat + 1, b.toNat] → (∀ e ∈ good, e.2.2.region ≠ none) →
      ∃ t o, exec (.enumpgNext k d a b) s = .next t ∧ Adds s t gid o ∧ o.kind = .enumNext ∧ o.d = d.toNat ∧
        o.accs.map (fun x => (x.thread, x.key, x.opnd)) = good.map (fun e => (e.1.idx, e.2.2.key, (V e.1 b).toNat)) ∧ ThreadsSame s t ∧ MemorySame s t ∧ Passed s t gid 2) ∧
    (wellFormed (.enumpgMap k a b c0 words) = true → Issues s gid [a.toNat, a.toNat + 1, b.toNat, c0.toNat] → (∀ e ∈ good, e.2.2.region ≠ none) →
      (∀ e ∈ good, (V e.1 c0).toNat % 4 = 0 ∧ (V e.1 c0).toNat + 4 * (words.toNat + 1) ≤ padTop (s.ctx gid).l ∧ NoBuffer (s.ctx gid) (V e.1 c0).toNat ((V e.1 c0).toNat + 4 * (words.toNat + 1))) →
      ∃ t o, exec (.enumpgMap k a b c0 words) s = .next t ∧ Adds s t gid o ∧ o.kind = .enumMap (words.toNat + 1) ∧
        o.accs.map (fun x => (x.thread, x.key, x.opnd, x.d)) = good.map (fun e => (e.1.idx, e.2.2.key, (V e.1 b).toNat, (V e.1 c0).toNat)) ∧ ThreadsSame s t ∧ MemorySame s t ∧ Passed s t gid 2)

/-- R295: an append of at most sixteen bytes a lane, at an address that its leading lane may claim at, issues one operation that the group waits for; no home changes yet. -/
def Sys2Proof.Claims.AppendIssues : Prop :=
  ∀ (k : Ctl) (d a b c0 : Reg) (s : State) (gid : Nat) (h : Thread) (rest : List Thread) (tr : Tr), wellFormed (.append k d a b c0) = true →
    Issues s gid ([d.toNat, d.toNat + 1, a.toNat, a.toNat + 1] ++ (List.range 4).map (· + b.toNat) ++ [c0.toNat]) → s.findGrp gid ≠ none → (s.grp gid).park = none → (s.grp gid).members ≠ [] →
    (s.ctx gid).actors k = h :: rest → (∀ x ∈ h :: rest, (V x c0).toNat ≤ 16) → (s.ctx gid).l.redundant = false → (s.grp gid).team.shadow = false →
    s.checkAppend (s.core (s.ctx gid).core).tlb (s.ctx gid).l.tenant (s.ctx gid).l.asid (P64 h a).toNat = .ok tr →
    ∃ t o, exec (.append k d a b c0) s = .next t ∧ t.ops = s.ops ++ [o] ∧ o.kind = .append ∧ o.verdict = true ∧ o.gids = [gid] ∧ o.d = d.toNat ∧ o.all = takers s gid k ∧
      o.accs.map (fun x => (x.thread, x.size)) = (h :: rest).map (fun x => (x.idx, (V x c0).toNat)) ∧ RegsSame s t ∧ HomesSame s t ∧ t.grp gid = s.grp gid

/-- R273, R296: seal and free act once, on the APPEND region that the leading active member names: an open region begins sealing; a sealed or fully written one begins freeing, another waits to. (Of a launch that takes snapshots, while its set has room: else a notice goes out first, R397.) -/
def Sys2Proof.Claims.SealAndFreeAct : Prop :=
  ∀ (k : Ctl) (a : Reg) (s : State) (gid : Nat) (h : Thread) (tr : Tr) (r : Region), Issues s gid [a.toNat, a.toNat + 1] → ((s.ctx gid).active k).head? = some h →
    s.checkAppend (s.core (s.ctx gid).core).tlb (s.ctx gid).l.tenant (s.ctx gid).l.asid (P64 h a).toNat = .ok tr → tr.region = some r → s.findRegion r.id = some r → (s.ctx gid).l.redundant = false → s.findGrp gid ≠ none → (∀ x ∈ s.ops, x.id ≠ s.nextId) →
    s.findLaunch (s.ctx gid).l.id = some (s.ctx gid).l → ((s.ctx gid).l.replayable = true → (s.ctx gid).l.incomplete = false → s.snapRoom (s.ctx gid).l = true) →
    (wellFormed (.sealRegion k a) = true → ∃ t o q, exec (.sealRegion k a) s = .next t ∧ t.ops = s.ops ++ [o] ∧ o.kind = .seal r.id ∧ o.isReady = decide (2 ≤ r.st) ∧ t.findRegion r.id = some q ∧
      q = { r with st := if r.st = 0 then 1 else r.st } ∧ t.mem = s.mem ∧ ThreadsSame s t ∧ Passed s t gid 1) ∧
    (wellFormed (.freeRegion k a) = true → ∃ t o q, exec (.freeRegion k a) s = .next t ∧ t.ops = s.ops ++ [o] ∧ o.kind = .free r.id ∧ t.findRegion r.id = some q ∧
      (r.st ≠ 3 → r.freeWait = false → q.st = (if r.st = 2 ∨ (r.st = 0 ∧ r.t = r.c) then 3 else r.st) ∧ (q.freeWait = true ↔ ¬(r.st = 2 ∨ (r.st = 0 ∧ r.t = r.c)))) ∧
      t.mem = s.mem ∧ ThreadsSame s t ∧ Passed s t gid 1)

/-- The queries of a region issue one operation whose accesses their homes answer; those that ask of a region's pages need an address in one. An append of at most sixteen bytes a lane, at an address that its leading lane may claim at, issues one operation that the group waits for; no home changes yet. seal and free act once, on the APPEND region that the leading active member names: an open region begins sealing; a sealed or fully written one begins freeing, another waits to. (Of a launch that takes snapshots, while its set has room: else a notice goes out first, R397.) -/
def Obligations.RegionWordsIssue : Prop :=
  Sys2Proof.Claims.RegionQueriesIssue ∧ Sys2Proof.Claims.AppendIssues ∧ Sys2Proof.Claims.SealAndFreeAct

/-! ### Scratchpad and tags -/

/-- R284, R246: stsc writes each acting lane's word at its offset in the scratchpad of the issuing core, a later lane's over an earlier one's; nothing else of the team's scratchpad, buffers or registers changes, and of the rest of the machine only the core's count of bank conflicts. (That the offset wraps modulo 2^32 is deduced: log entry 11.) -/
def Sys2Proof.Claims.ScratchStores : Prop :=
  ∀ (k : Ctl) (d a : Reg) (imm : Imm8) (s : State) (gid : Nat), wellFormed (.stsc k d a imm) = true → Issues s gid [a.toNat, d.toNat] → s.findGrp gid ≠ none → (s.grp gid).park = none → (s.grp gid).members ≠ [] →
    s.findTeam (s.grp gid).team ≠ none →
    (∀ h ∈ (s.ctx gid).actors k, padOff h a imm % 4 = 0 ∧ padOff h a imm + 4 ≤ padTop (s.ctx gid).l ∧ NoBuffer (s.ctx gid) (padOff h a imm) (padOff h a imm + 4)) →
    ∃ t, exec (.stsc k d a imm) s = .next t ∧ { t with groups := s.groups, teams := s.teams, quads := s.quads, evNow := s.evNow } = s ∧
      (t.evNow = s.evNow ∨ ∃ n, t.evNow = Store.upd 0 s.evNow ((4096 + (s.ctx gid).core) * 256 + 0x46) (· + n)) ∧
      (t.team (s.grp gid).team).scratch = ((s.ctx gid).actors k).foldl (fun m h => writeBytes m (half (s.ctx gid) * 2 ^ 20 + padOff h a imm) (dataBytes h d 4)) (s.team (s.grp gid).team).scratch ∧
      (t.team (s.grp gid).team).bufs = (s.team (s.grp gid).team).bufs ∧ ThreadsSame s t ∧ Passed s t gid 1

/-- R284: ldsc, of bytes that carry no error, reads each acting lane's word from the scratchpad of the issuing core, and its results are known at once. (That the offset wraps modulo 2^32 is deduced: log entry 11.) -/
def Sys2Proof.Claims.ScratchLoads : Prop :=
  ∀ (k : Ctl) (d a : Reg) (imm : Imm8) (s : State) (gid : Nat), wellFormed (.ldsc k d a imm) = true → Issues s gid [a.toNat, d.toNat] → s.findGrp gid ≠ none → (s.grp gid).park = none → (s.grp gid).members ≠ [] →
    (s.ctx gid).actors k ≠ [] →
    (∀ h ∈ (s.ctx gid).actors k, padOff h a imm % 4 = 0 ∧ padOff h a imm + 4 ≤ (s.ctx gid).l.scratch ∧ NoBuffer (s.ctx gid) (padOff h a imm) (padOff h a imm + 4) ∧
      (s.team (s.grp gid).team).badBytes (half (s.ctx gid)) (padOff h a imm) (padOff h a imm + 4) = false) →
    ∃ t o, exec (.ldsc k d a imm) s = .next t ∧ Adds s t gid o ∧ o.isReady = true ∧ o.kind = .load 4 false ∧ o.all = takers s gid k ∧
      o.accs.map (fun x => (x.thread, x.d, x.val)) = ((s.ctx gid).actors k).map (fun h => (h.idx, d.toNat, leNat (readBytes (s.team (s.grp gid).team).scratch (half (s.ctx gid) * 2 ^ 20 + padOff h a imm) 4))) ∧
      ThreadsSame s t ∧ MemorySame s t ∧ Passed s t gid 1

/-- R303, R304: tset sets the entry each acting lane names, tclr clears it, tclr.all clears every entry; an index with no entry parks its lane. -/
def Sys2Proof.Claims.TagWordsWrite : Prop :=
  ∀ (k : Ctl) (d a b : Reg) (s : State) (gid : Nat), s.findGrp gid ≠ none → (s.grp gid).park = none → (s.grp gid).members ≠ [] → s.findTeam (s.grp gid).team ≠ none →
    let c := s.ctx gid
    (wellFormed (.tset k d a b) = true → Issues s gid [d.toNat, a.toNat, a.toNat + 1, b.toNat] → (∀ h ∈ c.actors k, (V h d).toNat % 512 < c.l.tagCount) →
      ∃ t, exec (.tset k d a b) s = .next t ∧ OnlyIssue s t ∧ ThreadsSame s t ∧ Passed s t gid 1 ∧
        (t.team (s.grp gid).team).tags = (c.actors k).foldl (fun m h => Store.set none m (half c * 512 + (V h d).toNat % 512) (some ⟨(P64 h a).toNat, ((V h b).setWidth 16).toNat⟩)) (s.team (s.grp gid).team).tags) ∧
    (wellFormed (.tclr k a) = true → Issues s gid [a.toNat] → (∀ h ∈ c.actors k, (V h a).toNat % 512 < c.l.tagCount) →
      ∃ t, exec (.tclr k a) s = .next t ∧ OnlyIssue s t ∧ ThreadsSame s t ∧ Passed s t gid 1 ∧
        (t.team (s.grp gid).team).tags = (c.actors k).foldl (fun m h => Store.set none m (half c * 512 + (V h a).toNat % 512) none) (s.team (s.grp gid).team).tags) ∧
    (wellFormed (.tclrAll k) = true → Issues s gid [] → c.active k ≠ [] → ∃ t, exec (.tclrAll k) s = .next t ∧ OnlyIssue s t ∧ ThreadsSame s t ∧ Passed s t gid 1 ∧ (t.team (s.grp gid).team).tags = [])

/-- stsc writes each acting lane's word at its offset in the scratchpad of the issuing core, a later lane's over an earlier one's; nothing else of the team's scratchpad, buffers or registers changes, and of the rest of the machine only the core's count of bank conflicts. (That the offset wraps modulo 2^32 is deduced: log entry 11.) ldsc, of bytes that carry no error, reads each acting lane's word from the scratchpad of the issuing core, and its results are known at once. (That the offset wraps modulo 2^32 is deduced: log entry 11.) tset sets the entry each acting lane names, tclr clears it, tclr.all clears every entry; an index with no entry parks its lane. -/
def Obligations.ScratchpadWords : Prop :=
  Sys2Proof.Claims.ScratchStores ∧ Sys2Proof.Claims.ScratchLoads ∧ Sys2Proof.Claims.TagWordsWrite

/-! ### Declared buffers -/

/-- R251, R305: a declaration whose range is aligned, not empty, at most 512 KiB, inside the allocation and clear of other buffers gives every member the core's lowest free handle, and the buffer stands EMPTY; with no handle left, all ones and no buffer. -/
def Sys2Proof.Claims.BufferDeclarations : Prop :=
  ∀ (k : Ctl) (d a b : Reg) (rot : Bits3) (cmp : Bool) (s : State) (gid : Nat) (h : Thread), wellFormed (.bufdecl k d a b rot cmp) = true → Issues s gid [d.toNat, a.toNat, b.toNat] → ((s.ctx gid).active k).head? = some h →
    (V h a).toNat % 128 = 0 → (V h b).toNat % 128 = 0 → (V h b).toNat ≠ 0 → (V h b).toNat ≤ 2 ^ 19 → (V h a).toNat + (V h b).toNat ≤ padTop (s.ctx gid).l →
    NoBuffer (s.ctx gid) (V h a).toNat ((V h a).toNat + (V h b).toNat) →
    let c := s.ctx gid
    exec (.bufdecl k d a b rot cmp) s = .next (match s.freeHandle c.core with
      | none => answered s c 2 2 (c.g.members.flatMap fun i => (toReg d 0xFFFFFFFF).map fun w => (i, w))
      | some n => answered (s.updTeam c.g.team fun t => { t with bufs := t.bufs ++ [{ handle := n, core := c.core, base := (V h a).toNat, len := (V h b).toNat, rot := rot.toNat, cmp := cmp, st := 0 }] }) c 2 2
          (c.g.members.flatMap fun i => (toReg d (BitVec.ofNat 32 n)).map fun w => (i, w)))

/-- R253, R256, R305: bufmark.fill, .full and .empty move the named buffer as the table of its states says, once no operation may still fill (for .full) or consume (for .empty) it; elsewhere the group parks with the state found; bufdecl.rel removes an EMPTY buffer. -/
def Sys2Proof.Claims.BufferMarks : Prop :=
  ∀ (k : Ctl) (a : Reg) (s : State) (gid : Nat) (h : Thread) (b : Buf), Issues s gid [a.toNat] → ((s.ctx gid).active k).head? = some h → (s.ctx gid).t.buf (s.ctx gid).core (V h a).toNat = some b → b.st ≤ 3 →
    let c := s.ctx gid
    let goes := fun n => (s.updTeam c.g.team fun t => t.setBuf b.core b.handle n).endWord c 1
    (wellFormed (.bufmarkFill k a) = true → exec (.bufmarkFill k a) s = .next (match markRule 0 b.st with
      | some n => goes n
      | none => parked s gid 0x0C b.st b.base 1)) ∧
    (wellFormed (.bufmarkFull k a) = true → b.st = 2 → exec (.bufmarkFull k a) s = .next (s.endWord c 1)) ∧
    (wellFormed (.bufmarkEmpty k a) = true → b.st = 0 → exec (.bufmarkEmpty k a) s = .next (s.endWord c 1)) ∧
    (wellFormed (.bufmarkFull k a) = true → (b.st = 1 → s.bufBusy c.g.team b true = false) → b.st ≠ 2 → exec (.bufmarkFull k a) s = .next (match markRule 1 b.st with
      | some n => goes n
      | none => parked s gid 0x0C b.st b.base 1)) ∧
    (wellFormed (.bufmarkEmpty k a) = true → (2 ≤ b.st → s.bufBusy c.g.team b false = false) → b.st ≠ 0 → exec (.bufmarkEmpty k a) s = .next (match markRule 2 b.st with
      | some n => goes n
      | none => parked s gid 0x0C b.st b.base 1)) ∧
    (wellFormed (.bufdeclRel k a) = true → exec (.bufdeclRel k a) s = .next (if b.st = 0 then (s.updTeam c.g.team fun t => { t with bufs := t.bufs.filter fun x => x != b }).endWord c 2 else parked s gid 0x0C b.st b.base 2))

/-- R253: the bufmark at which a group is held takes its transition once no operation may still fill (for .full) or consume (for .empty) the buffer, and the group passes the word. -/
def Sys2Proof.Claims.BufferTransitions : Prop :=
  ∀ (k : Ctl) (a : Reg) (s : State) (gid : Nat) (g : Grp) (n : Next) (h : Thread) (b : Buf),
    let u : State := { s with current := some gid }
    let c := u.ctx gid
    let goes := fun m => (u.updTeam c.g.team fun t => t.setBuf b.core b.handle m).endWord c 1
    s.findGrp gid = some g → g.held = 10 → s.nextWord g = .ok (some n) → Issues u gid [a.toNat] → (c.active k).head? = some h → c.t.buf c.core (V h a).toNat = some b →
    (n.instr g.word = some (.bufmarkFull k a) → b.st = 1 → u.bufBusy c.g.team b true = false → exec (.bufferTransition gid) s = .next (goes 2)) ∧
    (n.instr g.word = some (.bufmarkEmpty k a) → b.st = 2 ∨ b.st = 3 → u.bufBusy c.g.team b false = false → exec (.bufferTransition gid) s = .next (goes 0))

/-- A declaration whose range is aligned, not empty, at most 512 KiB, inside the allocation and clear of other buffers gives every member the core's lowest free handle, and the buffer stands EMPTY; with no handle left, all ones and no buffer. bufmark.fill, .full and .empty move the named buffer as the table of its states says, once no operation may still fill (for .full) or consume (for .empty) it; elsewhere the group parks with the state found; bufdecl.rel removes an EMPTY buffer. The bufmark at which a group is held takes its transition once no operation may still fill (for .full) or consume (for .empty) the buffer, and the group passes the word. -/
def Obligations.BufferWords : Prop :=
  Sys2Proof.Claims.BufferDeclarations ∧ Sys2Proof.Claims.BufferMarks ∧ Sys2Proof.Claims.BufferTransitions

namespace Sys2Proof.Claims
open Sys2Proof Sys2Proof.Machine

/-! ### Channels, queues and control -/

/-- The group stands unparked, with threads of its team for members. -/
def Stands (s : State) (gid : Nat) : Prop :=
  (∃ g, s.findGrp gid = some g ∧ g.park = none) ∧ (s.grp gid).members ≠ [] ∧ ∀ i ∈ (s.grp gid).members, ∃ h ∈ (s.team (s.grp gid).team).threads, h.idx = i
/-- Registers, predicates, fsr and results on the way, of every thread, are as they were; sp may differ. -/
def VecSame (s t : State) : Prop := ∀ id i,
  let a := t.thread id i
  let b := s.thread id i
  a.regs = b.regs ∧ a.preds = b.preds ∧ a.fsr = b.fsr ∧ a.pend = b.pend
/-- The members that a control word moves: each acting one, or under U = 1 all as the leading member does (R125). -/
def moved (s : State) (gid : Nat) (k : Ctl) : List Nat :=
  let hs := (s.ctx gid).actors k
  if k.u then (if hs.isEmpty then [] else (s.grp gid).members) else hs.map (·.idx)
/-- The clause after the one in progress (R56). -/
def nextClause (s : State) (gid : Nat) : Nat := (s.grp gid).pc + 4 * (headerN (s.grp gid).header + 1)
/-- Where a member goes. -/
def goesTo (s : State) (gid : Nat) (mv : List Nat) (dest : Nat → Nat) (i : Nat) : Nat := if i ∈ mv then dest i else nextClause s gid
/-- The branch is divergent: a member moves, and another does not or moves elsewhere (R143, R145). -/
def Splits (s : State) (gid : Nat) (mv : List Nat) (dest : Nat → Nat) : Prop :=
  ∃ i ∈ (s.grp gid).members, i ∈ mv ∧ ∃ j ∈ (s.grp gid).members, j ∉ mv ∨ dest j ≠ dest i
/-- The clause ends and the members go on: together, or after a divergent branch each at its own place, LOOSE once the group's flags are clear (R18 to R22, R143). -/
def Goes (s t : State) (gid : Nat) (mv : List Nat) (dest : Nat → Nat) : Prop :=
  (¬Splits s gid mv dest → (t.grp gid).members = (s.grp gid).members ∧ (t.grp gid).word = 0 ∧ (t.grp gid).clause = 0 ∧ ∀ i ∈ (s.grp gid).members, (t.grp gid).pc = goesTo s gid mv dest i) ∧
  (Splits s gid mv dest → ∀ i ∈ (s.grp gid).members, (t.thread (s.grp gid).team i).pc = goesTo s gid mv dest i ∧ (t.thread (s.grp gid).team i).word = 0 ∧
    ((t.grp gid).regroup = true ∨ (t.findGrp gid = none ∧ ∃ n, (t.thread (s.grp gid).team i).st = .loose n)))
/-- The target of a direct branch from the word in issue (R143). -/
def directTarget (s : State) (gid : Nat) (off : Off20) : Nat := (BitVec.ofNat 57 ((s.grp gid).pc + 4 * (1 + (s.grp gid).word)) + 4 * off.signExtend 57).toNat
/-- The lane whose operand a member goes by: its own, or under U = 1 the leading member's. -/
def guide (s : State) (gid : Nat) (k : Ctl) (i : Nat) : Thread :=
  let hs := (s.ctx gid).actors k
  ((if k.u then hs.head? else hs.find? fun h => h.idx == i)).getD (Thread.absent i)
/-- A code address that may be a target: its upper bits copy bit 56, and a clause header stands there (R69, R146). -/
def Target (s : State) (gid : Nat) (va : Nat) : Prop := canonical va = true ∧ s.isHeader (s.ctx gid).l.tenant (s.ctx gid).l.asid (va % 2 ^ 57) = true
/-- The whole group parks at a lane's bad target, which the pair of that lane names (R146). -/
def missed (s : State) (gid : Nat) (h : Thread) (a : Reg) : State := s.parkWhole gid { cls := 0x03, detail := 0, addr := (P64 h a).toNat, who := some h.idx }
/-- The eight-byte loads of some lanes, as far as their core has them (R315). -/
def loadsOf (s : State) (c : Ctx) (good : List GoodLane) : List Acc := (good.map fun e => s.accFor e.1 e.2.1 e.2.2 8 0).map (s.serve false c.t c.core s.nextId)
/-- An operation for which a group waits at its word, all of it served and nothing of it at fault; its members are about to issue, and no regroup point stands before them. -/
structure Awaited (s : State) (o : Op) (gid : Nat) (u : Bool) : Prop where
  op : s.findOp o.id = some o
  verdict : o.verdict = true
  gids : o.gids = [gid]
  team : o.team = (s.grp gid).team
  all : o.all = if u then (s.grp gid).members else []
  results : o.results = []
  some_ : o.accs ≠ []
  served : ∀ a ∈ o.accs, a.done = true ∧ a.fault = 0
  ofMembers : ∀ a ∈ o.accs, a.thread ∈ (s.grp gid).members
  stands : Stands s gid
  regroup : (s.grp gid).regroup = false
  issuing : ∀ i ∈ (s.grp gid).members, (s.thread (s.grp gid).team i).st = .issuing gid
/-- The load that a member goes by: its own, or under U = 1 the first. -/
def loadOf (u : Bool) (accs : List Acc) (i : Nat) : Option Acc := accs.find? fun a => u || a.thread == i
/-- Each member with a load has 8 added to the address it read as its sp and goes where the bytes read say; memory and registers are as they were. -/
def ReturnedTo (s t : State) (gid : Nat) (u : Bool) (accs : List Acc) : Prop :=
  MemorySame s t ∧ VecSame s t ∧
  (∀ i ∈ (s.grp gid).members, (t.thread (s.grp gid).team i).sp = match loadOf u accs i with
    | some a => BitVec.ofNat 64 (a.va + 8)
    | none => (s.thread (s.grp gid).team i).sp) ∧
  Goes s t gid ((s.grp gid).members.filter fun i => (loadOf u accs i).isSome) fun i => ((loadOf u accs i).map (·.val)).getD 0 % 2 ^ 57
/-- A member waits, with the clause after its wait (R20, R24). -/
def Waits (s t : State) (gid : Nat) (w : WaitKind) (i : Nat) : Prop := (t.thread (s.grp gid).team i).st = .waiting w (nextClause s gid)
/-- A member is LOOSE at the next clause. -/
def LooseNext (s t : State) (gid : Nat) (i : Nat) : Prop :=
  (∃ n, (t.thread (s.grp gid).team i).st = .loose n) ∧ (t.thread (s.grp gid).team i).pc = nextClause s gid ∧ (t.thread (s.grp gid).team i).word = 0
/-- The condition of a wait holds where its thread can see it (R155, R158): a slot's update count differs from the value given, counted in the slot's 16-byte record at the scratchpad's top; the eight-byte word is at least, or differs from, the value given, read at its home once that has applied what the thread observed and has it free of an uncorrectable error; a timeline has come to the number given. -/
def WaitOver (s : State) (l : Launch) (t : Team) (h : Thread) (k : WaitKind) : Prop :=
  let core := t.core + l.half h.idx
  let word := fun (va : Nat) (p : Nat → Prop) => ∃ tr, s.translate (s.core core).tlb l.tenant l.asid va = .ok tr ∧ s.homeReady (s.homeOf tr.key) h.obs = true ∧ s.badAt tr.key 8 = false ∧ p (s.locNat tr.key 8)
  match k with
  | .slot i n => leNat (readBytes t.scratch (l.half h.idx * 2 ^ 20 + l.scratch - 16 * (l.slots - i) + 8) 4) ≠ n
  | .wordGe va n => word va (n ≤ ·)
  | .wordNe va n => word va (· ≠ n)
  | .queue q n => n ≤ (s.queue q).timeline
  | .coreChan c n => n ≤ (s.chan (.core core c)).timeline
  | .dieChan c n => n ≤ (s.chan (.die (core / 192) c)).timeline
  | _ => False
/-- A lane may read the word it waits on, and no placeholder that its core keeps lies behind what it has observed (R157, R384). -/
def readsWord (s : State) (c : Ctx) (a : Reg) (h : Thread) : Bool :=
  (s.checkLane c h (P64 h a).toNat 8 8 .read).isOk && decide (usable (s.core c.core).tlb c.l.tenant c.l.asid (P64 h a).toNat h.obs = (s.core c.core).tlb)
/-- The waits of mwait and waittl: marker bits, registers, what each acting lane waits for, and whether it may (R155 to R159). -/
def waitRule (s : State) (c : Ctx) : Instr → Option (Ctl × List Nat × (Thread → WaitKind) × (Thread → Bool))
  | .mwaitSlot k a b => some (k, [a.toNat, b.toNat], fun h => .slot ((V h a).toNat % 256) (V h b).toNat, fun h => decide ((V h a).toNat % 256 < c.l.slots))
  | .mwaitGe k a b => some (k, [a.toNat, a.toNat + 1, b.toNat, b.toNat + 1], fun h => .wordGe (P64 h a).toNat (P64 h b).toNat, readsWord s c a)
  | .mwaitNe k a b => some (k, [a.toNat, a.toNat + 1, b.toNat, b.toNat + 1], fun h => .wordNe (P64 h a).toNat (P64 h b).toNat, readsWord s c a)
  | .waittlQ k a b => some (k, [a.toNat, b.toNat, b.toNat + 1], fun h => .queue ((V h a).toNat % 2048) (P64 h b).toNat, fun h => ((s.queue ((V h a).toNat % 2048)).qctl >>> 24).setWidth 4 == BitVec.ofNat 4 c.l.tenant && decide (c.l.tenant < 16))
  | .waittlCh k a b => some (k, [a.toNat, b.toNat, b.toNat + 1], fun h => .coreChan ((V h a).toNat % 4) (P64 h b).toNat, fun _ => true)
  | .waittlDch k a b => some (k, [a.toNat, b.toNat, b.toNat + 1], fun h => .dieChan ((V h a).toNat % 16) (P64 h b).toNat, fun _ => true)
  | _ => none
/-- The cores and a core's translations are in the form that their operations keep. -/
def CachesOk (s : State) (core : Nat) : Prop := Store.wf {} s.cores = true ∧ Store.wf none (s.core core).tlb = true
/-- The packet type of a channel word, its registers and channel (R370). -/
def submitRule : Instr → Option (Nat × Ctl × Reg × Reg × Nat)
  | .copy k d a ch => some (2, k, d, a, ch.toNat)
  | .copym k d a ch => some (3, k, d, a, ch.toNat)
  | .xform k d a ch => some (4, k, d, a, ch.toNat)
  | _ => none

end Sys2Proof.Claims

/-! ### Channels and queues -/

/-- R370, R372: the participants that have not submitted do so in order while the channel has places: each takes the channel's next sequence number as its result and leaves its sixteen registers there; with all of them done the word passes, else it is held for the rest. -/
def Sys2Proof.Claims.ChannelSubmissions : Prop :=
  ∀ (i : Instr) (want ch : Nat) (k : Ctl) (d a : Reg) (s : State) (gid : Nat) (left : List Thread), submitRule i = some (want, k, d, a, ch) → wellFormed i = true →
    Issues s gid ([d.toNat, d.toNat + 1] ++ (List.range 16).map (· + a.toNat)) → Stands s gid → left = ((s.ctx gid).actors k).filter (fun x => !(s.grp gid).doneLanes.contains x.idx) →
    let c := s.ctx gid
    let x := s.chan (.core c.core ch)
    let n := min left.length (16 - x.ops.length)
    (∀ o ∈ s.ops, ∀ m, o.kind ≠ .matrix m) → (want = 3 → ∀ j < 8, n ≤ Store.get 0 (s.core c.core).free j) → c.l.redundant = false → (∀ o ∈ x.ops, o.seq ≤ x.lastSeq) →
    ∃ t new ps, exec i s = .next t ∧ t.ops = s.ops ++ new ∧ (∀ o ∈ new, o.isReady = true) ∧
      new.map (·.results) = (left.take n).zipIdx.map (fun e => (c.receivers k e.1).flatMap fun j => (toPair d (BitVec.ofNat 64 (x.lastSeq + 1 + e.2))).map fun w => (j, w)) ∧
      (t.chan (.core c.core ch)).lastSeq = x.lastSeq + n ∧ (t.chan (.core c.core ch)).ops = x.ops ++ ps ∧ ps.map (·.seq) = (List.range n).map (· + x.lastSeq + 1) ∧
      (∀ e ∈ (left.take n).zip ps, ((V e.1 a).toNat % 256 = want → e.2.bytes = dataBytes e.1 a 64) ∧ ((V e.1 a).toNat % 256 ≠ want → e.2.bytes.head? = some 0)) ∧ RegsSame s t ∧ HomesSame s t ∧
      (n = left.length → Passed s t gid 2) ∧ (n < left.length → (t.grp gid).held = 8 ∧ (t.grp gid).pc = (s.grp gid).pc ∧ (t.grp gid).word = (s.grp gid).word ∧ (t.grp gid).doneLanes = (s.grp gid).doneLanes ++ (left.take n).map (·.idx))

/-- R311, R371: qappend to open queues of the tenant issues one operation that the group waits for, with each lane's queue and sixteen registers; the places of its writes are taken in lane order with writes of no bytes yet. -/
def Sys2Proof.Claims.QueueAppendIssues : Prop :=
  ∀ (k : Ctl) (d a b : Reg) (pd : Pred) (s : State) (gid : Nat), wellFormed (.qappend k d a b pd) = true → Issues s gid ([d.toNat, d.toNat + 1, a.toNat] ++ (List.range 16).map (· + b.toNat)) → Stands s gid →
    (s.ctx gid).actors k ≠ [] → (∀ h ∈ (s.ctx gid).actors k, s.queueOpen (s.ctx gid).l.tenant ((V h a).toNat % 2048) = true) → (s.grp gid).team.shadow = false →
    ∃ t o, exec (.qappend k d a b pd) s = .next t ∧ Adds s t gid o ∧ o.kind = .qappend ∧ o.verdict = true ∧ o.pd = pd.toNat ∧ o.d = d.toNat ∧ o.all = takers s gid k ∧
      o.accs.map (fun x => (x.thread, x.opnd, x.cmp)) = ((s.ctx gid).actors k).map (fun h => (h.idx, (V h a).toNat % 2048, leNat (dataBytes h b 64))) ∧ RegsSame s t ∧ HomesSame s t ∧ (∀ w ∈ t.writes, w ∈ s.writes ∨ w.bytes = []) ∧ t.grp gid = s.grp gid

/-- R372, R373: tlrd.q gives each lane the timeline of its queue, where every queue is the tenant's; relslot adds to the free-slot counter that the named core keeps for the issuing one, up to 65,535. -/
def Sys2Proof.Claims.TimelineAndSlotWords : Prop :=
  ∀ (k : Ctl) (d a b : Reg) (s : State) (gid : Nat), Stands s gid →
    let c := s.ctx gid
    (wellFormed (.tlrdQ k d a) = true → Issues s gid [d.toNat, d.toNat + 1, a.toNat] → (∀ h ∈ c.actors k, bitsOf (s.queue ((V h a).toNat % 2048)).qctl.toNat 24 4 = c.l.tenant) →
      exec (.tlrdQ k d a) s = .next (answered s c 4 1 ((c.actors k).flatMap fun h => (c.receivers k h).flatMap fun i => (toPair d (BitVec.ofNat 64 (s.queue ((V h a).toNat % 2048)).timeline)).map fun w => (i, w)))) ∧
    (wellFormed (.relslot k a b) = true → Issues s gid [a.toNat, b.toNat] →
      exec (.relslot k a b) s = .next (((c.actors k).foldl (fun s h => s.updCore (c.core - c.core % 8 + (V h a).toNat % 8) fun x =>
        { x with free := Store.upd 0 x.free (c.core % 8) fun n => min 65535 (n + ((V h b).setWidth 16).toNat) }) s).endWord c 1))

/-- The participants that have not submitted do so in order while the channel has places: each takes the channel's next sequence number as its result and leaves its sixteen registers there; with all of them done the word passes, else it is held for the rest. qappend to open queues of the tenant issues one operation that the group waits for, with each lane's queue and sixteen registers; the places of its writes are taken in lane order with writes of no bytes yet. tlrd.q gives each lane the timeline of its queue, where every queue is the tenant's; relslot adds to the free-slot counter that the named core keeps for the issuing one, up to 65,535. -/
def Obligations.ChannelAndQueueWords : Prop :=
  Sys2Proof.Claims.ChannelSubmissions ∧ Sys2Proof.Claims.QueueAppendIssues ∧ Sys2Proof.Claims.TimelineAndSlotWords

/-! ### Branches, calls and returns -/

/-- R69, R143, R145, R146: bra moves its members to its target and brx to those their pairs name; a target that is no clause header, or whose upper bits are not copies of bit 56, parks the whole group with class 3 before any member moves, for brx with the lowest failing home lane. (That the fault's address is the target is the model's: log entry 20.) -/
def Obligations.Branches : Prop :=
  ∀ (k : Ctl) (off : Off20) (a : Reg) (s : State) (gid : Nat), Stands s gid →
    (wellFormed (.bra k off) = true → Issues s gid [] → s.isHeader (s.ctx gid).l.tenant (s.ctx gid).l.asid (directTarget s gid off) = true →
      ∃ t, exec (.bra k off) s = .next t ∧ RegsSame s t ∧ MemorySame s t ∧ OthersSame s t gid ∧ Goes s t gid (moved s gid k) fun _ => directTarget s gid off) ∧
    (wellFormed (.bra k off) = true → Issues s gid [] → s.isHeader (s.ctx gid).l.tenant (s.ctx gid).l.asid (directTarget s gid off) = false →
      exec (.bra k off) s = .next (parked s gid 0x03 0 (canonOf (directTarget s gid off)) 1)) ∧
    (wellFormed (.brx k a) = true → Issues s gid [a.toNat, a.toNat + 1] → (∀ h ∈ (s.ctx gid).actors k, Target s gid (P64 h a).toNat) →
      ∃ t, exec (.brx k a) s = .next t ∧ RegsSame s t ∧ MemorySame s t ∧ OthersSame s t gid ∧ Goes s t gid (moved s gid k) fun i => (P64 (guide s gid k i) a).toNat % 2 ^ 57) ∧
    (∀ ok h rest, wellFormed (.brx k a) = true → Issues s gid [a.toNat, a.toNat + 1] → (s.ctx gid).actors k = ok ++ h :: rest → (∀ x ∈ ok, Target s gid (P64 x a).toNat) → ¬Target s gid (P64 h a).toNat →
      exec (.brx k a) s = .next (missed s gid h a))

/-- R125, R144, R145, R147: a call whose pushes pass their checks and meet no region takes 8 from the sp of each lane that acts, has the return address of 8 bytes under way to each stack, and moves its members; no home changes yet. A bad target of call, or of a callx's lowest failing home lane, parks the whole group with class 3 and nothing is pushed. (That the fault's address is the target, log entry 20, and that under U = 1 the sp of the other members stays, log entry 22, are the model's.) -/
def Sys2Proof.Claims.Calls : Prop :=
  (∀ (k : Ctl) (off : Off20) (a : Reg) (s : State) (gid : Nat), Stands s gid →
    (wellFormed (.call k off) = true → Issues s gid [] → s.isHeader (s.ctx gid).l.tenant (s.ctx gid).l.asid (directTarget s gid off) = false →
      exec (.call k off) s = .next (parked s gid 0x03 0 (canonOf (directTarget s gid off)) 1)) ∧
    (∀ ok h rest, wellFormed (.callx k a) = true → Issues s gid [a.toNat, a.toNat + 1] → (s.ctx gid).actors k = ok ++ h :: rest → (∀ x ∈ ok, Target s gid (P64 x a).toNat) → ¬Target s gid (P64 h a).toNat →
      exec (.callx k a) s = .next (missed s gid h a))) ∧
  ∀ (k : Ctl) (off : Off20) (a : Reg) (s : State) (gid : Nat) (good : List GoodLane), Stands s gid → AllPass s (s.ctx gid) k (fun h => (h.sp - 8).toNat) 8 8 .write good → inRegion good = false → (s.ctx gid).l.redundant = false →
    let did := fun t => HomesSame s t ∧ VecSame s t ∧ OthersSame s t gid ∧ (∀ h ∈ (s.ctx gid).actors k, (t.thread (s.grp gid).team h.idx).sp = h.sp - 8) ∧
      (∀ i, (∀ h ∈ (s.ctx gid).actors k, h.idx ≠ i) → (t.thread (s.grp gid).team i).sp = (s.thread (s.grp gid).team i).sp) ∧
      WritesStay s t ∧ (∀ w ∈ t.writes, WasThere s w ∨ (w.bytes = leBytes (canonOf (nextClause s gid)) 8 ∧ ∃ e ∈ good, w.key = e.2.2.key)) ∧ ∀ e ∈ good, ∃ w ∈ t.writes, w.key = e.2.2.key
    (wellFormed (.call k off) = true → Issues s gid [] → s.isHeader (s.ctx gid).l.tenant (s.ctx gid).l.asid (directTarget s gid off) = true →
      ∃ t, exec (.call k off) s = .next t ∧ did t ∧ Goes s t gid (moved s gid k) fun _ => directTarget s gid off) ∧
    (wellFormed (.callx k a) = true → Issues s gid [a.toNat, a.toNat + 1] → (∀ h ∈ (s.ctx gid).actors k, Target s gid (P64 h a).toNat) →
      ∃ t, exec (.callx k a) s = .next t ∧ did t ∧ Goes s t gid (moved s gid k) fun i => (P64 (guide s gid k i) a).toNat % 2 ^ 57)

/-- R125, R145, R147: a ret whose loads pass their checks adds 8 to sp and moves its members to the addresses that stand there, at once where its core has them all; else its loads go home and the group waits at the word. When they have been served, the members move so. -/
def Sys2Proof.Claims.Returns : Prop :=
  (∀ (k : Ctl) (s : State) (gid : Nat) (good : List GoodLane), wellFormed (.ret k) = true → Issues s gid [] → Stands s gid → AllPass s (s.ctx gid) k (fun h => h.sp.toNat) 8 8 .read good →
    let accs := loadsOf s (s.ctx gid) good
    ((∀ a ∈ accs, a.done = true ∧ Target s gid a.val) → ∃ t, exec (.ret k) s = .next t ∧ ReturnedTo s t gid k.u accs) ∧
    ((∃ a ∈ accs, a.done = false) → ∃ t o, exec (.ret k) s = .next t ∧ Adds s t gid o ∧ o.kind = .pop k.u ∧ o.verdict = true ∧ o.all = takers s gid k ∧ o.accs = accs ∧ ThreadsSame s t ∧ MemorySame s t ∧ t.grp gid = s.grp gid)) ∧
  (∀ (s : State) (o : Op) (gid : Nat) (u : Bool), Awaited s o gid u → o.kind = .pop u → (o.accs.map (·.thread)).Nodup → (∀ a ∈ o.accs, Target s gid a.val) →
    ∃ t, exec (.variableOpComplete o.id) s = .next t ∧ (∀ x ∈ t.ops, x.id ≠ o.id) ∧ ReturnedTo s t gid u o.accs)

/-- A call whose pushes pass their checks and meet no region takes 8 from the sp of each lane that acts, has the return address of 8 bytes under way to each stack, and moves its members; no home changes yet. A bad target of call, or of a callx's lowest failing home lane, parks the whole group with class 3 and nothing is pushed. (That the fault's address is the target, log entry 20, and that under U = 1 the sp of the other members stays, log entry 22, are the model's.) A ret whose loads pass their checks adds 8 to sp and moves its members to the addresses that stand there, at once where its core has them all; else its loads go home and the group waits at the word. When they have been served, the members move so. -/
def Obligations.CallsAndReturns : Prop :=
  Sys2Proof.Claims.Calls ∧ Sys2Proof.Claims.Returns

/-! ### Joins, barriers, waits -/

/-- R24, R149, R150, R161: jset adds its acting members to both sets of its mask, and no other; nop and icsync pass on, icsync emptying the quadrant's loop buffer. -/
def Sys2Proof.Claims.JoinSetAndPassingWords : Prop :=
  ∀ (k : Ctl) (j : Bits3) (s : State) (gid : Nat), Stands s gid → Issues s gid [] →
    (wellFormed (.jset k j) = true → ∃ t, exec (.jset k j) s = .next t ∧ OnlyIssue s t ∧ ThreadsSame s t ∧ Passed s t gid 1 ∧
      ∀ n < 8, ∀ x, let a := s.team (s.grp gid).team; let b := t.team (s.grp gid).team
        (x ∈ b.rejoin.getD n [] ↔ x ∈ a.rejoin.getD n [] ∨ (n = j.toNat ∧ ∃ h ∈ (s.ctx gid).actors k, h.idx = x)) ∧
        (x ∈ b.pending.getD n [] ↔ x ∈ a.pending.getD n [] ∨ (n = j.toNat ∧ ∃ h ∈ (s.ctx gid).actors k, h.idx = x))) ∧
    (wellFormed (.nop k) = true → ∃ t, exec (.nop k) s = .next t ∧ OnlyIssue s t ∧ ThreadsSame s t ∧ OthersSame s t gid ∧ Passed s t gid 1) ∧
    (wellFormed (.icsync k) = true → ∃ t, exec (.icsync k) s = .next t ∧ OnlyIssue s t ∧ ThreadsSame s t ∧ OthersSame s t gid ∧ Passed s t gid 1 ∧ (Store.wf {} s.quads = true → (t.quad (s.grp gid).quad).loop = none))

/-- R20, R25, R26, R150: jwait ends the group: while another thread is pending on the mask, its acting members that are in the set wait on it, under U = 1 all members as the leading one does, and the other members are LOOSE at the next clause; with none left pending, all of them are LOOSE there and the mask is empty. -/
def Sys2Proof.Claims.JoinWaits : Prop :=
  ∀ (k : Ctl) (j : Bits3) (s : State) (gid : Nat), wellFormed (.jwait k j) = true → Issues s gid [] → Stands s gid →
    let tm := s.team (s.grp gid).team
    let acts := ((s.ctx gid).actors k).map (·.idx)
    let stays := fun i => if k.u then ∃ x ∈ acts, x ∈ tm.rejoin.getD j.toNat [] else i ∈ acts ∧ i ∈ tm.rejoin.getD j.toNat []
    ((∃ x ∈ tm.pending.getD j.toNat [], x ∉ acts) → ∃ t, exec (.jwait k j) s = .next t ∧ t.findGrp gid = none ∧ RegsSame s t ∧ MemorySame s t ∧
      ∀ i ∈ (s.grp gid).members, (stays i → Waits s t gid (.join j.toNat) i) ∧ (¬stays i → LooseNext s t gid i)) ∧
    ((∀ x ∈ tm.pending.getD j.toNat [], x ∈ acts) → (∃ x ∈ acts, x ∈ tm.rejoin.getD j.toNat []) → ∃ t, exec (.jwait k j) s = .next t ∧ t.findGrp gid = none ∧ RegsSame s t ∧ MemorySame s t ∧
      (t.team (s.grp gid).team).rejoin.getD j.toNat [] = [] ∧ (t.team (s.grp gid).team).pending.getD j.toNat [] = [] ∧ ∀ i ∈ (s.grp gid).members, LooseNext s t gid i)

/-- R20, R151 to R154: while some thread of the team is neither moving nor ended nor waiting, the members that a tbar moves wait at the team barrier and those a pbar moves in a pair launch at the pair barrier; the other members are LOOSE at the next clause. In a launch of single cores pbar is an encoding fault of the whole group. -/
def Sys2Proof.Claims.BarrierArrivals : Prop :=
  ∀ (k : Ctl) (s : State) (gid : Nat), Issues s gid [] → Stands s gid →
    let busy := ∃ h ∈ (s.team (s.grp gid).team).threads, h.idx ∉ (s.grp gid).members ∧ ∃ g, h.st = .issuing g
    let arrives := fun t w => t.findGrp gid = none ∧ RegsSame s t ∧ MemorySame s t ∧
      ∀ i ∈ (s.grp gid).members, (i ∈ moved s gid k → Waits s t gid w i) ∧ (i ∉ moved s gid k → LooseNext s t gid i)
    (wellFormed (.tbar k) = true → busy → ∃ t, exec (.tbar k) s = .next t ∧ arrives t .tbar) ∧
    (wellFormed (.pbar k) = true → busy → (s.ctx gid).l.pair = true → ∃ t, exec (.pbar k) s = .next t ∧ arrives t .pbar) ∧
    (wellFormed (.pbar k) = true → (s.ctx gid).l.pair = false → exec (.pbar k) s = .next (parked s gid 0x01 0 0 1))

/-- R151, R152, R320: when every thread of a team that has not ended waits at tbar and nothing it issued before is outstanding, all of them are LOOSE, each after its own wait, and each has observed what every one of them had. -/
def Sys2Proof.Claims.TeamBarrierReleases : Prop :=
  ∀ (s : State) (id : TeamId), s.findTeam id ≠ none → (s.launch id.launch).redundant = false → (∀ o ∈ s.ops, o.team ≠ id) → (∃ h ∈ (s.team id).threads, h.st ≠ .exited) →
    (∀ h ∈ (s.team id).threads, h.st = .exited ∨ ∃ next, h.st = .waiting .tbar next) → ((s.team id).threads.map (·.idx)).Nodup →
    ∀ h ∈ (s.team id).threads, ∀ next, h.st = .waiting .tbar next →
      (∃ n, ((s.barrier id).thread id h.idx).st = .loose n) ∧ ((s.barrier id).thread id h.idx).pc = next ∧ ((s.barrier id).thread id h.idx).word = 0 ∧
      ∀ g ∈ (s.team id).threads, g.st ≠ .exited → g.obs.le ((s.barrier id).thread id h.idx).obs = true

/-- While some thread of the team is neither moving nor ended nor waiting, the members that a tbar moves wait at the team barrier and those a pbar moves in a pair launch at the pair barrier; the other members are LOOSE at the next clause. In a launch of single cores pbar is an encoding fault of the whole group. When every thread of a team that has not ended waits at tbar and nothing it issued before is outstanding, all of them are LOOSE, each after its own wait, and each has observed what every one of them had. -/
def Obligations.Barriers : Prop :=
  Sys2Proof.Claims.BarrierArrivals ∧ Sys2Proof.Claims.TeamBarrierReleases

/-- R20, R27, R149: exit ends each member it moves, which leaves every mask of its team; the other members are LOOSE at the next clause. -/
def Sys2Proof.Claims.ExitsEnd : Prop :=
  ∀ (k : Ctl) (s : State) (gid : Nat), wellFormed (.exit k) = true → Issues s gid [] → Stands s gid →
    (∃ h ∈ (s.team (s.grp gid).team).threads, h.idx ∉ (s.grp gid).members ∧ ∃ g, h.st = .issuing g) → (∀ h ∈ (s.team (s.grp gid).team).threads, ∀ n j, h.st ≠ .waiting (.join j) n) →
    ∃ t, exec (.exit k) s = .next t ∧ t.findGrp gid = none ∧ RegsSame s t ∧ MemorySame s t ∧
      (∀ i ∈ (s.grp gid).members, (i ∈ moved s gid k → (t.thread (s.grp gid).team i).st = .exited) ∧ (i ∉ moved s gid k → LooseNext s t gid i)) ∧
      ∀ n, ∀ x ∈ moved s gid k, x ∉ (t.team (s.grp gid).team).rejoin.getD n [] ∧ x ∉ (t.team (s.grp gid).team).pending.getD n []

/-- jwait ends the group: while another thread is pending on the mask, its acting members that are in the set wait on it, under U = 1 all members as the leading one does, and the other members are LOOSE at the next clause; with none left pending, all of them are LOOSE there and the mask is empty. exit ends each member it moves, which leaves every mask of its team; the other members are LOOSE at the next clause. -/
def Obligations.JoinWaitsAndExits : Prop :=
  Sys2Proof.Claims.JoinWaits ∧ Sys2Proof.Claims.ExitsEnd

/-- R155 to R159: a wait ends its group: each acting member, under U = 1 every member as the leading one, whose condition does not hold yet, or which has an earlier load, atomic or wait outstanding that its acquire follows, waits for it; one whose condition holds already, and each other member, is LOOSE at the next clause. (That a word is read at its home, in a copy of a redundant team too, is the model's: log entry 48.) -/
def Obligations.MemoryWaits : Prop :=
  ∀ (i : Instr) (k : Ctl) (regs : List Nat) (w : Thread → WaitKind) (may : Thread → Bool) (s : State) (gid : Nat), waitRule s (s.ctx gid) i = some (k, regs, w, may) → wellFormed i = true → Issues s gid regs → Stands s gid →
    CachesOk s (s.ctx gid).core → (∀ h ∈ (s.ctx gid).actors k, may h = true) →
    let holds := fun h j => s.acquired (s.grp gid).team j s.nextId = true ∧ WaitOver s (s.ctx gid).l (s.ctx gid).t (s.thread (s.grp gid).team j) (w h)
    ∃ t, exec i s = .next t ∧ t.findGrp gid = none ∧ RegsSame s t ∧ MemorySame s t ∧
      (∀ h ∈ (s.ctx gid).actors k, ∀ j ∈ (s.ctx gid).receivers k h, (¬holds h j → Waits s t gid (w h) j) ∧ (holds h j → LooseNext s t gid j)) ∧
      ∀ j ∈ (s.grp gid).members, (∀ h ∈ (s.ctx gid).actors k, j ∉ (s.ctx gid).receivers k h) → LooseNext s t gid j

/-- R160: a Bridle prefix that issues in a native clause is an encoding fault of the whole group. -/
def Sys2Proof.Claims.PrefixesFault : Prop :=
  ∀ (ng : Bool) (pd : Pred) (s : State) (gid : Nat), Issues s gid [] →
    exec .yield s = .next (parked s gid 0x01 0 0 1) ∧ exec (.guard ng pd) s = .next (parked s gid 0x01 0 0 1)

/-- jset adds its acting members to both sets of its mask, and no other; nop and icsync pass on, icsync emptying the quadrant's loop buffer. A Bridle prefix that issues in a native clause is an encoding fault of the whole group. -/
def Obligations.PassingWords : Prop :=
  Sys2Proof.Claims.JoinSetAndPassingWords ∧ Sys2Proof.Claims.PrefixesFault

namespace Sys2Proof.Claims
open Sys2Proof Sys2Proof.Machine

/-! ### Matrix and system words -/

/-- A descriptor word that passes R205 to R208, R219: its reserved fields are 0, its rows lie in the allocation, are aligned and swizzled as its buffer is, and its buffer's state allows it. -/
def descFits (c : Ctx) (write : Bool) (d : Desc) (ranges : List (Nat × Nat)) : Bool := d.ok && (checkDesc c write d ranges).isOk
/-- An mma that passes the checks of R210, R214, R215 and R219. -/
def mmaFits (s : State) (c : Ctx) (k : Ctl) (mode sel fmt : Nat) (t : Tile) (a : Reg) (src : Bool) : Bool :=
  let span := nbOf mode * (if !src && c.l.w = 64 then 2 else 1)
  t.toNat % span = 0 && s.comboCase c mode sel fmt src = 0 && decide (t.toNat + span ≤ c.l.tiles) &&
    (if src then (match c.lead k with
      | some h => descFits c false (descOf h a) ((descOf h a).ranges (descOf h a).rows (kbOf mode) (rowLen fmt))
      | none => false)
     else decide (a.toNat + 16 * kbOf mode ≤ c.l.nregs) && !(c.actors k).isEmpty)
/-- Words of the array that pass their checks: length, marker bits, registers, and whether they do (R213 to R224, R236). -/
def arrayRule (s : State) (c : Ctx) : Instr → Option (Nat × List Nat × Bool)
  | .wld k m a sel fmt => some (2, [a.toNat, a.toNat + 1], (c.lead k).any fun h => s.modeOk c.core (modeCode m) sel.toNat && descFits c false (descOf h a) ((descOf h a).ranges 32 (nbOf (modeCode m) * kbOf (modeCode m)) (rowLen (fmtCode fmt))))
  | .wldpr k a fmt => some (2, [a.toNat, a.toNat + 1], c.l.pair && half c = 0 && (c.lead k).any fun h => s.modeOk c.core 3 0 && descFits c false (descOf h a) ((descOf h a).ranges 32 8 (rowLen (fmtCode fmt))))
  | .mma k m t a _ src sel fmt => some (2, a.toNat :: (if src then [a.toNat + 1] else []), mmaFits s c k (modeCode m) sel.toNat (fmtCode fmt) t a src)
  | .mmapr k t a _ src fmt => some (2, a.toNat :: (if src then [a.toNat + 1] else []), c.l.pair && half c = 0 && mmaFits s c k 3 0 (fmtCode fmt) t a src)
  | .accz k m t => some (1, [], (c.lead k).isSome && decide (t.toNat + acczTiles m ≤ c.l.tiles))
  | .accadd k _ t src _ => some (1, [], (c.lead k).isSome && decide (t.toNat < c.l.tiles) && decide (src.toNat < c.l.tiles))
  | .acctr k t src => some (1, [], (c.lead k).isSome && decide (t.toNat < c.l.tiles) && decide (src.toNat < c.l.tiles))
  | .accld k t a => some (1, [a.toNat, a.toNat + 1], decide (t.toNat < c.l.tiles) && (c.lead k).any fun h => descFits c false (descOf h a) ((descOf h a).ranges (descOf h a).rows 1 128))
  | .accst k t a => some (1, [a.toNat, a.toNat + 1], decide (t.toNat < c.l.tiles) && (c.lead k).any fun h => descFits c true (descOf h a) ((descOf h a).ranges (descOf h a).rows 1 128))
  | .acccvt k t a _ isI _ _ tgt => some (2, [a.toNat, a.toNat + 1], !(isI && tgt = .w4) && decide (t.toNat < c.l.tiles) && (c.lead k).any fun h => descFits c true (descOf h a) ((descOf h a).ranges (descOf h a).rows 1 (cvtRow tgt)))
  | .accmovGet k t a b => some (1, [a.toNat, b.toNat], !(c.actors k).isEmpty && (if c.l.w = 64 then t.toNat % 2 = 0 && decide (t.toNat + 2 ≤ c.l.tiles) else decide (t.toNat < c.l.tiles)))
  | .accmovPut k t a b => some (1, [a.toNat, b.toNat], !(c.actors k).isEmpty && (if c.l.w = 64 then t.toNat % 2 = 0 && decide (t.toNat + 2 ≤ c.l.tiles) else decide (t.toNat < c.l.tiles)))
  | .pgsel k m a b c0 scores kn => some (2, [a.toNat, a.toNat + 1, c0.toNat, c0.toNat + 1] ++ (List.range (selDim m / 2)).map (· + b.toNat), (c.lead k).any fun h =>
      let out := kn.toNat * (if scores then 8 else 4)
      let off := (h.raw (c0.toNat + 1)).toNat
      decide (off + out ≤ padTop c.l) && off % 4 = 0 && (useBufs .fill true c.core [(off, off + out)] c.t.bufs).isOk &&
        (s.sumLoads c h (((V h c0).toNat % 4096 + 1) * selDim m * 2 / 65536 + 4) (P64 h a).toNat (((V h c0).toNat % 4096 + 1) * selDim m * 2)).isOk)
  | _ => none
/-- The array's words whose effect leaves thread registers alone and never waits. -/
def quiet : Instr → Bool
  | .accmovGet _ _ _ _ => false
  | .pgsel _ _ _ _ _ _ _ => false
  | _ => true
/-- A line of instruction cache that icinv names: lines from the pair's address, as many as bits [15:0] of b, or every line under 0 (R429). -/
def codeHit (c : Ctx) (h : Thread) (a b : Reg) (x : Nat) : Bool :=
  let n := (V h b).toNat % 2 ^ 16
  let lo := icKey c.l.tenant c.l.asid ((P64 h a).toNat - (P64 h a).toNat % 128)
  decide (n = 0) || (decide (lo ≤ x) && decide (x < lo + n) && decide (x / 2 ^ 50 = lo / 2 ^ 50))
/-- A location in a line that dcinv or dcflush names, its pages translated. -/
def dataHit (s : State) (c : Ctx) (h : Thread) (a b : Reg) (x : Nat) : Bool :=
  let n := (V h b).toNat % 2 ^ 16
  decide (n = 0) || inSpans (s.lineSpans c.core c.l.tenant c.l.asid ((P64 h a).toNat - (P64 h a).toNat % 128) (n / 512 + 2) (n * 128)) x
/-- The lines that dcinv or dcflush names, as location ranges; none for every line. -/
def flushSpans (s : State) (c : Ctx) (h : Thread) (a b : Reg) : Option (List (Nat × Nat)) :=
  let n := (V h b).toNat % 2 ^ 16
  if n = 0 then none else some (s.lineSpans c.core c.l.tenant c.l.asid ((P64 h a).toNat - (P64 h a).toNat % 128) (n / 512 + 2) (n * 128))
/-- The 32 bytes of the frame that a member returns by, from the four loads of its own thread, or under U = 1 of the leading one. -/
def frameNat (u : Bool) (accs : List Acc) (i : Nat) : Nat :=
  (accs.filter fun a => if u then accs.head?.any (fun x => x.thread == a.thread) else a.thread == i).foldr (fun a v => a.val + 2 ^ 64 * v) 0
/-- Every member's frame holds a good code address, and all lead to one place. -/
def FramesLead (s : State) (gid : Nat) (u retry : Bool) (accs : List Acc) (dest : Nat × Nat) : Prop :=
  ∀ i ∈ (s.grp gid).members, Target s gid (frameNat u accs i % 2 ^ 64) ∧ s.retTarget (s.ctx gid) retry (frameOf (frameNat u accs i)) = dest
/-- Each member has its frame's sp, fsr (bit 31 and the reserved bits 0) and guard, is out of its handler, and goes to the place the frames lead to. -/
def FramesRestored (s t : State) (gid : Nat) (u : Bool) (accs : List Acc) (dest : Nat × Nat) : Prop :=
  MemorySame s t ∧ (t.grp gid).members = (s.grp gid).members ∧ (t.grp gid).pc = dest.1 ∧ (t.grp gid).word = dest.2 ∧
  ∀ i ∈ (s.grp gid).members, let x := t.thread (s.grp gid).team i; let h := s.thread (s.grp gid).team i; let f := frameNat u accs i
    x.sp = BitVec.ofNat 64 (f / 2 ^ 192) ∧ x.fsr = BitVec.ofNat 32 (f / 2 ^ 96 % 2 ^ 16) ∧ x.guard = bitAt f 72 ∧ x.inHandler = false ∧ x.regs = h.regs ∧ x.preds = h.preds ∧
    x.halted = (h.halted || h.haltPending) ∧ x.haltPending = false
/-- What a special register reads as (R123). -/
def specialRule (s : State) (c : Ctx) (h : Thread) : SpecialReg → Nat
  | .tidX => h.idx % c.l.dx
  | .tidY => h.idx / c.l.dx % c.l.dy
  | .tidZ => h.idx / (c.l.dx * c.l.dy)
  | .teamX => c.g.team.team % c.l.gx
  | .teamY => c.g.team.team / c.l.gx % c.l.gy
  | .teamZ => c.g.team.team / (c.l.gx * c.l.gy)
  | .launch => c.l.id
  | .lane => h.idx % c.l.w
  | .width => c.l.w
  | .coreid => c.core % 192
  | .dieid => c.core / 192
  | .clock => (s.die (c.quad / 768)).clock
  | .tenant => c.l.tenant
  | .sp => h.sp.toNat
  | .fsr => h.fsr.toNat
/-- The special registers of 64 bits. -/
def special64 : SpecialReg → Bool
  | .clock => true
  | .sp => true
  | _ => false

end Sys2Proof.Claims

/-! ### The matrix array -/

/-- R202, R210, R213 to R224, R236: a word of the array that passes its checks, and reads no tile that carries an error (R444), issues one operation of the array's port for its group; no tile, scratchpad byte or register changes yet, and the word passes. -/
def Sys2Proof.Claims.ArrayWordsGoOut : Prop :=
  ∀ (i : Instr) (len : Nat) (regs : List Nat) (s : State) (gid : Nat), arrayRule s (s.ctx gid) i = some (len, regs, true) → (s.ctx gid).t.badTile (half (s.ctx gid)) (tileReads (s.ctx gid).l.w i) = false → wellFormed i = true → Issues s gid regs → Stands s gid →
    ∃ t o, exec i s = .next t ∧ Adds s t gid o ∧ o.kind = .matrix i ∧ o.cls = 3 ∧ o.core = (s.ctx gid).core ∧ ThreadsSame s t ∧ MemorySame s t ∧ OthersSame s t gid ∧ Passed s t gid len ∧
      (t.team (s.grp gid).team).tiles = (s.team (s.grp gid).team).tiles ∧ (t.team (s.grp gid).team).scratch = (s.team (s.grp gid).team).scratch

/-- R201, R219, R210, R512: an array word of pair mode outside a pair launch's leader core, which for wldpr and an mmapr of src = 1 an active member must issue, is an encoding fault of the whole group; an mma or mmapr of either source whose mode, formats or binding do not go together parks it with class 4 and the case as detail, and so does one of src = 1 with no active member whose formats no unit implements together. (That the leader core alone issues pair words is the model's: log entry 14.) -/
def Sys2Proof.Claims.ArrayWordsFault : Prop :=
  ∀ (k : Ctl) (m : MxMode) (t : Tile) (a : Reg) (z src : Bool) (sel : Bits2) (fmt : MxFmt) (s : State) (gid : Nat),
    let c := s.ctx gid
    let regs := a.toNat :: if src then [a.toNat + 1] else []
    (wellFormed (.wldpr k a fmt) = true → Issues s gid [a.toNat, a.toNat + 1] → (c.active k) ≠ [] → (c.l.pair = false ∨ half c ≠ 0) → exec (.wldpr k a fmt) s = .next (parked s gid 0x01 0 0 2)) ∧
    (wellFormed (.mmapr k t a z src fmt) = true → Issues s gid regs → (src = true → c.lead k ≠ none) → (c.l.pair = false ∨ half c ≠ 0) → exec (.mmapr k t a z src fmt) s = .next (parked s gid 0x01 0 0 2)) ∧
    ∀ (i : Instr) (mode n : Nat), (i = .mma k m t a z src sel fmt ∧ mode = modeCode m ∧ n = sel.toNat) ∨ (i = .mmapr k t a z src fmt ∧ mode = 3 ∧ n = 0 ∧ c.l.pair = true ∧ half c = 0) →
      wellFormed i = true → Issues s gid regs → t.toNat % (nbOf mode * if !src && c.l.w = 64 then 2 else 1) = 0 → (src = false → a.toNat + 16 * kbOf mode ≤ c.l.nregs) →
      ((src = true → ∃ h, c.lead k = some h ∧ (descOf h a).ok = true) → s.comboCase c mode n (fmtCode fmt) src ≠ 0 → exec i s = .next (parked s gid 0x04 (s.comboCase c mode n (fmtCode fmt) src) 0 2)) ∧
      (∀ b, src = true → c.lead k = none → findBinding c.t c.core mode n = some b → pairOkFmt (fmtCode fmt) b.fmt = false → exec i s = .next (parked s gid 0x04 1 0 2))

/-- R218: the next word of a core's array retires: it is outstanding no more, and, apart from accmov.get and pgsel, it leaves every thread's registers, every home and every write under way as they were. -/
def Sys2Proof.Claims.ArrayWordsRetireInOrder : Prop :=
  ∀ (s : State) (o : Op) (i : Instr), s.findOp o.id = some o → o.kind = .matrix i → s.portHead o = true → quiet i = true → o.results = [] →
    ∃ t, exec (.matrixRetire o.id) s = .next t ∧ (∀ x ∈ t.ops, x.id ≠ o.id) ∧ VecSame s t ∧ MemorySame s t

/-- R220, R224: accz clears its tiles, accadd adds one tile to another element by element, acctr writes the transpose; every other element of every tile is as it was. -/
def Sys2Proof.Claims.TileWordsRetire : Prop :=
  ∀ (s : State) (o : Op) (k : Ctl) (n : AcczCount) (m : Round) (t0 src : Tile) (isI : Bool), s.findOp o.id = some o → s.findTeam o.team ≠ none → Store.wf 0 (s.team o.team).tiles = true → t0.toNat + acczTiles n ≤ 64 →
    let hf := o.core - (s.team o.team).core
    let old := s.team o.team
    let all := fun (i : Instr) (f : Nat → Nat → Nat → Nat → Nat) => o.kind = .matrix i → s.portHead o = true →
      ∃ t, exec (.matrixRetire o.id) s = .next t ∧ ∀ x tile r j, tile < 64 → r < 32 → j < 32 → (t.team o.team).elem x tile r j = f x tile r j
    all (.accz k n t0) (fun x tile r j => if x = hf ∧ t0.toNat ≤ tile ∧ tile < t0.toNat + acczTiles n then 0 else old.elem x tile r j) ∧
    all (.accadd k m t0 src isI) (fun x tile r j => if x = hf ∧ tile = t0.toNat then
        (if isI then (old.elem hf t0.toNat r j + old.elem hf src.toNat r j) % 2 ^ 32 else FFmt.f32.add m (old.elem hf t0.toNat r j) (old.elem hf src.toNat r j) % 2 ^ 32) else old.elem x tile r j) ∧
    all (.acctr k t0 src) (fun x tile r j => if x = hf ∧ tile = t0.toNat then old.elem hf src.toNat j r else old.elem x tile r j)

/-- R223: accmov.get gives a lane the element of its row at the column its register named, and accmov.put writes it. -/
def Sys2Proof.Claims.TileMovesRetire : Prop :=
  ∀ (s : State) (o : Op) (k : Ctl) (t0 : Tile) (a b : Reg) (x : Acc), s.findOp o.id = some o → s.findTeam o.team ≠ none → o.accs = [x] → o.all = [] → t0.toNat + x.d / 32 < 64 → x.cmp < 32 → s.portHead o = true →
    let hf := o.core - (s.team o.team).core
    (o.kind = .matrix (.accmovGet k t0 a b) → Store.wf 0 (s.thread o.team x.thread).regs = true → (∃ h ∈ (s.team o.team).threads, h.idx = x.thread) →
      ∃ t, exec (.matrixRetire o.id) s = .next t ∧ ∀ r, (t.thread o.team x.thread).raw r = if r = a.toNat then BitVec.ofNat 32 ((s.team o.team).elem hf (t0.toNat + x.d / 32) (x.d % 32) x.cmp) else (s.thread o.team x.thread).raw r) ∧
    (o.kind = .matrix (.accmovPut k t0 a b) → Store.wf 0 (s.team o.team).tiles = true →
      ∃ t, exec (.matrixRetire o.id) s = .next t ∧ ∀ y tile r j, tile < 64 → r < 32 → j < 32 → (t.team o.team).elem y tile r j =
        if y = hf ∧ tile = t0.toNat + x.d / 32 ∧ r = x.d % 32 ∧ j = x.cmp then x.opnd % 2 ^ 32 else (s.team o.team).elem y tile r j)

/-- The next word of a core's array retires: it is outstanding no more, and, apart from accmov.get and pgsel, it leaves every thread's registers, every home and every write under way as they were. accz clears its tiles, accadd adds one tile to another element by element, acctr writes the transpose; every other element of every tile is as it was. accmov.get gives a lane the element of its row at the column its register named, and accmov.put writes it. -/
def Obligations.ArrayWordsRetire : Prop :=
  Sys2Proof.Claims.ArrayWordsRetireInOrder ∧ Sys2Proof.Claims.TileWordsRetire ∧ Sys2Proof.Claims.TileMovesRetire

/-- R234, R235, R229: mstat takes its value at issue, as an operation of the array. -/
def Sys2Proof.Claims.ArrayStatusWords : Prop :=
  ∀ (i : Instr) (k : Ctl) (a : Reg) (v : BitVec 32) (s : State) (gid : Nat), mstatRule s (s.ctx gid) i = some (k, a, v) → wellFormed i = true → Issues s gid [a.toNat] → s.findGrp gid ≠ none →
    ∃ t o, exec i s = .next t ∧ Adds s t gid o ∧ o.kind = .matrix i ∧ o.results = ((s.ctx gid).actors k).flatMap (fun h => ((s.ctx gid).receivers k h).flatMap fun m => (toReg a v).map fun w => (m, w)) ∧
      ThreadsSame s t ∧ MemorySame s t ∧ Passed s t gid 1

/-- A word of the array that passes its checks, and reads no tile that carries an error (R444), issues one operation of the array's port for its group; no tile, scratchpad byte or register changes yet, and the word passes. An array word of pair mode outside a pair launch's leader core, which for wldpr and an mmapr of src = 1 an active member must issue, is an encoding fault of the whole group; an mma or mmapr of either source whose mode, formats or binding do not go together parks it with class 4 and the case as detail, and so does one of src = 1 with no active member whose formats no unit implements together. (That the leader core alone issues pair words is the model's: log entry 14.) mstat takes its value at issue, as an operation of the array. -/
def Obligations.ArrayWordsIssue : Prop :=
  Sys2Proof.Claims.ArrayWordsGoOut ∧ Sys2Proof.Claims.ArrayWordsFault ∧ Sys2Proof.Claims.ArrayStatusWords

/-! ### Fences and system words -/

/-- R313: a fence of acting lanes issues one operation that names them and passes; it waits as an operation of its clause. -/
def Sys2Proof.Claims.FencesIssue : Prop :=
  ∀ (k : Ctl) (order : FenceOrder) (scope : Scope) (s : State) (gid : Nat), wellFormed (.fence k order scope) = true → Issues s gid [] → s.findGrp gid ≠ none → (s.ctx gid).actors k ≠ [] →
    ∃ t o, exec (.fence k order scope) s = .next t ∧ Adds s t gid o ∧ o.kind = .fence (match order with
        | .acq => 0
        | .rel => 1
        | .acqrel => 2
        | .sc => 3) scope.code ∧ o.accs.map (·.thread) = ((s.ctx gid).actors k).map (·.idx) ∧ ThreadsSame s t ∧ MemorySame s t ∧ Passed s t gid 1

/-- R313: a fence that releases at a scope beyond its pair completes only when no write that its threads have issued or observed is still on its way, and none of their earlier operations is outstanding. -/
def Sys2Proof.Claims.ReleasesWait : Prop :=
  ∀ (s : State) (o : Op) (order scope : Nat), o.kind = .fence order scope → 1 ≤ order → 4 ≤ scope → s.opDone o = true →
    ∀ a ∈ o.accs, (∀ w ∈ s.writes, (s.thread o.team a.thread).obs.get w.origin < w.stamp) ∧
      ∀ p ∈ s.ops, p.team = o.team → p.id < o.id → p.cls = 2 → (∃ x ∈ p.accs, x.thread = a.thread) → ∃ n m, p.kind = .fence n m

/-- A fence of acting lanes issues one operation that names them and passes; it waits as an operation of its clause. A fence that releases at a scope beyond its pair completes only when no write that its threads have issued or observed is still on its way, and none of their earlier operations is outstanding. -/
def Obligations.Fences : Prop :=
  Sys2Proof.Claims.FencesIssue ∧ Sys2Proof.Claims.ReleasesWait

/-- R123, R426: sread gives each acting lane its special register, the clock as it stands before the cycle's change, after the fixed latency; swrite writes sp or the writable bits of fsr, 31 and 15 to 0, at once. -/
def Obligations.SpecialRegisterWords : Prop :=
  ∀ (k : Ctl) (d a : Reg) (sr : SpecialReg) (s : State) (gid : Nat),
    let c := s.ctx gid
    (wellFormed (.sread k d sr) = true → Issues s gid (d.toNat :: if special64 sr then [d.toNat + 1] else []) → exec (.sread k d sr) s =
      .next (((c.actors k).foldl (fun t h => t.pendTo c (c.receivers k h) (if special64 sr then toPair d (BitVec.ofNat 64 (specialRule s c h sr)) else toReg d (BitVec.ofNat 32 (specialRule s c h sr)))) s).endWord c 1)) ∧
    (wellFormed (.swrite k .sp a) = true → Issues s gid [a.toNat, a.toNat + 1] → exec (.swrite k .sp a) s =
      .next (((c.actors k).foldl (fun t h => t.updThreads c.g.team (c.receivers k h) fun x => { x with sp := P64 h a }) s).endWord c 1)) ∧
    (wellFormed (.swrite k .fsr a) = true → Issues s gid [a.toNat] → exec (.swrite k .fsr a) s =
      .next (((c.actors k).foldl (fun t h => t.updThreads c.g.team (c.receivers k h) fun x => { x with fsr := V h a &&& 0x8000FFFF }) s).endWord c 1))

/-- R428, R430: trap parks the members it moves with class 17 and its code, brk with class 18 where no debugger is attached; where they are some of the group, the others pass the word. -/
def Sys2Proof.Claims.TrapWordsPark : Prop :=
  ∀ (k : Ctl) (code : Bits6) (s : State) (gid : Nat), Issues s gid [] → Stands s gid →
    let mv := moved s gid k
    let does := fun (i : Instr) (cls : Nat) =>
      (mv ≠ [] → (∀ j ∈ (s.grp gid).members, j ∈ mv) → exec i s = .next (s.parkWhole gid { cls := cls, detail := code.toNat, addr := 0, byTrap := true })) ∧
      (mv ≠ [] → (∃ j ∈ (s.grp gid).members, j ∉ mv) → ∃ t g p, exec i s = .next t ∧ RegsSame s t ∧ g ∈ t.groups ∧ g.gid = s.nextId ∧ g.members = mv ∧ g.park = some p ∧ p.cls = cls ∧ p.detail = code.toNat ∧ p.byTrap = true ∧
        (t.grp gid).members = (s.grp gid).members.filter (fun j => !mv.contains j) ∧
        ((t.grp gid).pc, (t.grp gid).word) = (if (s.grp gid).word + 1 < headerN (s.grp gid).header then ((s.grp gid).pc, (s.grp gid).word + 1) else (nextClause s gid, 0))) ∧
      (mv = [] → exec i s = .next (s.endWord (s.ctx gid) 1))
    (wellFormed (.trap k code) = true → does (.trap k code) 0x11) ∧ (wellFormed (.brk k code) = true → (s.ctx gid).l.attached = false → does (.brk k code) 0x12)

/-- R430, R433: brk in a launch to which a debugger is attached passes the word and halts every live thread of the team: at once, or for a thread in its handler as pending. -/
def Sys2Proof.Claims.BreakpointsHalt : Prop :=
  ∀ (k : Ctl) (code : Bits6) (s : State) (gid : Nat), wellFormed (.brk k code) = true → Issues s gid [] → Stands s gid → moved s gid k ≠ [] → (s.ctx gid).l.attached = true →
    ∃ t, exec (.brk k code) s = .next t ∧ Passed s t gid 1 ∧ RegsSame s t ∧ MemorySame s t ∧
      ∀ i, let h := s.thread (s.grp gid).team i
        (∃ x ∈ (s.team (s.grp gid).team).threads, x.idx = i) → h.st ≠ .exited → if h.inHandler then (t.thread (s.grp gid).team i).haltPending = true else (t.thread (s.grp gid).team i).halted = true

/-- trap parks the members it moves with class 17 and its code, brk with class 18 where no debugger is attached; where they are some of the group, the others pass the word. brk in a launch to which a debugger is attached passes the word and halts every live thread of the team: at once, or for a thread in its handler as pending. -/
def Obligations.TrapWords : Prop :=
  Sys2Proof.Claims.TrapWordsPark ∧ Sys2Proof.Claims.BreakpointsHalt

/-- R123, R427, R434: tret of lanes whose frames can be read and that hold a trap's status, all with one place to go, restores sp, fsr and the guard of each from its frame, clears the in-handler flag, takes effect of a pending halt, and goes to the frame's word, past it for tret.skip, or past its clause where a trap word made the frame; under U = 1 every member as the leading one. It does so at once where the core has the frames; else it loads them and the group waits at the word, and does so when they have been served. -/
def Obligations.TrapReturns : Prop :=
  (∀ (k : Ctl) (retry : Bool) (s : State) (gid : Nat) (loads : Thread → List GoodLane) (dest : Nat × Nat), wellFormed (if retry then .tretRetry k else .tretSkip k) = true → Issues s gid [] → Stands s gid →
    (s.ctx gid).actors k ≠ [] → (∀ j ∈ (s.grp gid).members, j ∈ moved s gid k) →
    (∀ h ∈ (s.ctx gid).actors k, s.frameLoads (s.ctx gid) h 4 h.sp.toNat = .ok (loads h) ∧ h.fsr.getLsbD 31 = true) →
    let accs := loadsOf s (s.ctx gid) (((s.ctx gid).actors k).flatMap loads)
    ((∀ a ∈ accs, a.done = true) → FramesLead s gid k.u retry accs dest → ∃ t, exec (if retry then .tretRetry k else .tretSkip k) s = .next t ∧ FramesRestored s t gid k.u accs dest) ∧
    ((∃ a ∈ accs, a.done = false) → ∃ t o, exec (if retry then .tretRetry k else .tretSkip k) s = .next t ∧ Adds s t gid o ∧ o.kind = .frame k.u retry ∧ o.verdict = true ∧ o.all = takers s gid k ∧ o.accs = accs ∧
      ThreadsSame s t ∧ MemorySame s t ∧ t.grp gid = s.grp gid)) ∧
  (∀ (s : State) (o : Op) (gid : Nat) (u retry : Bool) (dest : Nat × Nat), Awaited s o gid u → o.kind = .frame u retry → (u = true → ∀ a ∈ o.accs, ∀ b ∈ o.accs, a.thread = b.thread) →
    (∀ j ∈ (s.grp gid).members, u = true ∨ ∃ a ∈ o.accs, a.thread = j) → FramesLead s gid u retry o.accs dest →
    ∃ t, exec (.variableOpComplete o.id) s = .next t ∧ (∀ x ∈ t.ops, x.id ≠ o.id) ∧ FramesRestored s t gid u o.accs dest)

/-- R429: icinv drops instruction lines of every core of the die; dcflush and dcinv make one operation for each acting lane that waits for the core's dirty writes; both name the lines from Pair(l, a) on, or every line under a count of 0. With those writes applied the operation completes, and dcinv's has dropped the clean lines as well. -/
def Obligations.CacheWords : Prop :=
  (∀ (k : Ctl) (a b : Reg) (s : State) (gid : Nat), Issues s gid [a.toNat, a.toNat + 1, b.toNat] → s.findGrp gid ≠ none →
    let c := s.ctx gid
    (∀ h, wellFormed (.icinv k a b) = true → (c.active k).head? = some h → ∃ t, exec (.icinv k a b) s = .next t ∧ ThreadsSame s t ∧ MemorySame s t ∧ Passed s t gid 1 ∧
      t.cores = s.cores.map fun e => if e.1 / 192 = c.die then (e.1, { e.2 with ic := e.2.ic.filter fun x => !codeHit c h a b x.1 }) else e) ∧
    (∀ drop : Bool, wellFormed (if drop then .dcinv k a b else .dcflush k a b) = true → ∃ t new, exec (if drop then .dcinv k a b else .dcflush k a b) s = .next t ∧ ThreadsSame s t ∧ MemorySame s t ∧ Passed s t gid 1 ∧
      t.ops = s.ops ++ new ∧ t.cores = s.cores ∧ new.map (·.kind) = (c.actors k).map fun h =>
        .flush ((s.writes.filter fun w => w.l1 == some c.core && dataHit s c h a b (w.key / 128 * 128)).map (·.id)) drop (flushSpans s c h a b))) ∧
  (∀ (s : State) (o : Op) (ws : List Nat) (drop : Bool) (spans : Option (List (Nat × Nat))), s.findOp o.id = some o → o.kind = .flush ws drop spans → o.verdict = false →
    ((∃ w ∈ s.writes, w.id ∈ ws) → o.waitsFed = false → exec (.variableOpComplete o.id) s = .next s) ∧
    ((∀ w ∈ s.writes, w.id ∉ ws) → ∃ t, exec (.variableOpComplete o.id) s = .next t ∧ (∀ x ∈ t.ops, x.id ≠ o.id) ∧ MemorySame s t ∧
      (drop = true → ∀ x ∈ (t.core o.core).l1, ∃ l, spans = some l ∧ inSpans l (x.1 * 128) = false)))

namespace Sys2Proof.Claims
open Sys2Proof Sys2Proof.Machine

/-! ### The machine as a whole -/

/-- A captured loop range is in use: a group of its quadrant, not parked, has its program counter inside it, in the address space it was captured from (R60, R165). -/
def LoopsInUse (t : State) : Prop := ∀ q b, (t.quad q).loop = some b →
  ∃ g ∈ t.groups, g.quad = q ∧ g.park = none ∧ b.base ≤ g.pc ∧ g.pc < b.base + 4 * b.words.length ∧ (t.launch g.team.launch).tenant = b.tenant ∧ (t.launch g.team.launch).asid = b.asid
/-- What holds between steps: no word is in issue, and every captured loop range is in use. -/
def Between (t : State) : Prop := t.current = none ∧ LoopsInUse t
/-- The words that the decoder is given for a clause's word and the one after it. -/
def wordsAt (n : Next) : List Nat := if isLong n.w then [n.w, n.w2.getD 0] else [n.w]
/-- A booted module in which a quadrant acts next and has no cycle of an earlier word left; the group within a clause has given way where its next word is held, which leaves the state u; the quadrant picks a group, and the group is found by its name. -/
structure IssuesNext (s u : State) (q : Nat) (g : Grp) : Prop where
  agenda : s.agenda = []
  booted : 7 ≤ s.bootStep
  quad : s.nextQuad = some q
  free : (s.quad q).rest = []
  yielded : s.yieldMid q = u
  group : u.picked q = some g
  found : u.findGrp g.gid = some g
/-- What a step leaves around a word of a group that acted in t and answered r: a long word's second word takes its cycles, results of a clause that is held are named anew, loops that no group is in end, and no word is in issue. -/
def around (t : State) (gid w : Nat) (r : State) : State := ((t.longRest r gid w).afterWord gid).settle
/-- A thread at its start (R14, R121): the argument address in v0 and v1, every other register, predicate and fsr 0, the stack pointer above its own stack, at the kernel's entry. -/
structure Begins (l : Launch) (team i : Nat) (h : Thread) : Prop where
  v0 : h.raw 0 = BitVec.ofNat 32 (fieldAt l.body 0x20 4)
  v1 : h.raw 1 = BitVec.ofNat 32 (fieldAt l.body 0x24 4)
  regs : ∀ r, 2 ≤ r → h.raw r = 0
  preds : h.preds = 0
  fsr : h.fsr = 0
  sp : h.sp = BitVec.ofNat 64 (fieldAt l.body 0x28 8 / 65536 * 65536 + (team * l.size + i + 1) * (fieldAt l.body 0x28 2 * 16))
  pc : h.pc = l.entry
  word : h.word = 0

end Sys2Proof.Claims
open Sys2Proof Sys2Proof.Machine Sys2Proof.Claims

/-! ### Reset and boot -/

/-- R334, R376, R401, R416, R440, R446, R463: what the spec gives for reset. That memory reads 0 and a queue register 0 where no value is given is the model's choice (log entries 3 and 7), and no part of this. -/
def Sys2Proof.Claims.ResetValues : Prop :=
  State.reset.bootStep = 0 ∧ State.reset.teams = [] ∧ State.reset.launches = [] ∧ State.reset.writes = [] ∧ State.reset.moorings = [] ∧ State.reset.regions = [] ∧ State.reset.wdesc = 0x00040010 ∧
  (∀ d, (State.reset.die d).clock = 0) ∧ (∀ c, (State.reset.core c).fcount = 0 ∧ (State.reset.core c).gated = 0) ∧ (∀ q, (State.reset.quad q).loop = none) ∧
  (∀ q, (State.reset.queue q).qctl.getLsbD 31 = false ∧ (State.reset.queue q).timeline = 0) ∧ (∀ ch, (State.reset.chan ch).timeline = 0) ∧
  ∀ t, (State.reset.tenant t).wdctl = 0x0000400001000000 ∧ (State.reset.tenant t).recctl = 3 ∧ (State.reset.tenant t).fcctl = 0 ∧ ∀ a, Store.get 0 (State.reset.tenant t).troot a = 0 ∧ Store.get 0 (State.reset.tenant t).tvec a = 0

/-- R463: with no agenda, boot takes its seven steps in order; step 3 leaves every byte of module memory 0; step 4 fences the sub-arrays that fail their test; step 2 stops boot where the firmware does not verify; once step 7 is reached it changes nothing, and a boot that has failed changes nothing. (That whether the firmware verifies and which sub-arrays fail are free values, and the codes of a failed boot, are the model's: log entries 2, 6 and 35.) -/
def Sys2Proof.Claims.BootSequence : Prop :=
  ∀ s : State,
    (s.bootStep = 7 ∨ s.bootFail = 2 → exec .boot s = .next s) ∧
    (s.bootStep < 7 → s.bootFail = 0 → s.bootStep ≠ 1 → ∃ t, exec .boot s = .next t ∧ t.bootStep = s.bootStep + 1 ∧ t.bootFail = 0 ∧ t.tenants = s.tenants ∧ (s.bootStep = 2 → ∀ a, Store.get 0 t.mem a = 0) ∧ (s.bootStep = 3 → Store.wf {} s.cores = true → ∀ c, c < 768 → (t.core c).fenced = Config.bootFails c)) ∧
    (s.bootStep = 1 → s.bootFail = 0 → ∃ t, exec .boot s = .next t ∧ ((t.bootStep = 2 ∧ t.bootFail = 0) ∨ (t.bootStep = 1 ∧ t.bootFail = 2)))

/-- R10, R14, R41, R47, R121: a pulled team whose core has room starts once the die's stagger timer has run out: each thread begins as R121 says, ISSUING in the group of its home group, on its home quadrant; the timer is set, and the launch has one more running team. -/
def Obligations.ThreadsStart : Prop :=
  ∀ (s : State) (core team : Nat) (l : Launch), s.pulledFor core = some (l, team) → (s.die (core / 192)).stagger = 0 → s.findLaunch l.id = some l → s.findTeam ⟨l.id, team, false⟩ = none → 0 < l.w →
    (s.updLaunch l.id fun l => l.unpull core team).hasRoom l core = true →
    ∃ t, exec (.teamStart core) s = .next t ∧ (t.launch l.id).running = l.running + 1 ∧ (Store.wf {} s.dies = true → (t.die (core / 192)).stagger = l.stagger) ∧ t.mem = s.mem ∧
      ∀ i < l.size, Begins l team i (t.thread ⟨l.id, team, false⟩ i) ∧
        ∃ g ∈ t.groups, (t.thread ⟨l.id, team, false⟩ i).st = .issuing g.gid ∧ g.team = ⟨l.id, team, false⟩ ∧ i ∈ g.members ∧ g.pc = l.entry ∧ g.flags = 0 ∧
          g.quad = (core + i / l.w / 4 % l.cores) * 4 + i / l.w % 4

/-! ### Encoding and steps -/

/-- R54, R61 to R68: words written out from the spec's encodings decode to the instructions they stand for. -/
def Obligations.WordsDecode : Prop :=
  decode [0x00043042] = .ok (.add ⟨false, false, false⟩ .satI 3 1 2, []) ∧
  decode [0x02A42105] = .ok (.icmpLt ⟨false, false, false⟩ .n32 .set 2 4 5, []) ∧
  decode [0x01705042, 0x0C0000E8] = .ok (.lop3 ⟨false, false, false⟩ 5 1 2 3 0xE8, []) ∧
  decode [0x03E87000, 0x10345678] = .ok (.movi ⟨false, false, false⟩ 7 4 2 0x345678, []) ∧
  decode [0x14900080] = .ok (.jwait ⟨false, false, false⟩ 2, []) ∧
  decode [0x140FFFF4] = .ok (.bra ⟨false, false, false⟩ (-12), []) ∧
  decode [0x1068A0C0] = .ok (.tlrdDch ⟨false, false, false⟩ 10 3, []) ∧
  decode [0x10709040] = .ok (.chq ⟨false, false, false⟩ 9 1, []) ∧
  decode [0x1C000000] = .error .classSeven

/-- R54, R68: whatever words decode, they are the encoding of the well-formed instruction that they decode to, and the words after it are left. -/
def Obligations.DecodedWordsAreTheEncoding : Prop :=
  ∀ (ws rest : List Nat) (i : Instr), decode ws = .ok (i, rest) → wellFormed i = true ∧ ws = encode i ++ rest

/-- R61 to R68, R122 to R437: the words of every well-formed instruction word, with every operand at every value its encoding admits, decode to that instruction, whatever follows them. -/
def Obligations.EncodedWordsDecode : Prop :=
  ∀ (i : Instr) (rest : List Nat), isWord i = true → wellFormed i = true → decode (encode i ++ rest) = .ok (i, rest)

/-- R29, R54 to R56, R70: where a group issues next, and the words at its place in a legal clause of their class decode to an instruction that the clause holds whole, a control word last in it, the step is that instruction's meaning, with what a step adds around it; a move that is scheduled is the next step. (That a word or a move is one step, and which comes first, is the model's: log entry 16.) -/
def Sys2Proof.Claims.StepRunsWord : Prop :=
  (∀ (s u : State) (q : Nat) (g : Grp) (n : Next) (i : Instr) (rest : List Nat), IssuesNext s u q g → u.nextWord g = .ok (some n) → headerOk n.header = true →
    decode (wordsAt n) = .ok (i, rest) → bitsOf n.w 26 3 = bitsOf n.header 4 3 → bitsOf n.w 26 3 ≠ 7 → g.word + (wordsAt n).length ≤ headerN n.header → (isControl (opcodeOf n.w) = true → g.word + (wordsAt n).length = headerN n.header) →
    (∀ t, (u.prepared g.gid n).partBad g.gid (wordsAt n).length = t → t.running g.gid = true → step s = mapOut (around t g.gid n.w) (exec i t)) ∧
    ((∀ j ∈ g.members, (u.thread g.team j).bad = false) → (u.prepared g.gid n).partBad g.gid (wordsAt n).length = u.prepared g.gid n)) ∧
  (∀ (s : State) (i : Instr) (r : List Instr), s.agenda = i :: r → step s = mapOut State.settle (exec i { s with agenda := r, current := none }))

/-- R54: where a group would issue the first word of a clause whose header has N = 0, class 7 or a set flag of 12, 13 or 14, the step parks the whole group with class 1, ILLEGAL_ENC, at the header's address, whatever the clause's words are. -/
def Obligations.IllegalHeadersFault : Prop :=
  ∀ (s u : State) (q : Nat) (g : Grp) (n : Next), IssuesNext s u q g → g.word = 0 → u.nextWord g = .ok (some n) →
    n.header % 16 = 0 ∨ n.header / 16 % 8 = 7 ∨ (12 ≤ n.header / 2 ^ 19 % 16 ∧ n.header / 2 ^ 19 % 16 ≤ 14) →
    step s = .next (State.settle ((u.updGrp g.gid fun x => { x with header := n.header }).parkWhole g.gid { cls := 0x01, detail := 0, addr := canonOf g.pc }))

/-- A group stands at the start of a clause whose words lie on one line, outside a captured loop, and its core's instruction cache does not hold the line: its translation gives the location of the header. (The stores of the core are canonical, as every store of the machine is.) -/
structure FetchesLine (s : State) (g : Grp) (tr : Tr) : Prop where
  start : g.words = [] ∧ g.word = 0
  noLoop : (s.quad g.quad).loop = none
  goes : s.fetches g = true
  place : g.pc < 2 ^ 57 ∧ g.pc % 4 = 0 ∧ tr.key % 128 = g.pc % 128
  stores : Store.wf {} s.cores = true ∧ Store.wf false (s.core (g.quad / 4)).badIc = true
  absent : Store.get none (s.core (g.quad / 4)).ic (icKey (s.launch g.team.launch).tenant (s.launch g.team.launch).asid g.pc) = none
  reached : s.check (s.core (g.quad / 4)).tlb (s.launch g.team.launch).tenant (s.launch g.team.launch).asid (canonOf g.pc) 4 .fetch = .ok tr
  sound : s.linkDown tr.key = false ∧ s.badAt (tr.key - g.pc % 128) 128 = false
  header : headerOk (s.locNat tr.key 4) = true
  oneLine : g.pc % 128 + 4 * (headerN (s.locNat tr.key 4) + 1) ≤ 128

/-- R60, R71, R163: a group whose clause is not in the instruction cache has no next word; its line is fetched, and then its header and its next word are what memory holds at its program counter. -/
def Sys2Proof.Claims.FetchReadsMemory : Prop :=
  ∀ (s : State) (g : Grp) (tr : Tr), FetchesLine s g tr → s.nextWord g = .ok none ∧
    ∃ t n, s.fetchMove g = some t ∧ t.mem = s.mem ∧ t.nextWord g = .ok (some n) ∧ n.header = s.locNat tr.key 4 ∧ n.w = s.locNat (tr.key + 4) 4 ∧
      (isLong n.w = true → 1 < headerN n.header → n.w2 = some (s.locNat (tr.key + 8) 4)) ∧ (isLong n.w = false → n.w2 = none)

/-- Where a group issues next, and the words at its place in a legal clause of their class decode to an instruction that the clause holds whole, a control word last in it, the step is that instruction's meaning, with what a step adds around it; a move that is scheduled is the next step. (That a word or a move is one step, and which comes first, is the model's: log entry 16.) A group whose clause is not in the instruction cache has no next word; its line is fetched, and then its header and its next word are what memory holds at its program counter. -/
def Obligations.StepRunsTheDecodedInstruction : Prop :=
  Sys2Proof.Claims.StepRunsWord ∧ Sys2Proof.Claims.FetchReadsMemory

/-- The module never stops: from every state whose scheduled moves are no instruction words (those are issued by groups alone), the step answers a next state, whichever of the moves under way it makes (the order is the model's: log entry 16). -/
def Obligations.EveryStepGoesOn : Prop :=
  ∀ s : State, (∀ i ∈ s.agenda, isWord i = false) → ∃ t, step s = .next t

/-- R60, R165: after every step, no word is in issue, and every captured loop range has a group of its quadrant inside it. (That a parked sub-group keeps no capture alive, log entry 23, and the field that names the group in issue, log entry 1, are the model's.) -/
def Obligations.LoopsStayInUse : Prop :=
  ∀ s t : State, Between s → step s = .next t → Between t

/-- R60, R165: at reset no word is in issue, no loop range is captured without a group inside it, and memory has its canonical form. -/
def Sys2Proof.Claims.LoopsInUseAtReset : Prop := Between State.reset ∧ Memory.wf State.reset.mem = true

/-- What the spec gives for reset. That memory reads 0 and a queue register 0 where no value is given is the model's choice (log entries 3 and 7), and no part of this. At reset no word is in issue, no loop range is captured without a group inside it, and memory has its canonical form. -/
def Obligations.ResetState : Prop :=
  Sys2Proof.Claims.ResetValues ∧ Sys2Proof.Claims.LoopsInUseAtReset

namespace Sys2Proof.Claims
open Sys2Proof Sys2Proof.Machine

/-! ### Groups, parked groups and teams -/

/-- The members that a group takes of a key: of each home lane, the candidate of the lowest home group (R21). -/
def Taken (w : Nat) (cands : List (Thread × Nat)) (x : Nat) : Prop :=
  ∃ c ∈ cands, c.1.idx = x ∧ ∀ d ∈ cands, d.1.idx % w = x % w → x ≤ d.1.idx
/-- A sub-group that is parked, its team on a core, with nothing outstanding in its flags (R37, R40). -/
structure ParkedIdle (s : State) (sid : Nat) (g : Grp) (p : Park) : Prop where
  found : s.findGrp sid = some g
  park : g.park = some p
  flags : g.flags = 0
  here : (s.team g.team).saved = none
  members : g.members ≠ [] ∧ ∀ i ∈ g.members, ∃ h ∈ (s.team g.team).threads, h.idx = i
/-- Where a parked sub-group goes on: at its pending word, or past it for an answer of skip, past its clause where that was the clause's last (R40, R425). -/
def resumesAt (g : Grp) (p : Park) : Nat × Nat :=
  if p.byTrap = false ∧ p.answer ≠ 2 then (g.pc, g.word)
  else if p.byTrap = true ∨ headerN g.header ≤ g.word + p.len then (g.pc + 4 * (headerN g.header + 1), 0)
  else (g.pc, g.word + p.len)
/-- A thread of a copy stands at a fence that waits for its comparison (R449). -/
def atFence (s : State) (id : TeamId) (i : Nat) : Bool :=
  s.ops.any fun o => o.team == id && o.accs.any (fun x => x.thread == i && !x.ok) && (match o.kind with
    | .fence _ _ => true
    | _ => false)
/-- Each index that a die's counter of a launch still has (R44). -/
def counter (l : Launch) (d : Nat) : Nat × Nat := Store.get (0, 0) l.tickets d
/-- The frames of a group's members, checked one after another with the frames of memory that they reserve; nothing where one faults (R263, R424). -/
def framesFit (g : Grp) (p : Park) : State → List Nat → Option State
  | s, [] => some s
  | s, i :: r => if (s.frameCheck g p i).2 = 0 then framesFit g p (s.frameCheck g p i).1 r else none
/-- The two copies of a redundant team, or the one of another (R448). -/
def copiesOf (l : Launch) (team : Nat) : List TeamId := if l.redundant then [⟨l.id, team, false⟩, ⟨l.id, team, true⟩] else [⟨l.id, team, false⟩]
/-- The team and its copies are gone, with their groups and moorings (R49, R392). -/
def Gone (t : State) (id : TeamId) : Prop := (∀ x ∈ t.teams, x.id ≠ id) ∧ (∀ g ∈ t.groups, g.team ≠ id) ∧ ∀ m ∈ t.moorings, m.team ≠ id

end Sys2Proof.Claims
open Sys2Proof Sys2Proof.Machine Sys2Proof.Claims

/-! ### The picker -/

/-- R19 to R21: with no released group before it, the picker forms one group from the first ready key of the quadrant: at the key's position, flags clear, of each home lane the candidate of the lowest home group; nothing else moves. -/
def Sys2Proof.Claims.GroupsForm : Prop :=
  ∀ (s : State) (quad : Nat) (k : Key), (s.quad quad).formed ≤ s.now quad → s.releasedOn quad = none → s.nextKey quad = some k →
    ∃ t g, exec (.groupForm quad) s = .next t ∧ t.groups = s.groups ++ [g] ∧ g.gid = s.nextId ∧ g.team = k.team ∧ g.quad = quad ∧ g.pc = k.pc ∧ g.word = k.word ∧ g.flags = 0 ∧ g.park = none ∧
      (∀ x, x ∈ g.members ↔ Taken (s.launch k.team.launch).w k.cands x) ∧ RegsSame s t ∧ MemorySame s t ∧
      (∀ i ∈ g.members, (∃ h ∈ (s.team k.team).threads, h.idx = i) → (t.thread k.team i).st = .issuing g.gid) ∧
      ∀ id i, id ≠ k.team ∨ i ∉ g.members → t.thread id i = s.thread id i

/-- R33, R34, R158, R409: a holder whose fairness time has come is demoted and its timer starts again; a cycle in which no group of a populated quadrant is eligible is charged to the first reason of the unit that ranks first; a waiting thread whose condition does not hold, or with an earlier load, atomic or wait outstanding, stays, and one whose condition holds is LOOSE after its wait; one that reads an uncorrectable error parks with class 0x0D. (That each kind of move is a step of its own, log entry 16, and that a wait under way parks so and at a bad address does not, log entry 48, are the model's.) -/
def Sys2Proof.Claims.HoldersAndWaits : Prop :=
  (∀ (s : State) (quad : Nat) (h : TeamId × List Nat), (s.quad quad).holder = some h → (s.launch h.1.launch).promise = true → (s.launch h.1.launch).fairT ≤ (s.quad quad).fair →
    ∃ t, exec (.fairnessDemotion quad) s = .next t ∧ (t.quad quad).fair = 0 ∧ t.teams = s.teams ∧ MemorySame s t ∧
      (s.exactly quad h = none → (t.quad quad).demote = (s.quad quad).demote ++ [h] ∧ t.groups = s.groups) ∧
      (∀ g, s.exactly quad h = some g → t.groups = s.groups.map fun x => if x.gid = g.gid then { x with demoted := true } else x)) ∧
  (∀ (s : State) (quad : Nat), s.eligibles quad = [] → s.populated quad = true →
    ∃ t code, exec (.stallEvent quad) s = .next t ∧ t.evNow = Store.upd 0 s.evNow (quad * 256 + code) (· + 1) ∧ (t.quad quad).spent = s.now quad + 1 ∧ t.teams = s.teams ∧ t.groups = s.groups ∧ MemorySame s t ∧
      (∀ u, s.units quad = [u] → code = u.reasons.headD 0x18) ∧ (s.units quad = [] → code = 0x1B)) ∧
  (∀ (s : State) (id : TeamId) (i next : Nat) (k : WaitKind), (s.team id).saved = none → s.findTeam id ≠ none → (∃ h ∈ (s.team id).threads, h.idx = i) → (s.thread id i).st = .waiting k next →
    let ends := s.acquired id i s.nextId = true ∧ WaitOver s (s.launch id.launch) (s.team id) (s.thread id i) k
    (∀ va, s.waitsBad id i = some va → ∃ t g p, exec (.mwaitPeriodicCheck id i) s = .next t ∧ g ∈ t.groups ∧ g.gid = s.nextId ∧ g.members = [i] ∧ g.park = some p ∧ p.cls = 0x0D ∧ p.addr = va ∧ RegsSame s t ∧ ((s.tenant (s.launch id.launch).tenant).fcctl.toNat.testBit 31 = false → MemorySame s t)) ∧
    (s.waitsBad id i = none → ¬ends → exec (.mwaitPeriodicCheck id i) s = .next s) ∧
    (∀ c, s.waitsBad id i = none → ends → s.waitHolds (s.launch id.launch) (s.team id) (s.thread id i) k = some c → ∃ t, exec (.mwaitPeriodicCheck id i) s = .next t ∧ (∃ n, (t.thread id i).st = .loose n) ∧ (t.thread id i).pc = next ∧ (t.thread id i).word = 0 ∧
      (t.thread id i).obs = (s.thread id i).obs.max c ∧ RegsSame s t ∧ MemorySame s t))

/-- With no released group before it, the picker forms one group from the first ready key of the quadrant: at the key's position, flags clear, of each home lane the candidate of the lowest home group; nothing else moves. A holder whose fairness time has come is demoted and its timer starts again; a cycle in which no group of a populated quadrant is eligible is charged to the first reason of the unit that ranks first; a waiting thread whose condition does not hold, or with an earlier load, atomic or wait outstanding, stays, and one whose condition holds is LOOSE after its wait; one that reads an uncorrectable error parks with class 0x0D. (That each kind of move is a step of its own, log entry 16, and that a wait under way parks so and at a bad address does not, log entry 48, are the model's.) -/
def Obligations.SchedulingMoves : Prop :=
  Sys2Proof.Claims.GroupsForm ∧ Sys2Proof.Claims.HoldersAndWaits

/-- R40, R423, R459: an answered sub-group whose flags are clear resumes as a group at its pending word, or past it for skip; one that found no route to a peer takes its fault once the time for it has come, and not before. (That a group without a route waits as a parked sub-group is deduced: log entry 34.) -/
def Obligations.ParkedGroupsGoOn : Prop :=
  ∀ (s : State) (sid : Nat) (g : Grp) (p : Park), ParkedIdle s sid g p → p.toTrap = false →
    (p.answer ≠ 0 → p.wait = none → ∃ t, exec (.subGroupResume sid) s = .next t ∧ (t.grp sid).park = none ∧ (t.grp sid).members = g.members ∧ ((t.grp sid).pc, (t.grp sid).word) = resumesAt g p ∧ RegsSame s t ∧ MemorySame s t ∧
      ∀ i ∈ g.members, (t.thread g.team i).st = .issuing sid) ∧
    (∀ ks next, p.answer ≠ 0 → p.wait = some (ks, next) → (p.byTrap = true ∨ p.answer = 2) → ∃ t, exec (.subGroupResume sid) s = .next t ∧ (t.grp sid).park = none ∧ (t.grp sid).pc = next ∧ (t.grp sid).word = 0 ∧ RegsSame s t ∧ MemorySame s t) ∧
    (∀ ks next, p.answer ≠ 0 → p.wait = some (ks, next) → p.byTrap = false → p.answer ≠ 2 → (ks.map (·.1)).Nodup → (∀ e ∈ ks, ∃ h ∈ (s.team g.team).threads, h.idx = e.1) → ∃ t, exec (.subGroupResume sid) s = .next t ∧ t.findGrp sid = none ∧ RegsSame s t ∧ MemorySame s t ∧
      ∀ e ∈ ks, (t.thread g.team e.1).st = .waiting e.2 next ∨ (∃ n, (t.thread g.team e.1).st = .loose n)) ∧
    (p.answer = 0 → exec (.subGroupResume sid) s = .next s) ∧
    (∀ n, p.route = some n → s.hub < n → exec (.peerRouteTimeout sid) s = .next s) ∧
    (∀ n, p.route = some n → n ≤ s.hub → ∃ t q, exec (.peerRouteTimeout sid) s = .next t ∧ (t.grp sid).park = some q ∧ q.route = none ∧ q.cls = p.cls ∧ (t.grp sid).members = g.members ∧ RegsSame s t ∧
      (q.toTrap = true ∨ q.seq ≠ 0 ∨ (p.cls = 0x0D ∧ ∃ r ∈ t.rollbacks, r = ((s.launch g.team.launch).id, 0x0D))))

/-- R59, R423, R424: a trap of members whose frames can be stored stores each frame (the pending word's clause and place, the guard, fsr, the fault's address and sp; a copy of a redundant team holds the stores back), lowers each sp by 32, writes fsr with bit 31, the class and the detail, sets the in-handler flag, and goes to TVEC as one group; no vector register or predicate changes but by the results that land first, and no home changes. (That the guard is sampled where the trap is entered, and that a frame is plain stores of its own, are deduced: log entry 25.) -/
def Obligations.TrapsEnterTheHandler : Prop :=
  ∀ (s u v : State) (sid : Nat) (g : Grp) (p : Park), ParkedIdle s sid g p → p.toTrap = true →
    let l := s.launch g.team.launch
    let tv := (Store.get 0 (s.tenant l.tenant).tvec l.asid).toNat
    s.vectorOk l tv = true → u = (s.updThreads g.team g.members (Thread.trapGuard g.header)).updThreads g.team g.members Thread.settled → framesFit g p u g.members = some v → g.members.Nodup →
    ∃ t, exec (.trapEntry sid) s = .next t ∧ (t.grp sid).park = none ∧ (t.grp sid).members = g.members ∧ (t.grp sid).pc = tv % 2 ^ 57 ∧ (t.grp sid).word = 0 ∧ HomesSame v t ∧
      (∀ i ∈ g.members, let x := t.thread g.team i; let h := (s.thread g.team i).puts ((s.thread g.team i).pend.map (·.wr))
        x.sp = h.sp - 32 ∧ x.fsr = BitVec.ofNat 32 (2 ^ 31 + 2 ^ 8 * p.cls + p.detail) ∧ x.inHandler = true ∧ x.pc = tv % 2 ^ 57 ∧ x.st = .issuing sid ∧ x.regs = h.regs ∧ x.preds = h.preds) ∧
      (∀ i ∈ g.members, let h := u.thread g.team i
        ∀ e ∈ [(0, leBytes (canonOf g.pc) 8), (8, leBytes g.word 1), (9, leBytes (bit h.guard + 2 * bit p.byTrap) 1), (12, leBytes h.fsr.toNat 4), (16, leBytes p.addr 8), (24, leBytes h.sp.toNat 8)],
          let va := (h.sp - 32 + BitVec.ofNat 64 e.1).toNat
          ∀ tr, v.check (v.core (coreOfThread l (v.team g.team) i)).tlb l.tenant l.asid va e.2.length .write = .ok tr →
            if l.redundant then ∃ x ∈ (t.team g.team).held, x.thread = i ∧ x.va = va ∧ x.bytes = e.2 else ∃ w ∈ t.writes, w.key = tr.key ∧ w.bytes = e.2) ∧
      ∀ i, i ∉ g.members → (t.thread g.team i).sp = (s.thread g.team i).sp ∧ (t.thread g.team i).fsr = (s.thread g.team i).fsr ∧ (t.thread g.team i).regs = (s.thread g.team i).regs

/-! ### Teams -/

/-- R44 to R46: the core that pulls next takes the lowest index of its die's counter; where that is used up, the die first takes the upper half, rounded up, of the first victim in its order that has one left. -/
def Sys2Proof.Claims.TeamsArePulled : Prop :=
  ∀ (s : State) (core : Nat) (l : Launch), s.nextPuller (core / 192) = some core → s.pullFor core = some l → s.findLaunch l.id = some l → Store.wf (0, 0) l.tickets = true →
    let d := core / 192
    ((counter l d).1 < (counter l d).2 → ∃ t, exec (.teamPull core) s = .next t ∧ (t.launch l.id).pulled = l.pulled ++ [(core, (counter l d).1)] ∧ counter (t.launch l.id) d = ((counter l d).1 + 1, (counter l d).2) ∧
      t.teams = s.teams ∧ ∀ e, e ≠ d → counter (t.launch l.id) e = counter l e) ∧
    (∀ v, (counter l d).2 ≤ (counter l d).1 → v ≠ d → (victims d).find? (fun v => bitAt l.dieMask v && decide ((counter l v).1 < (counter l v).2)) = some v →
      let n := (counter l v).2 - (counter l v).1
      ∃ t, exec (.teamPull core) s = .next t ∧ (t.launch l.id).pulled = l.pulled ++ [(core, (counter l v).2 - (n + 1) / 2)] ∧ counter (t.launch l.id) v = ((counter l v).1, (counter l v).2 - (n + 1) / 2) ∧
        counter (t.launch l.id) d = ((counter l v).2 - (n + 1) / 2 + 1, (counter l v).2) ∧ ∀ e, e ≠ d → e ≠ v → counter (t.launch l.id) e = counter l e)

/-- R49, R50, R347, R392, R435, R448: a team whose threads have all ended, with nothing outstanding, ends, both copies of a redundant team together: its groups and moorings go with it, with no push and no store; a launch with no team yet that has waited 4,096 cycles has the victim's team stopped for a save. -/
def Sys2Proof.Claims.TeamsEndOrAreStopped : Prop :=
  ∀ (s : State) (l : Launch), s.findLaunch l.id = some l →
    (∀ n, (∀ id ∈ copiesOf l n, s.canEnd l id = true) → ∃ t, exec (.teamEnd ⟨l.id, n, false⟩) s = .next t ∧ (∀ id ∈ copiesOf l n, Gone t id) ∧ (t.launch l.id).running = l.running - 1 ∧ MemorySame s t ∧ t.pushes = s.pushes ∧
      (∀ x ∈ s.teams, x.id ∉ copiesOf l n → x ∈ t.teams) ∧ ∀ id ∈ copiesOf l n, ∀ h ∈ (s.team id).threads, h.obs.le (t.launch l.id).endClk = true) ∧
    (s.preemptDue l = true → ∃ t, exec (.preemptCheck l.id) s = .next t ∧ (t.launch l.id).lastPreempt = s.hub ∧ MemorySame s t ∧ t.groups = s.groups ∧
      t.teams = match s.victim l with
        | some v => s.teams.map fun x => if x.id ∈ s.mirrors v.id then { x with saving := true } else x
        | none => s.teams)

/-- The core that pulls next takes the lowest index of its die's counter; where that is used up, the die first takes the upper half, rounded up, of the first victim in its order that has one left. A team whose threads have all ended, with nothing outstanding, ends, both copies of a redundant team together: its groups and moorings go with it, with no push and no store; a launch with no team yet that has waited 4,096 cycles has the victim's team stopped for a save. -/
def Obligations.TeamsMoveOn : Prop :=
  Sys2Proof.Claims.TeamsArePulled ∧ Sys2Proof.Claims.TeamsEndOrAreStopped

/-- R353, R435, R436: a stopped team that is ready is written by a system channel of its die: the work joins it, and once it is done the team leaves core for its image: the image lies in the context area, no other byte of memory changes, and its groups that are not parked are gone; with no place for it the save is given up. (Where each thread stands as it is saved, and that a save without a place is given up, are deduced: log entry 30.) -/
def Sys2Proof.Claims.ContextsAreSaved : Prop :=
  ∀ (s : State) (x : Team), s.findTeam x.id = some x → x.saving = true → s.saveReady x = true →
    let l := s.launch x.id.launch
    let img := (s.stoppedTeam x).image l (s.parksOf x.id) ((s.stoppedTeam x).threads.any fun h => h.halted || h.haltedInHandler)
    (s.imagePlace l.tenant img.length = none → ∃ t, exec (.contextSave x.id) s = .next t ∧ (t.team x.id).saving = false ∧ (t.team x.id).saved = x.saved ∧ t.mem = s.mem ∧ t.groups = s.groups ∧ t.sysOf (.save x.id) = none) ∧
    (∀ a, s.imagePlace l.tenant img.length = some a → s.sysDone (.save x.id) = false → ∃ t, exec (.contextSave x.id) s = .next t ∧ t.teams = s.teams ∧ MemorySame s t ∧ t.sysOf (.save x.id) ≠ none) ∧
    (∀ a, s.imagePlace l.tenant img.length = some a → s.sysDone (.save x.id) = true → Store.wf 0 s.mem = true → ∃ t v, exec (.contextSave x.id) s = .next t ∧ (t.team x.id).saved = some v ∧ v.addr = a ∧ v.size = img.length ∧ (t.team x.id).saving = false ∧ t.sysOf (.save x.id) = none ∧
      (∀ k, Store.get 0 t.mem k = if a ≤ k ∧ k < a + img.length then img.getD (k - a) 0 else Store.get 0 s.mem k) ∧ (∀ g ∈ t.groups, g.team = x.id → g.park ≠ none) ∧ t.outMem = s.outMem ∧ t.regions = s.regions)

/-- R347, R353, R435, R438, R439: a saved team that a core may take, its image whole and its resources fitting there, has its image read by a system channel of that core's die; once that is done it stands on that core and is saved no more, with no change of memory; where it does not fit, the attempt is recorded and the team stays saved. (That a restore is tried again, paced from the last attempt, is deduced: log entry 30.) -/
def Sys2Proof.Claims.ContextsReturn : Prop :=
  ∀ (s : State) (x : Team) (l : Launch) (v : Saved) (core : Nat), s.findTeam x.id = some x → s.findLaunch x.id.launch = some l → l.id = x.id.launch → x.saved = some v → s.mayRestore l core = true → s.imagePoisoned v = false →
    (s.restoreFits l x v.addr core = true → s.sysDone (.back x.id core) = false → ∃ t, exec (.contextRestore x.id core) s = .next t ∧ t.teams = s.teams ∧ MemorySame s t ∧ t.sysOf (.back x.id core) ≠ none) ∧
    (s.restoreFits l x v.addr core = true → s.sysDone (.back x.id core) = true → ∃ t, exec (.contextRestore x.id core) s = .next t ∧ (t.team x.id).saved = none ∧ (t.team x.id).core = core ∧ HomesSame s t ∧ ((t.team x.id).threads.map (·.idx)) = x.threads.map (·.idx)) ∧
    (s.restoreFits l x v.addr core = false → ∃ t, exec (.contextRestore x.id core) s = .next t ∧ (t.launch l.id).lastPreempt = s.hub ∧ (t.team x.id).saved = some v ∧ t.groups = s.groups ∧ t.regions = s.regions)

/-- A stopped team that is ready is written by a system channel of its die: the work joins it, and once it is done the team leaves core for its image: the image lies in the context area, no other byte of memory changes, and its groups that are not parked are gone; with no place for it the save is given up. (Where each thread stands as it is saved, and that a save without a place is given up, are deduced: log entry 30.) A saved team that a core may take, its image whole and its resources fitting there, has its image read by a system channel of that core's die; once that is done it stands on that core and is saved no more, with no change of memory; where it does not fit, the attempt is recorded and the team stays saved. (That a restore is tried again, paced from the last attempt, is deduced: log entry 30.) -/
def Obligations.ContextsAreSavedAndReturn : Prop :=
  Sys2Proof.Claims.ContextsAreSaved ∧ Sys2Proof.Claims.ContextsReturn

/-- R443, R445 to R447: a rollback that RECCTL no longer allows, or of a launch that cannot be replayed, aborts the launch; one of a launch that has been aborted is dropped; another waits for what its teams have submitted, stops its teams and has a system channel restore its snapshot set, and then starts the launch again from its packet with one more replay. (That an incomplete set turns a rollback into an abort, and which writes it discards, are deduced: log entry 28.) -/
def Sys2Proof.Claims.RollbacksReplay : Prop :=
  ∀ (s : State) (l : Launch) (c : Nat), s.findLaunch l.id = some l → (l.id, c) ∈ s.rollbacks →
    (((s.tenant l.tenant).recctl.toNat % 16 ≤ l.replays ∨ l.incomplete = true ∨ l.replayable = false) → l.aborted = none → ∃ t, exec (.launchRollback l.id c) s = .next t ∧ (t.launch l.id).aborted = some c ∧ (t.launch l.id).tickets = [] ∧
      (t.launch l.id).pulled = [] ∧ (∀ r ∈ t.rollbacks, r.1 ≠ l.id) ∧ t.groups = s.groups) ∧
    (l.aborted ≠ none → ∃ t, exec (.launchRollback l.id c) s = .next t ∧ t.rollbacks = s.rollbacks.filter (fun r => r.1 != l.id) ∧ t.launches = s.launches ∧ t.teams = s.teams ∧ t.groups = s.groups ∧ MemorySame s t) ∧
    (l.aborted = none → l.replays < (s.tenant l.tenant).recctl.toNat % 16 → l.incomplete = false → l.replayable = true →
      ((∃ e ∈ s.chans, ∃ o ∈ e.2.ops, o.pkt = none ∧ o.launch = l.id) → exec (.launchRollback l.id c) s = .next s) ∧
      ((∀ e ∈ s.chans, ∀ o ∈ e.2.ops, o.pkt = none → o.launch ≠ l.id) →
        (s.sysOf (.undo l.id) = none → ∃ t, exec (.launchRollback l.id c) s = .next t ∧ (∀ x ∈ t.teams, x.id.launch ≠ l.id) ∧ (∀ g ∈ t.groups, (∃ x ∈ s.teams, x.id = g.team) → g.team.launch ≠ l.id) ∧ (∀ o ∈ t.ops, o.team.launch ≠ l.id) ∧ t.sysOf (.undo l.id) ≠ none ∧ t.rollbacks = s.rollbacks) ∧
        (s.sysDone (.undo l.id) = true → ∃ t, exec (.launchRollback l.id c) s = .next t ∧ (t.launch l.id).replays = l.replays + 1 ∧ (t.launch l.id).tickets = l.dealt ∧ (t.launch l.id).pulled = [] ∧ (t.launch l.id).running = 0 ∧ (t.launch l.id).snaps = [] ∧
          (∀ r ∈ t.rollbacks, r.1 ≠ l.id) ∧ t.sysOf (.undo l.id) = none)))

/-- R309, R448, R449: two copies that stand at a comparison of all their threads, or else of the threads that have come to a fence in both, and compare alike there drop those threads' signatures and what these held back, and where they held nothing no home changes; two that differ ask for a rollback of class 14. (That the fences of all such threads are compared together is the model's: log entry 71.) -/
def Sys2Proof.Claims.CopiesCompare : Prop :=
  ∀ (s : State) (launch team : Nat) (a b : Team) (is : List Nat), s.copies launch team = some (a, b) →
    is = (if s.allCompare a b then a.threads.map (·.idx) else (a.threads.map (·.idx)).filter fun i => atFence s a.id i && atFence s b.id i) → s.allCompare a b = true ∨ is ≠ [] →
    (sigsAgree a b is = false → s.launchStopped launch = false → ∃ t, exec (.signatureCompare launch team) s = .next t ∧ t.rollbacks = s.rollbacks ++ [(launch, 14)] ∧ t.teams = s.teams ∧ MemorySame s t) ∧
    (sigsAgree a b is = true → ∃ t, exec (.signatureCompare launch team) s = .next t ∧ (a.held = [] → b.held = [] → MemorySame s t) ∧
      ∀ id, id = a.id ∨ id = b.id → (∀ i ∈ is, (t.thread id i).sig = 0) ∧ ∀ h ∈ (t.team id).held, h.thread ∉ is)

/-- R395 to R397: a system channel that has copied a page of a launch leaves the set of the launch with one more COPY entry, of the page as it stands and the frame it took; where an answer ended the copy, or the set has no room or the pool no frame, the set is incomplete. Homes and memory stay as they were, but for the record of an incomplete set or of a pool that has come to its low mark, which is stored where the tenant's ring is enabled. (What an entry of a set holds is deduced: log entry 28.) -/
def Sys2Proof.Claims.SnapshotCopies : Prop :=
  ∀ (s : State) (l : Launch) (page : Nat) (o : SysOp), s.sysOf (.snapshot l.id page) = some o → s.sysDone (.snapshot l.id page) = true → s.findLaunch l.id = some l → l.replayable = true →
    let pool := (s.tenant l.tenant).snapcfg.toNat % 16
    let ring := (s.tenant l.tenant).fcctl.toNat.testBit 31
    (∀ f r, o.ended = false → s.snapRoom l = true → (s.pool l.tenant pool).frames = f :: r →
      ∃ t count bs, exec (.snapshotCopyDone l.id page) s = .next t ∧ t.writes = s.writes ∧ t.sysOf (.snapshot l.id page) = none ∧ t.regions = s.regions ∧ (t.pool l.tenant pool).frames = r ∧
        (ring = false ∨ (s.pool l.tenant pool).noticed = true ∨ (s.pool l.tenant pool).cfg.toNat / 2 ^ 32 < r.length → MemorySame s t) ∧
        (t.launch l.id).snaps = l.snaps ++ [.copy (pageBase page o.size) f pool o.size ((s.regionOfKey page).map fun g => (g.id, g.pageOf (keyVa page))) count bs] ∧
        (s.regionOfKey page = none → bs = t.mem.filter fun e => decide (pageBase page o.size ≤ e.1) && decide (e.1 < pageBase page o.size + o.size)) ∧
        (∀ g q, s.regionOfKey page = some g → g.page (g.pageOf (keyVa page)) = some q → count = q.count ∧ bs = q.data)) ∧
    (o.ended = true ∨ s.snapRoom l = false ∨ (s.pool l.tenant pool).frames = [] → ∃ t, exec (.snapshotCopyDone l.id page) s = .next t ∧ (t.launch l.id).incomplete = true ∧ (t.launch l.id).snaps = l.snaps ∧ t.writes = s.writes ∧ t.sysOf (.snapshot l.id page) = none ∧ (ring = false ∨ l.incomplete = true → MemorySame s t))

/-- A rollback that RECCTL no longer allows, or of a launch that cannot be replayed, aborts the launch; one of a launch that has been aborted is dropped; another waits for what its teams have submitted, stops its teams and has a system channel restore its snapshot set, and then starts the launch again from its packet with one more replay. (That an incomplete set turns a rollback into an abort, and which writes it discards, are deduced: log entry 28.) Two copies that stand at a comparison of all their threads, or else of the threads that have come to a fence in both, and compare alike there drop those threads' signatures and what these held back, and where they held nothing no home changes; two that differ ask for a rollback of class 14. (That the fences of all such threads are compared together is the model's: log entry 71.) A system channel that has copied a page of a launch leaves the set of the launch with one more COPY entry, of the page as it stands and the frame it took; where an answer ended the copy, or the set has no room or the pool no frame, the set is incomplete. Homes and memory stay as they were, but for the record of an incomplete set or of a pool that has come to its low mark, which is stored where the tenant's ring is enabled. (What an entry of a set holds is deduced: log entry 28.) -/
def Obligations.LaunchesReplay : Prop :=
  Sys2Proof.Claims.RollbacksReplay ∧ Sys2Proof.Claims.CopiesCompare ∧ Sys2Proof.Claims.SnapshotCopies

namespace Sys2Proof.Claims
open Sys2Proof Sys2Proof.Machine

/-! ### Regions, caches, queues and channels on their own -/

/-- A mooring lies over a word of eight bytes. -/
def overWord (key : Nat) (m : Mooring) : Prop := m.key < key + 8 ∧ key < m.key + m.size
/-- The key of a region's tail word (R265). -/
def tailKey (r : Region) : Nat := regionKey r.id.tenant r.id.asid r.base
/-- The bytes that a list of accesses takes. -/
def total (l : List Acc) : Nat := (l.map (·.size)).sum
/-- The packet of a sequence number in a queue. -/
def pktOf (s : State) (q seq : Nat) : Option Pkt := findBy (fun x : Pkt => x.seq == seq) (s.queue q).pkts
/-- The packet that its processor starts next from a queue, of a type, with a header and address space that are not rejected (R339, R343, R344). -/
structure Starts (s : State) (q type : Nat) (p : Pkt) : Prop where
  next : s.starting q type = some p
  here : pktOf s q p.seq = some p
  good : s.pktBad (s.queue q) p = []
  fresh : p.result = none
/-- A store of the reader may be served: its home has what the packet follows, and nothing of the hub is under way to it (R314, R338). -/
def ReaderMay (s : State) (q key : Nat) : Prop := s.homeReady (s.homeOf key) (s.queue q).stepClk = true ∧ s.movingKey key = false ∧ s.pendingFor 4 (s.homeOf key) = []
/-- A packet has ended, with a status, detail and count (R342). -/
def Ended (t : State) (q seq status detail count : Nat) : Prop := ∃ x, pktOf t q seq = some x ∧ x.result = some (status, detail, count)
/-- A packet has started and not ended. -/
def Under (t : State) (q seq : Nat) : Prop := ∃ x, pktOf t q seq = some x ∧ x.started = true ∧ x.result = none
/-- No page of a tenant is held under a method. -/
def NoneCoded (s : State) (tenant method : Nat) : Prop :=
  (∀ e ∈ s.forms, ∀ f, e.2 = some f → f.tenant = tenant → f.code / 2 ≠ method) ∧ ∀ r ∈ s.regions, r.id.tenant = tenant → r.leaf / 8 % 8 ≠ method
/-- The registers of every thread, and what lies in memory, are as they were. -/
def Apart (s t : State) : Prop := RegsSame s t ∧ MemorySame s t

/-- The oldest operation of a channel has left it, ended with a status word (R342, R351). -/
def Left (s t : State) (ch : ChanId) (o : ChOp) (rest : List ChOp) (status : Nat) : Prop :=
  (t.chan ch).ops = rest ∧ (t.chan ch).timeline = max (s.chan ch).timeline o.seq ∧ (t.chan ch).status = status
/-- A COPY of one row, without conversion, from a place of a page to a place within one line of ordinary memory, both accessible and cleared by the outrider (R348 to R352). -/
structure OneLine (s : State) (ch : ChanId) (o : ChOp) (a b : Nat) : Prop where
  fresh : o.ended = none ∧ o.lane = none ∧ o.done = 0 ∧ o.claim = none ∧ o.page = 1
  good : chanReject (chanIsCore ch) 3 o.bytes = none ∧ fieldAt o.bytes 0 1 = 2
  flat : (planOf o.bytes).rows = 1 ∧ (planOf o.bytes).sty = (planOf o.bytes).dty ∧ (planOf o.bytes).ssp = 0 ∧ (planOf o.bytes).dsp = 0
  size : 0 < (planOf o.bytes).len ∧ (planOf o.bytes).src % 65536 + (planOf o.bytes).len ≤ 65536 ∧ (planOf o.bytes).dst % 128 + (planOf o.bytes).len ≤ 128
  src : ∃ tr, s.check (s.die (chanOrigin ch)).tlb o.tenant o.asid (planOf o.bytes).src 1 .read = .ok tr ∧ tr.key = a ∧ tr.region = none ∧ tr.plainRun (planOf o.bytes).src (planOf o.bytes).len = (planOf o.bytes).len
  dst : ∃ tr, s.check (s.die (chanOrigin ch)).tlb o.tenant o.asid (planOf o.bytes).dst 1 .write = .ok tr ∧ tr.key = b ∧ tr.region = none ∧ tr.moving = false
  noAppend : s.appendDst (o.port (chanOrigin ch)) 0 (planOf o.bytes).dst = none
  still : s.movingKey b = false ∧ s.poison = [] ∧ s.linkDown a = false ∧ s.linkDown b = false
  plain : Plain s b (planOf o.bytes).len ∧ Memory.wf s.mem = true ∧ Store.wf none s.outMem = true

end Sys2Proof.Claims
open Sys2Proof Sys2Proof.Machine Sys2Proof.Claims

/-! ### Regions -/

/-- R269 to R275, R376: a region's tail rises past the claims that are full; sealing ends, freeing ends, with the operations that wait for them; a replica is dropped; each with no other effect on memory: a free changes, outside its region and the frames it gives back, its pages' entries alone. -/
def Sys2Proof.Claims.RegionEventsMove : Prop :=
  ∀ (s : State) (r : Region), s.findRegion r.id = some r → r.freeWait = false →
    (s.tailDue r = true → ∃ t q, exec (.tailAdvance r.id) s = .next t ∧ t.findRegion r.id = some q ∧ q.t = r.tailTo ∧ r.t < q.t ∧ q.c = r.c ∧ q.st = r.st ∧ q.pages = r.pages ∧ (∀ c ∈ q.claims, c ∈ r.claims ∧ q.t < c.hi) ∧ t.mem = s.mem ∧ RegsSame s t) ∧
    (s.sealDue r = true → ∃ t q, exec (.sealReached r.id) s = .next t ∧ t.findRegion r.id = some q ∧ q.st = 2 ∧ q.t = r.t ∧ q.c = r.c ∧ q.pages = r.pages ∧ (∀ o ∈ t.ops, o.kind = .seal r.id → o.isReady = true) ∧
      (∀ m ∈ t.moorings, ¬overWord (tailKey r) m) ∧ t.mem = s.mem ∧ RegsSame s t) ∧
    (s.freeDue r = true → r.freeLaunch = none → Store.wf none r.pages = true → ∃ t q, exec (.freeDone r.id) s = .next t ∧ t.findRegion r.id = some q ∧ q.st = 0 ∧ q.c = 128 ∧ q.t = 128 ∧ q.claims = [] ∧ (∀ i, q.page i = none) ∧
      (∀ o ∈ t.ops, o.kind = .free r.id → o.isReady = true) ∧ (∀ e ∈ r.pages, ∀ p, e.2 = some p → p.frame ∈ (t.pool r.id.tenant r.pool).frames) ∧ RegsSame s t ∧
      ((∀ g ∈ s.regions, g.id = r.id → g = r) → (∀ e ∈ r.pages, ∀ a, s.pageEntry r.id.tenant r.id.asid (r.base + e.1 * pageBytes r.psize) (pageLevel r.psize) = some a → Plain s a 8) → Memory.wf s.mem = true → Store.wf none s.outMem = true →
        ∀ x, (s.regionOfKey x).map (·.id) ≠ some r.id → (∀ e ∈ r.pages, (∀ p, e.2 = some p → ¬(p.frame ≤ x ∧ x < p.frame + pageBytes r.psize)) ∧ ∀ a, s.pageEntry r.id.tenant r.id.asid (r.base + e.1 * pageBytes r.psize) (pageLevel r.psize) = some a → ¬(a ≤ x ∧ x < a + 8)) → t.locByte x = s.locByte x)) ∧
    (∀ d, ∀ e ∈ (s.die d).replicas, Store.wf {} s.dies = true → ∃ t, exec (.replicaDrop d e.1) s = .next t ∧ (t.die d).replicas = (s.die d).replicas.filter (fun x => x.1 != e.1) ∧ Apart s t)

/-- R269, R295: a claim on an open region with room, its pages backed, takes the bytes of all its lanes from the claim point in their order; on a region that is not open it is refused with class 11, and claims nothing. -/
def Sys2Proof.Claims.ClaimsAreTaken : Prop :=
  ∀ (s : State) (o : Op) (a : Acc) (rest : List Acc) (r : Region), s.findOp o.id = some o → o.kind = .append → o.isReady = false → o.accs = a :: rest → a.done = false → a.region = some r.id → s.findRegion r.id = some r →
    s.homeReady a.home (VC.maxAll (o.accs.map (·.vec))) = true → o.waitsFed = false →
    (r.st = 0 → r.freeWait = false → 0 < total o.accs → r.c + total o.accs ≤ r.len → (∀ i, r.c / pageBytes r.psize ≤ i → i ≤ (r.c + total o.accs - 1) / pageBytes r.psize → (r.page i).isSome = true) →
      ∃ t q accs, exec (.appendClaim o.id) s = .next t ∧ t.findRegion r.id = some q ∧ q.c = r.c + total o.accs ∧ q.t = r.t ∧ q.claims = r.claims ++ [⟨r.c, r.c + total o.accs, total o.accs⟩] ∧ (t.findOp o.id).map (·.accs) = some accs ∧
        accs.length = o.accs.length ∧ (∀ j, j < accs.length → (accs.map fun x => (x.done, x.val))[j]? = some (true, r.c + total (o.accs.take j))) ∧ RegsSame s t) ∧
    (r.st ≠ 0 ∨ r.freeWait = true → ∃ t, exec (.appendClaim o.id) s = .next t ∧ t.regions = s.regions ∧ (t.findOp o.id).map (fun x => x.accs.map fun y => (y.done, y.fault)) = some (o.accs.map fun _ => (true, 0x0B)) ∧ RegsSame s t)

/-- A region's tail rises past the claims that are full; sealing ends, freeing ends, with the operations that wait for them; a replica is dropped; each with no other effect on memory: a free changes, outside its region and the frames it gives back, its pages' entries alone. A claim on an open region with room, its pages backed, takes the bytes of all its lanes from the claim point in their order; on a region that is not open it is refused with class 11, and claims nothing. -/
def Obligations.RegionsMoveOn : Prop :=
  Sys2Proof.Claims.RegionEventsMove ∧ Sys2Proof.Claims.ClaimsAreTaken

/-- R299 to R302, R392: a push that may land and whose mooring last wrote its slot writes its value and count over the slot's record, in the scratchpad or, of a saved team, in its image, where its count is above the record's; one of another mooring is dropped; an unsl ends its slot's mooring behind the team's lds of that slot, and is done once no push of the mooring is under way. -/
def Sys2Proof.Claims.PushesLand : Prop :=
  (∀ (s : State) (p : Push), findBy (fun x : Push => x.pid == p.pid) s.pushes = some p → s.pushReady p = true →
    (s.slotOwner p.team p.core p.slot ≠ p.mid → ∃ t, exec (.pushLand p.pid) s = .next t ∧ (∀ x ∈ t.pushes, x ∈ s.pushes ∧ x.pid ≠ p.pid) ∧ t.teams = s.teams ∧ Apart s t) ∧
    (s.slotOwner p.team p.core p.slot = p.mid → (s.launch p.team.launch).redundant = false → s.findTeam p.team ≠ none → p.core = (s.team p.team).core ∨ p.core = (s.team p.team).core + 1 →
      let above := fun old : Nat => 1 ≤ (p.count + 2 ^ 32 - old % 2 ^ 32) % 2 ^ 32 ∧ (p.count + 2 ^ 32 - old % 2 ^ 32) % 2 ^ 32 < 2 ^ 31
      ((s.team p.team).saved = none → Memory.wf (s.team p.team).scratch = true →
        let off := slotOff (s.launch p.team.launch) (p.core - (s.team p.team).core) p.slot
        let old := leNat (readBytes (s.team p.team).scratch (off + 8) 4)
        ∃ t, exec (.pushLand p.pid) s = .next t ∧ (∀ x ∈ t.pushes, x ∈ s.pushes ∧ x.pid ≠ p.pid) ∧ Apart s t ∧
          (above old → readBytes (t.team p.team).scratch off 12 = leBytes p.val 8 ++ leBytes p.count 4) ∧ (¬above old → (t.team p.team).scratch = (s.team p.team).scratch)) ∧
      ((s.team p.team).saved ≠ none →
        let a := s.shadowPlace p.team p.core p.slot
        Plain s a 16 → Memory.wf s.mem = true → Store.wf none s.outMem = true →
        ∃ t, exec (.pushLand p.pid) s = .next t ∧ (∀ x ∈ t.pushes, x ∈ s.pushes ∧ x.pid ≠ p.pid) ∧ RegsSame s t ∧
          (above (s.locNat (a + 8) 4) → t.locBytes a 12 = leBytes p.val 8 ++ leBytes p.count 4) ∧ (¬above (s.locNat (a + 8) 4) → t.mem = s.mem)))) ∧
  (∀ (s : State) (o : Op), s.findOp o.id = some o → o.kind = .unsl → o.waitsFed = false →
    (∀ a, o.accs = [a] → a.done = false → a.val = 0 → s.ldsPending o.team o.core a.opnd o.id = false →
      ∃ t b, exec (.unslDone o.id) s = .next t ∧ (t.findOp o.id).map (·.accs) = some [b] ∧ b.val = 1 ∧ b.cmp = s.mooredBy o.team o.core a.opnd ∧ (b.done = true ↔ b.cmp = 0) ∧ t.moorings = s.moorings.filter (fun m => m.mid != b.cmp) ∧ Apart s t) ∧
    ((∀ a ∈ o.accs, a.done = true ∨ a.val ≠ 0) → (∀ a ∈ o.accs, ∀ p ∈ s.pushes, p.mid ≠ a.cmp) →
      ∃ t, exec (.unslDone o.id) s = .next t ∧ (t.findOp o.id).map (·.accs) = some (o.accs.map fun a => { a with done := true }) ∧ Apart s t))

/-- An lds performed at its home, behind the earlier accesses of its thread and the earlier ones of its slot, reads the word, moors the slot where the table and quota have room, and writes the record: the value, count 0, and the thread's number with the moored bit. A push that may land and whose mooring last wrote its slot writes its value and count over the slot's record, in the scratchpad or, of a saved team, in its image, where its count is above the record's; one of another mooring is dropped; an unsl ends its slot's mooring behind the team's lds of that slot, and is done once no push of the mooring is under way. -/
def Obligations.StandingLoadsLand : Prop :=
  Sys2Proof.Claims.LdsPerforms ∧ Sys2Proof.Claims.PushesLand

/-- R233, R314, R318, R326, R450: a clean line leaves its core's cache alone; a dirty line's write goes to its home; a report raises a watermark, never past a write under way; a self-test that fails twice fences its sub-array, and one that passes clears the use of it; a snoop that finds nothing dirty changes no memory, and drops the line where it invalidates. -/
def Obligations.CachesAndSelfTests : Prop :=
  ∀ (s : State) (core : Nat), Store.wf {} s.cores = true → Store.wf none (s.core core).l1 = true →
    (∀ line, ∃ t, exec (.l1CleanTimeout core line) s = .next t ∧ Apart s t ∧ ∀ x, Store.get none (t.core core).l1 x = if x = line then none else Store.get none (s.core core).l1 x) ∧
    (∀ w : Write, (s.writes.filter fun x => x.l1 == some core && decide (x.key / 128 = w.key / 128)) = [w] → findBy (fun x : Write => x.id == w.id) s.writes = some w → s.canApply w = true → w.segs = [] → Carries w → Plain s w.key w.bytes.length → Memory.wf s.mem = true → Store.wf none s.outMem = true →
      ∃ t, exec (.l1DirtyWriteback core (w.key / 128)) s = .next t ∧ (∀ x ∈ t.writes, x ∈ s.writes ∧ x.id ≠ w.id) ∧ ∀ k, t.locByte k = if w.key ≤ k ∧ k < w.key + w.bytes.length then w.bytes.getD (k - w.key) 0 else s.locByte k) ∧
    (∀ origin home, Store.wf 0 s.watermark = true → ∃ t, exec (.watermarkReport origin home) s = .next t ∧ Apart s t ∧ s.arrived home origin ≤ t.arrived home origin ∧ (s.pendingFor origin home = [] → s.originCounter origin ≤ t.arrived home origin) ∧
      ∀ w ∈ s.pendingFor origin home, s.arrived home origin < w.stamp → t.arrived home origin < w.stamp) ∧
    (∀ sub fails, sub < 4 → (s.core core).fenced.getLsbD sub = false →
      (fails < 2 → ∃ t, exec (.selfTest core sub fails) s = .next t ∧ t.cores = s.cores ∧ Apart s t ∧ (∀ l ∈ t.launches, (core, sub) ∉ l.used) ∧ ∀ u ∈ t.doneUses, u.2.2 ≠ (core, sub)) ∧
      (2 ≤ fails → Store.wf none (s.core core).latch = true → ∃ t, exec (.selfTest core sub fails) s = .next t ∧ (t.core core).fenced = (s.core core).fenced ||| (1#4 <<< sub) ∧ (t.core core).fcount = min 255 ((s.core core).fcount + 1) ∧ Store.get none (t.core core).latch sub = none ∧ RegsSame s t)) ∧
    (∀ addr inv, (∀ w ∈ s.writes, w.key / 128 = (addr + 2 ^ 52) / 128 → w.l1 = none) → ∃ t, exec (.cxlCacheSnoop addr inv) s = .next t ∧ Apart s t ∧ (inv = false → t = s) ∧
      (inv = true → Store.get none (t.core core).l1 ((addr + 2 ^ 52) / 128) = none))

/-! ### Queues and packets -/

/-- R336, R338, R342, R343, R513: a queue with a fit ring is enabled at its read index, its reader moored on its write index word, and another is not; once a push has come, the reader takes the next published slot, then clears its type byte, then moves the read index on, or moors on a claimed slot, or waits for the next push; a bad read, or a bad store of a packet taken, is recorded and stops the queue; a packet that has ended leaves its queue, and the timeline passes it in sequence. -/
def Obligations.QueuesMoveOn : Prop :=
  ∀ (s : State) (q : Nat), q < 2048 → Store.wf {} s.queues = true →
    let k := s.queue q
    (∀ v : DWord, k.qctl.getLsbD 31 = true → (s.tenant k.tenant).busy = false → v.getLsbD 31 = false → ∃ t, exec (.qctlWrite q v) s = .next t ∧ (t.queue q).qctl.getLsbD 31 = false ∧ (t.queue q).timeline = k.timeline ∧ (t.queue q).pkts = k.pkts ∧ Apart s t) ∧
    (∀ (v : DWord) (r : Nat), k.qctl.getLsbD 31 = false → (s.tenant k.tenant).busy = false → v.getLsbD 31 = true →
      (s.ringOk (v.toNat / 2 ^ 24 % 16) (v.toNat / 2 ^ 20 % 16) k.qbase.toNat k.qindex.toNat (v.toNat % 32) 4096 = some r → k.timeline ≤ r → ∃ t, exec (.qctlWrite q v) s = .next t ∧ (t.queue q).qctl.getLsbD 31 = true ∧ (t.queue q).timeline = r ∧ (t.queue q).rpos = r ∧ (t.queue q).due = true ∧
        (∀ tr, s.translate [] (v.toNat / 2 ^ 24 % 16) (v.toNat / 2 ^ 20 % 16) k.qindex.toNat = .ok tr → ∃ m ∈ t.moorings, m.reader = some q ∧ m.key = tr.key ∧ m.size = 8) ∧ Apart s t) ∧
      (s.ringOk (v.toNat / 2 ^ 24 % 16) (v.toNat / 2 ^ 20 % 16) k.qbase.toNat k.qindex.toNat (v.toNat % 32) 4096 = none → ∃ t, exec (.qctlWrite q v) s = .next t ∧ (t.queue q).qctl.getLsbD 31 = false ∧ (t.queue q).timeline = k.timeline ∧ Apart s t)) ∧
    (k.due = false → k.step = 0 → exec (.packetTake q) s = .next s) ∧
    (k.enabled = true → k.faultSeq = 0 → (k.step = 1 → ∀ e, s.readerKey k (k.slotVa (k.rpos - 1)) 1 1 .write = .error e → ∃ t, exec (.packetTake q) s = .next t ∧ (t.queue q).faultSeq ≠ 0 ∧ (t.queue q).step = 1 ∧ (t.queue q).rpos = k.rpos ∧ (t.queue q).pkts = k.pkts) ∧
      (k.step = 2 → ∀ e, s.readerKey k (k.qindex.toNat + 8) 8 8 .write = .error e → ∃ t, exec (.packetTake q) s = .next t ∧ (t.queue q).faultSeq ≠ 0 ∧ (t.queue q).step = 2 ∧ (t.queue q).rpos = k.rpos ∧ (t.queue q).pkts = k.pkts)) ∧
    (k.enabled = true → k.faultSeq = 0 → k.due = true → k.step = 0 →
      (∀ ks kr u v, s.nextSlot k = .ok (.packet ks) → s.homeReady (s.homeOf ks) ((s.locClk ks).max k.clk) = true → u = (s.readerReads k (s.nextSlot k)).tookPacket q ks → v = u.clearType q →
        u.readerKey (u.queue q) (k.slotVa k.rpos) 1 1 .write = .ok ks → ReaderMay u q ks → v.readerKey (v.queue q) (k.qindex.toNat + 8) 8 8 .write = .ok kr → ReaderMay v q kr →
        Plain s ks 1 → Plain s kr 8 → ¬(kr ≤ ks ∧ ks < kr + 8) → Memory.wf s.mem = true → Store.wf none s.outMem = true → k.rpos < 2 ^ 64 - 1 →
        ∃ t x, exec (.packetTake q) s = .next t ∧ (t.queue q).pkts = k.pkts ++ [x] ∧ x.seq = k.rpos + 1 ∧ x.bytes = s.locBytes ks 64 ∧ x.started = false ∧ (t.queue q).rpos = k.rpos + 1 ∧ t.locByte ks = 0 ∧ t.locNat kr 8 = k.rpos + 1 ∧
          ∀ y, y ≠ ks → ¬(kr ≤ y ∧ y < kr + 8) → t.locByte y = s.locByte y) ∧
      (s.nextSlot k = .ok .empty → ∃ t, exec (.packetTake q) s = .next t ∧ (t.queue q).due = false ∧ (t.queue q).rpos = k.rpos ∧ (t.queue q).pkts = k.pkts ∧ Apart s t) ∧
      (∀ ks, s.nextSlot k = .ok (.claimed ks) → ∃ t, exec (.packetTake q) s = .next t ∧ (t.queue q).due = false ∧ (t.queue q).pkts = k.pkts ∧ (∃ m ∈ t.moorings, m.reader = some q ∧ m.key = ks) ∧ Apart s t) ∧
      (∀ e, s.nextSlot k = .error e → ∃ t, exec (.packetTake q) s = .next t ∧ (t.queue q).faultSeq ≠ 0 ∧ (t.queue q).rpos = k.rpos ∧ (t.queue q).pkts = k.pkts)) ∧
    (∀ p r, pktOf s q p.seq = some p → p.result = some r → (p.bytes.getD 1 0).getLsbD 0 = false → ∃ t, exec (.packetComplete q p.seq) s = .next t ∧ (t.queue q).pkts = k.pkts.filter (fun x => x.seq != p.seq) ∧ k.timeline ≤ (t.queue q).timeline ∧
      (p.seq = k.timeline + 1 → p.seq ≤ (t.queue q).timeline) ∧ (p.seq ≠ k.timeline + 1 → k.fin = [] → (t.queue q).timeline = k.timeline ∧ (t.queue q).fin = [p.seq]) ∧ Apart s t)

/-- R44, R345, R348, R355, R358, R360: a LAUNCH that names a kernel becomes a launch, its team indices dealt over the dies of its mask, each to one; COPY, COPYM and XFORM each go to a channel of a die; a TABLE waits for every lane it names, or loads an entropy table. -/
def Obligations.WorkPacketsStart : Prop :=
  ∀ (s : State) (q : Nat) (p : Pkt),
    let k := s.queue q
    (Starts s q 1 p → s.launchBad q k p = [] → ∃ t l, exec (.launch q) s = .next t ∧ t.launches = s.launches ++ [l] ∧ l.q = q ∧ l.seq = p.seq ∧ l.body = p.bytes ∧ l.tenant = k.tenant ∧ l.asid = p.asid ∧ l.running = 0 ∧ l.pulled = [] ∧ l.aborted = none ∧ Under t q p.seq ∧ Apart s t ∧
      (∀ im e w n b, s.kernelOf k.tenant (fieldAt p.bytes 0x10 4) = some (im, e, w, n, b) → l.entry = im.codeVa + e ∧ l.nregs = n ∧ l.w = widthOf w) ∧
      (∀ n, n < l.gx * l.gy * l.gz ↔ ∃ d, (counter l d).1 ≤ n ∧ n < (counter l d).2) ∧ ∀ d e n, (counter l d).1 ≤ n → n < (counter l d).2 → (counter l e).1 ≤ n → n < (counter l e).2 → d = e) ∧
    (∀ i n, (i, n) ∈ [(Instr.copyPacket q, 2), (Instr.copymPacket q, 3), (Instr.xformPacket q, 4)] → Starts s q n p → chanBody n p.bytes = [] → (∀ e ∈ s.chans, ∀ o ∈ e.2.ops, o.seq ≤ e.2.lastSeq) →
      ∃ t d c o, exec i s = .next t ∧ c < 16 ∧ (t.chan (.die d c)).ops = (s.chan (.die d c)).ops ++ [o] ∧ o.bytes = p.bytes ∧ o.pkt = some (q, p.seq) ∧ o.seq = (s.chan (.die d c)).lastSeq + 1 ∧ (t.chan (.die d c)).lastSeq = o.seq ∧ Under t q p.seq ∧ Apart s t) ∧
    (Starts s q 5 p → tableBad p.bytes = [] → (p.bytes.getD 0x1E 0).getLsbD 2 = false → tableLanes p.bytes ≠ [] → (tableLanes p.bytes).Nodup →
      ∃ t, exec (.table q) s = .next t ∧ (∀ n ∈ tableLanes p.bytes, (t.lane n).fills = (s.lane n).fills ++ [(q, p.seq, none)]) ∧ (∃ x, pktOf t q p.seq = some x ∧ x.started = true ∧ x.result = none ∧ x.left = (tableLanes p.bytes).length) ∧ Apart s t) ∧
    (∀ bs, Starts s q 5 p → tableBad p.bytes = [] → (p.bytes.getD 0x1E 0).getLsbD 2 = true → s.pktMay k p = true → (s.startPkt q p).pktRead k p (fieldAt p.bytes 0x10 8) 256 = .ok bs → bs ≠ [] →
      let n := (p.bytes.getD 0x1E 0).toNat / 8 % 4
      ∃ t, exec (.table q) s = .next t ∧ Store.get [] (t.tenant k.tenant).entropy n = bs ∧ Ended t q p.seq 0 0 0 ∧ RegsSame s t ∧ (NoneCoded s k.tenant (4 + n) → MemorySame s t))

/-- R340, R343, R366 to R368: a SIGNAL that may write its word in memory writes it, or adds to it, at once, and ends; a WAIT stands until the timeline it names has come to its value; a SEAL of an APPEND region seals or frees it as the words do, and of anything else is a FAULT; the header's failing offset rejects each. -/
def Obligations.OrderPacketsStart : Prop :=
  ∀ (s : State) (q : Nat) (p : Pkt),
    let k := s.queue q
    let n := fieldAt p.bytes 0x18 8
    let va := fieldAt p.bytes 0x10 8
    (∀ op tr, Starts s q 6 p → signalBad p.bytes = [] → fieldAt p.bytes 0x20 1 = op → op ≤ 1 → s.writeWaits k p va = false → s.pktMay k p = true → s.check [] k.tenant p.asid va 8 (if op = 1 then .atomic else .write) = .ok tr →
      s.linkDown tr.key = false → s.poison = [] → Plain s tr.key 8 → Memory.wf s.mem = true → Store.wf none s.outMem = true →
      ∃ t, exec (.signal q) s = .next t ∧ Ended t q p.seq 0 0 8 ∧ t.locNat tr.key 8 = (if op = 1 then (s.locNat tr.key 8 + n) % 2 ^ 64 else n) ∧ ∀ x, ¬(tr.key ≤ x ∧ x < tr.key + 8) → t.locByte x = s.locByte x) ∧
    (Starts s q 7 p → s.waitBad k p.bytes = [] → ∃ t, exec (.waitPacket q) s = .next t ∧ Under t q p.seq ∧ Apart s t) ∧
    (k.blocker = some p → pktOf s q p.seq = some p → fieldAt p.bytes 0x18 1 = 0 →
      (va ≤ (s.queue (fieldAt p.bytes 0x1A 2)).timeline → ∃ t, exec (.waitPacketDone q) s = .next t ∧ Ended t q p.seq 0 0 0 ∧ Apart s t) ∧
      ((s.queue (fieldAt p.bytes 0x1A 2)).timeline < va → exec (.waitPacketDone q) s = .next s)) ∧
    (Starts s q 8 p → (p.bytes.getD 0x18 0).toNat ≤ 1 → (p.bytes.drop 0x19).all (· == 0) = true →
      (s.sealTarget k p = none → ∃ t, exec (.sealPacket q) s = .next t ∧ Ended t q p.seq 5 7 0 ∧ Apart s t) ∧
      (∀ r, s.sealTarget k p = some r → s.findRegion r.id = some r → ∃ t o g, exec (.sealPacket q) s = .next t ∧ o ∈ t.ops ∧ o.id = s.nextId ∧ (∀ x ∈ s.ops, x.id ≠ o.id → x ∈ t.ops) ∧ Under t q p.seq ∧ t.findRegion r.id = some g ∧ t.mem = s.mem ∧
        ((p.bytes.getD 0x18 0).toNat = 0 → o.kind = .seal r.id ∧ g = { r with st := if r.st = 0 then 1 else r.st }) ∧ ((p.bytes.getD 0x18 0).toNat = 1 → o.kind = .free r.id))) ∧
    (∀ i type, (i, type) ∈ [(Instr.launch q, 1), (Instr.copyPacket q, 2), (Instr.copymPacket q, 3), (Instr.xformPacket q, 4), (Instr.table q, 5), (Instr.signal q, 6), (Instr.waitPacket q, 7), (Instr.sealPacket q, 8), (Instr.migrate q, 9)] → s.starting q type = some p → pktOf s q p.seq = some p →
      ∀ off, off = (if 4 ≤ fieldAt p.bytes 1 1 then 1
          else if k.qctl.toNat / 2 ^ 18 % 4 < fieldAt p.bytes 2 1 % 4 ∨ fieldAt p.bytes 2 1 / 4 % 4 ≠ 0 ∨ (Store.get 0 (s.tenant k.tenant).troot (fieldAt p.bytes 2 1 / 16)).getLsbD 0 = false then 2
          else if fieldAt p.bytes 3 5 ≠ 0 then 3
          else if fieldAt p.bytes 8 8 % 16 ≠ 0 ∨ (fieldAt p.bytes 1 1 % 2 = 0 ∧ fieldAt p.bytes 8 8 ≠ 0) then 8 else 0) → off ≠ 0 →
      ∃ t, exec i s = .next t ∧ Ended t q p.seq 1 off 0 ∧ Apart s t)

/-- R369, R398 to R400: a MIGRATE of an address that is not its page's start is rejected at 0x10; one of a page that stands where it should ends at once; another reserves a frame of the pool of its target and marks the page's leaf as moving; the packet ends once a system channel has copied the page, or met an error in it, and not before. (That the count is the page's bytes, and when its copy starts, are deduced: log entry 18.) -/
def Sys2Proof.Claims.MigrationsMovePages : Prop :=
  ∀ (s : State) (q : Nat) (p : Pkt) (m : MovePlan),
    let k := s.queue q
    s.movePlan k p = .ok m →
    (Starts s q 9 p → (p.bytes.getD 0x18 0).toNat < 8 → (p.bytes.drop 0x19).all (· == 0) = true → m.tr.moving = false →
      (fieldAt p.bytes 0x10 8 % m.bytes ≠ 0 → ∃ t, exec (.migrate q) s = .next t ∧ Ended t q p.seq 1 0x10 0 ∧ Apart s t) ∧
      (∀ st d, s.moveEnds k m p = some (st, d) → ∃ t, exec (.migrate q) s = .next t ∧ Ended t q p.seq st d 0 ∧ Apart s t) ∧
      (∀ a f r u, s.moveEnds k m p = none → s.poolFor k.tenant m.die m.tier m.size m.tr.region = some a → (s.pool k.tenant a).frames = f :: r → (s.startPkt q p).takeFrame k.tenant a = some (f, u) →
        ∃ t x, exec (.migrate q) s = .next t ∧ pktOf t q p.seq = some x ∧ x.frame = f + 1 ∧ x.mark = u.nextId ∧ x.result = none ∧ (t.pool k.tenant a).frames = r ∧
          t.mem = (u.setEntry k.tenant p.asid (fieldAt p.bytes 0x10 8) m.tr.level (m.tr.entry + 2 ^ 52)).mem)) ∧
    (k.mover = some p → pktOf s q p.seq = some p →
      (m.tr.moving = true → s.moveCopied q p = false → exec (.migrationCopyDone q) s = .next s) ∧
      (m.tr.moving = true → s.moveCopied q p = true → ∃ t x, exec (.migrationCopyDone q) s = .next t ∧ pktOf t q p.seq = some x ∧ x.result ≠ none ∧ t.sysOf (.move q p.seq) = none ∧ RegsSame s t ∧
        (s.badAt m.tr.key m.bytes = true → x.result = some (5, 0x0D, 0)) ∧ (s.badAt m.tr.key m.bytes = false → s.moorings = [] → x.result = some (0, 0, m.bytes))) ∧
      (m.tr.moving = false → ∃ t, exec (.migrationCopyDone q) s = .next t ∧ Ended t q p.seq 5 6 0 ∧ t.sysOf (.move q p.seq) = none ∧ Apart s t))

/-! ### Channels and lanes -/

/-- R342, R350 to R353, R359, R360, R372: the oldest operation of a channel, where it runs to an end, leaves it: the timeline comes to its sequence number and the status holds what it ended with, a rejection the failing offset; a lane's first job goes on with its channel. A queue-fed COPY within one line of ordinary memory writes the bytes it read and no others. One whose outrider meets a fault stays, and its outrider waits for the answer to a record. A system channel copies its first operation's next lines. A table that a lane can load goes into its free bank, which becomes the current one. (How much a channel does in one move is the model's choice: log entry 16.) -/
def Sys2Proof.Claims.ChannelsMoveOn : Prop :=
  (∀ (s : State) (ch : ChanId) (o : ChOp) (rest : List ChOp), (∀ d n, ch ≠ .system d n) → (s.chan ch).ops = o :: rest → s.headRuns ch o = true →
    (∀ u x y r st d, u = (s.outriderOn ch o).1 → (u.chan ch).head = some x → r = (u.captureBank ch x).runHead ch x → r.status = some (st, d) → (x.pkt ≠ none ∨ (x.bytes.getD 1 0).getLsbD 0 = false) →
      (r.x.s.chan ch).ops = y :: rest → (r.x.s.chan ch).timeline = (s.chan ch).timeline →
      ∃ t, exec (.channelOpComplete ch) s = .next t ∧ Left s t ch x rest (st + 256 * d) ∧ ∀ n j l, (s.lane n).jobs = j :: l → j.1 = ch → j.2.1 = o.seq → exec (.transducerJobEnd n) s = .next t) ∧
    (∀ off, o.ended = none → o.lane = none → o.claim = none → chanReject (chanIsCore ch) 3 o.bytes = some off → (o.bytes.getD 1 0).getLsbD 0 = false → ∃ t, exec (.channelOpComplete ch) s = .next t ∧ Left s t ch o rest (1 + 256 * off) ∧ Apart s t) ∧
    (∀ a b x, OneLine s ch o a b → o.pkt = some x → ∃ t, exec (.channelOpComplete ch) s = .next t ∧ Left s t ch o rest 0 ∧
      ∀ k, t.locByte k = if b ≤ k ∧ k < b + (planOf o.bytes).len then s.locByte (a + (k - b)) else s.locByte k) ∧
    (∀ u c a, s.outriderOn ch o = (u, some (c, a)) → ∃ t x, exec (.outriderFault ch) s = .next t ∧ (t.chan ch).ops = x :: rest ∧ x.waitSeq ≠ 0 ∧ x.seq = o.seq ∧ x.bytes = o.bytes ∧ x.done = o.done) ∧
    (∀ u, s.outriderOn ch o = (u, none) → exec (.outriderFault ch) s = .next s)) ∧
  (∀ (s : State) (d n : Nat) (o : SysOp), s.sysHead d n = some o → s.sysOf o.job = some o → o.waitSeq = 0 → o.ended = false → o.done < o.size → s.sysWaits o = false → s.poison = [] →
    ∃ t x, exec (.channelOpComplete (.system d n)) s = .next t ∧ t.sysOf o.job = some x ∧ x.done = min (o.done + 2048) o.size ∧ x.size = o.size ∧ Apart s t) ∧
  (∀ (s : State) (n q seq b : Nat) (rest : List (Nat × Nat × Option Nat)) (p : Pkt) (bs : List Byte), (s.lane n).fills = (q, seq, none) :: rest → (s.lane n).fillBank = some b → pktOf s q seq = some p → s.mayRun 4 p.clk = true → p.result = none → Store.wf {} s.lanes = true →
    s.pktRead (s.queue q) p (fieldAt p.bytes 0x10 8) (fieldAt p.bytes 0x18 4) = .ok bs → ∃ t, exec (.tableFillDone n) s = .next t ∧ (t.lane n).cur = b ∧ (if b = 0 then (t.lane n).bank0 else (t.lane n).bank1) = bankOf bs ∧
      (if b = 0 then (t.lane n).bank1 = (s.lane n).bank1 else (t.lane n).bank0 = (s.lane n).bank0) ∧ Apart s t ∧
      (p.left ≤ 1 → Ended t q seq 0 0 0 ∧ (t.lane n).fills = rest.filter fun f => !(f.1 == q && f.2.1 == seq)) ∧
      (1 < p.left → (t.lane n).fills = (q, seq, some b) :: rest ∧ ∃ y, pktOf t q seq = some y ∧ y.left = p.left - 1 ∧ y.result = none))

/-- A MIGRATE of an address that is not its page's start is rejected at 0x10; one of a page that stands where it should ends at once; another reserves a frame of the pool of its target and marks the page's leaf as moving; the packet ends once a system channel has copied the page, or met an error in it, and not before. (That the count is the page's bytes, and when its copy starts, are deduced: log entry 18.) The oldest operation of a channel, where it runs to an end, leaves it: the timeline comes to its sequence number and the status holds what it ended with, a rejection the failing offset; a lane's first job goes on with its channel. A queue-fed COPY within one line of ordinary memory writes the bytes it read and no others. One whose outrider meets a fault stays, and its outrider waits for the answer to a record. A system channel copies its first operation's next lines. A table that a lane can load goes into its free bank, which becomes the current one. (How much a channel does in one move is the model's choice: log entry 16.) -/
def Obligations.MigrationsAndChannelsMoveOn : Prop :=
  Sys2Proof.Claims.MigrationsMovePages ∧ Sys2Proof.Claims.ChannelsMoveOn

namespace Sys2Proof.Claims
open Sys2Proof Sys2Proof.Machine

/-! ### Management, watchdogs, debug and platform -/

/-- Everything a tenant register write may reach is that tenant's registers; the rest of the machine is as it was. -/
def OnlyTenant (s t : State) (n : Nat) : Prop := (∀ m, m ≠ n → t.tenant m = s.tenant m) ∧ { t with tenants := s.tenants } = s
/-- The status that TINVCTL, REGCMD and DBGCTL hold in bits [39:32]. -/
def statusOf (x : DWord) : Nat := ((x >>> 32).setWidth 8).toNat
/-- An access of n bytes from outside that a window with a permission bit holds, within one line, to a location of which no write of the hub waits and whose page stays where it is (R314, R400, R456). -/
structure Arrives (s : State) (b pa n : Nat) : Prop where
  held : s.openTo b pa n = true
  line : pa % 128 + n ≤ 128
  first : s.pendingFor 4 (s.homeOf (s.locOf pa)) = []
  still : s.movingKey (s.locOf pa) = false
/-- The frame of a page of a region holds these bytes, of which all stay of the region and page; where it is DEFAULT, some element of the page still differs from the default once they hold what is new (R265, R456). -/
structure Backs (s : State) (pa : Nat) (new : List Byte) (r : Region) (i : Nat) (p : Page) : Prop where
  owner : frameOwner pa s.regions = some (r, i, p)
  inside : ∀ j < new.length, s.regionOfKey (s.locOf pa + j) = some r ∧ r.pageOf (keyVa (s.locOf pa + j)) = i
  only : ∀ g ∈ s.regions, g.id = r.id → g = r
  form : Store.wf none r.pages = true
  kept : r.cls = 1 → let off := keyVa (s.locOf pa) - r.base
    p.count + diffCount r (overlay (fun x => r.byteAt (r.base + x)) off new) off new.length ≠ diffCount r (fun x => r.byteAt (r.base + x)) off new.length
/-- The bytes lie at a frame of no region, or at the frame of a page of a region. -/
def Placed (s : State) (pa : Nat) (new : List Byte) : Prop := (s.locOf pa = pa ∧ Plain s pa new.length) ∨ ∃ r i p, Backs s pa new r i p
/-- A byte that a read sees: in an APPEND region, one of its committed part (R268). -/
def Seen (s : State) (k : Nat) : Prop := ∀ r, s.regionOfKey k = some r → r.cls = 2 → 128 ≤ keyVa k - r.base ∧ keyVa k - r.base < r.t
/-- Bytes have been written at a location, and nowhere else in a region or in memory that backs none. -/
def Wrote (s t : State) (key : Nat) (new : List Byte) : Prop :=
  ∀ k, isRegionKey k = true ∨ frameOwner k s.regions = none →
    (key ≤ k → k < key + new.length → Seen s k → t.locByte k = new.getD (k - key) 0) ∧ (¬(key ≤ k ∧ k < key + new.length) ∨ ¬Seen s k → t.locByte k = s.locByte k)
/-- A thread of the selected teams of a tenant (R432). -/
def Selected (s : State) (tenant : Nat) (id : TeamId) : Prop := ∃ x ∈ s.dbgTeams tenant, x.id = id

/-- The limit of a tenant's spin and handler counts (R404, R440). -/
def countLimit (s : State) (tenant : Nat) : Nat := Nat.max 65536 ((s.tenant tenant).wdctl.toNat % 2 ^ 32)
end Sys2Proof.Claims
open Sys2Proof Sys2Proof.Machine Sys2Proof.Claims

/-! ### Registers of the host -/

/-- R336, R387, R395, R415, R417, R440, R446, R453, R455, R457, R458, R464: a register of the host takes what its writable fields allow, and no other state changes; one of a tenant that is being reset takes nothing, and a pool that holds a frame, or that a region names, keeps its place and size. A write of an unassigned offset is ignored, and so is one through a virtual function beyond its own tenant's page. (How a write names its function is the model's: log entry 32.) (That an RGCOUNT above 4,096 is ignored is deduced: log entry 19.) -/
def Obligations.RegistersTakeTheirFields : Prop :=
  ∀ (s : State) (v : DWord),
    (∃ t, exec (.registerWrite .wdesc v) s = .next t ∧ t.wdesc = v.setWidth 32 ∧ { t with wdesc := s.wdesc } = s) ∧
    (∃ t, exec (.registerWrite .evctl v) s = .next t ∧ t.evctl = v &&& 0xFFFF ∧ { t with evctl := s.evctl } = s) ∧
    (∃ t, exec (.registerWrite .evsel v) s = .next t ∧ t.evsel = v &&& 0xFFF0FF ∧ { t with evsel := s.evsel } = s) ∧
    (∃ t, exec (.registerWrite .govctl v) s = .next t ∧ t.govFix = v.getLsbD 31 ∧ t.govFreq = (if 32 ≤ v.toNat / 2 ^ 8 % 64 ∧ v.toNat / 2 ^ 8 % 64 ≤ 50 then v.toNat / 2 ^ 8 % 64 else s.govFreq) ∧ { t with govFix := s.govFix, govFreq := s.govFreq } = s) ∧
    (∃ t, exec (.registerWrite .pwrcap v) s = .next t ∧ t.pwrcap = (if 1200 ≤ v.toNat % 4096 ∧ v.toNat % 4096 ≤ 2400 then v.toNat % 4096 else s.pwrcap) ∧ { t with pwrcap := s.pwrcap } = s) ∧
    (∀ q, (s.queue q).qctl.getLsbD 31 = true → exec (.registerWrite (.qbase q) v) s = .next s ∧ exec (.registerWrite (.qindex q) v) s = .next s) ∧
    (∀ q, (s.queue q).qctl.getLsbD 31 = false → Store.wf {} s.queues = true → (∃ t, exec (.registerWrite (.qbase q) v) s = .next t ∧ t.queue q = { s.queue q with qbase := v } ∧ { t with queues := s.queues } = s) ∧
      ∃ t, exec (.registerWrite (.qindex q) v) s = .next t ∧ t.queue q = { s.queue q with qindex := v } ∧ { t with queues := s.queues } = s) ∧
    (∀ a, exec (.registerWrite (.unassigned a) v) s = .next s) ∧
    (∀ n r, (regPage r ≠ some n → exec (.registerWrite (.through n r) v) s = .next s) ∧ (regPage r = some n → exec (.registerWrite (.through n r) v) s = exec (.registerWrite r v) s)) ∧
    (∀ n p, (s.tenant n).busy = false → (s.pool n p).frames ≠ [] ∨ (∃ g ∈ s.regions, g.id.tenant = n ∧ g.pool = p) → Store.wf {} s.tenants = true → Store.wf {} (s.tenant n).pools = true →
      ∃ t, exec (.registerWrite (.poolcfg n p) v) s = .next t ∧ OnlyTenant s t n ∧ (t.pool n p).frames = (s.pool n p).frames ∧ (t.pool n p).cfg.toNat / 4 % 32 = (s.pool n p).cfg.toNat / 4 % 32) ∧
    ∀ n, Store.wf {} s.tenants = true →
      ((s.tenant n).busy = false → (∃ t, exec (.registerWrite (.recctl n) v) s = .next t ∧ (t.tenant n).recctl = v &&& 0x1F ∧ OnlyTenant s t n) ∧
        (∃ t, exec (.registerWrite (.snapcfg n) v) s = .next t ∧ (t.tenant n).snapcfg = v &&& 0x1F ∧ OnlyTenant s t n) ∧
        (∃ t, exec (.registerWrite (.wdctl n) v) s = .next t ∧ (t.tenant n).wdctl = v ∧ OnlyTenant s t n) ∧
        (∃ t, exec (.registerWrite (.ctxsize n) v) s = .next t ∧ (t.tenant n).ctxsize = (if (s.tenant n).ctxbase.getLsbD 0 then (s.tenant n).ctxsize else v &&& 0xFFFFFF0000) ∧ OnlyTenant s t n) ∧
        ∀ a, Store.wf 0 (s.tenant n).tvec = true → Store.wf 0 (s.tenant n).rgcount = true →
          (∃ t, exec (.registerWrite (.tvec n a) v) s = .next t ∧ Store.get 0 (t.tenant n).tvec a = v ∧ (∀ b, b ≠ a → Store.get 0 (t.tenant n).tvec b = Store.get 0 (s.tenant n).tvec b) ∧ OnlyTenant s t n) ∧
          ∃ t, exec (.registerWrite (.rgcount n a) v) s = .next t ∧ Store.get 0 (t.tenant n).rgcount a = (if v.toNat % 2 ^ 13 ≤ 4096 then v &&& 0x1FFF else Store.get 0 (s.tenant n).rgcount a) ∧ OnlyTenant s t n) ∧
      ((s.tenant n).busy = true → ∀ r ∈ [HostReg.tinva n, .snapcfg n, .fresp n, .dbgsel n, .dbgctl n, .ctxsize n, .wdctl n, .recctl n], exec (.registerWrite r v) s = .next s)

/-- R384, R385, R387, R388, R457, R461: an invalidation of a range that is no multiple of its page ends with status 0x10, and another drops the translations of its range; a region is made active or is refused with a status; a frame is added to a pool it fits; an anti-rollback minimum never falls, and rises only to what a verified image carries. (That the checks of a load take regions of every class, and what a page-size code of 3 does, are deduced: log entry 19.) -/
def Sys2Proof.Claims.CommandsOfTheHost : Prop :=
  ∀ (s : State) (n : Nat) (v : DWord), (s.tenant n).busy = false →
    ((s.tenant n).tinvBusy = false → v.getLsbD 31 = true →
      ∃ t, exec (.tinvCommand n v) s = .next t ∧ Apart s t ∧ ((s.tenant n).tinva.toNat % pageBytes (v.toNat / 2 ^ 22 % 4) ≠ 0 → statusOf (t.tenant n).tinvctl = 0x10 ∧ t.cores = s.cores) ∧
        ((s.tenant n).tinva.toNat % pageBytes (v.toNat / 2 ^ 22 % 4) = 0 → v.toNat % 2 ^ 20 = 0 → n < 16 → ∀ c va, Store.wf {} s.cores = true → Store.wf none (s.core c).tlb = true → s.translate (t.core c).tlb n (v.toNat / 2 ^ 24 % 16) va = s.translate [] n (v.toNat / 2 ^ 24 % 16) va)) ∧
    (v.toNat / 2 ^ 30 % 4 = 1 → ∃ t, exec (.regionLoad n v) s = .next t ∧ RegsSame s t ∧
      let id := regcmdId n v.toNat
      (s.loadStatus id ≠ 0 → statusOf (t.tenant n).regcmd = s.loadStatus id % 256 ∧ t.regions = s.regions ∧ t.mem = s.mem) ∧
      (s.loadStatus id = 0 → (s.descriptor id).isSome = true → ∃ r, t.regions = s.regions ++ [r] ∧ r.id = id ∧ r.pages = [] ∧ r.c = 128 ∧ r.t = 128 ∧ r.st = 0 ∧ r.claims = [] ∧ statusOf (t.tenant n).regcmd = 0)) ∧
    (v.toNat / 2 ^ 30 % 4 = 2 → ∃ t, exec (.regionRemove n v) s = .next t ∧ RegsSame s t ∧
      let id := regcmdId n v.toNat
      (s.removeStatus id ≠ 0 → statusOf (t.tenant n).regcmd = s.removeStatus id % 256 ∧ t.regions = s.regions ∧ t.mem = s.mem) ∧
      (s.removeStatus id = 0 → ∀ r ∈ t.regions, r ∈ s.regions ∧ r.id ≠ id)) ∧
    (∀ p, ∃ t, exec (.poolAdd n p v) s = .next t ∧ Apart s t ∧ (s.frameOk n p v.toNat = true → (t.pool n p).frames = (s.pool n p).frames ++ [v.toNat]) ∧
      (s.frameOk n p v.toNat = false → (t.pool n p).frames = (s.pool n p).frames ∧ (t.pool n p).cfg.getLsbD 7 = true)) ∧
    (∃ t, exec (.arBump v) s = .next t ∧ Apart s t ∧ t.tenants = s.tenants ∧ ∀ f, Store.wf 0 s.arMin = true → Store.get 0 s.arMin f ≤ Store.get 0 t.arMin f ∧
      (Store.get 0 t.arMin f ≠ Store.get 0 s.arMin f → f = v.toNat % 64 ∧ Store.get 0 t.arMin f = v.toNat / 2 ^ 32 ∧ ∃ e ∈ s.verified, e.1 = f ∧ Store.get 0 t.arMin f ≤ e.2))

/-- R417, R422, R435, R455, R456: the fault ring, the context area and a frame window are enabled only where they fit, and keep their fields while they are on. (That the ring's registers keep still while it is enabled, log entry 19, and that a context area lies in one tier of one die, log entry 31, are the model's.) -/
def Sys2Proof.Claims.AreasAreEnabled : Prop :=
  ∀ (s : State) (n : Nat) (v : DWord), (s.tenant n).busy = false → Store.wf {} s.tenants = true →
    ((s.tenant n).fcctl.getLsbD 31 = true → (s.tenant n).recs = [] → ∃ t, exec (.fcctlWrite n v) s = .next t ∧ (t.tenant n).fcctl = (if v.getLsbD 31 then (s.tenant n).fcctl else (s.tenant n).fcctl &&& 0x7FFFFFFF) ∧ OnlyTenant s t n) ∧
    ((s.tenant n).fcctl.getLsbD 31 = false → (s.tenant n).recs = [] → ∃ t, exec (.fcctlWrite n v) s = .next t ∧ OnlyTenant s t n ∧
      ((t.tenant n).fcctl.getLsbD 31 = true ↔ v.getLsbD 31 = true ∧ (s.ringOk n (v.toNat / 2 ^ 20 % 16) (s.tenant n).fcbase.toNat (s.tenant n).fcidx.toNat (v.toNat % 32) 4096).isSome = true)) ∧
    ((s.tenant n).ctxbase.getLsbD 0 = true → v.getLsbD 0 = false → s.imagesOf n = [] → ∃ t, exec (.ctxbaseWrite n v) s = .next t ∧ (t.tenant n).ctxbase.getLsbD 0 = false ∧ OnlyTenant s t n) ∧
    ((s.tenant n).ctxbase.getLsbD 0 = true → (v.getLsbD 0 = true ∨ s.imagesOf n ≠ []) → exec (.ctxbaseWrite n v) s = .next s) ∧
    ((s.tenant n).ctxbase.getLsbD 0 = false → ∃ t, exec (.ctxbaseWrite n v) s = .next t ∧ OnlyTenant s t n ∧ ((t.tenant n).ctxbase.getLsbD 0 = true ↔ v.getLsbD 0 = true ∧ (s.tenant n).ctxLen ≠ 0 ∧ s.areaHeld n (v.toNat / 2 ^ 16 % 2 ^ 36 * 65536) (s.tenant n).ctxLen = true ∧
      touches (s.poolSpans ++ s.tableSpans false ++ s.otherAreas n ++ s.replicaSpans) (v.toNat / 2 ^ 16 % 2 ^ 36 * 65536) (s.tenant n).ctxLen = false)) ∧
    (∀ w, (s.tenant n).recs = [] → Store.wf 0 (s.tenant n).winbase = true → ∃ t, exec (.winbaseWrite n w v) s = .next t ∧ OnlyTenant s t n ∧
      let base := v.toNat / 2 ^ 16 % 2 ^ 36
      let top := (Store.get 0 (s.tenant n).winlim w).toNat / 2 ^ 16 % 2 ^ 36
      ((Store.get 0 (t.tenant n).winbase w).getLsbD 0 = true ↔ v.getLsbD 0 = true ∧ base ≤ top ∧ touches (s.otherWindows n ++ s.otherAreas n ++ s.replicaSpans) (base * 65536) ((top + 1 - base) * 65536) = false))

/-- An invalidation of a range that is no multiple of its page ends with status 0x10, and another drops the translations of its range; a region is made active or is refused with a status; a frame is added to a pool it fits; an anti-rollback minimum never falls, and rises only to what a verified image carries. (That the checks of a load take regions of every class, and what a page-size code of 3 does, are deduced: log entry 19.) The fault ring, the context area and a frame window are enabled only where they fit, and keep their fields while they are on. (That the ring's registers keep still while it is enabled, log entry 19, and that a context area lies in one tier of one die, log entry 31, are the model's.) -/
def Obligations.HostCommands : Prop :=
  Sys2Proof.Claims.CommandsOfTheHost ∧ Sys2Proof.Claims.AreasAreEnabled

/-- A core of a tenant has submitted an operation that runs on and waits for no answer, or a write of its threads is on its way to a region. -/
def Submitted (s : State) (n : Nat) : Prop := (∃ e ∈ s.chans, ∃ o ∈ e.2.ops, o.tenant = n ∧ o.pkt = none ∧ o.waitSeq = 0) ∨ ∃ w ∈ s.writes, w.tenant = n ∧ isRegionKey w.key = true ∧ w.bytes ≠ []

/-- R2, R443, R458: a tenant's reset disables its queues and stops its launches; while operations that its cores submitted run on, or writes that they issued are on their way to a region, it is busy, and they, its teams, its regions and memory stay. With none left it has no launch, no team with its groups, no packet in a queue, no mooring, push or region, and its registers are at their reset values; the registers, teams, launches and regions of every other tenant are as they were. (That a reset is made of these two moves is the model's choice: log entry 33.) -/
def Obligations.TenantResets : Prop :=
  (∀ (s : State) (n : Nat), Submitted s n →
    ∃ t, exec (.treset n) s = .next t ∧ (Store.wf {} s.tenants = true → t.tenant n = { s.tenant n with busy := true } ∧ ∀ m, m ≠ n → t.tenant m = s.tenant m) ∧
      (∀ l ∈ t.launches, l.tenant = n → l.aborted ≠ none) ∧ (∀ q, (s.queue q).tenant = n → (t.queue q).pkts = [] ∧ (t.queue q).enabled = false) ∧
      (∀ e ∈ s.chans, ∀ o ∈ e.2.ops, o.pkt = none → ∃ f ∈ t.chans, f.1 = e.1 ∧ o ∈ f.2.ops) ∧ t.teams = s.teams ∧ t.groups = s.groups ∧ MemorySame s t) ∧
  ∀ (s : State) (n : Nat), ¬Submitted s n → (∀ x ∈ s.teams, s.findLaunch x.id.launch ≠ none) → (s.launches.map (·.id)).Nodup →
    ∃ t, exec (.treset n) s = .next t ∧ (Store.wf {} s.tenants = true → t.tenant n = {} ∧ ∀ m, m ≠ n → t.tenant m = s.tenant m) ∧
      (∀ l ∈ t.launches, l.tenant ≠ n) ∧ (∀ x ∈ t.teams, (s.launch x.id.launch).tenant ≠ n) ∧ (∀ r ∈ t.regions, r.id.tenant ≠ n) ∧ (∀ m ∈ t.moorings, m.tenant ≠ n) ∧
      (∀ g ∈ t.groups, ∀ x ∈ s.teams, x.id = g.team → (s.launch x.id.launch).tenant ≠ n) ∧ (∀ p ∈ t.pushes, ∀ l ∈ s.launches, l.id = p.team.launch → l.tenant ≠ n) ∧
      (∀ q, (s.queue q).tenant = n → (t.queue q).pkts = [] ∧ (t.queue q).enabled = false) ∧
      (∀ l ∈ s.launches, l.tenant ≠ n → ∃ x ∈ t.launches, x.id = l.id ∧ x.tickets = l.tickets ∧ x.running = l.running) ∧ (∀ r ∈ s.regions, r.id.tenant ≠ n → r ∈ t.regions) ∧
      (∀ x ∈ s.teams, (s.launch x.id.launch).tenant ≠ n → x ∈ t.teams)

/-! ### Answers to faults -/

/-- R40, R423, R458: of a tenant that is not being reset, an answer of retry or skip reaches the parked sub-group, the channel, the queue or the system channel whose record it names, and abort ends the launch of a sub-group; an answer to no record changes FRESP alone. One to a tenant that is being reset is ignored. Held records are written to an enabled ring that has room. (What an answer means to a channel, a queue and a system channel is DEDUCED: log entry 33.) -/
def Obligations.AnswersReachTheirFault : Prop :=
  (∀ (s : State) (n seq : Nat), (s.tenant n).busy = true → ∀ i ∈ [Instr.frespRetry n seq, .frespSkip n seq, .frespAbort n seq], exec i s = .next s) ∧
  (∀ (s : State) (n seq : Nat), ∀ i ∈ [Instr.frespRetry n seq, .frespSkip n seq, .frespAbort n seq, .faultRecordRetry n], ∃ t, exec i s = .next t) ∧
  ∀ (s : State) (n seq : Nat), seq ≠ 0 → (s.tenant n).busy = false →
    (∀ (act : Nat) (i : Instr), (act, i) ∈ [(0, Instr.frespRetry n seq), (1, .frespSkip n seq), (2, .frespAbort n seq)] →
      (s.recordGrp n seq = none → s.recordChan n seq = none → s.recordQueue n seq = none → s.recordSys n seq = none → ∃ t, exec i s = .next t ∧ (t.tenant n).fresp = BitVec.ofNat 64 (act * 2 ^ 32 + seq % 2 ^ 32) ∧ { t with tenants := s.tenants } = s) ∧
      (∀ g p, act ≠ 2 → s.recordGrp n seq = some g → s.findGrp g.gid = some g → g.park = some p → ∃ t q, exec i s = .next t ∧ (t.grp g.gid).park = some q ∧ q.answer = act + 1 ∧ q.seq = 0 ∧ q.cls = p.cls ∧ t.teams = s.teams ∧ MemorySame s t) ∧
      (∀ ch o r, s.recordGrp n seq = none → s.recordChan n seq = some ch → (s.chan ch).ops = o :: r → ∃ t, exec i s = .next t ∧ (t.chan ch).ops = { o with waitSeq := 0, ended := if act = 0 then o.ended else some (7, 0) } :: r ∧ Apart s t) ∧
      (∀ q, s.recordGrp n seq = none → s.recordChan n seq = none → s.recordQueue n seq = some q → Store.wf {} s.queues = true → ∃ t, exec i s = .next t ∧ (t.queue q).faultSeq = 0 ∧ (t.queue q).qctl.getLsbD 31 = ((s.queue q).qctl.getLsbD 31 && decide (act = 0)) ∧ Apart s t) ∧
      (∀ o, s.recordGrp n seq = none → s.recordChan n seq = none → s.recordQueue n seq = none → s.recordSys n seq = some o → ∃ t, exec i s = .next t ∧ Apart s t ∧ t.chans = s.chans ∧ t.queues = s.queues ∧
        t.sys = s.sys.map fun x => if x.job = o.job then { x with waitSeq := 0, ended := decide (act ≠ 0) } else x)) ∧
    (∀ g p l, s.recordGrp n seq = some g → s.findGrp g.gid = some g → g.park = some p → s.findLaunch g.team.launch = some l → l.aborted = none → ∃ t, exec (.frespAbort n seq) s = .next t ∧ (t.launch g.team.launch).aborted = some p.cls ∧ (t.launch g.team.launch).tickets = []) ∧
    ((s.tenant n).recs = [] ∨ (s.tenant n).fcctl.getLsbD 31 = false → exec (.faultRecordRetry n) s = .next s) ∧
    (∀ (r : Rec) (wk rk k : Nat), (s.tenant n).recs = [r] → (s.tenant n).fcctl.getLsbD 31 = true →
      let t0 := s.tenant n
      let asid := t0.fcctl.toNat / 2 ^ 20 % 16
      let w := s.locNat wk 8
      s.hubKey n asid t0.fcidx.toNat 8 .write = .ok wk → s.hubKey n asid (t0.fcidx.toNat + 8) 8 .read = .ok rk → w - s.locNat rk 8 < 2 ^ (t0.fcctl.toNat % 32) → s.hubKey n asid (t0.fcbase.toNat + 64 * (w % 2 ^ (t0.fcctl.toNat % 32))) 8 .write = .ok k →
      s.movingKey k = false → s.movingKey wk = false → Plain s k r.bytes.length → Plain s wk 8 → (k + r.bytes.length ≤ wk ∨ wk + 8 ≤ k) → w < 2 ^ 64 - 1 → Memory.wf s.mem = true → Store.wf none s.outMem = true → Store.wf {} s.tenants = true →
      ∃ t, exec (.faultRecordRetry n) s = .next t ∧ (t.tenant n).recs = [] ∧ t.locNat wk 8 = w + 1 ∧ RegsSame s t ∧ ∀ x, k ≤ x → x < k + r.bytes.length → t.locByte x = r.bytes.getD (x - k) 0)

/-! ### Watchdogs -/

/-- R404, R405, R411, R440 to R442: an expiry counts at its cluster; a spin expiry stands until its group's clause ends, and then parks the members that go on with class 15 and detail 1; a wait expiry parks each waiting set of its home group with class 15 and detail 2; an expiry in a handler starts its group's count again and is recorded as kind 10, class 15 and detail 3; counts fall to 0 in time; a scheduling loop that stalls raises its processor's count; a sweep moves a counter into its total, losing no event. -/
def Obligations.WatchdogsExpire : Prop :=
  (∀ (s : State) (quad : Nat) (h : TeamId × List Nat), (s.quad quad).prev = some h → countLimit s (s.launch h.1.launch).tenant ≤ (s.quad quad).spin → s.wdesc.toNat % 2 ^ 16 > (Store.get {} s.level2 (quad / 32)).count + 1 →
    (s.inClause quad h = true → ∃ t, exec (.watchdogSpin quad) s = .next t ∧ (t.quad quad).expired = some h ∧ (t.quad quad).spin = 0 ∧ (Store.get {} t.level2 (quad / 32)).count = (Store.get {} s.level2 (quad / 32)).count + 1 ∧ t.groups = s.groups ∧ t.teams = s.teams ∧ MemorySame s t) ∧
    (s.inClause quad h = false → s.findTeam h.1 ≠ none → s.launchStopped h.1.launch = false → ∃ t, exec (.watchdogSpin quad) s = .next t ∧ (t.quad quad).spin = 0 ∧ (Store.get {} t.level2 (quad / 32)).count = (Store.get {} s.level2 (quad / 32)).count + 1 ∧ RegsSame s t ∧
      ∀ i ∈ h.2, (s.thread h.1 i).goesOn = true → ∃ g ∈ t.groups, ∃ p, g.park = some p ∧ p.cls = 0x0F ∧ p.detail = 1 ∧ i ∈ g.members ∧ g.team = h.1)) ∧
  (∀ (s : State) (id : TeamId) (hg : Nat), (s.tenant (s.launch id.launch).tenant).wdctl.toNat / 2 ^ 32 ≠ 0 → (s.tenant (s.launch id.launch).tenant).wdctl.toNat / 2 ^ 32 * 1024 ≤ (Store.get 0 (s.team id).waitCount hg).toNat → s.findTeam id ≠ none → s.launchStopped id.launch = false →
    let cl := (s.launch id.launch).quadOf (s.team id).core (hg * (s.launch id.launch).w) / 32
    ∃ t, exec (.watchdogWait id hg) s = .next t ∧ RegsSame s t ∧ (s.wdesc.toNat % 2 ^ 16 > (Store.get {} s.level2 cl).count + 1 → (Store.get {} t.level2 cl).count = (Store.get {} s.level2 cl).count + 1) ∧
    ∀ h ∈ (s.team id).threads, ∀ k next, ((s.team id).threads.map (·.idx)).Nodup → (s.launch id.launch).homeGroup h.idx = hg → h.st = .waiting k next → (∃ g ∈ t.groups, ∃ p, g.park = some p ∧ p.cls = 0x0F ∧ p.detail = 2 ∧ h.idx ∈ g.members ∧ g.team = id) ∨ ∃ n, (t.thread id h.idx).st = .loose n) ∧
  (∀ (s : State) (g : Grp), s.findGrp g.gid = some g → countLimit s (s.launch g.team.launch).tenant ≤ g.handler.toNat → s.launchStopped (s.launch g.team.launch).id = false → ∃ t, exec (.watchdogHandler g.gid) s = .next t ∧ RegsSame s t ∧
    (s.wdesc.toNat % 2 ^ 16 > (Store.get {} s.level2 (g.quad / 32)).count + 1 → (t.grp g.gid).handler = 0 ∧ (Store.get {} t.level2 (g.quad / 32)).count = (Store.get {} s.level2 (g.quad / 32)).count + 1) ∧
    (let n := (s.launch g.team.launch).tenant
     (s.tenant n).recs.length < 64 → (s.tenant n).fcctl.toNat.testBit 31 = false → ∃ r, (t.tenant n).recs = (s.tenant n).recs ++ [r] ∧ r.bytes.take 3 = [10, 0x0F, 3] ∧
       fieldAt r.bytes 8 4 = (s.launch g.team.launch).id % 2 ^ 32 ∧ fieldAt r.bytes 12 4 = g.team.team % 2 ^ 32) ∧
    ((∃ i ∈ g.members, (s.thread g.team i).haltPending = true) → ∀ i ∈ g.members, (t.thread g.team i).haltedInHandler = (s.thread g.team i).inHandler)) ∧
  (∀ (s : State) (n : Nat), (Store.get {} s.level2 n).count ≠ 0 → Store.wf {} s.level2 = true →
    ((Store.get {} s.level2 n).last + 2 ^ 24 ≤ (s.die (n / 24)).clock → ∃ t, exec (.level2CountDecay n) s = .next t ∧ (Store.get {} t.level2 n).count = 0 ∧ { t with level2 := s.level2 } = s) ∧
    ((s.die (n / 24)).clock < (Store.get {} s.level2 n).last + 2 ^ 24 → exec (.level2CountDecay n) s = .next s)) ∧
  (∀ (s : State) (n : Nat), (Store.get {} s.level3 n).count ≠ 0 → Store.wf {} s.level3 = true →
    ((Store.get {} s.level3 n).last + 2 ^ 28 ≤ s.hub → ∃ t, exec (.level3CountDecay n) s = .next t ∧ (Store.get {} t.level3 n).count = 0 ∧ { t with level3 := s.level3 } = s) ∧
    (s.hub < (Store.get {} s.level3 n).last + 2 ^ 28 → exec (.level3CountDecay n) s = .next s)) ∧
  (∀ (s : State) (cp : Nat), cp < 8 → (Store.get {} s.level3 cp).count + 1 < s.wdesc.toNat / 2 ^ 16 % 2 ^ 16 → ∃ t, exec (.schedulingLoopStall cp) s = .next t ∧ (Store.get {} t.level3 cp).count = (Store.get {} s.level3 cp).count + 1 ∧ t.launches = s.launches ∧ t.queues = s.queues ∧ Apart s t) ∧
  (∀ (s : State) (unit code : Nat), Store.wf 0 s.evLive = true → Store.wf 0 s.evTotal = true → ∃ t, exec (.groomSweep unit code) s = .next t ∧ Store.get 0 t.evLive (unit * 256 + code) = 0 ∧
    Store.get 0 t.evTotal (unit * 256 + code) = (Store.get 0 s.evTotal (unit * 256 + code) + Store.get 0 s.evLive (unit * 256 + code)) % 2 ^ 64 ∧ Apart s t ∧ t.teams = s.teams)

/-! ### Debug -/

/-- R432 to R434: halt marks every live thread of the selected teams, at once or, in its handler, as pending; resume clears every mark; attach and detach set the launch's bit; a selection that names nothing gets status 0x10; a save of teams that are not all halted gets it too, and saves nothing; one of halted teams is busy until a system channel has written their images, and then keeps them beside the teams, which stay as they are; when every thread selected has halted, HALTED is set and a record is made. (The status of a save of teams that are not all halted, and how long their images are kept, are deduced: log entry 30.) -/
def Obligations.DebugCommandsAct : Prop :=
  ∀ (s : State) (n : Nat), (s.tenant n).busy = false →
    (s.dbgFound n = false → ∀ i ∈ [Instr.halt n, .resume n, .attach n, .detach n, .saveHaltedTeam n], ∃ t, exec i s = .next t ∧ statusOf (t.tenant n).dbgctl = 0x10 ∧ t.teams = s.teams ∧ t.launches = s.launches ∧ MemorySame s t) ∧
    (s.dbgFound n = true → (∀ x ∈ s.teams, x.saved = none) →
      (∃ t, exec (.halt n) s = .next t ∧ RegsSame s t ∧ MemorySame s t ∧ ∀ id i, let h := s.thread id i; let x := t.thread id i
        (Selected s n id → (∃ y ∈ (s.team id).threads, y.idx = i) → h.st ≠ .exited → if h.inHandler then x.haltPending = true else x.halted = true) ∧ (¬Selected s n id → x = h)) ∧
      (∃ t, exec (.resume n) s = .next t ∧ RegsSame s t ∧ MemorySame s t ∧ ∀ id i, let x := t.thread id i
        (Selected s n id → (∃ y ∈ (s.team id).threads, y.idx = i) → x.halted = false ∧ x.haltedInHandler = false ∧ x.haltPending = false) ∧ (¬Selected s n id → x = s.thread id i)) ∧
      (∀ l, s.dbgLaunch n = some l → (∃ t, exec (.attach n) s = .next t ∧ (t.launch l.id).attached = true ∧ t.teams = s.teams ∧ MemorySame s t) ∧ ∃ t, exec (.detach n) s = .next t ∧ (t.launch l.id).attached = false ∧ t.teams = s.teams ∧ MemorySame s t) ∧
      ((s.keepable n = [] ∨ ∃ x ∈ s.keepable n, ∃ h ∈ x.threads, s.threadStopped h = false) → ∃ t, exec (.saveHaltedTeam n) s = .next t ∧ statusOf (t.tenant n).dbgctl = 0x10 ∧ t.teams = s.teams ∧ (t.tenant n).kept = (s.tenant n).kept ∧ MemorySame s t)) ∧
    (s.dbgFound n = true → s.keepable n ≠ [] → (∀ x ∈ s.keepable n, ∀ h ∈ x.threads, s.threadStopped h = true) → (∃ x ∈ s.keepable n, s.saveReady x = false) →
      ∃ t, exec (.saveHaltedTeam n) s = .next t ∧ statusOf (t.tenant n).dbgctl = 1 ∧ (t.tenant n).dbgctl.getLsbD 31 = true ∧ Apart s t ∧ t.teams = s.teams ∧ t.sys = s.sys) ∧
    (∀ x, s.dbgFound n = true → s.keepable n = [x] → (∀ h ∈ x.threads, s.threadStopped h = true) → s.saveReady x = true →
      let img := (s.stoppedTeam x).image (s.launch x.id.launch) (s.parksOf x.id) true
      (s.imagePlace n img.length = none → ∃ t, exec (.saveHaltedTeam n) s = .next t ∧ statusOf (t.tenant n).dbgctl = 0x11 ∧ Apart s t ∧ t.teams = s.teams) ∧
      (s.imagePlace n img.length ≠ none → s.sysDone (.save x.id) = false → ∃ t, exec (.saveHaltedTeam n) s = .next t ∧ statusOf (t.tenant n).dbgctl = 1 ∧ (t.tenant n).dbgctl.getLsbD 31 = true ∧ t.sysOf (.save x.id) ≠ none ∧ Apart s t ∧ t.teams = s.teams ∧ (t.tenant n).kept = (s.tenant n).kept)) ∧
    (∀ x a, s.dbgFound n = true → s.keepable n = [x] → (∀ h ∈ x.threads, s.threadStopped h = true) → s.saveReady x = true → s.sysDone (.save x.id) = true → Store.wf 0 s.mem = true →
      let img := (s.stoppedTeam x).image (s.launch x.id.launch) (s.parksOf x.id) true
      s.imagePlace n img.length = some a → ∃ t, exec (.saveHaltedTeam n) s = .next t ∧ statusOf (t.tenant n).dbgctl = 0 ∧ (t.tenant n).kept = (s.tenant n).kept ++ [((s.launch x.id.launch).id, a, img.length)] ∧ t.teams = s.teams ∧ t.groups = s.groups ∧
        ∀ k, Store.get 0 t.mem k = if a ≤ k ∧ k < a + img.length then img.getD (k - a) 0 else Store.get 0 s.mem k) ∧
    ((s.tenant n).dbgctl.getLsbD 17 = false → s.allHalted n = true → ∃ t, exec (.haltReached n) s = .next t ∧ (t.tenant n).dbgctl.getLsbD 17 = true ∧ (t.tenant n).recSeq ≠ 0 ∧ RegsSame s t) ∧
    ((s.tenant n).dbgctl.getLsbD 17 = true ∨ s.allHalted n = false → exec (.haltReached n) s = .next s)

/-! ### The platform and the surroundings -/

/-- R455, R456, R462 to R464: temperature, droop and the governor set a die's clock and its delta, and the governor clears the gated lane-cycle counts of its cores; at 115 °C it trips; a trip or a loss of power leaves the machine as reset leaves it, but for what lies outside the device and its anti-rollback minima. (What a trip leaves of boot, and that these events come from the agenda, is the model's: log entries 35 and 36.) -/
def Sys2Proof.Claims.PlatformMoves : Prop :=
  ∀ s : State, (∀ d, d < 4 → Store.wf {} s.dies = true →
      (∀ tj power, 115 ≤ tj → exec (.governorUpdate d tj power) s = exec .thermalTrip s) ∧
      (∀ tj power, tj < 115 → ∃ t, exec (.governorUpdate d tj power) s = .next t ∧ (t.die d).tj = tj ∧ ((t.die d).throttled = true ↔ 105 ≤ tj) ∧ (105 ≤ tj → (t.die d).clk = 32) ∧ (s.govFix = true → tj < 105 → power ≤ s.pwrcap / 4 - 180 → (t.die d).clk = s.govFreq) ∧
        (t.die d).delta = min 15 ((tj - 80) / 3 + if (s.die d).droop then 4 else 0) ∧ Apart s t ∧ (∀ e, e ≠ d → t.die e = s.die e) ∧
        (Store.wf {} s.cores = true → ∀ c, (dieOfCore c = d → (t.core c).gated = 0) ∧ (dieOfCore c ≠ d → t.core c = s.core c))) ∧
      (∃ t, exec (.thermalThrottle d) s = .next t ∧ (t.die d).throttled = true ∧ (t.die d).clk = 32 ∧ 105 ≤ (t.die d).tj ∧ Apart s t ∧ ∀ e, e ≠ d → t.die e = s.die e) ∧
      ∀ b, ∃ t, exec (.supplyDroop d b) s = .next t ∧ (t.die d).droop = b ∧ (t.die d).delta = min 15 (((s.die d).tj - 80) / 3 + if b then 4 else 0) ∧ (t.die d).clk = (s.die d).clk ∧ Apart s t) ∧
    (∃ t, exec .thermalTrip s = .next t ∧ t = { State.reset with bootFail := 0xF0, arMin := s.arMin, outMem := s.outMem, agenda := s.agenda, freeCtr := s.freeCtr }) ∧
    ∃ t, exec .powerLoss s = .next t ∧ t = { State.reset with arMin := s.arMin, outMem := s.outMem, agenda := s.agenda, freeCtr := s.freeCtr }

/-- R326, R452, R456: an access of the host or of a peer to module memory outside every window open to it gets an error response and changes nothing else. One inside a window writes its bytes, at the region that its frame backs or at the frame, an atomic in one step; a read gives the bytes that stand there. The host and a peer write memory of their own. (That a write is served line by line, the answer to bytes that carry an error, and what a write of own memory pushes, are the model's: log entries 7 and 32.) -/
def Sys2Proof.Claims.OutsideAccesses : Prop :=
  ∀ (s : State) (pa : Nat) (bs : List Byte) (b peer : Nat) (i : Instr), peer < 64 → (b, i) ∈ [(2, Instr.hostCxlMemAccess (.write pa bs)), (1, .peerAccess peer (.write pa bs))] →
    (s.openTo b pa bs.length = false → exec i s = .next { s with reply := .error }) ∧
    (Arrives s b pa bs.length → Placed s pa bs → Memory.wf s.mem = true → Store.wf none s.outMem = true → ∃ t, exec i s = .next t ∧ t.reply = .done ∧ RegsSame s t ∧ Wrote s t (s.locOf pa) bs) ∧
    (∀ op wide v cmp, let n := if wide then 8 else 4
      let ix := if b = 2 then Instr.hostCxlMemAccess (.atomic pa op wide v cmp) else .peerAccess peer (.atomic pa op wide v cmp)
      let key := s.locOf pa
      (pa % n ≠ 0 ∨ s.openTo b pa n = false → exec ix s = .next { s with reply := .error }) ∧
      (pa % n = 0 → Arrives s b pa n → Memory.wf s.mem = true → Store.wf none s.outMem = true → v < 2 ^ (8 * n) → cmp < 2 ^ (8 * n) →
        match atomRule (8 * n) op (BitVec.ofNat _ (s.locNat key n)) (BitVec.ofNat _ v) (BitVec.ofNat _ cmp) with
        | none => ∃ t, exec ix s = .next t ∧ t.reply = .data (s.locBytes key n) ∧ Apart s t
        | some x => Placed s pa (leBytes x.toNat n) → ∃ t, exec ix s = .next t ∧ t.reply = .data (s.locBytes key n) ∧ RegsSame s t ∧ Wrote s t key (leBytes x.toNat n))) ∧
    (∀ n, let ix := if b = 2 then Instr.hostCxlMemAccess (.read pa n) else .peerAccess peer (.read pa n)
      (s.openTo b pa n = false → exec ix s = .next { s with reply := .error }) ∧ (s.openTo b pa n = true → s.poison = [] → ∃ t, exec ix s = .next t ∧ t.reply = .data ((List.range n).map fun j => s.locByte (s.locOf (pa + j))) ∧ Apart s t)) ∧
    (∀ key ix, (key, ix) ∈ [(pa + 2 ^ 52, Instr.hostCxlMemAccess (.own none pa bs)), (pa + 2 * 2 ^ 52 + peer * 2 ^ 54, .peerAccess peer (.own none pa bs))] → pa + bs.length ≤ 2 ^ 52 → (∀ w ∈ s.writes, w.l1 = none) → Store.wf none s.outMem = true →
      ∃ t, exec ix s = .next t ∧ t.reply = .done ∧ RegsSame s t ∧ ∀ k, t.locByte k = if key ≤ k ∧ k < key + bs.length then bs.getD (k - key) 0 else s.locByte k)

/-- With no agenda, boot takes its seven steps in order; step 3 leaves every byte of module memory 0; step 4 fences the sub-arrays that fail their test; step 2 stops boot where the firmware does not verify; once step 7 is reached it changes nothing, and a boot that has failed changes nothing. (That whether the firmware verifies and which sub-arrays fail are free values, and the codes of a failed boot, are the model's: log entries 2, 6 and 35.) Temperature, droop and the governor set a die's clock and its delta, and the governor clears the gated lane-cycle counts of its cores; at 115 °C it trips; a trip or a loss of power leaves the machine as reset leaves it, but for what lies outside the device and its anti-rollback minima. (What a trip leaves of boot, and that these events come from the agenda, is the model's: log entries 35 and 36.) An access of the host or of a peer to module memory outside every window open to it gets an error response and changes nothing else. One inside a window writes its bytes, at the region that its frame backs or at the frame, an atomic in one step; a read gives the bytes that stand there. The host and a peer write memory of their own. (That a write is served line by line, the answer to bytes that carry an error, and what a write of own memory pushes, are the model's: log entries 7 and 32.) -/
def Obligations.PlatformEvents : Prop :=
  Sys2Proof.Claims.BootSequence ∧ Sys2Proof.Claims.PlatformMoves ∧ Sys2Proof.Claims.OutsideAccesses

/-- An image whose digest no stored native result carries. -/
def Sys2Proof.Claims.NewImage (s : State) (r : LoadReq) : Prop := ∀ im ∈ s.images, im.digest ≠ sha512 r.image
/-- The request ends with a diagnostic, and keeps nothing. -/
def Sys2Proof.Claims.LoadRefused (s : State) (r : LoadReq) (code : Nat) (site : Site) : Prop :=
  ∃ t, exec (.loadRequest r) s = .next t ∧ t.loadResult = code ∧ t.loadSite = site ∧ t.images = s.images ∧ Apart s t
/-- R77 to R83, R462: a load request that the loader refuses leaves memory and the images as they were and gives its diagnostic with the site of its first failure; one that is placed gives the number of its image; one whose digest a stored result carries is served by that, with no translation. (The form of a request and of its answer are the model's, and so is the answer where protected memory has no room: log entries 8 and 60.) -/
def Obligations.LoadRequests : Prop :=
  ∀ (s : State) (r : LoadReq),
    (s.refuses r.image ≠ 0 → LoadRefused s r (s.refuses r.image) (if s.refuses r.image = 1 then layoutSite r.image else {})) ∧
    (s.refuses r.image = 0 → NewImage s r → ∀ e, placeAll r.image r.codeVa r.dataVa = .error e → LoadRefused s r e.1 e.2) ∧
    (s.refuses r.image = 0 → NewImage s r → ∀ ps e, placeAll r.image r.codeVa r.dataVa = .ok ps → applyRels r.image ps ((relsOf r.image).foldr relInsert []) = .error e → LoadRefused s r e.1 e.2) ∧
    (s.refuses r.image = 0 → NewImage s r → ∀ ps qs, placeAll r.image r.codeVa r.dataVa = .ok ps → applyRels r.image ps ((relsOf r.image).foldr relInsert []) = .ok qs →
      ((s.keepImage r qs).images ≠ s.images → ∃ t im, exec (.loadRequest r) s = .next t ∧ t.images = s.images ++ [im] ∧ im.tenant = r.tenant ∧ im.asid = r.asid ∧ im.digest = sha512 r.image ∧ im.shared = false ∧ im.no = s.images.length ∧ t.loadResult = 256 + im.no ∧ RegsSame s t) ∧
      ((s.keepImage r qs).images = s.images → ∃ t, exec (.loadRequest r) s = .next t ∧ t.images = s.images ∧ t.loadResult = 255 ∧ Apart s t)) ∧
    (s.refuses r.image = 0 → ∀ im, findBy (fun im : Image => im.digest == sha512 r.image) s.images = some im →
      ∃ t, exec (.loadRequest r) s = .next t ∧ t.loadResult = 256 + im.no ∧ RegsSame s t ∧ (∀ x ∈ s.images, x ∈ t.images) ∧ ∃ x ∈ t.images, x.no = im.no ∧ x.tenant = r.tenant ∧ x.asid = r.asid)
end

