-- ==== Sys2Proof/Laws/State.lean ====
section
/-! SUPPORT. What each update of one part of the state leaves as it was: one lemma for each other field. -/
namespace Sys2Proof.Machine

@[simp] theorem State.updDie_agenda (s : State) (d : Nat) (f : Die → Die) : (s.updDie d f).agenda = s.agenda := rfl
@[simp] theorem State.updDie_current (s : State) (d : Nat) (f : Die → Die) : (s.updDie d f).current = s.current := rfl
@[simp] theorem State.updDie_freeCtr (s : State) (d : Nat) (f : Die → Die) : (s.updDie d f).freeCtr = s.freeCtr := rfl
@[simp] theorem State.updDie_nextId (s : State) (d : Nat) (f : Die → Die) : (s.updDie d f).nextId = s.nextId := rfl
@[simp] theorem State.updDie_bootStep (s : State) (d : Nat) (f : Die → Die) : (s.updDie d f).bootStep = s.bootStep := rfl
@[simp] theorem State.updDie_bootFail (s : State) (d : Nat) (f : Die → Die) : (s.updDie d f).bootFail = s.bootFail := rfl
@[simp] theorem State.updDie_hub (s : State) (d : Nat) (f : Die → Die) : (s.updDie d f).hub = s.hub := rfl
@[simp] theorem State.updDie_hubPhase (s : State) (d : Nat) (f : Die → Die) : (s.updDie d f).hubPhase = s.hubPhase := rfl
@[simp] theorem State.updDie_hubCounter (s : State) (d : Nat) (f : Die → Die) : (s.updDie d f).hubCounter = s.hubCounter := rfl
@[simp] theorem State.updDie_scPackage (s : State) (d : Nat) (f : Die → Die) : (s.updDie d f).scPackage = s.scPackage := rfl
@[simp] theorem State.updDie_scFabric (s : State) (d : Nat) (f : Die → Die) : (s.updDie d f).scFabric = s.scFabric := rfl
@[simp] theorem State.updDie_wdesc (s : State) (d : Nat) (f : Die → Die) : (s.updDie d f).wdesc = s.wdesc := rfl
@[simp] theorem State.updDie_evsel (s : State) (d : Nat) (f : Die → Die) : (s.updDie d f).evsel = s.evsel := rfl
@[simp] theorem State.updDie_evctl (s : State) (d : Nat) (f : Die → Die) : (s.updDie d f).evctl = s.evctl := rfl
@[simp] theorem State.updDie_govFix (s : State) (d : Nat) (f : Die → Die) : (s.updDie d f).govFix = s.govFix := rfl
@[simp] theorem State.updDie_govFreq (s : State) (d : Nat) (f : Die → Die) : (s.updDie d f).govFreq = s.govFreq := rfl
@[simp] theorem State.updDie_pwrcap (s : State) (d : Nat) (f : Die → Die) : (s.updDie d f).pwrcap = s.pwrcap := rfl
@[simp] theorem State.updDie_fabId (s : State) (d : Nat) (f : Die → Die) : (s.updDie d f).fabId = s.fabId := rfl
@[simp] theorem State.updDie_downLinks (s : State) (d : Nat) (f : Die → Die) : (s.updDie d f).downLinks = s.downLinks := rfl
@[simp] theorem State.updDie_routes (s : State) (d : Nat) (f : Die → Die) : (s.updDie d f).routes = s.routes := rfl
@[simp] theorem State.updDie_arBump (s : State) (d : Nat) (f : Die → Die) : (s.updDie d f).arBump = s.arBump := rfl
@[simp] theorem State.updDie_arMin (s : State) (d : Nat) (f : Die → Die) : (s.updDie d f).arMin = s.arMin := rfl
@[simp] theorem State.updDie_verified (s : State) (d : Nat) (f : Die → Die) : (s.updDie d f).verified = s.verified := rfl
@[simp] theorem State.updDie_images (s : State) (d : Nat) (f : Die → Die) : (s.updDie d f).images = s.images := rfl
@[simp] theorem State.updDie_loadResult (s : State) (d : Nat) (f : Die → Die) : (s.updDie d f).loadResult = s.loadResult := rfl
@[simp] theorem State.updDie_loadSite (s : State) (d : Nat) (f : Die → Die) : (s.updDie d f).loadSite = s.loadSite := rfl
@[simp] theorem State.updDie_cores (s : State) (d : Nat) (f : Die → Die) : (s.updDie d f).cores = s.cores := rfl
@[simp] theorem State.updDie_quads (s : State) (d : Nat) (f : Die → Die) : (s.updDie d f).quads = s.quads := rfl
@[simp] theorem State.updDie_lanes (s : State) (d : Nat) (f : Die → Die) : (s.updDie d f).lanes = s.lanes := rfl
@[simp] theorem State.updDie_chans (s : State) (d : Nat) (f : Die → Die) : (s.updDie d f).chans = s.chans := rfl
@[simp] theorem State.updDie_sys (s : State) (d : Nat) (f : Die → Die) : (s.updDie d f).sys = s.sys := rfl
@[simp] theorem State.updDie_tenants (s : State) (d : Nat) (f : Die → Die) : (s.updDie d f).tenants = s.tenants := rfl
@[simp] theorem State.updDie_queues (s : State) (d : Nat) (f : Die → Die) : (s.updDie d f).queues = s.queues := rfl
@[simp] theorem State.updDie_lastQueue (s : State) (d : Nat) (f : Die → Die) : (s.updDie d f).lastQueue = s.lastQueue := rfl
@[simp] theorem State.updDie_cpNext (s : State) (d : Nat) (f : Die → Die) : (s.updDie d f).cpNext = s.cpNext := rfl
@[simp] theorem State.updDie_level2 (s : State) (d : Nat) (f : Die → Die) : (s.updDie d f).level2 = s.level2 := rfl
@[simp] theorem State.updDie_level3 (s : State) (d : Nat) (f : Die → Die) : (s.updDie d f).level3 = s.level3 := rfl
@[simp] theorem State.updDie_launches (s : State) (d : Nat) (f : Die → Die) : (s.updDie d f).launches = s.launches := rfl
@[simp] theorem State.updDie_rollbacks (s : State) (d : Nat) (f : Die → Die) : (s.updDie d f).rollbacks = s.rollbacks := rfl
@[simp] theorem State.updDie_doneUses (s : State) (d : Nat) (f : Die → Die) : (s.updDie d f).doneUses = s.doneUses := rfl
@[simp] theorem State.updDie_teams (s : State) (d : Nat) (f : Die → Die) : (s.updDie d f).teams = s.teams := rfl
@[simp] theorem State.updDie_groups (s : State) (d : Nat) (f : Die → Die) : (s.updDie d f).groups = s.groups := rfl
@[simp] theorem State.updDie_ops (s : State) (d : Nat) (f : Die → Die) : (s.updDie d f).ops = s.ops := rfl
@[simp] theorem State.updDie_mem (s : State) (d : Nat) (f : Die → Die) : (s.updDie d f).mem = s.mem := rfl
@[simp] theorem State.updDie_outMem (s : State) (d : Nat) (f : Die → Die) : (s.updDie d f).outMem = s.outMem := rfl
@[simp] theorem State.updDie_poison (s : State) (d : Nat) (f : Die → Die) : (s.updDie d f).poison = s.poison := rfl
@[simp] theorem State.updDie_flips (s : State) (d : Nat) (f : Die → Die) : (s.updDie d f).flips = s.flips := rfl
@[simp] theorem State.updDie_forms (s : State) (d : Nat) (f : Die → Die) : (s.updDie d f).forms = s.forms := rfl
@[simp] theorem State.updDie_clks (s : State) (d : Nat) (f : Die → Die) : (s.updDie d f).clks = s.clks := rfl
@[simp] theorem State.updDie_writes (s : State) (d : Nat) (f : Die → Die) : (s.updDie d f).writes = s.writes := rfl
@[simp] theorem State.updDie_watermark (s : State) (d : Nat) (f : Die → Die) : (s.updDie d f).watermark = s.watermark := rfl
@[simp] theorem State.updDie_moorings (s : State) (d : Nat) (f : Die → Die) : (s.updDie d f).moorings = s.moorings := rfl
@[simp] theorem State.updDie_pushes (s : State) (d : Nat) (f : Die → Die) : (s.updDie d f).pushes = s.pushes := rfl
@[simp] theorem State.updDie_regions (s : State) (d : Nat) (f : Die → Die) : (s.updDie d f).regions = s.regions := rfl
@[simp] theorem State.updDie_evNow (s : State) (d : Nat) (f : Die → Die) : (s.updDie d f).evNow = s.evNow := rfl
@[simp] theorem State.updDie_evLive (s : State) (d : Nat) (f : Die → Die) : (s.updDie d f).evLive = s.evLive := rfl
@[simp] theorem State.updDie_evTotal (s : State) (d : Nat) (f : Die → Die) : (s.updDie d f).evTotal = s.evTotal := rfl
@[simp] theorem State.updDie_evSwept (s : State) (d : Nat) (f : Die → Die) : (s.updDie d f).evSwept = s.evSwept := rfl
@[simp] theorem State.updDie_reply (s : State) (d : Nat) (f : Die → Die) : (s.updDie d f).reply = s.reply := rfl

@[simp] theorem State.updCore_agenda (s : State) (c : Nat) (f : Core → Core) : (s.updCore c f).agenda = s.agenda := rfl
@[simp] theorem State.updCore_current (s : State) (c : Nat) (f : Core → Core) : (s.updCore c f).current = s.current := rfl
@[simp] theorem State.updCore_freeCtr (s : State) (c : Nat) (f : Core → Core) : (s.updCore c f).freeCtr = s.freeCtr := rfl
@[simp] theorem State.updCore_nextId (s : State) (c : Nat) (f : Core → Core) : (s.updCore c f).nextId = s.nextId := rfl
@[simp] theorem State.updCore_bootStep (s : State) (c : Nat) (f : Core → Core) : (s.updCore c f).bootStep = s.bootStep := rfl
@[simp] theorem State.updCore_bootFail (s : State) (c : Nat) (f : Core → Core) : (s.updCore c f).bootFail = s.bootFail := rfl
@[simp] theorem State.updCore_hub (s : State) (c : Nat) (f : Core → Core) : (s.updCore c f).hub = s.hub := rfl
@[simp] theorem State.updCore_hubPhase (s : State) (c : Nat) (f : Core → Core) : (s.updCore c f).hubPhase = s.hubPhase := rfl
@[simp] theorem State.updCore_hubCounter (s : State) (c : Nat) (f : Core → Core) : (s.updCore c f).hubCounter = s.hubCounter := rfl
@[simp] theorem State.updCore_scPackage (s : State) (c : Nat) (f : Core → Core) : (s.updCore c f).scPackage = s.scPackage := rfl
@[simp] theorem State.updCore_scFabric (s : State) (c : Nat) (f : Core → Core) : (s.updCore c f).scFabric = s.scFabric := rfl
@[simp] theorem State.updCore_wdesc (s : State) (c : Nat) (f : Core → Core) : (s.updCore c f).wdesc = s.wdesc := rfl
@[simp] theorem State.updCore_evsel (s : State) (c : Nat) (f : Core → Core) : (s.updCore c f).evsel = s.evsel := rfl
@[simp] theorem State.updCore_evctl (s : State) (c : Nat) (f : Core → Core) : (s.updCore c f).evctl = s.evctl := rfl
@[simp] theorem State.updCore_govFix (s : State) (c : Nat) (f : Core → Core) : (s.updCore c f).govFix = s.govFix := rfl
@[simp] theorem State.updCore_govFreq (s : State) (c : Nat) (f : Core → Core) : (s.updCore c f).govFreq = s.govFreq := rfl
@[simp] theorem State.updCore_pwrcap (s : State) (c : Nat) (f : Core → Core) : (s.updCore c f).pwrcap = s.pwrcap := rfl
@[simp] theorem State.updCore_fabId (s : State) (c : Nat) (f : Core → Core) : (s.updCore c f).fabId = s.fabId := rfl
@[simp] theorem State.updCore_downLinks (s : State) (c : Nat) (f : Core → Core) : (s.updCore c f).downLinks = s.downLinks := rfl
@[simp] theorem State.updCore_routes (s : State) (c : Nat) (f : Core → Core) : (s.updCore c f).routes = s.routes := rfl
@[simp] theorem State.updCore_arBump (s : State) (c : Nat) (f : Core → Core) : (s.updCore c f).arBump = s.arBump := rfl
@[simp] theorem State.updCore_arMin (s : State) (c : Nat) (f : Core → Core) : (s.updCore c f).arMin = s.arMin := rfl
@[simp] theorem State.updCore_verified (s : State) (c : Nat) (f : Core → Core) : (s.updCore c f).verified = s.verified := rfl
@[simp] theorem State.updCore_images (s : State) (c : Nat) (f : Core → Core) : (s.updCore c f).images = s.images := rfl
@[simp] theorem State.updCore_loadResult (s : State) (c : Nat) (f : Core → Core) : (s.updCore c f).loadResult = s.loadResult := rfl
@[simp] theorem State.updCore_loadSite (s : State) (c : Nat) (f : Core → Core) : (s.updCore c f).loadSite = s.loadSite := rfl
@[simp] theorem State.updCore_dies (s : State) (c : Nat) (f : Core → Core) : (s.updCore c f).dies = s.dies := rfl
@[simp] theorem State.updCore_quads (s : State) (c : Nat) (f : Core → Core) : (s.updCore c f).quads = s.quads := rfl
@[simp] theorem State.updCore_lanes (s : State) (c : Nat) (f : Core → Core) : (s.updCore c f).lanes = s.lanes := rfl
@[simp] theorem State.updCore_chans (s : State) (c : Nat) (f : Core → Core) : (s.updCore c f).chans = s.chans := rfl
@[simp] theorem State.updCore_sys (s : State) (c : Nat) (f : Core → Core) : (s.updCore c f).sys = s.sys := rfl
@[simp] theorem State.updCore_tenants (s : State) (c : Nat) (f : Core → Core) : (s.updCore c f).tenants = s.tenants := rfl
@[simp] theorem State.updCore_queues (s : State) (c : Nat) (f : Core → Core) : (s.updCore c f).queues = s.queues := rfl
@[simp] theorem State.updCore_lastQueue (s : State) (c : Nat) (f : Core → Core) : (s.updCore c f).lastQueue = s.lastQueue := rfl
@[simp] theorem State.updCore_cpNext (s : State) (c : Nat) (f : Core → Core) : (s.updCore c f).cpNext = s.cpNext := rfl
@[simp] theorem State.updCore_level2 (s : State) (c : Nat) (f : Core → Core) : (s.updCore c f).level2 = s.level2 := rfl
@[simp] theorem State.updCore_level3 (s : State) (c : Nat) (f : Core → Core) : (s.updCore c f).level3 = s.level3 := rfl
@[simp] theorem State.updCore_launches (s : State) (c : Nat) (f : Core → Core) : (s.updCore c f).launches = s.launches := rfl
@[simp] theorem State.updCore_rollbacks (s : State) (c : Nat) (f : Core → Core) : (s.updCore c f).rollbacks = s.rollbacks := rfl
@[simp] theorem State.updCore_doneUses (s : State) (c : Nat) (f : Core → Core) : (s.updCore c f).doneUses = s.doneUses := rfl
@[simp] theorem State.updCore_teams (s : State) (c : Nat) (f : Core → Core) : (s.updCore c f).teams = s.teams := rfl
@[simp] theorem State.updCore_groups (s : State) (c : Nat) (f : Core → Core) : (s.updCore c f).groups = s.groups := rfl
@[simp] theorem State.updCore_ops (s : State) (c : Nat) (f : Core → Core) : (s.updCore c f).ops = s.ops := rfl
@[simp] theorem State.updCore_mem (s : State) (c : Nat) (f : Core → Core) : (s.updCore c f).mem = s.mem := rfl
@[simp] theorem State.updCore_outMem (s : State) (c : Nat) (f : Core → Core) : (s.updCore c f).outMem = s.outMem := rfl
@[simp] theorem State.updCore_poison (s : State) (c : Nat) (f : Core → Core) : (s.updCore c f).poison = s.poison := rfl
@[simp] theorem State.updCore_flips (s : State) (c : Nat) (f : Core → Core) : (s.updCore c f).flips = s.flips := rfl
@[simp] theorem State.updCore_forms (s : State) (c : Nat) (f : Core → Core) : (s.updCore c f).forms = s.forms := rfl
@[simp] theorem State.updCore_clks (s : State) (c : Nat) (f : Core → Core) : (s.updCore c f).clks = s.clks := rfl
@[simp] theorem State.updCore_writes (s : State) (c : Nat) (f : Core → Core) : (s.updCore c f).writes = s.writes := rfl
@[simp] theorem State.updCore_watermark (s : State) (c : Nat) (f : Core → Core) : (s.updCore c f).watermark = s.watermark := rfl
@[simp] theorem State.updCore_moorings (s : State) (c : Nat) (f : Core → Core) : (s.updCore c f).moorings = s.moorings := rfl
@[simp] theorem State.updCore_pushes (s : State) (c : Nat) (f : Core → Core) : (s.updCore c f).pushes = s.pushes := rfl
@[simp] theorem State.updCore_regions (s : State) (c : Nat) (f : Core → Core) : (s.updCore c f).regions = s.regions := rfl
@[simp] theorem State.updCore_evNow (s : State) (c : Nat) (f : Core → Core) : (s.updCore c f).evNow = s.evNow := rfl
@[simp] theorem State.updCore_evLive (s : State) (c : Nat) (f : Core → Core) : (s.updCore c f).evLive = s.evLive := rfl
@[simp] theorem State.updCore_evTotal (s : State) (c : Nat) (f : Core → Core) : (s.updCore c f).evTotal = s.evTotal := rfl
@[simp] theorem State.updCore_evSwept (s : State) (c : Nat) (f : Core → Core) : (s.updCore c f).evSwept = s.evSwept := rfl
@[simp] theorem State.updCore_reply (s : State) (c : Nat) (f : Core → Core) : (s.updCore c f).reply = s.reply := rfl

@[simp] theorem State.updQuad_agenda (s : State) (q : Nat) (f : Quad → Quad) : (s.updQuad q f).agenda = s.agenda := rfl
@[simp] theorem State.updQuad_current (s : State) (q : Nat) (f : Quad → Quad) : (s.updQuad q f).current = s.current := rfl
@[simp] theorem State.updQuad_freeCtr (s : State) (q : Nat) (f : Quad → Quad) : (s.updQuad q f).freeCtr = s.freeCtr := rfl
@[simp] theorem State.updQuad_nextId (s : State) (q : Nat) (f : Quad → Quad) : (s.updQuad q f).nextId = s.nextId := rfl
@[simp] theorem State.updQuad_bootStep (s : State) (q : Nat) (f : Quad → Quad) : (s.updQuad q f).bootStep = s.bootStep := rfl
@[simp] theorem State.updQuad_bootFail (s : State) (q : Nat) (f : Quad → Quad) : (s.updQuad q f).bootFail = s.bootFail := rfl
@[simp] theorem State.updQuad_hub (s : State) (q : Nat) (f : Quad → Quad) : (s.updQuad q f).hub = s.hub := rfl
@[simp] theorem State.updQuad_hubPhase (s : State) (q : Nat) (f : Quad → Quad) : (s.updQuad q f).hubPhase = s.hubPhase := rfl
@[simp] theorem State.updQuad_hubCounter (s : State) (q : Nat) (f : Quad → Quad) : (s.updQuad q f).hubCounter = s.hubCounter := rfl
@[simp] theorem State.updQuad_scPackage (s : State) (q : Nat) (f : Quad → Quad) : (s.updQuad q f).scPackage = s.scPackage := rfl
@[simp] theorem State.updQuad_scFabric (s : State) (q : Nat) (f : Quad → Quad) : (s.updQuad q f).scFabric = s.scFabric := rfl
@[simp] theorem State.updQuad_wdesc (s : State) (q : Nat) (f : Quad → Quad) : (s.updQuad q f).wdesc = s.wdesc := rfl
@[simp] theorem State.updQuad_evsel (s : State) (q : Nat) (f : Quad → Quad) : (s.updQuad q f).evsel = s.evsel := rfl
@[simp] theorem State.updQuad_evctl (s : State) (q : Nat) (f : Quad → Quad) : (s.updQuad q f).evctl = s.evctl := rfl
@[simp] theorem State.updQuad_govFix (s : State) (q : Nat) (f : Quad → Quad) : (s.updQuad q f).govFix = s.govFix := rfl
@[simp] theorem State.updQuad_govFreq (s : State) (q : Nat) (f : Quad → Quad) : (s.updQuad q f).govFreq = s.govFreq := rfl
@[simp] theorem State.updQuad_pwrcap (s : State) (q : Nat) (f : Quad → Quad) : (s.updQuad q f).pwrcap = s.pwrcap := rfl
@[simp] theorem State.updQuad_fabId (s : State) (q : Nat) (f : Quad → Quad) : (s.updQuad q f).fabId = s.fabId := rfl
@[simp] theorem State.updQuad_downLinks (s : State) (q : Nat) (f : Quad → Quad) : (s.updQuad q f).downLinks = s.downLinks := rfl
@[simp] theorem State.updQuad_routes (s : State) (q : Nat) (f : Quad → Quad) : (s.updQuad q f).routes = s.routes := rfl
@[simp] theorem State.updQuad_arBump (s : State) (q : Nat) (f : Quad → Quad) : (s.updQuad q f).arBump = s.arBump := rfl
@[simp] theorem State.updQuad_arMin (s : State) (q : Nat) (f : Quad → Quad) : (s.updQuad q f).arMin = s.arMin := rfl
@[simp] theorem State.updQuad_verified (s : State) (q : Nat) (f : Quad → Quad) : (s.updQuad q f).verified = s.verified := rfl
@[simp] theorem State.updQuad_images (s : State) (q : Nat) (f : Quad → Quad) : (s.updQuad q f).images = s.images := rfl
@[simp] theorem State.updQuad_loadResult (s : State) (q : Nat) (f : Quad → Quad) : (s.updQuad q f).loadResult = s.loadResult := rfl
@[simp] theorem State.updQuad_loadSite (s : State) (q : Nat) (f : Quad → Quad) : (s.updQuad q f).loadSite = s.loadSite := rfl
@[simp] theorem State.updQuad_dies (s : State) (q : Nat) (f : Quad → Quad) : (s.updQuad q f).dies = s.dies := rfl
@[simp] theorem State.updQuad_cores (s : State) (q : Nat) (f : Quad → Quad) : (s.updQuad q f).cores = s.cores := rfl
@[simp] theorem State.updQuad_lanes (s : State) (q : Nat) (f : Quad → Quad) : (s.updQuad q f).lanes = s.lanes := rfl
@[simp] theorem State.updQuad_chans (s : State) (q : Nat) (f : Quad → Quad) : (s.updQuad q f).chans = s.chans := rfl
@[simp] theorem State.updQuad_sys (s : State) (q : Nat) (f : Quad → Quad) : (s.updQuad q f).sys = s.sys := rfl
@[simp] theorem State.updQuad_tenants (s : State) (q : Nat) (f : Quad → Quad) : (s.updQuad q f).tenants = s.tenants := rfl
@[simp] theorem State.updQuad_queues (s : State) (q : Nat) (f : Quad → Quad) : (s.updQuad q f).queues = s.queues := rfl
@[simp] theorem State.updQuad_lastQueue (s : State) (q : Nat) (f : Quad → Quad) : (s.updQuad q f).lastQueue = s.lastQueue := rfl
@[simp] theorem State.updQuad_cpNext (s : State) (q : Nat) (f : Quad → Quad) : (s.updQuad q f).cpNext = s.cpNext := rfl
@[simp] theorem State.updQuad_level2 (s : State) (q : Nat) (f : Quad → Quad) : (s.updQuad q f).level2 = s.level2 := rfl
@[simp] theorem State.updQuad_level3 (s : State) (q : Nat) (f : Quad → Quad) : (s.updQuad q f).level3 = s.level3 := rfl
@[simp] theorem State.updQuad_launches (s : State) (q : Nat) (f : Quad → Quad) : (s.updQuad q f).launches = s.launches := rfl
@[simp] theorem State.updQuad_rollbacks (s : State) (q : Nat) (f : Quad → Quad) : (s.updQuad q f).rollbacks = s.rollbacks := rfl
@[simp] theorem State.updQuad_doneUses (s : State) (q : Nat) (f : Quad → Quad) : (s.updQuad q f).doneUses = s.doneUses := rfl
@[simp] theorem State.updQuad_teams (s : State) (q : Nat) (f : Quad → Quad) : (s.updQuad q f).teams = s.teams := rfl
@[simp] theorem State.updQuad_groups (s : State) (q : Nat) (f : Quad → Quad) : (s.updQuad q f).groups = s.groups := rfl
@[simp] theorem State.updQuad_ops (s : State) (q : Nat) (f : Quad → Quad) : (s.updQuad q f).ops = s.ops := rfl
@[simp] theorem State.updQuad_mem (s : State) (q : Nat) (f : Quad → Quad) : (s.updQuad q f).mem = s.mem := rfl
@[simp] theorem State.updQuad_outMem (s : State) (q : Nat) (f : Quad → Quad) : (s.updQuad q f).outMem = s.outMem := rfl
@[simp] theorem State.updQuad_poison (s : State) (q : Nat) (f : Quad → Quad) : (s.updQuad q f).poison = s.poison := rfl
@[simp] theorem State.updQuad_flips (s : State) (q : Nat) (f : Quad → Quad) : (s.updQuad q f).flips = s.flips := rfl
@[simp] theorem State.updQuad_forms (s : State) (q : Nat) (f : Quad → Quad) : (s.updQuad q f).forms = s.forms := rfl
@[simp] theorem State.updQuad_clks (s : State) (q : Nat) (f : Quad → Quad) : (s.updQuad q f).clks = s.clks := rfl
@[simp] theorem State.updQuad_writes (s : State) (q : Nat) (f : Quad → Quad) : (s.updQuad q f).writes = s.writes := rfl
@[simp] theorem State.updQuad_watermark (s : State) (q : Nat) (f : Quad → Quad) : (s.updQuad q f).watermark = s.watermark := rfl
@[simp] theorem State.updQuad_moorings (s : State) (q : Nat) (f : Quad → Quad) : (s.updQuad q f).moorings = s.moorings := rfl
@[simp] theorem State.updQuad_pushes (s : State) (q : Nat) (f : Quad → Quad) : (s.updQuad q f).pushes = s.pushes := rfl
@[simp] theorem State.updQuad_regions (s : State) (q : Nat) (f : Quad → Quad) : (s.updQuad q f).regions = s.regions := rfl
@[simp] theorem State.updQuad_evNow (s : State) (q : Nat) (f : Quad → Quad) : (s.updQuad q f).evNow = s.evNow := rfl
@[simp] theorem State.updQuad_evLive (s : State) (q : Nat) (f : Quad → Quad) : (s.updQuad q f).evLive = s.evLive := rfl
@[simp] theorem State.updQuad_evTotal (s : State) (q : Nat) (f : Quad → Quad) : (s.updQuad q f).evTotal = s.evTotal := rfl
@[simp] theorem State.updQuad_evSwept (s : State) (q : Nat) (f : Quad → Quad) : (s.updQuad q f).evSwept = s.evSwept := rfl
@[simp] theorem State.updQuad_reply (s : State) (q : Nat) (f : Quad → Quad) : (s.updQuad q f).reply = s.reply := rfl

@[simp] theorem State.updLane_agenda (s : State) (l : Nat) (f : Lane → Lane) : (s.updLane l f).agenda = s.agenda := rfl
@[simp] theorem State.updLane_current (s : State) (l : Nat) (f : Lane → Lane) : (s.updLane l f).current = s.current := rfl
@[simp] theorem State.updLane_freeCtr (s : State) (l : Nat) (f : Lane → Lane) : (s.updLane l f).freeCtr = s.freeCtr := rfl
@[simp] theorem State.updLane_nextId (s : State) (l : Nat) (f : Lane → Lane) : (s.updLane l f).nextId = s.nextId := rfl
@[simp] theorem State.updLane_bootStep (s : State) (l : Nat) (f : Lane → Lane) : (s.updLane l f).bootStep = s.bootStep := rfl
@[simp] theorem State.updLane_bootFail (s : State) (l : Nat) (f : Lane → Lane) : (s.updLane l f).bootFail = s.bootFail := rfl
@[simp] theorem State.updLane_hub (s : State) (l : Nat) (f : Lane → Lane) : (s.updLane l f).hub = s.hub := rfl
@[simp] theorem State.updLane_hubPhase (s : State) (l : Nat) (f : Lane → Lane) : (s.updLane l f).hubPhase = s.hubPhase := rfl
@[simp] theorem State.updLane_hubCounter (s : State) (l : Nat) (f : Lane → Lane) : (s.updLane l f).hubCounter = s.hubCounter := rfl
@[simp] theorem State.updLane_scPackage (s : State) (l : Nat) (f : Lane → Lane) : (s.updLane l f).scPackage = s.scPackage := rfl
@[simp] theorem State.updLane_scFabric (s : State) (l : Nat) (f : Lane → Lane) : (s.updLane l f).scFabric = s.scFabric := rfl
@[simp] theorem State.updLane_wdesc (s : State) (l : Nat) (f : Lane → Lane) : (s.updLane l f).wdesc = s.wdesc := rfl
@[simp] theorem State.updLane_evsel (s : State) (l : Nat) (f : Lane → Lane) : (s.updLane l f).evsel = s.evsel := rfl
@[simp] theorem State.updLane_evctl (s : State) (l : Nat) (f : Lane → Lane) : (s.updLane l f).evctl = s.evctl := rfl
@[simp] theorem State.updLane_govFix (s : State) (l : Nat) (f : Lane → Lane) : (s.updLane l f).govFix = s.govFix := rfl
@[simp] theorem State.updLane_govFreq (s : State) (l : Nat) (f : Lane → Lane) : (s.updLane l f).govFreq = s.govFreq := rfl
@[simp] theorem State.updLane_pwrcap (s : State) (l : Nat) (f : Lane → Lane) : (s.updLane l f).pwrcap = s.pwrcap := rfl
@[simp] theorem State.updLane_fabId (s : State) (l : Nat) (f : Lane → Lane) : (s.updLane l f).fabId = s.fabId := rfl
@[simp] theorem State.updLane_downLinks (s : State) (l : Nat) (f : Lane → Lane) : (s.updLane l f).downLinks = s.downLinks := rfl
@[simp] theorem State.updLane_routes (s : State) (l : Nat) (f : Lane → Lane) : (s.updLane l f).routes = s.routes := rfl
@[simp] theorem State.updLane_arBump (s : State) (l : Nat) (f : Lane → Lane) : (s.updLane l f).arBump = s.arBump := rfl
@[simp] theorem State.updLane_arMin (s : State) (l : Nat) (f : Lane → Lane) : (s.updLane l f).arMin = s.arMin := rfl
@[simp] theorem State.updLane_verified (s : State) (l : Nat) (f : Lane → Lane) : (s.updLane l f).verified = s.verified := rfl
@[simp] theorem State.updLane_images (s : State) (l : Nat) (f : Lane → Lane) : (s.updLane l f).images = s.images := rfl
@[simp] theorem State.updLane_loadResult (s : State) (l : Nat) (f : Lane → Lane) : (s.updLane l f).loadResult = s.loadResult := rfl
@[simp] theorem State.updLane_loadSite (s : State) (l : Nat) (f : Lane → Lane) : (s.updLane l f).loadSite = s.loadSite := rfl
@[simp] theorem State.updLane_dies (s : State) (l : Nat) (f : Lane → Lane) : (s.updLane l f).dies = s.dies := rfl
@[simp] theorem State.updLane_cores (s : State) (l : Nat) (f : Lane → Lane) : (s.updLane l f).cores = s.cores := rfl
@[simp] theorem State.updLane_quads (s : State) (l : Nat) (f : Lane → Lane) : (s.updLane l f).quads = s.quads := rfl
@[simp] theorem State.updLane_chans (s : State) (l : Nat) (f : Lane → Lane) : (s.updLane l f).chans = s.chans := rfl
@[simp] theorem State.updLane_sys (s : State) (l : Nat) (f : Lane → Lane) : (s.updLane l f).sys = s.sys := rfl
@[simp] theorem State.updLane_tenants (s : State) (l : Nat) (f : Lane → Lane) : (s.updLane l f).tenants = s.tenants := rfl
@[simp] theorem State.updLane_queues (s : State) (l : Nat) (f : Lane → Lane) : (s.updLane l f).queues = s.queues := rfl
@[simp] theorem State.updLane_lastQueue (s : State) (l : Nat) (f : Lane → Lane) : (s.updLane l f).lastQueue = s.lastQueue := rfl
@[simp] theorem State.updLane_cpNext (s : State) (l : Nat) (f : Lane → Lane) : (s.updLane l f).cpNext = s.cpNext := rfl
@[simp] theorem State.updLane_level2 (s : State) (l : Nat) (f : Lane → Lane) : (s.updLane l f).level2 = s.level2 := rfl
@[simp] theorem State.updLane_level3 (s : State) (l : Nat) (f : Lane → Lane) : (s.updLane l f).level3 = s.level3 := rfl
@[simp] theorem State.updLane_launches (s : State) (l : Nat) (f : Lane → Lane) : (s.updLane l f).launches = s.launches := rfl
@[simp] theorem State.updLane_rollbacks (s : State) (l : Nat) (f : Lane → Lane) : (s.updLane l f).rollbacks = s.rollbacks := rfl
@[simp] theorem State.updLane_doneUses (s : State) (l : Nat) (f : Lane → Lane) : (s.updLane l f).doneUses = s.doneUses := rfl
@[simp] theorem State.updLane_teams (s : State) (l : Nat) (f : Lane → Lane) : (s.updLane l f).teams = s.teams := rfl
@[simp] theorem State.updLane_groups (s : State) (l : Nat) (f : Lane → Lane) : (s.updLane l f).groups = s.groups := rfl
@[simp] theorem State.updLane_ops (s : State) (l : Nat) (f : Lane → Lane) : (s.updLane l f).ops = s.ops := rfl
@[simp] theorem State.updLane_mem (s : State) (l : Nat) (f : Lane → Lane) : (s.updLane l f).mem = s.mem := rfl
@[simp] theorem State.updLane_outMem (s : State) (l : Nat) (f : Lane → Lane) : (s.updLane l f).outMem = s.outMem := rfl
@[simp] theorem State.updLane_poison (s : State) (l : Nat) (f : Lane → Lane) : (s.updLane l f).poison = s.poison := rfl
@[simp] theorem State.updLane_flips (s : State) (l : Nat) (f : Lane → Lane) : (s.updLane l f).flips = s.flips := rfl
@[simp] theorem State.updLane_forms (s : State) (l : Nat) (f : Lane → Lane) : (s.updLane l f).forms = s.forms := rfl
@[simp] theorem State.updLane_clks (s : State) (l : Nat) (f : Lane → Lane) : (s.updLane l f).clks = s.clks := rfl
@[simp] theorem State.updLane_writes (s : State) (l : Nat) (f : Lane → Lane) : (s.updLane l f).writes = s.writes := rfl
@[simp] theorem State.updLane_watermark (s : State) (l : Nat) (f : Lane → Lane) : (s.updLane l f).watermark = s.watermark := rfl
@[simp] theorem State.updLane_moorings (s : State) (l : Nat) (f : Lane → Lane) : (s.updLane l f).moorings = s.moorings := rfl
@[simp] theorem State.updLane_pushes (s : State) (l : Nat) (f : Lane → Lane) : (s.updLane l f).pushes = s.pushes := rfl
@[simp] theorem State.updLane_regions (s : State) (l : Nat) (f : Lane → Lane) : (s.updLane l f).regions = s.regions := rfl
@[simp] theorem State.updLane_evNow (s : State) (l : Nat) (f : Lane → Lane) : (s.updLane l f).evNow = s.evNow := rfl
@[simp] theorem State.updLane_evLive (s : State) (l : Nat) (f : Lane → Lane) : (s.updLane l f).evLive = s.evLive := rfl
@[simp] theorem State.updLane_evTotal (s : State) (l : Nat) (f : Lane → Lane) : (s.updLane l f).evTotal = s.evTotal := rfl
@[simp] theorem State.updLane_evSwept (s : State) (l : Nat) (f : Lane → Lane) : (s.updLane l f).evSwept = s.evSwept := rfl
@[simp] theorem State.updLane_reply (s : State) (l : Nat) (f : Lane → Lane) : (s.updLane l f).reply = s.reply := rfl

@[simp] theorem State.updTenant_agenda (s : State) (t : Nat) (f : Tenant → Tenant) : (s.updTenant t f).agenda = s.agenda := rfl
@[simp] theorem State.updTenant_current (s : State) (t : Nat) (f : Tenant → Tenant) : (s.updTenant t f).current = s.current := rfl
@[simp] theorem State.updTenant_freeCtr (s : State) (t : Nat) (f : Tenant → Tenant) : (s.updTenant t f).freeCtr = s.freeCtr := rfl
@[simp] theorem State.updTenant_nextId (s : State) (t : Nat) (f : Tenant → Tenant) : (s.updTenant t f).nextId = s.nextId := rfl
@[simp] theorem State.updTenant_bootStep (s : State) (t : Nat) (f : Tenant → Tenant) : (s.updTenant t f).bootStep = s.bootStep := rfl
@[simp] theorem State.updTenant_bootFail (s : State) (t : Nat) (f : Tenant → Tenant) : (s.updTenant t f).bootFail = s.bootFail := rfl
@[simp] theorem State.updTenant_hub (s : State) (t : Nat) (f : Tenant → Tenant) : (s.updTenant t f).hub = s.hub := rfl
@[simp] theorem State.updTenant_hubPhase (s : State) (t : Nat) (f : Tenant → Tenant) : (s.updTenant t f).hubPhase = s.hubPhase := rfl
@[simp] theorem State.updTenant_hubCounter (s : State) (t : Nat) (f : Tenant → Tenant) : (s.updTenant t f).hubCounter = s.hubCounter := rfl
@[simp] theorem State.updTenant_scPackage (s : State) (t : Nat) (f : Tenant → Tenant) : (s.updTenant t f).scPackage = s.scPackage := rfl
@[simp] theorem State.updTenant_scFabric (s : State) (t : Nat) (f : Tenant → Tenant) : (s.updTenant t f).scFabric = s.scFabric := rfl
@[simp] theorem State.updTenant_wdesc (s : State) (t : Nat) (f : Tenant → Tenant) : (s.updTenant t f).wdesc = s.wdesc := rfl
@[simp] theorem State.updTenant_evsel (s : State) (t : Nat) (f : Tenant → Tenant) : (s.updTenant t f).evsel = s.evsel := rfl
@[simp] theorem State.updTenant_evctl (s : State) (t : Nat) (f : Tenant → Tenant) : (s.updTenant t f).evctl = s.evctl := rfl
@[simp] theorem State.updTenant_govFix (s : State) (t : Nat) (f : Tenant → Tenant) : (s.updTenant t f).govFix = s.govFix := rfl
@[simp] theorem State.updTenant_govFreq (s : State) (t : Nat) (f : Tenant → Tenant) : (s.updTenant t f).govFreq = s.govFreq := rfl
@[simp] theorem State.updTenant_pwrcap (s : State) (t : Nat) (f : Tenant → Tenant) : (s.updTenant t f).pwrcap = s.pwrcap := rfl
@[simp] theorem State.updTenant_fabId (s : State) (t : Nat) (f : Tenant → Tenant) : (s.updTenant t f).fabId = s.fabId := rfl
@[simp] theorem State.updTenant_downLinks (s : State) (t : Nat) (f : Tenant → Tenant) : (s.updTenant t f).downLinks = s.downLinks := rfl
@[simp] theorem State.updTenant_routes (s : State) (t : Nat) (f : Tenant → Tenant) : (s.updTenant t f).routes = s.routes := rfl
@[simp] theorem State.updTenant_arBump (s : State) (t : Nat) (f : Tenant → Tenant) : (s.updTenant t f).arBump = s.arBump := rfl
@[simp] theorem State.updTenant_arMin (s : State) (t : Nat) (f : Tenant → Tenant) : (s.updTenant t f).arMin = s.arMin := rfl
@[simp] theorem State.updTenant_verified (s : State) (t : Nat) (f : Tenant → Tenant) : (s.updTenant t f).verified = s.verified := rfl
@[simp] theorem State.updTenant_images (s : State) (t : Nat) (f : Tenant → Tenant) : (s.updTenant t f).images = s.images := rfl
@[simp] theorem State.updTenant_loadResult (s : State) (t : Nat) (f : Tenant → Tenant) : (s.updTenant t f).loadResult = s.loadResult := rfl
@[simp] theorem State.updTenant_loadSite (s : State) (t : Nat) (f : Tenant → Tenant) : (s.updTenant t f).loadSite = s.loadSite := rfl
@[simp] theorem State.updTenant_dies (s : State) (t : Nat) (f : Tenant → Tenant) : (s.updTenant t f).dies = s.dies := rfl
@[simp] theorem State.updTenant_cores (s : State) (t : Nat) (f : Tenant → Tenant) : (s.updTenant t f).cores = s.cores := rfl
@[simp] theorem State.updTenant_quads (s : State) (t : Nat) (f : Tenant → Tenant) : (s.updTenant t f).quads = s.quads := rfl
@[simp] theorem State.updTenant_lanes (s : State) (t : Nat) (f : Tenant → Tenant) : (s.updTenant t f).lanes = s.lanes := rfl
@[simp] theorem State.updTenant_chans (s : State) (t : Nat) (f : Tenant → Tenant) : (s.updTenant t f).chans = s.chans := rfl
@[simp] theorem State.updTenant_sys (s : State) (t : Nat) (f : Tenant → Tenant) : (s.updTenant t f).sys = s.sys := rfl
@[simp] theorem State.updTenant_queues (s : State) (t : Nat) (f : Tenant → Tenant) : (s.updTenant t f).queues = s.queues := rfl
@[simp] theorem State.updTenant_lastQueue (s : State) (t : Nat) (f : Tenant → Tenant) : (s.updTenant t f).lastQueue = s.lastQueue := rfl
@[simp] theorem State.updTenant_cpNext (s : State) (t : Nat) (f : Tenant → Tenant) : (s.updTenant t f).cpNext = s.cpNext := rfl
@[simp] theorem State.updTenant_level2 (s : State) (t : Nat) (f : Tenant → Tenant) : (s.updTenant t f).level2 = s.level2 := rfl
@[simp] theorem State.updTenant_level3 (s : State) (t : Nat) (f : Tenant → Tenant) : (s.updTenant t f).level3 = s.level3 := rfl
@[simp] theorem State.updTenant_launches (s : State) (t : Nat) (f : Tenant → Tenant) : (s.updTenant t f).launches = s.launches := rfl
@[simp] theorem State.updTenant_rollbacks (s : State) (t : Nat) (f : Tenant → Tenant) : (s.updTenant t f).rollbacks = s.rollbacks := rfl
@[simp] theorem State.updTenant_doneUses (s : State) (t : Nat) (f : Tenant → Tenant) : (s.updTenant t f).doneUses = s.doneUses := rfl
@[simp] theorem State.updTenant_teams (s : State) (t : Nat) (f : Tenant → Tenant) : (s.updTenant t f).teams = s.teams := rfl
@[simp] theorem State.updTenant_groups (s : State) (t : Nat) (f : Tenant → Tenant) : (s.updTenant t f).groups = s.groups := rfl
@[simp] theorem State.updTenant_ops (s : State) (t : Nat) (f : Tenant → Tenant) : (s.updTenant t f).ops = s.ops := rfl
@[simp] theorem State.updTenant_mem (s : State) (t : Nat) (f : Tenant → Tenant) : (s.updTenant t f).mem = s.mem := rfl
@[simp] theorem State.updTenant_outMem (s : State) (t : Nat) (f : Tenant → Tenant) : (s.updTenant t f).outMem = s.outMem := rfl
@[simp] theorem State.updTenant_poison (s : State) (t : Nat) (f : Tenant → Tenant) : (s.updTenant t f).poison = s.poison := rfl
@[simp] theorem State.updTenant_flips (s : State) (t : Nat) (f : Tenant → Tenant) : (s.updTenant t f).flips = s.flips := rfl
@[simp] theorem State.updTenant_forms (s : State) (t : Nat) (f : Tenant → Tenant) : (s.updTenant t f).forms = s.forms := rfl
@[simp] theorem State.updTenant_clks (s : State) (t : Nat) (f : Tenant → Tenant) : (s.updTenant t f).clks = s.clks := rfl
@[simp] theorem State.updTenant_writes (s : State) (t : Nat) (f : Tenant → Tenant) : (s.updTenant t f).writes = s.writes := rfl
@[simp] theorem State.updTenant_watermark (s : State) (t : Nat) (f : Tenant → Tenant) : (s.updTenant t f).watermark = s.watermark := rfl
@[simp] theorem State.updTenant_moorings (s : State) (t : Nat) (f : Tenant → Tenant) : (s.updTenant t f).moorings = s.moorings := rfl
@[simp] theorem State.updTenant_pushes (s : State) (t : Nat) (f : Tenant → Tenant) : (s.updTenant t f).pushes = s.pushes := rfl
@[simp] theorem State.updTenant_regions (s : State) (t : Nat) (f : Tenant → Tenant) : (s.updTenant t f).regions = s.regions := rfl
@[simp] theorem State.updTenant_evNow (s : State) (t : Nat) (f : Tenant → Tenant) : (s.updTenant t f).evNow = s.evNow := rfl
@[simp] theorem State.updTenant_evLive (s : State) (t : Nat) (f : Tenant → Tenant) : (s.updTenant t f).evLive = s.evLive := rfl
@[simp] theorem State.updTenant_evTotal (s : State) (t : Nat) (f : Tenant → Tenant) : (s.updTenant t f).evTotal = s.evTotal := rfl
@[simp] theorem State.updTenant_evSwept (s : State) (t : Nat) (f : Tenant → Tenant) : (s.updTenant t f).evSwept = s.evSwept := rfl
@[simp] theorem State.updTenant_reply (s : State) (t : Nat) (f : Tenant → Tenant) : (s.updTenant t f).reply = s.reply := rfl

@[simp] theorem State.updQueue_agenda (s : State) (q : Nat) (f : Queue → Queue) : (s.updQueue q f).agenda = s.agenda := rfl
@[simp] theorem State.updQueue_current (s : State) (q : Nat) (f : Queue → Queue) : (s.updQueue q f).current = s.current := rfl
@[simp] theorem State.updQueue_freeCtr (s : State) (q : Nat) (f : Queue → Queue) : (s.updQueue q f).freeCtr = s.freeCtr := rfl
@[simp] theorem State.updQueue_nextId (s : State) (q : Nat) (f : Queue → Queue) : (s.updQueue q f).nextId = s.nextId := rfl
@[simp] theorem State.updQueue_bootStep (s : State) (q : Nat) (f : Queue → Queue) : (s.updQueue q f).bootStep = s.bootStep := rfl
@[simp] theorem State.updQueue_bootFail (s : State) (q : Nat) (f : Queue → Queue) : (s.updQueue q f).bootFail = s.bootFail := rfl
@[simp] theorem State.updQueue_hub (s : State) (q : Nat) (f : Queue → Queue) : (s.updQueue q f).hub = s.hub := rfl
@[simp] theorem State.updQueue_hubPhase (s : State) (q : Nat) (f : Queue → Queue) : (s.updQueue q f).hubPhase = s.hubPhase := rfl
@[simp] theorem State.updQueue_hubCounter (s : State) (q : Nat) (f : Queue → Queue) : (s.updQueue q f).hubCounter = s.hubCounter := rfl
@[simp] theorem State.updQueue_scPackage (s : State) (q : Nat) (f : Queue → Queue) : (s.updQueue q f).scPackage = s.scPackage := rfl
@[simp] theorem State.updQueue_scFabric (s : State) (q : Nat) (f : Queue → Queue) : (s.updQueue q f).scFabric = s.scFabric := rfl
@[simp] theorem State.updQueue_wdesc (s : State) (q : Nat) (f : Queue → Queue) : (s.updQueue q f).wdesc = s.wdesc := rfl
@[simp] theorem State.updQueue_evsel (s : State) (q : Nat) (f : Queue → Queue) : (s.updQueue q f).evsel = s.evsel := rfl
@[simp] theorem State.updQueue_evctl (s : State) (q : Nat) (f : Queue → Queue) : (s.updQueue q f).evctl = s.evctl := rfl
@[simp] theorem State.updQueue_govFix (s : State) (q : Nat) (f : Queue → Queue) : (s.updQueue q f).govFix = s.govFix := rfl
@[simp] theorem State.updQueue_govFreq (s : State) (q : Nat) (f : Queue → Queue) : (s.updQueue q f).govFreq = s.govFreq := rfl
@[simp] theorem State.updQueue_pwrcap (s : State) (q : Nat) (f : Queue → Queue) : (s.updQueue q f).pwrcap = s.pwrcap := rfl
@[simp] theorem State.updQueue_fabId (s : State) (q : Nat) (f : Queue → Queue) : (s.updQueue q f).fabId = s.fabId := rfl
@[simp] theorem State.updQueue_downLinks (s : State) (q : Nat) (f : Queue → Queue) : (s.updQueue q f).downLinks = s.downLinks := rfl
@[simp] theorem State.updQueue_routes (s : State) (q : Nat) (f : Queue → Queue) : (s.updQueue q f).routes = s.routes := rfl
@[simp] theorem State.updQueue_arBump (s : State) (q : Nat) (f : Queue → Queue) : (s.updQueue q f).arBump = s.arBump := rfl
@[simp] theorem State.updQueue_arMin (s : State) (q : Nat) (f : Queue → Queue) : (s.updQueue q f).arMin = s.arMin := rfl
@[simp] theorem State.updQueue_verified (s : State) (q : Nat) (f : Queue → Queue) : (s.updQueue q f).verified = s.verified := rfl
@[simp] theorem State.updQueue_images (s : State) (q : Nat) (f : Queue → Queue) : (s.updQueue q f).images = s.images := rfl
@[simp] theorem State.updQueue_loadResult (s : State) (q : Nat) (f : Queue → Queue) : (s.updQueue q f).loadResult = s.loadResult := rfl
@[simp] theorem State.updQueue_loadSite (s : State) (q : Nat) (f : Queue → Queue) : (s.updQueue q f).loadSite = s.loadSite := rfl
@[simp] theorem State.updQueue_dies (s : State) (q : Nat) (f : Queue → Queue) : (s.updQueue q f).dies = s.dies := rfl
@[simp] theorem State.updQueue_cores (s : State) (q : Nat) (f : Queue → Queue) : (s.updQueue q f).cores = s.cores := rfl
@[simp] theorem State.updQueue_quads (s : State) (q : Nat) (f : Queue → Queue) : (s.updQueue q f).quads = s.quads := rfl
@[simp] theorem State.updQueue_lanes (s : State) (q : Nat) (f : Queue → Queue) : (s.updQueue q f).lanes = s.lanes := rfl
@[simp] theorem State.updQueue_chans (s : State) (q : Nat) (f : Queue → Queue) : (s.updQueue q f).chans = s.chans := rfl
@[simp] theorem State.updQueue_sys (s : State) (q : Nat) (f : Queue → Queue) : (s.updQueue q f).sys = s.sys := rfl
@[simp] theorem State.updQueue_tenants (s : State) (q : Nat) (f : Queue → Queue) : (s.updQueue q f).tenants = s.tenants := rfl
@[simp] theorem State.updQueue_lastQueue (s : State) (q : Nat) (f : Queue → Queue) : (s.updQueue q f).lastQueue = s.lastQueue := rfl
@[simp] theorem State.updQueue_cpNext (s : State) (q : Nat) (f : Queue → Queue) : (s.updQueue q f).cpNext = s.cpNext := rfl
@[simp] theorem State.updQueue_level2 (s : State) (q : Nat) (f : Queue → Queue) : (s.updQueue q f).level2 = s.level2 := rfl
@[simp] theorem State.updQueue_level3 (s : State) (q : Nat) (f : Queue → Queue) : (s.updQueue q f).level3 = s.level3 := rfl
@[simp] theorem State.updQueue_launches (s : State) (q : Nat) (f : Queue → Queue) : (s.updQueue q f).launches = s.launches := rfl
@[simp] theorem State.updQueue_rollbacks (s : State) (q : Nat) (f : Queue → Queue) : (s.updQueue q f).rollbacks = s.rollbacks := rfl
@[simp] theorem State.updQueue_doneUses (s : State) (q : Nat) (f : Queue → Queue) : (s.updQueue q f).doneUses = s.doneUses := rfl
@[simp] theorem State.updQueue_teams (s : State) (q : Nat) (f : Queue → Queue) : (s.updQueue q f).teams = s.teams := rfl
@[simp] theorem State.updQueue_groups (s : State) (q : Nat) (f : Queue → Queue) : (s.updQueue q f).groups = s.groups := rfl
@[simp] theorem State.updQueue_ops (s : State) (q : Nat) (f : Queue → Queue) : (s.updQueue q f).ops = s.ops := rfl
@[simp] theorem State.updQueue_mem (s : State) (q : Nat) (f : Queue → Queue) : (s.updQueue q f).mem = s.mem := rfl
@[simp] theorem State.updQueue_outMem (s : State) (q : Nat) (f : Queue → Queue) : (s.updQueue q f).outMem = s.outMem := rfl
@[simp] theorem State.updQueue_poison (s : State) (q : Nat) (f : Queue → Queue) : (s.updQueue q f).poison = s.poison := rfl
@[simp] theorem State.updQueue_flips (s : State) (q : Nat) (f : Queue → Queue) : (s.updQueue q f).flips = s.flips := rfl
@[simp] theorem State.updQueue_forms (s : State) (q : Nat) (f : Queue → Queue) : (s.updQueue q f).forms = s.forms := rfl
@[simp] theorem State.updQueue_clks (s : State) (q : Nat) (f : Queue → Queue) : (s.updQueue q f).clks = s.clks := rfl
@[simp] theorem State.updQueue_writes (s : State) (q : Nat) (f : Queue → Queue) : (s.updQueue q f).writes = s.writes := rfl
@[simp] theorem State.updQueue_watermark (s : State) (q : Nat) (f : Queue → Queue) : (s.updQueue q f).watermark = s.watermark := rfl
@[simp] theorem State.updQueue_moorings (s : State) (q : Nat) (f : Queue → Queue) : (s.updQueue q f).moorings = s.moorings := rfl
@[simp] theorem State.updQueue_pushes (s : State) (q : Nat) (f : Queue → Queue) : (s.updQueue q f).pushes = s.pushes := rfl
@[simp] theorem State.updQueue_regions (s : State) (q : Nat) (f : Queue → Queue) : (s.updQueue q f).regions = s.regions := rfl
@[simp] theorem State.updQueue_evNow (s : State) (q : Nat) (f : Queue → Queue) : (s.updQueue q f).evNow = s.evNow := rfl
@[simp] theorem State.updQueue_evLive (s : State) (q : Nat) (f : Queue → Queue) : (s.updQueue q f).evLive = s.evLive := rfl
@[simp] theorem State.updQueue_evTotal (s : State) (q : Nat) (f : Queue → Queue) : (s.updQueue q f).evTotal = s.evTotal := rfl
@[simp] theorem State.updQueue_evSwept (s : State) (q : Nat) (f : Queue → Queue) : (s.updQueue q f).evSwept = s.evSwept := rfl
@[simp] theorem State.updQueue_reply (s : State) (q : Nat) (f : Queue → Queue) : (s.updQueue q f).reply = s.reply := rfl

@[simp] theorem State.updLaunch_agenda (s : State) (i : Nat) (f : Launch → Launch) : (s.updLaunch i f).agenda = s.agenda := rfl
@[simp] theorem State.updLaunch_current (s : State) (i : Nat) (f : Launch → Launch) : (s.updLaunch i f).current = s.current := rfl
@[simp] theorem State.updLaunch_freeCtr (s : State) (i : Nat) (f : Launch → Launch) : (s.updLaunch i f).freeCtr = s.freeCtr := rfl
@[simp] theorem State.updLaunch_nextId (s : State) (i : Nat) (f : Launch → Launch) : (s.updLaunch i f).nextId = s.nextId := rfl
@[simp] theorem State.updLaunch_bootStep (s : State) (i : Nat) (f : Launch → Launch) : (s.updLaunch i f).bootStep = s.bootStep := rfl
@[simp] theorem State.updLaunch_bootFail (s : State) (i : Nat) (f : Launch → Launch) : (s.updLaunch i f).bootFail = s.bootFail := rfl
@[simp] theorem State.updLaunch_hub (s : State) (i : Nat) (f : Launch → Launch) : (s.updLaunch i f).hub = s.hub := rfl
@[simp] theorem State.updLaunch_hubPhase (s : State) (i : Nat) (f : Launch → Launch) : (s.updLaunch i f).hubPhase = s.hubPhase := rfl
@[simp] theorem State.updLaunch_hubCounter (s : State) (i : Nat) (f : Launch → Launch) : (s.updLaunch i f).hubCounter = s.hubCounter := rfl
@[simp] theorem State.updLaunch_scPackage (s : State) (i : Nat) (f : Launch → Launch) : (s.updLaunch i f).scPackage = s.scPackage := rfl
@[simp] theorem State.updLaunch_scFabric (s : State) (i : Nat) (f : Launch → Launch) : (s.updLaunch i f).scFabric = s.scFabric := rfl
@[simp] theorem State.updLaunch_wdesc (s : State) (i : Nat) (f : Launch → Launch) : (s.updLaunch i f).wdesc = s.wdesc := rfl
@[simp] theorem State.updLaunch_evsel (s : State) (i : Nat) (f : Launch → Launch) : (s.updLaunch i f).evsel = s.evsel := rfl
@[simp] theorem State.updLaunch_evctl (s : State) (i : Nat) (f : Launch → Launch) : (s.updLaunch i f).evctl = s.evctl := rfl
@[simp] theorem State.updLaunch_govFix (s : State) (i : Nat) (f : Launch → Launch) : (s.updLaunch i f).govFix = s.govFix := rfl
@[simp] theorem State.updLaunch_govFreq (s : State) (i : Nat) (f : Launch → Launch) : (s.updLaunch i f).govFreq = s.govFreq := rfl
@[simp] theorem State.updLaunch_pwrcap (s : State) (i : Nat) (f : Launch → Launch) : (s.updLaunch i f).pwrcap = s.pwrcap := rfl
@[simp] theorem State.updLaunch_fabId (s : State) (i : Nat) (f : Launch → Launch) : (s.updLaunch i f).fabId = s.fabId := rfl
@[simp] theorem State.updLaunch_downLinks (s : State) (i : Nat) (f : Launch → Launch) : (s.updLaunch i f).downLinks = s.downLinks := rfl
@[simp] theorem State.updLaunch_routes (s : State) (i : Nat) (f : Launch → Launch) : (s.updLaunch i f).routes = s.routes := rfl
@[simp] theorem State.updLaunch_arBump (s : State) (i : Nat) (f : Launch → Launch) : (s.updLaunch i f).arBump = s.arBump := rfl
@[simp] theorem State.updLaunch_arMin (s : State) (i : Nat) (f : Launch → Launch) : (s.updLaunch i f).arMin = s.arMin := rfl
@[simp] theorem State.updLaunch_verified (s : State) (i : Nat) (f : Launch → Launch) : (s.updLaunch i f).verified = s.verified := rfl
@[simp] theorem State.updLaunch_images (s : State) (i : Nat) (f : Launch → Launch) : (s.updLaunch i f).images = s.images := rfl
@[simp] theorem State.updLaunch_loadResult (s : State) (i : Nat) (f : Launch → Launch) : (s.updLaunch i f).loadResult = s.loadResult := rfl
@[simp] theorem State.updLaunch_loadSite (s : State) (i : Nat) (f : Launch → Launch) : (s.updLaunch i f).loadSite = s.loadSite := rfl
@[simp] theorem State.updLaunch_dies (s : State) (i : Nat) (f : Launch → Launch) : (s.updLaunch i f).dies = s.dies := rfl
@[simp] theorem State.updLaunch_cores (s : State) (i : Nat) (f : Launch → Launch) : (s.updLaunch i f).cores = s.cores := rfl
@[simp] theorem State.updLaunch_quads (s : State) (i : Nat) (f : Launch → Launch) : (s.updLaunch i f).quads = s.quads := rfl
@[simp] theorem State.updLaunch_lanes (s : State) (i : Nat) (f : Launch → Launch) : (s.updLaunch i f).lanes = s.lanes := rfl
@[simp] theorem State.updLaunch_chans (s : State) (i : Nat) (f : Launch → Launch) : (s.updLaunch i f).chans = s.chans := rfl
@[simp] theorem State.updLaunch_sys (s : State) (i : Nat) (f : Launch → Launch) : (s.updLaunch i f).sys = s.sys := rfl
@[simp] theorem State.updLaunch_tenants (s : State) (i : Nat) (f : Launch → Launch) : (s.updLaunch i f).tenants = s.tenants := rfl
@[simp] theorem State.updLaunch_queues (s : State) (i : Nat) (f : Launch → Launch) : (s.updLaunch i f).queues = s.queues := rfl
@[simp] theorem State.updLaunch_lastQueue (s : State) (i : Nat) (f : Launch → Launch) : (s.updLaunch i f).lastQueue = s.lastQueue := rfl
@[simp] theorem State.updLaunch_cpNext (s : State) (i : Nat) (f : Launch → Launch) : (s.updLaunch i f).cpNext = s.cpNext := rfl
@[simp] theorem State.updLaunch_level2 (s : State) (i : Nat) (f : Launch → Launch) : (s.updLaunch i f).level2 = s.level2 := rfl
@[simp] theorem State.updLaunch_level3 (s : State) (i : Nat) (f : Launch → Launch) : (s.updLaunch i f).level3 = s.level3 := rfl
@[simp] theorem State.updLaunch_rollbacks (s : State) (i : Nat) (f : Launch → Launch) : (s.updLaunch i f).rollbacks = s.rollbacks := rfl
@[simp] theorem State.updLaunch_doneUses (s : State) (i : Nat) (f : Launch → Launch) : (s.updLaunch i f).doneUses = s.doneUses := rfl
@[simp] theorem State.updLaunch_teams (s : State) (i : Nat) (f : Launch → Launch) : (s.updLaunch i f).teams = s.teams := rfl
@[simp] theorem State.updLaunch_groups (s : State) (i : Nat) (f : Launch → Launch) : (s.updLaunch i f).groups = s.groups := rfl
@[simp] theorem State.updLaunch_ops (s : State) (i : Nat) (f : Launch → Launch) : (s.updLaunch i f).ops = s.ops := rfl
@[simp] theorem State.updLaunch_mem (s : State) (i : Nat) (f : Launch → Launch) : (s.updLaunch i f).mem = s.mem := rfl
@[simp] theorem State.updLaunch_outMem (s : State) (i : Nat) (f : Launch → Launch) : (s.updLaunch i f).outMem = s.outMem := rfl
@[simp] theorem State.updLaunch_poison (s : State) (i : Nat) (f : Launch → Launch) : (s.updLaunch i f).poison = s.poison := rfl
@[simp] theorem State.updLaunch_flips (s : State) (i : Nat) (f : Launch → Launch) : (s.updLaunch i f).flips = s.flips := rfl
@[simp] theorem State.updLaunch_forms (s : State) (i : Nat) (f : Launch → Launch) : (s.updLaunch i f).forms = s.forms := rfl
@[simp] theorem State.updLaunch_clks (s : State) (i : Nat) (f : Launch → Launch) : (s.updLaunch i f).clks = s.clks := rfl
@[simp] theorem State.updLaunch_writes (s : State) (i : Nat) (f : Launch → Launch) : (s.updLaunch i f).writes = s.writes := rfl
@[simp] theorem State.updLaunch_watermark (s : State) (i : Nat) (f : Launch → Launch) : (s.updLaunch i f).watermark = s.watermark := rfl
@[simp] theorem State.updLaunch_moorings (s : State) (i : Nat) (f : Launch → Launch) : (s.updLaunch i f).moorings = s.moorings := rfl
@[simp] theorem State.updLaunch_pushes (s : State) (i : Nat) (f : Launch → Launch) : (s.updLaunch i f).pushes = s.pushes := rfl
@[simp] theorem State.updLaunch_regions (s : State) (i : Nat) (f : Launch → Launch) : (s.updLaunch i f).regions = s.regions := rfl
@[simp] theorem State.updLaunch_evNow (s : State) (i : Nat) (f : Launch → Launch) : (s.updLaunch i f).evNow = s.evNow := rfl
@[simp] theorem State.updLaunch_evLive (s : State) (i : Nat) (f : Launch → Launch) : (s.updLaunch i f).evLive = s.evLive := rfl
@[simp] theorem State.updLaunch_evTotal (s : State) (i : Nat) (f : Launch → Launch) : (s.updLaunch i f).evTotal = s.evTotal := rfl
@[simp] theorem State.updLaunch_evSwept (s : State) (i : Nat) (f : Launch → Launch) : (s.updLaunch i f).evSwept = s.evSwept := rfl
@[simp] theorem State.updLaunch_reply (s : State) (i : Nat) (f : Launch → Launch) : (s.updLaunch i f).reply = s.reply := rfl

@[simp] theorem State.updTeam_agenda (s : State) (i : TeamId) (f : Team → Team) : (s.updTeam i f).agenda = s.agenda := rfl
@[simp] theorem State.updTeam_current (s : State) (i : TeamId) (f : Team → Team) : (s.updTeam i f).current = s.current := rfl
@[simp] theorem State.updTeam_freeCtr (s : State) (i : TeamId) (f : Team → Team) : (s.updTeam i f).freeCtr = s.freeCtr := rfl
@[simp] theorem State.updTeam_nextId (s : State) (i : TeamId) (f : Team → Team) : (s.updTeam i f).nextId = s.nextId := rfl
@[simp] theorem State.updTeam_bootStep (s : State) (i : TeamId) (f : Team → Team) : (s.updTeam i f).bootStep = s.bootStep := rfl
@[simp] theorem State.updTeam_bootFail (s : State) (i : TeamId) (f : Team → Team) : (s.updTeam i f).bootFail = s.bootFail := rfl
@[simp] theorem State.updTeam_hub (s : State) (i : TeamId) (f : Team → Team) : (s.updTeam i f).hub = s.hub := rfl
@[simp] theorem State.updTeam_hubPhase (s : State) (i : TeamId) (f : Team → Team) : (s.updTeam i f).hubPhase = s.hubPhase := rfl
@[simp] theorem State.updTeam_hubCounter (s : State) (i : TeamId) (f : Team → Team) : (s.updTeam i f).hubCounter = s.hubCounter := rfl
@[simp] theorem State.updTeam_scPackage (s : State) (i : TeamId) (f : Team → Team) : (s.updTeam i f).scPackage = s.scPackage := rfl
@[simp] theorem State.updTeam_scFabric (s : State) (i : TeamId) (f : Team → Team) : (s.updTeam i f).scFabric = s.scFabric := rfl
@[simp] theorem State.updTeam_wdesc (s : State) (i : TeamId) (f : Team → Team) : (s.updTeam i f).wdesc = s.wdesc := rfl
@[simp] theorem State.updTeam_evsel (s : State) (i : TeamId) (f : Team → Team) : (s.updTeam i f).evsel = s.evsel := rfl
@[simp] theorem State.updTeam_evctl (s : State) (i : TeamId) (f : Team → Team) : (s.updTeam i f).evctl = s.evctl := rfl
@[simp] theorem State.updTeam_govFix (s : State) (i : TeamId) (f : Team → Team) : (s.updTeam i f).govFix = s.govFix := rfl
@[simp] theorem State.updTeam_govFreq (s : State) (i : TeamId) (f : Team → Team) : (s.updTeam i f).govFreq = s.govFreq := rfl
@[simp] theorem State.updTeam_pwrcap (s : State) (i : TeamId) (f : Team → Team) : (s.updTeam i f).pwrcap = s.pwrcap := rfl
@[simp] theorem State.updTeam_fabId (s : State) (i : TeamId) (f : Team → Team) : (s.updTeam i f).fabId = s.fabId := rfl
@[simp] theorem State.updTeam_downLinks (s : State) (i : TeamId) (f : Team → Team) : (s.updTeam i f).downLinks = s.downLinks := rfl
@[simp] theorem State.updTeam_routes (s : State) (i : TeamId) (f : Team → Team) : (s.updTeam i f).routes = s.routes := rfl
@[simp] theorem State.updTeam_arBump (s : State) (i : TeamId) (f : Team → Team) : (s.updTeam i f).arBump = s.arBump := rfl
@[simp] theorem State.updTeam_arMin (s : State) (i : TeamId) (f : Team → Team) : (s.updTeam i f).arMin = s.arMin := rfl
@[simp] theorem State.updTeam_verified (s : State) (i : TeamId) (f : Team → Team) : (s.updTeam i f).verified = s.verified := rfl
@[simp] theorem State.updTeam_images (s : State) (i : TeamId) (f : Team → Team) : (s.updTeam i f).images = s.images := rfl
@[simp] theorem State.updTeam_loadResult (s : State) (i : TeamId) (f : Team → Team) : (s.updTeam i f).loadResult = s.loadResult := rfl
@[simp] theorem State.updTeam_loadSite (s : State) (i : TeamId) (f : Team → Team) : (s.updTeam i f).loadSite = s.loadSite := rfl
@[simp] theorem State.updTeam_dies (s : State) (i : TeamId) (f : Team → Team) : (s.updTeam i f).dies = s.dies := rfl
@[simp] theorem State.updTeam_cores (s : State) (i : TeamId) (f : Team → Team) : (s.updTeam i f).cores = s.cores := rfl
@[simp] theorem State.updTeam_quads (s : State) (i : TeamId) (f : Team → Team) : (s.updTeam i f).quads = s.quads := rfl
@[simp] theorem State.updTeam_lanes (s : State) (i : TeamId) (f : Team → Team) : (s.updTeam i f).lanes = s.lanes := rfl
@[simp] theorem State.updTeam_chans (s : State) (i : TeamId) (f : Team → Team) : (s.updTeam i f).chans = s.chans := rfl
@[simp] theorem State.updTeam_sys (s : State) (i : TeamId) (f : Team → Team) : (s.updTeam i f).sys = s.sys := rfl
@[simp] theorem State.updTeam_tenants (s : State) (i : TeamId) (f : Team → Team) : (s.updTeam i f).tenants = s.tenants := rfl
@[simp] theorem State.updTeam_queues (s : State) (i : TeamId) (f : Team → Team) : (s.updTeam i f).queues = s.queues := rfl
@[simp] theorem State.updTeam_lastQueue (s : State) (i : TeamId) (f : Team → Team) : (s.updTeam i f).lastQueue = s.lastQueue := rfl
@[simp] theorem State.updTeam_cpNext (s : State) (i : TeamId) (f : Team → Team) : (s.updTeam i f).cpNext = s.cpNext := rfl
@[simp] theorem State.updTeam_level2 (s : State) (i : TeamId) (f : Team → Team) : (s.updTeam i f).level2 = s.level2 := rfl
@[simp] theorem State.updTeam_level3 (s : State) (i : TeamId) (f : Team → Team) : (s.updTeam i f).level3 = s.level3 := rfl
@[simp] theorem State.updTeam_launches (s : State) (i : TeamId) (f : Team → Team) : (s.updTeam i f).launches = s.launches := rfl
@[simp] theorem State.updTeam_rollbacks (s : State) (i : TeamId) (f : Team → Team) : (s.updTeam i f).rollbacks = s.rollbacks := rfl
@[simp] theorem State.updTeam_doneUses (s : State) (i : TeamId) (f : Team → Team) : (s.updTeam i f).doneUses = s.doneUses := rfl
@[simp] theorem State.updTeam_groups (s : State) (i : TeamId) (f : Team → Team) : (s.updTeam i f).groups = s.groups := rfl
@[simp] theorem State.updTeam_ops (s : State) (i : TeamId) (f : Team → Team) : (s.updTeam i f).ops = s.ops := rfl
@[simp] theorem State.updTeam_mem (s : State) (i : TeamId) (f : Team → Team) : (s.updTeam i f).mem = s.mem := rfl
@[simp] theorem State.updTeam_outMem (s : State) (i : TeamId) (f : Team → Team) : (s.updTeam i f).outMem = s.outMem := rfl
@[simp] theorem State.updTeam_poison (s : State) (i : TeamId) (f : Team → Team) : (s.updTeam i f).poison = s.poison := rfl
@[simp] theorem State.updTeam_flips (s : State) (i : TeamId) (f : Team → Team) : (s.updTeam i f).flips = s.flips := rfl
@[simp] theorem State.updTeam_forms (s : State) (i : TeamId) (f : Team → Team) : (s.updTeam i f).forms = s.forms := rfl
@[simp] theorem State.updTeam_clks (s : State) (i : TeamId) (f : Team → Team) : (s.updTeam i f).clks = s.clks := rfl
@[simp] theorem State.updTeam_writes (s : State) (i : TeamId) (f : Team → Team) : (s.updTeam i f).writes = s.writes := rfl
@[simp] theorem State.updTeam_watermark (s : State) (i : TeamId) (f : Team → Team) : (s.updTeam i f).watermark = s.watermark := rfl
@[simp] theorem State.updTeam_moorings (s : State) (i : TeamId) (f : Team → Team) : (s.updTeam i f).moorings = s.moorings := rfl
@[simp] theorem State.updTeam_pushes (s : State) (i : TeamId) (f : Team → Team) : (s.updTeam i f).pushes = s.pushes := rfl
@[simp] theorem State.updTeam_regions (s : State) (i : TeamId) (f : Team → Team) : (s.updTeam i f).regions = s.regions := rfl
@[simp] theorem State.updTeam_evNow (s : State) (i : TeamId) (f : Team → Team) : (s.updTeam i f).evNow = s.evNow := rfl
@[simp] theorem State.updTeam_evLive (s : State) (i : TeamId) (f : Team → Team) : (s.updTeam i f).evLive = s.evLive := rfl
@[simp] theorem State.updTeam_evTotal (s : State) (i : TeamId) (f : Team → Team) : (s.updTeam i f).evTotal = s.evTotal := rfl
@[simp] theorem State.updTeam_evSwept (s : State) (i : TeamId) (f : Team → Team) : (s.updTeam i f).evSwept = s.evSwept := rfl
@[simp] theorem State.updTeam_reply (s : State) (i : TeamId) (f : Team → Team) : (s.updTeam i f).reply = s.reply := rfl

@[simp] theorem State.updThreads_agenda (s : State) (i : TeamId) (l : List Nat) (f : Thread → Thread) : (s.updThreads i l f).agenda = s.agenda := rfl
@[simp] theorem State.updThreads_current (s : State) (i : TeamId) (l : List Nat) (f : Thread → Thread) : (s.updThreads i l f).current = s.current := rfl
@[simp] theorem State.updThreads_freeCtr (s : State) (i : TeamId) (l : List Nat) (f : Thread → Thread) : (s.updThreads i l f).freeCtr = s.freeCtr := rfl
@[simp] theorem State.updThreads_nextId (s : State) (i : TeamId) (l : List Nat) (f : Thread → Thread) : (s.updThreads i l f).nextId = s.nextId := rfl
@[simp] theorem State.updThreads_bootStep (s : State) (i : TeamId) (l : List Nat) (f : Thread → Thread) : (s.updThreads i l f).bootStep = s.bootStep := rfl
@[simp] theorem State.updThreads_bootFail (s : State) (i : TeamId) (l : List Nat) (f : Thread → Thread) : (s.updThreads i l f).bootFail = s.bootFail := rfl
@[simp] theorem State.updThreads_hub (s : State) (i : TeamId) (l : List Nat) (f : Thread → Thread) : (s.updThreads i l f).hub = s.hub := rfl
@[simp] theorem State.updThreads_hubPhase (s : State) (i : TeamId) (l : List Nat) (f : Thread → Thread) : (s.updThreads i l f).hubPhase = s.hubPhase := rfl
@[simp] theorem State.updThreads_hubCounter (s : State) (i : TeamId) (l : List Nat) (f : Thread → Thread) : (s.updThreads i l f).hubCounter = s.hubCounter := rfl
@[simp] theorem State.updThreads_scPackage (s : State) (i : TeamId) (l : List Nat) (f : Thread → Thread) : (s.updThreads i l f).scPackage = s.scPackage := rfl
@[simp] theorem State.updThreads_scFabric (s : State) (i : TeamId) (l : List Nat) (f : Thread → Thread) : (s.updThreads i l f).scFabric = s.scFabric := rfl
@[simp] theorem State.updThreads_wdesc (s : State) (i : TeamId) (l : List Nat) (f : Thread → Thread) : (s.updThreads i l f).wdesc = s.wdesc := rfl
@[simp] theorem State.updThreads_evsel (s : State) (i : TeamId) (l : List Nat) (f : Thread → Thread) : (s.updThreads i l f).evsel = s.evsel := rfl
@[simp] theorem State.updThreads_evctl (s : State) (i : TeamId) (l : List Nat) (f : Thread → Thread) : (s.updThreads i l f).evctl = s.evctl := rfl
@[simp] theorem State.updThreads_govFix (s : State) (i : TeamId) (l : List Nat) (f : Thread → Thread) : (s.updThreads i l f).govFix = s.govFix := rfl
@[simp] theorem State.updThreads_govFreq (s : State) (i : TeamId) (l : List Nat) (f : Thread → Thread) : (s.updThreads i l f).govFreq = s.govFreq := rfl
@[simp] theorem State.updThreads_pwrcap (s : State) (i : TeamId) (l : List Nat) (f : Thread → Thread) : (s.updThreads i l f).pwrcap = s.pwrcap := rfl
@[simp] theorem State.updThreads_fabId (s : State) (i : TeamId) (l : List Nat) (f : Thread → Thread) : (s.updThreads i l f).fabId = s.fabId := rfl
@[simp] theorem State.updThreads_downLinks (s : State) (i : TeamId) (l : List Nat) (f : Thread → Thread) : (s.updThreads i l f).downLinks = s.downLinks := rfl
@[simp] theorem State.updThreads_routes (s : State) (i : TeamId) (l : List Nat) (f : Thread → Thread) : (s.updThreads i l f).routes = s.routes := rfl
@[simp] theorem State.updThreads_arBump (s : State) (i : TeamId) (l : List Nat) (f : Thread → Thread) : (s.updThreads i l f).arBump = s.arBump := rfl
@[simp] theorem State.updThreads_arMin (s : State) (i : TeamId) (l : List Nat) (f : Thread → Thread) : (s.updThreads i l f).arMin = s.arMin := rfl
@[simp] theorem State.updThreads_verified (s : State) (i : TeamId) (l : List Nat) (f : Thread → Thread) : (s.updThreads i l f).verified = s.verified := rfl
@[simp] theorem State.updThreads_images (s : State) (i : TeamId) (l : List Nat) (f : Thread → Thread) : (s.updThreads i l f).images = s.images := rfl
@[simp] theorem State.updThreads_loadResult (s : State) (i : TeamId) (l : List Nat) (f : Thread → Thread) : (s.updThreads i l f).loadResult = s.loadResult := rfl
@[simp] theorem State.updThreads_loadSite (s : State) (i : TeamId) (l : List Nat) (f : Thread → Thread) : (s.updThreads i l f).loadSite = s.loadSite := rfl
@[simp] theorem State.updThreads_dies (s : State) (i : TeamId) (l : List Nat) (f : Thread → Thread) : (s.updThreads i l f).dies = s.dies := rfl
@[simp] theorem State.updThreads_cores (s : State) (i : TeamId) (l : List Nat) (f : Thread → Thread) : (s.updThreads i l f).cores = s.cores := rfl
@[simp] theorem State.updThreads_quads (s : State) (i : TeamId) (l : List Nat) (f : Thread → Thread) : (s.updThreads i l f).quads = s.quads := rfl
@[simp] theorem State.updThreads_lanes (s : State) (i : TeamId) (l : List Nat) (f : Thread → Thread) : (s.updThreads i l f).lanes = s.lanes := rfl
@[simp] theorem State.updThreads_chans (s : State) (i : TeamId) (l : List Nat) (f : Thread → Thread) : (s.updThreads i l f).chans = s.chans := rfl
@[simp] theorem State.updThreads_sys (s : State) (i : TeamId) (l : List Nat) (f : Thread → Thread) : (s.updThreads i l f).sys = s.sys := rfl
@[simp] theorem State.updThreads_tenants (s : State) (i : TeamId) (l : List Nat) (f : Thread → Thread) : (s.updThreads i l f).tenants = s.tenants := rfl
@[simp] theorem State.updThreads_queues (s : State) (i : TeamId) (l : List Nat) (f : Thread → Thread) : (s.updThreads i l f).queues = s.queues := rfl
@[simp] theorem State.updThreads_lastQueue (s : State) (i : TeamId) (l : List Nat) (f : Thread → Thread) : (s.updThreads i l f).lastQueue = s.lastQueue := rfl
@[simp] theorem State.updThreads_cpNext (s : State) (i : TeamId) (l : List Nat) (f : Thread → Thread) : (s.updThreads i l f).cpNext = s.cpNext := rfl
@[simp] theorem State.updThreads_level2 (s : State) (i : TeamId) (l : List Nat) (f : Thread → Thread) : (s.updThreads i l f).level2 = s.level2 := rfl
@[simp] theorem State.updThreads_level3 (s : State) (i : TeamId) (l : List Nat) (f : Thread → Thread) : (s.updThreads i l f).level3 = s.level3 := rfl
@[simp] theorem State.updThreads_launches (s : State) (i : TeamId) (l : List Nat) (f : Thread → Thread) : (s.updThreads i l f).launches = s.launches := rfl
@[simp] theorem State.updThreads_rollbacks (s : State) (i : TeamId) (l : List Nat) (f : Thread → Thread) : (s.updThreads i l f).rollbacks = s.rollbacks := rfl
@[simp] theorem State.updThreads_doneUses (s : State) (i : TeamId) (l : List Nat) (f : Thread → Thread) : (s.updThreads i l f).doneUses = s.doneUses := rfl
@[simp] theorem State.updThreads_groups (s : State) (i : TeamId) (l : List Nat) (f : Thread → Thread) : (s.updThreads i l f).groups = s.groups := rfl
@[simp] theorem State.updThreads_ops (s : State) (i : TeamId) (l : List Nat) (f : Thread → Thread) : (s.updThreads i l f).ops = s.ops := rfl
@[simp] theorem State.updThreads_mem (s : State) (i : TeamId) (l : List Nat) (f : Thread → Thread) : (s.updThreads i l f).mem = s.mem := rfl
@[simp] theorem State.updThreads_outMem (s : State) (i : TeamId) (l : List Nat) (f : Thread → Thread) : (s.updThreads i l f).outMem = s.outMem := rfl
@[simp] theorem State.updThreads_poison (s : State) (i : TeamId) (l : List Nat) (f : Thread → Thread) : (s.updThreads i l f).poison = s.poison := rfl
@[simp] theorem State.updThreads_flips (s : State) (i : TeamId) (l : List Nat) (f : Thread → Thread) : (s.updThreads i l f).flips = s.flips := rfl
@[simp] theorem State.updThreads_forms (s : State) (i : TeamId) (l : List Nat) (f : Thread → Thread) : (s.updThreads i l f).forms = s.forms := rfl
@[simp] theorem State.updThreads_clks (s : State) (i : TeamId) (l : List Nat) (f : Thread → Thread) : (s.updThreads i l f).clks = s.clks := rfl
@[simp] theorem State.updThreads_writes (s : State) (i : TeamId) (l : List Nat) (f : Thread → Thread) : (s.updThreads i l f).writes = s.writes := rfl
@[simp] theorem State.updThreads_watermark (s : State) (i : TeamId) (l : List Nat) (f : Thread → Thread) : (s.updThreads i l f).watermark = s.watermark := rfl
@[simp] theorem State.updThreads_moorings (s : State) (i : TeamId) (l : List Nat) (f : Thread → Thread) : (s.updThreads i l f).moorings = s.moorings := rfl
@[simp] theorem State.updThreads_pushes (s : State) (i : TeamId) (l : List Nat) (f : Thread → Thread) : (s.updThreads i l f).pushes = s.pushes := rfl
@[simp] theorem State.updThreads_regions (s : State) (i : TeamId) (l : List Nat) (f : Thread → Thread) : (s.updThreads i l f).regions = s.regions := rfl
@[simp] theorem State.updThreads_evNow (s : State) (i : TeamId) (l : List Nat) (f : Thread → Thread) : (s.updThreads i l f).evNow = s.evNow := rfl
@[simp] theorem State.updThreads_evLive (s : State) (i : TeamId) (l : List Nat) (f : Thread → Thread) : (s.updThreads i l f).evLive = s.evLive := rfl
@[simp] theorem State.updThreads_evTotal (s : State) (i : TeamId) (l : List Nat) (f : Thread → Thread) : (s.updThreads i l f).evTotal = s.evTotal := rfl
@[simp] theorem State.updThreads_evSwept (s : State) (i : TeamId) (l : List Nat) (f : Thread → Thread) : (s.updThreads i l f).evSwept = s.evSwept := rfl
@[simp] theorem State.updThreads_reply (s : State) (i : TeamId) (l : List Nat) (f : Thread → Thread) : (s.updThreads i l f).reply = s.reply := rfl

@[simp] theorem State.updGrp_agenda (s : State) (g : Nat) (f : Grp → Grp) : (s.updGrp g f).agenda = s.agenda := rfl
@[simp] theorem State.updGrp_current (s : State) (g : Nat) (f : Grp → Grp) : (s.updGrp g f).current = s.current := rfl
@[simp] theorem State.updGrp_freeCtr (s : State) (g : Nat) (f : Grp → Grp) : (s.updGrp g f).freeCtr = s.freeCtr := rfl
@[simp] theorem State.updGrp_nextId (s : State) (g : Nat) (f : Grp → Grp) : (s.updGrp g f).nextId = s.nextId := rfl
@[simp] theorem State.updGrp_bootStep (s : State) (g : Nat) (f : Grp → Grp) : (s.updGrp g f).bootStep = s.bootStep := rfl
@[simp] theorem State.updGrp_bootFail (s : State) (g : Nat) (f : Grp → Grp) : (s.updGrp g f).bootFail = s.bootFail := rfl
@[simp] theorem State.updGrp_hub (s : State) (g : Nat) (f : Grp → Grp) : (s.updGrp g f).hub = s.hub := rfl
@[simp] theorem State.updGrp_hubPhase (s : State) (g : Nat) (f : Grp → Grp) : (s.updGrp g f).hubPhase = s.hubPhase := rfl
@[simp] theorem State.updGrp_hubCounter (s : State) (g : Nat) (f : Grp → Grp) : (s.updGrp g f).hubCounter = s.hubCounter := rfl
@[simp] theorem State.updGrp_scPackage (s : State) (g : Nat) (f : Grp → Grp) : (s.updGrp g f).scPackage = s.scPackage := rfl
@[simp] theorem State.updGrp_scFabric (s : State) (g : Nat) (f : Grp → Grp) : (s.updGrp g f).scFabric = s.scFabric := rfl
@[simp] theorem State.updGrp_wdesc (s : State) (g : Nat) (f : Grp → Grp) : (s.updGrp g f).wdesc = s.wdesc := rfl
@[simp] theorem State.updGrp_evsel (s : State) (g : Nat) (f : Grp → Grp) : (s.updGrp g f).evsel = s.evsel := rfl
@[simp] theorem State.updGrp_evctl (s : State) (g : Nat) (f : Grp → Grp) : (s.updGrp g f).evctl = s.evctl := rfl
@[simp] theorem State.updGrp_govFix (s : State) (g : Nat) (f : Grp → Grp) : (s.updGrp g f).govFix = s.govFix := rfl
@[simp] theorem State.updGrp_govFreq (s : State) (g : Nat) (f : Grp → Grp) : (s.updGrp g f).govFreq = s.govFreq := rfl
@[simp] theorem State.updGrp_pwrcap (s : State) (g : Nat) (f : Grp → Grp) : (s.updGrp g f).pwrcap = s.pwrcap := rfl
@[simp] theorem State.updGrp_fabId (s : State) (g : Nat) (f : Grp → Grp) : (s.updGrp g f).fabId = s.fabId := rfl
@[simp] theorem State.updGrp_downLinks (s : State) (g : Nat) (f : Grp → Grp) : (s.updGrp g f).downLinks = s.downLinks := rfl
@[simp] theorem State.updGrp_routes (s : State) (g : Nat) (f : Grp → Grp) : (s.updGrp g f).routes = s.routes := rfl
@[simp] theorem State.updGrp_arBump (s : State) (g : Nat) (f : Grp → Grp) : (s.updGrp g f).arBump = s.arBump := rfl
@[simp] theorem State.updGrp_arMin (s : State) (g : Nat) (f : Grp → Grp) : (s.updGrp g f).arMin = s.arMin := rfl
@[simp] theorem State.updGrp_verified (s : State) (g : Nat) (f : Grp → Grp) : (s.updGrp g f).verified = s.verified := rfl
@[simp] theorem State.updGrp_images (s : State) (g : Nat) (f : Grp → Grp) : (s.updGrp g f).images = s.images := rfl
@[simp] theorem State.updGrp_loadResult (s : State) (g : Nat) (f : Grp → Grp) : (s.updGrp g f).loadResult = s.loadResult := rfl
@[simp] theorem State.updGrp_loadSite (s : State) (g : Nat) (f : Grp → Grp) : (s.updGrp g f).loadSite = s.loadSite := rfl
@[simp] theorem State.updGrp_dies (s : State) (g : Nat) (f : Grp → Grp) : (s.updGrp g f).dies = s.dies := rfl
@[simp] theorem State.updGrp_cores (s : State) (g : Nat) (f : Grp → Grp) : (s.updGrp g f).cores = s.cores := rfl
@[simp] theorem State.updGrp_quads (s : State) (g : Nat) (f : Grp → Grp) : (s.updGrp g f).quads = s.quads := rfl
@[simp] theorem State.updGrp_lanes (s : State) (g : Nat) (f : Grp → Grp) : (s.updGrp g f).lanes = s.lanes := rfl
@[simp] theorem State.updGrp_chans (s : State) (g : Nat) (f : Grp → Grp) : (s.updGrp g f).chans = s.chans := rfl
@[simp] theorem State.updGrp_sys (s : State) (g : Nat) (f : Grp → Grp) : (s.updGrp g f).sys = s.sys := rfl
@[simp] theorem State.updGrp_tenants (s : State) (g : Nat) (f : Grp → Grp) : (s.updGrp g f).tenants = s.tenants := rfl
@[simp] theorem State.updGrp_queues (s : State) (g : Nat) (f : Grp → Grp) : (s.updGrp g f).queues = s.queues := rfl
@[simp] theorem State.updGrp_lastQueue (s : State) (g : Nat) (f : Grp → Grp) : (s.updGrp g f).lastQueue = s.lastQueue := rfl
@[simp] theorem State.updGrp_cpNext (s : State) (g : Nat) (f : Grp → Grp) : (s.updGrp g f).cpNext = s.cpNext := rfl
@[simp] theorem State.updGrp_level2 (s : State) (g : Nat) (f : Grp → Grp) : (s.updGrp g f).level2 = s.level2 := rfl
@[simp] theorem State.updGrp_level3 (s : State) (g : Nat) (f : Grp → Grp) : (s.updGrp g f).level3 = s.level3 := rfl
@[simp] theorem State.updGrp_launches (s : State) (g : Nat) (f : Grp → Grp) : (s.updGrp g f).launches = s.launches := rfl
@[simp] theorem State.updGrp_rollbacks (s : State) (g : Nat) (f : Grp → Grp) : (s.updGrp g f).rollbacks = s.rollbacks := rfl
@[simp] theorem State.updGrp_doneUses (s : State) (g : Nat) (f : Grp → Grp) : (s.updGrp g f).doneUses = s.doneUses := rfl
@[simp] theorem State.updGrp_teams (s : State) (g : Nat) (f : Grp → Grp) : (s.updGrp g f).teams = s.teams := rfl
@[simp] theorem State.updGrp_ops (s : State) (g : Nat) (f : Grp → Grp) : (s.updGrp g f).ops = s.ops := rfl
@[simp] theorem State.updGrp_mem (s : State) (g : Nat) (f : Grp → Grp) : (s.updGrp g f).mem = s.mem := rfl
@[simp] theorem State.updGrp_outMem (s : State) (g : Nat) (f : Grp → Grp) : (s.updGrp g f).outMem = s.outMem := rfl
@[simp] theorem State.updGrp_poison (s : State) (g : Nat) (f : Grp → Grp) : (s.updGrp g f).poison = s.poison := rfl
@[simp] theorem State.updGrp_flips (s : State) (g : Nat) (f : Grp → Grp) : (s.updGrp g f).flips = s.flips := rfl
@[simp] theorem State.updGrp_forms (s : State) (g : Nat) (f : Grp → Grp) : (s.updGrp g f).forms = s.forms := rfl
@[simp] theorem State.updGrp_clks (s : State) (g : Nat) (f : Grp → Grp) : (s.updGrp g f).clks = s.clks := rfl
@[simp] theorem State.updGrp_writes (s : State) (g : Nat) (f : Grp → Grp) : (s.updGrp g f).writes = s.writes := rfl
@[simp] theorem State.updGrp_watermark (s : State) (g : Nat) (f : Grp → Grp) : (s.updGrp g f).watermark = s.watermark := rfl
@[simp] theorem State.updGrp_moorings (s : State) (g : Nat) (f : Grp → Grp) : (s.updGrp g f).moorings = s.moorings := rfl
@[simp] theorem State.updGrp_pushes (s : State) (g : Nat) (f : Grp → Grp) : (s.updGrp g f).pushes = s.pushes := rfl
@[simp] theorem State.updGrp_regions (s : State) (g : Nat) (f : Grp → Grp) : (s.updGrp g f).regions = s.regions := rfl
@[simp] theorem State.updGrp_evNow (s : State) (g : Nat) (f : Grp → Grp) : (s.updGrp g f).evNow = s.evNow := rfl
@[simp] theorem State.updGrp_evLive (s : State) (g : Nat) (f : Grp → Grp) : (s.updGrp g f).evLive = s.evLive := rfl
@[simp] theorem State.updGrp_evTotal (s : State) (g : Nat) (f : Grp → Grp) : (s.updGrp g f).evTotal = s.evTotal := rfl
@[simp] theorem State.updGrp_evSwept (s : State) (g : Nat) (f : Grp → Grp) : (s.updGrp g f).evSwept = s.evSwept := rfl
@[simp] theorem State.updGrp_reply (s : State) (g : Nat) (f : Grp → Grp) : (s.updGrp g f).reply = s.reply := rfl

@[simp] theorem State.dropGrp_agenda (s : State) (g : Nat) : (s.dropGrp g).agenda = s.agenda := rfl
@[simp] theorem State.dropGrp_current (s : State) (g : Nat) : (s.dropGrp g).current = s.current := rfl
@[simp] theorem State.dropGrp_freeCtr (s : State) (g : Nat) : (s.dropGrp g).freeCtr = s.freeCtr := rfl
@[simp] theorem State.dropGrp_nextId (s : State) (g : Nat) : (s.dropGrp g).nextId = s.nextId := rfl
@[simp] theorem State.dropGrp_bootStep (s : State) (g : Nat) : (s.dropGrp g).bootStep = s.bootStep := rfl
@[simp] theorem State.dropGrp_bootFail (s : State) (g : Nat) : (s.dropGrp g).bootFail = s.bootFail := rfl
@[simp] theorem State.dropGrp_hub (s : State) (g : Nat) : (s.dropGrp g).hub = s.hub := rfl
@[simp] theorem State.dropGrp_hubPhase (s : State) (g : Nat) : (s.dropGrp g).hubPhase = s.hubPhase := rfl
@[simp] theorem State.dropGrp_hubCounter (s : State) (g : Nat) : (s.dropGrp g).hubCounter = s.hubCounter := rfl
@[simp] theorem State.dropGrp_scPackage (s : State) (g : Nat) : (s.dropGrp g).scPackage = s.scPackage := rfl
@[simp] theorem State.dropGrp_scFabric (s : State) (g : Nat) : (s.dropGrp g).scFabric = s.scFabric := rfl
@[simp] theorem State.dropGrp_wdesc (s : State) (g : Nat) : (s.dropGrp g).wdesc = s.wdesc := rfl
@[simp] theorem State.dropGrp_evsel (s : State) (g : Nat) : (s.dropGrp g).evsel = s.evsel := rfl
@[simp] theorem State.dropGrp_evctl (s : State) (g : Nat) : (s.dropGrp g).evctl = s.evctl := rfl
@[simp] theorem State.dropGrp_govFix (s : State) (g : Nat) : (s.dropGrp g).govFix = s.govFix := rfl
@[simp] theorem State.dropGrp_govFreq (s : State) (g : Nat) : (s.dropGrp g).govFreq = s.govFreq := rfl
@[simp] theorem State.dropGrp_pwrcap (s : State) (g : Nat) : (s.dropGrp g).pwrcap = s.pwrcap := rfl
@[simp] theorem State.dropGrp_fabId (s : State) (g : Nat) : (s.dropGrp g).fabId = s.fabId := rfl
@[simp] theorem State.dropGrp_downLinks (s : State) (g : Nat) : (s.dropGrp g).downLinks = s.downLinks := rfl
@[simp] theorem State.dropGrp_routes (s : State) (g : Nat) : (s.dropGrp g).routes = s.routes := rfl
@[simp] theorem State.dropGrp_arBump (s : State) (g : Nat) : (s.dropGrp g).arBump = s.arBump := rfl
@[simp] theorem State.dropGrp_arMin (s : State) (g : Nat) : (s.dropGrp g).arMin = s.arMin := rfl
@[simp] theorem State.dropGrp_verified (s : State) (g : Nat) : (s.dropGrp g).verified = s.verified := rfl
@[simp] theorem State.dropGrp_images (s : State) (g : Nat) : (s.dropGrp g).images = s.images := rfl
@[simp] theorem State.dropGrp_loadResult (s : State) (g : Nat) : (s.dropGrp g).loadResult = s.loadResult := rfl
@[simp] theorem State.dropGrp_loadSite (s : State) (g : Nat) : (s.dropGrp g).loadSite = s.loadSite := rfl
@[simp] theorem State.dropGrp_dies (s : State) (g : Nat) : (s.dropGrp g).dies = s.dies := rfl
@[simp] theorem State.dropGrp_cores (s : State) (g : Nat) : (s.dropGrp g).cores = s.cores := rfl
@[simp] theorem State.dropGrp_quads (s : State) (g : Nat) : (s.dropGrp g).quads = s.quads := rfl
@[simp] theorem State.dropGrp_lanes (s : State) (g : Nat) : (s.dropGrp g).lanes = s.lanes := rfl
@[simp] theorem State.dropGrp_chans (s : State) (g : Nat) : (s.dropGrp g).chans = s.chans := rfl
@[simp] theorem State.dropGrp_sys (s : State) (g : Nat) : (s.dropGrp g).sys = s.sys := rfl
@[simp] theorem State.dropGrp_tenants (s : State) (g : Nat) : (s.dropGrp g).tenants = s.tenants := rfl
@[simp] theorem State.dropGrp_queues (s : State) (g : Nat) : (s.dropGrp g).queues = s.queues := rfl
@[simp] theorem State.dropGrp_lastQueue (s : State) (g : Nat) : (s.dropGrp g).lastQueue = s.lastQueue := rfl
@[simp] theorem State.dropGrp_cpNext (s : State) (g : Nat) : (s.dropGrp g).cpNext = s.cpNext := rfl
@[simp] theorem State.dropGrp_level2 (s : State) (g : Nat) : (s.dropGrp g).level2 = s.level2 := rfl
@[simp] theorem State.dropGrp_level3 (s : State) (g : Nat) : (s.dropGrp g).level3 = s.level3 := rfl
@[simp] theorem State.dropGrp_launches (s : State) (g : Nat) : (s.dropGrp g).launches = s.launches := rfl
@[simp] theorem State.dropGrp_rollbacks (s : State) (g : Nat) : (s.dropGrp g).rollbacks = s.rollbacks := rfl
@[simp] theorem State.dropGrp_doneUses (s : State) (g : Nat) : (s.dropGrp g).doneUses = s.doneUses := rfl
@[simp] theorem State.dropGrp_teams (s : State) (g : Nat) : (s.dropGrp g).teams = s.teams := rfl
@[simp] theorem State.dropGrp_ops (s : State) (g : Nat) : (s.dropGrp g).ops = s.ops := rfl
@[simp] theorem State.dropGrp_mem (s : State) (g : Nat) : (s.dropGrp g).mem = s.mem := rfl
@[simp] theorem State.dropGrp_outMem (s : State) (g : Nat) : (s.dropGrp g).outMem = s.outMem := rfl
@[simp] theorem State.dropGrp_poison (s : State) (g : Nat) : (s.dropGrp g).poison = s.poison := rfl
@[simp] theorem State.dropGrp_flips (s : State) (g : Nat) : (s.dropGrp g).flips = s.flips := rfl
@[simp] theorem State.dropGrp_forms (s : State) (g : Nat) : (s.dropGrp g).forms = s.forms := rfl
@[simp] theorem State.dropGrp_clks (s : State) (g : Nat) : (s.dropGrp g).clks = s.clks := rfl
@[simp] theorem State.dropGrp_writes (s : State) (g : Nat) : (s.dropGrp g).writes = s.writes := rfl
@[simp] theorem State.dropGrp_watermark (s : State) (g : Nat) : (s.dropGrp g).watermark = s.watermark := rfl
@[simp] theorem State.dropGrp_moorings (s : State) (g : Nat) : (s.dropGrp g).moorings = s.moorings := rfl
@[simp] theorem State.dropGrp_pushes (s : State) (g : Nat) : (s.dropGrp g).pushes = s.pushes := rfl
@[simp] theorem State.dropGrp_regions (s : State) (g : Nat) : (s.dropGrp g).regions = s.regions := rfl
@[simp] theorem State.dropGrp_evNow (s : State) (g : Nat) : (s.dropGrp g).evNow = s.evNow := rfl
@[simp] theorem State.dropGrp_evLive (s : State) (g : Nat) : (s.dropGrp g).evLive = s.evLive := rfl
@[simp] theorem State.dropGrp_evTotal (s : State) (g : Nat) : (s.dropGrp g).evTotal = s.evTotal := rfl
@[simp] theorem State.dropGrp_evSwept (s : State) (g : Nat) : (s.dropGrp g).evSwept = s.evSwept := rfl
@[simp] theorem State.dropGrp_reply (s : State) (g : Nat) : (s.dropGrp g).reply = s.reply := rfl

@[simp] theorem State.updOp_agenda (s : State) (o : Nat) (f : Op → Op) : (s.updOp o f).agenda = s.agenda := rfl
@[simp] theorem State.updOp_current (s : State) (o : Nat) (f : Op → Op) : (s.updOp o f).current = s.current := rfl
@[simp] theorem State.updOp_freeCtr (s : State) (o : Nat) (f : Op → Op) : (s.updOp o f).freeCtr = s.freeCtr := rfl
@[simp] theorem State.updOp_nextId (s : State) (o : Nat) (f : Op → Op) : (s.updOp o f).nextId = s.nextId := rfl
@[simp] theorem State.updOp_bootStep (s : State) (o : Nat) (f : Op → Op) : (s.updOp o f).bootStep = s.bootStep := rfl
@[simp] theorem State.updOp_bootFail (s : State) (o : Nat) (f : Op → Op) : (s.updOp o f).bootFail = s.bootFail := rfl
@[simp] theorem State.updOp_hub (s : State) (o : Nat) (f : Op → Op) : (s.updOp o f).hub = s.hub := rfl
@[simp] theorem State.updOp_hubPhase (s : State) (o : Nat) (f : Op → Op) : (s.updOp o f).hubPhase = s.hubPhase := rfl
@[simp] theorem State.updOp_hubCounter (s : State) (o : Nat) (f : Op → Op) : (s.updOp o f).hubCounter = s.hubCounter := rfl
@[simp] theorem State.updOp_scPackage (s : State) (o : Nat) (f : Op → Op) : (s.updOp o f).scPackage = s.scPackage := rfl
@[simp] theorem State.updOp_scFabric (s : State) (o : Nat) (f : Op → Op) : (s.updOp o f).scFabric = s.scFabric := rfl
@[simp] theorem State.updOp_wdesc (s : State) (o : Nat) (f : Op → Op) : (s.updOp o f).wdesc = s.wdesc := rfl
@[simp] theorem State.updOp_evsel (s : State) (o : Nat) (f : Op → Op) : (s.updOp o f).evsel = s.evsel := rfl
@[simp] theorem State.updOp_evctl (s : State) (o : Nat) (f : Op → Op) : (s.updOp o f).evctl = s.evctl := rfl
@[simp] theorem State.updOp_govFix (s : State) (o : Nat) (f : Op → Op) : (s.updOp o f).govFix = s.govFix := rfl
@[simp] theorem State.updOp_govFreq (s : State) (o : Nat) (f : Op → Op) : (s.updOp o f).govFreq = s.govFreq := rfl
@[simp] theorem State.updOp_pwrcap (s : State) (o : Nat) (f : Op → Op) : (s.updOp o f).pwrcap = s.pwrcap := rfl
@[simp] theorem State.updOp_fabId (s : State) (o : Nat) (f : Op → Op) : (s.updOp o f).fabId = s.fabId := rfl
@[simp] theorem State.updOp_downLinks (s : State) (o : Nat) (f : Op → Op) : (s.updOp o f).downLinks = s.downLinks := rfl
@[simp] theorem State.updOp_routes (s : State) (o : Nat) (f : Op → Op) : (s.updOp o f).routes = s.routes := rfl
@[simp] theorem State.updOp_arBump (s : State) (o : Nat) (f : Op → Op) : (s.updOp o f).arBump = s.arBump := rfl
@[simp] theorem State.updOp_arMin (s : State) (o : Nat) (f : Op → Op) : (s.updOp o f).arMin = s.arMin := rfl
@[simp] theorem State.updOp_verified (s : State) (o : Nat) (f : Op → Op) : (s.updOp o f).verified = s.verified := rfl
@[simp] theorem State.updOp_images (s : State) (o : Nat) (f : Op → Op) : (s.updOp o f).images = s.images := rfl
@[simp] theorem State.updOp_loadResult (s : State) (o : Nat) (f : Op → Op) : (s.updOp o f).loadResult = s.loadResult := rfl
@[simp] theorem State.updOp_loadSite (s : State) (o : Nat) (f : Op → Op) : (s.updOp o f).loadSite = s.loadSite := rfl
@[simp] theorem State.updOp_dies (s : State) (o : Nat) (f : Op → Op) : (s.updOp o f).dies = s.dies := rfl
@[simp] theorem State.updOp_cores (s : State) (o : Nat) (f : Op → Op) : (s.updOp o f).cores = s.cores := rfl
@[simp] theorem State.updOp_quads (s : State) (o : Nat) (f : Op → Op) : (s.updOp o f).quads = s.quads := rfl
@[simp] theorem State.updOp_lanes (s : State) (o : Nat) (f : Op → Op) : (s.updOp o f).lanes = s.lanes := rfl
@[simp] theorem State.updOp_chans (s : State) (o : Nat) (f : Op → Op) : (s.updOp o f).chans = s.chans := rfl
@[simp] theorem State.updOp_sys (s : State) (o : Nat) (f : Op → Op) : (s.updOp o f).sys = s.sys := rfl
@[simp] theorem State.updOp_tenants (s : State) (o : Nat) (f : Op → Op) : (s.updOp o f).tenants = s.tenants := rfl
@[simp] theorem State.updOp_queues (s : State) (o : Nat) (f : Op → Op) : (s.updOp o f).queues = s.queues := rfl
@[simp] theorem State.updOp_lastQueue (s : State) (o : Nat) (f : Op → Op) : (s.updOp o f).lastQueue = s.lastQueue := rfl
@[simp] theorem State.updOp_cpNext (s : State) (o : Nat) (f : Op → Op) : (s.updOp o f).cpNext = s.cpNext := rfl
@[simp] theorem State.updOp_level2 (s : State) (o : Nat) (f : Op → Op) : (s.updOp o f).level2 = s.level2 := rfl
@[simp] theorem State.updOp_level3 (s : State) (o : Nat) (f : Op → Op) : (s.updOp o f).level3 = s.level3 := rfl
@[simp] theorem State.updOp_launches (s : State) (o : Nat) (f : Op → Op) : (s.updOp o f).launches = s.launches := rfl
@[simp] theorem State.updOp_rollbacks (s : State) (o : Nat) (f : Op → Op) : (s.updOp o f).rollbacks = s.rollbacks := rfl
@[simp] theorem State.updOp_doneUses (s : State) (o : Nat) (f : Op → Op) : (s.updOp o f).doneUses = s.doneUses := rfl
@[simp] theorem State.updOp_teams (s : State) (o : Nat) (f : Op → Op) : (s.updOp o f).teams = s.teams := rfl
@[simp] theorem State.updOp_groups (s : State) (o : Nat) (f : Op → Op) : (s.updOp o f).groups = s.groups := rfl
@[simp] theorem State.updOp_mem (s : State) (o : Nat) (f : Op → Op) : (s.updOp o f).mem = s.mem := rfl
@[simp] theorem State.updOp_outMem (s : State) (o : Nat) (f : Op → Op) : (s.updOp o f).outMem = s.outMem := rfl
@[simp] theorem State.updOp_poison (s : State) (o : Nat) (f : Op → Op) : (s.updOp o f).poison = s.poison := rfl
@[simp] theorem State.updOp_flips (s : State) (o : Nat) (f : Op → Op) : (s.updOp o f).flips = s.flips := rfl
@[simp] theorem State.updOp_forms (s : State) (o : Nat) (f : Op → Op) : (s.updOp o f).forms = s.forms := rfl
@[simp] theorem State.updOp_clks (s : State) (o : Nat) (f : Op → Op) : (s.updOp o f).clks = s.clks := rfl
@[simp] theorem State.updOp_writes (s : State) (o : Nat) (f : Op → Op) : (s.updOp o f).writes = s.writes := rfl
@[simp] theorem State.updOp_watermark (s : State) (o : Nat) (f : Op → Op) : (s.updOp o f).watermark = s.watermark := rfl
@[simp] theorem State.updOp_moorings (s : State) (o : Nat) (f : Op → Op) : (s.updOp o f).moorings = s.moorings := rfl
@[simp] theorem State.updOp_pushes (s : State) (o : Nat) (f : Op → Op) : (s.updOp o f).pushes = s.pushes := rfl
@[simp] theorem State.updOp_regions (s : State) (o : Nat) (f : Op → Op) : (s.updOp o f).regions = s.regions := rfl
@[simp] theorem State.updOp_evNow (s : State) (o : Nat) (f : Op → Op) : (s.updOp o f).evNow = s.evNow := rfl
@[simp] theorem State.updOp_evLive (s : State) (o : Nat) (f : Op → Op) : (s.updOp o f).evLive = s.evLive := rfl
@[simp] theorem State.updOp_evTotal (s : State) (o : Nat) (f : Op → Op) : (s.updOp o f).evTotal = s.evTotal := rfl
@[simp] theorem State.updOp_evSwept (s : State) (o : Nat) (f : Op → Op) : (s.updOp o f).evSwept = s.evSwept := rfl
@[simp] theorem State.updOp_reply (s : State) (o : Nat) (f : Op → Op) : (s.updOp o f).reply = s.reply := rfl

@[simp] theorem State.updRegion_agenda (s : State) (r : RegionId) (f : Region → Region) : (s.updRegion r f).agenda = s.agenda := rfl
@[simp] theorem State.updRegion_current (s : State) (r : RegionId) (f : Region → Region) : (s.updRegion r f).current = s.current := rfl
@[simp] theorem State.updRegion_freeCtr (s : State) (r : RegionId) (f : Region → Region) : (s.updRegion r f).freeCtr = s.freeCtr := rfl
@[simp] theorem State.updRegion_nextId (s : State) (r : RegionId) (f : Region → Region) : (s.updRegion r f).nextId = s.nextId := rfl
@[simp] theorem State.updRegion_bootStep (s : State) (r : RegionId) (f : Region → Region) : (s.updRegion r f).bootStep = s.bootStep := rfl
@[simp] theorem State.updRegion_bootFail (s : State) (r : RegionId) (f : Region → Region) : (s.updRegion r f).bootFail = s.bootFail := rfl
@[simp] theorem State.updRegion_hub (s : State) (r : RegionId) (f : Region → Region) : (s.updRegion r f).hub = s.hub := rfl
@[simp] theorem State.updRegion_hubPhase (s : State) (r : RegionId) (f : Region → Region) : (s.updRegion r f).hubPhase = s.hubPhase := rfl
@[simp] theorem State.updRegion_hubCounter (s : State) (r : RegionId) (f : Region → Region) : (s.updRegion r f).hubCounter = s.hubCounter := rfl
@[simp] theorem State.updRegion_scPackage (s : State) (r : RegionId) (f : Region → Region) : (s.updRegion r f).scPackage = s.scPackage := rfl
@[simp] theorem State.updRegion_scFabric (s : State) (r : RegionId) (f : Region → Region) : (s.updRegion r f).scFabric = s.scFabric := rfl
@[simp] theorem State.updRegion_wdesc (s : State) (r : RegionId) (f : Region → Region) : (s.updRegion r f).wdesc = s.wdesc := rfl
@[simp] theorem State.updRegion_evsel (s : State) (r : RegionId) (f : Region → Region) : (s.updRegion r f).evsel = s.evsel := rfl
@[simp] theorem State.updRegion_evctl (s : State) (r : RegionId) (f : Region → Region) : (s.updRegion r f).evctl = s.evctl := rfl
@[simp] theorem State.updRegion_govFix (s : State) (r : RegionId) (f : Region → Region) : (s.updRegion r f).govFix = s.govFix := rfl
@[simp] theorem State.updRegion_govFreq (s : State) (r : RegionId) (f : Region → Region) : (s.updRegion r f).govFreq = s.govFreq := rfl
@[simp] theorem State.updRegion_pwrcap (s : State) (r : RegionId) (f : Region → Region) : (s.updRegion r f).pwrcap = s.pwrcap := rfl
@[simp] theorem State.updRegion_fabId (s : State) (r : RegionId) (f : Region → Region) : (s.updRegion r f).fabId = s.fabId := rfl
@[simp] theorem State.updRegion_downLinks (s : State) (r : RegionId) (f : Region → Region) : (s.updRegion r f).downLinks = s.downLinks := rfl
@[simp] theorem State.updRegion_routes (s : State) (r : RegionId) (f : Region → Region) : (s.updRegion r f).routes = s.routes := rfl
@[simp] theorem State.updRegion_arBump (s : State) (r : RegionId) (f : Region → Region) : (s.updRegion r f).arBump = s.arBump := rfl
@[simp] theorem State.updRegion_arMin (s : State) (r : RegionId) (f : Region → Region) : (s.updRegion r f).arMin = s.arMin := rfl
@[simp] theorem State.updRegion_verified (s : State) (r : RegionId) (f : Region → Region) : (s.updRegion r f).verified = s.verified := rfl
@[simp] theorem State.updRegion_images (s : State) (r : RegionId) (f : Region → Region) : (s.updRegion r f).images = s.images := rfl
@[simp] theorem State.updRegion_loadResult (s : State) (r : RegionId) (f : Region → Region) : (s.updRegion r f).loadResult = s.loadResult := rfl
@[simp] theorem State.updRegion_loadSite (s : State) (r : RegionId) (f : Region → Region) : (s.updRegion r f).loadSite = s.loadSite := rfl
@[simp] theorem State.updRegion_dies (s : State) (r : RegionId) (f : Region → Region) : (s.updRegion r f).dies = s.dies := rfl
@[simp] theorem State.updRegion_cores (s : State) (r : RegionId) (f : Region → Region) : (s.updRegion r f).cores = s.cores := rfl
@[simp] theorem State.updRegion_quads (s : State) (r : RegionId) (f : Region → Region) : (s.updRegion r f).quads = s.quads := rfl
@[simp] theorem State.updRegion_lanes (s : State) (r : RegionId) (f : Region → Region) : (s.updRegion r f).lanes = s.lanes := rfl
@[simp] theorem State.updRegion_chans (s : State) (r : RegionId) (f : Region → Region) : (s.updRegion r f).chans = s.chans := rfl
@[simp] theorem State.updRegion_sys (s : State) (r : RegionId) (f : Region → Region) : (s.updRegion r f).sys = s.sys := rfl
@[simp] theorem State.updRegion_tenants (s : State) (r : RegionId) (f : Region → Region) : (s.updRegion r f).tenants = s.tenants := rfl
@[simp] theorem State.updRegion_queues (s : State) (r : RegionId) (f : Region → Region) : (s.updRegion r f).queues = s.queues := rfl
@[simp] theorem State.updRegion_lastQueue (s : State) (r : RegionId) (f : Region → Region) : (s.updRegion r f).lastQueue = s.lastQueue := rfl
@[simp] theorem State.updRegion_cpNext (s : State) (r : RegionId) (f : Region → Region) : (s.updRegion r f).cpNext = s.cpNext := rfl
@[simp] theorem State.updRegion_level2 (s : State) (r : RegionId) (f : Region → Region) : (s.updRegion r f).level2 = s.level2 := rfl
@[simp] theorem State.updRegion_level3 (s : State) (r : RegionId) (f : Region → Region) : (s.updRegion r f).level3 = s.level3 := rfl
@[simp] theorem State.updRegion_launches (s : State) (r : RegionId) (f : Region → Region) : (s.updRegion r f).launches = s.launches := rfl
@[simp] theorem State.updRegion_rollbacks (s : State) (r : RegionId) (f : Region → Region) : (s.updRegion r f).rollbacks = s.rollbacks := rfl
@[simp] theorem State.updRegion_doneUses (s : State) (r : RegionId) (f : Region → Region) : (s.updRegion r f).doneUses = s.doneUses := rfl
@[simp] theorem State.updRegion_teams (s : State) (r : RegionId) (f : Region → Region) : (s.updRegion r f).teams = s.teams := rfl
@[simp] theorem State.updRegion_groups (s : State) (r : RegionId) (f : Region → Region) : (s.updRegion r f).groups = s.groups := rfl
@[simp] theorem State.updRegion_ops (s : State) (r : RegionId) (f : Region → Region) : (s.updRegion r f).ops = s.ops := rfl
@[simp] theorem State.updRegion_mem (s : State) (r : RegionId) (f : Region → Region) : (s.updRegion r f).mem = s.mem := rfl
@[simp] theorem State.updRegion_outMem (s : State) (r : RegionId) (f : Region → Region) : (s.updRegion r f).outMem = s.outMem := rfl
@[simp] theorem State.updRegion_poison (s : State) (r : RegionId) (f : Region → Region) : (s.updRegion r f).poison = s.poison := rfl
@[simp] theorem State.updRegion_flips (s : State) (r : RegionId) (f : Region → Region) : (s.updRegion r f).flips = s.flips := rfl
@[simp] theorem State.updRegion_forms (s : State) (r : RegionId) (f : Region → Region) : (s.updRegion r f).forms = s.forms := rfl
@[simp] theorem State.updRegion_clks (s : State) (r : RegionId) (f : Region → Region) : (s.updRegion r f).clks = s.clks := rfl
@[simp] theorem State.updRegion_writes (s : State) (r : RegionId) (f : Region → Region) : (s.updRegion r f).writes = s.writes := rfl
@[simp] theorem State.updRegion_watermark (s : State) (r : RegionId) (f : Region → Region) : (s.updRegion r f).watermark = s.watermark := rfl
@[simp] theorem State.updRegion_moorings (s : State) (r : RegionId) (f : Region → Region) : (s.updRegion r f).moorings = s.moorings := rfl
@[simp] theorem State.updRegion_pushes (s : State) (r : RegionId) (f : Region → Region) : (s.updRegion r f).pushes = s.pushes := rfl
@[simp] theorem State.updRegion_evNow (s : State) (r : RegionId) (f : Region → Region) : (s.updRegion r f).evNow = s.evNow := rfl
@[simp] theorem State.updRegion_evLive (s : State) (r : RegionId) (f : Region → Region) : (s.updRegion r f).evLive = s.evLive := rfl
@[simp] theorem State.updRegion_evTotal (s : State) (r : RegionId) (f : Region → Region) : (s.updRegion r f).evTotal = s.evTotal := rfl
@[simp] theorem State.updRegion_evSwept (s : State) (r : RegionId) (f : Region → Region) : (s.updRegion r f).evSwept = s.evSwept := rfl
@[simp] theorem State.updRegion_reply (s : State) (r : RegionId) (f : Region → Region) : (s.updRegion r f).reply = s.reply := rfl

end Sys2Proof.Machine
end

