-- ==== Sys2Proof/Laws/Store.lean ====
section
/-! SUPPORT. The laws of a Store in its canonical form: reads after writes, and that every operation keeps the form. -/
namespace Sys2Proof.Machine

section
variable {α : Type} [DecidableEq α] {z : α}

theorem Store.wfFrom_mono {m : Store α} {lo lo' : Nat} (h : lo' ≤ lo) (hw : Store.wfFrom z lo m = true) : Store.wfFrom z lo' m = true := by
  cases m with
  | nil => rfl
  | cons e r =>
    obtain ⟨k, v⟩ := e
    simp only [Store.wfFrom, Bool.and_eq_true, decide_eq_true_eq] at hw ⊢
    exact ⟨⟨by omega, hw.1.2⟩, hw.2⟩

theorem Store.wf_of_wfFrom {m : Store α} {lo : Nat} (hw : Store.wfFrom z lo m = true) : Store.wf z m = true :=
  Store.wfFrom_mono (Nat.zero_le lo) hw

/-- A key below the bound of the form is not listed. -/
theorem Store.get_below {m : Store α} {lo i : Nat} (hw : Store.wfFrom z lo m = true) (h : i < lo) : Store.get z m i = z := by
  cases m with
  | nil => rfl
  | cons e r =>
    obtain ⟨k, v⟩ := e
    simp only [Store.wfFrom, Bool.and_eq_true, decide_eq_true_eq] at hw
    have h1 : i ≠ k := by omega
    have h2 : i < k := by omega
    simp [Store.get, h1, h2]

/-- A write keeps the form. -/
theorem Store.wfFrom_set {m : Store α} {lo i : Nat} {x : α} (hw : Store.wfFrom z lo m = true) (h : lo ≤ i) :
    Store.wfFrom z lo (Store.set z m i x) = true := by
  induction m generalizing lo with
  | nil => by_cases hx : x = z <;> simp [Store.set, Store.wfFrom, hx, h]
  | cons e r ih =>
    obtain ⟨k, v⟩ := e
    simp only [Store.wfFrom, Bool.and_eq_true, decide_eq_true_eq] at hw
    obtain ⟨⟨hk, hv⟩, hr⟩ := hw
    by_cases h1 : i < k
    · have hr' : Store.wfFrom z (k + 1) r = true := hr
      by_cases hx : x = z
      · simp [Store.set, h1, hx, Store.wfFrom, hk, hv, hr]
      · simp [Store.set, h1, hx, Store.wfFrom, h, hv, hr', show i + 1 ≤ k by omega]
    · by_cases h2 : i = k
      · subst h2
        by_cases hx : x = z
        · simp only [Store.set, hx, Nat.lt_irrefl, if_false, if_true]
          exact Store.wfFrom_mono (by omega) hr
        · simp [Store.set, hx, Store.wfFrom, h, hr]
      · simp only [Store.set, h1, h2, if_false, Store.wfFrom, Bool.and_eq_true, decide_eq_true_eq]
        exact ⟨⟨hk, hv⟩, ih hr (by omega)⟩

theorem Store.wf_set {m : Store α} (i : Nat) (x : α) (hw : Store.wf z m = true) : Store.wf z (Store.set z m i x) = true :=
  Store.wfFrom_set hw (Nat.zero_le i)

theorem Store.wf_upd {m : Store α} (i : Nat) (f : α → α) (hw : Store.wf z m = true) : Store.wf z (Store.upd z m i f) = true :=
  Store.wf_set i _ hw

/-- A read after a write to the same key gives the value written. -/
theorem Store.get_set_self {m : Store α} {i : Nat} {x : α} (hw : Store.wf z m = true) : Store.get z (Store.set z m i x) i = x := by
  suffices ∀ lo, Store.wfFrom z lo m = true → Store.get z (Store.set z m i x) i = x from this 0 hw
  clear hw
  induction m with
  | nil => intro lo _; by_cases hx : x = z <;> simp [Store.set, Store.get, hx]
  | cons e r ih =>
    intro lo hw
    obtain ⟨k, v⟩ := e
    simp only [Store.wfFrom, Bool.and_eq_true, decide_eq_true_eq] at hw
    obtain ⟨⟨hk, hv⟩, hr⟩ := hw
    by_cases h1 : i < k
    · by_cases hx : x = z
      · simp [Store.set, h1, hx, Store.get, Nat.ne_of_lt h1]
      · simp [Store.set, h1, hx, Store.get]
    · by_cases h2 : i = k
      · subst h2
        by_cases hx : x = z
        · simp only [Store.set, hx, Nat.lt_irrefl, if_false, if_true]
          exact Store.get_below hr (by omega)
        · simp [Store.set, hx, Store.get]
      · simp only [Store.set, Store.get, h1, h2, if_false]
        exact ih (k + 1) hr

/-- A write leaves every other key as it was. -/
theorem Store.get_set_ne {m : Store α} {i j : Nat} {x : α} (hw : Store.wf z m = true) (hij : j ≠ i) :
    Store.get z (Store.set z m i x) j = Store.get z m j := by
  suffices ∀ lo, Store.wfFrom z lo m = true → Store.get z (Store.set z m i x) j = Store.get z m j from this 0 hw
  clear hw
  induction m with
  | nil =>
    intro lo _
    by_cases hx : x = z <;> simp [Store.set, Store.get, hx, hij]
  | cons e r ih =>
    intro lo hw
    obtain ⟨k, v⟩ := e
    simp only [Store.wfFrom, Bool.and_eq_true, decide_eq_true_eq] at hw
    obtain ⟨⟨hk, hv⟩, hr⟩ := hw
    by_cases h1 : i < k
    · by_cases hx : x = z
      · simp [Store.set, h1, hx]
      · simp only [Store.set, h1, hx, if_true, if_false, Store.get, hij]
        by_cases h3 : j < i
        · have h4 : j ≠ k := by omega
          have h5 : j < k := by omega
          simp [h3, h4, h5]
        · simp [h3]
    · by_cases h2 : i = k
      · subst h2
        by_cases hx : x = z
        · simp only [Store.set, hx, Nat.lt_irrefl, if_false, if_true, Store.get, hij]
          by_cases h3 : j < i
          · simp only [h3, if_true]
            exact Store.get_below hr (by omega)
          · simp [h3]
        · simp [Store.set, hx, Store.get, hij]
      · simp only [Store.set, Store.get, h1, h2, if_false]
        rw [ih (k + 1) hr]

theorem Store.get_set {m : Store α} {i j : Nat} {x : α} (hw : Store.wf z m = true) :
    Store.get z (Store.set z m i x) j = if j = i then x else Store.get z m j := by
  by_cases h : j = i
  · subst h; simp [Store.get_set_self hw]
  · simp [h, Store.get_set_ne hw h]

/-- Dropping entries keeps the form. -/
theorem Store.wfFrom_filter {m : Store α} {lo : Nat} (p : Nat × α → Bool) (hw : Store.wfFrom z lo m = true) :
    Store.wfFrom z lo (m.filter p) = true := by
  induction m generalizing lo with
  | nil => rfl
  | cons e r ih =>
    obtain ⟨k, v⟩ := e
    simp only [Store.wfFrom, Bool.and_eq_true, decide_eq_true_eq] at hw
    obtain ⟨⟨hk, hv⟩, hr⟩ := hw
    by_cases hp : p (k, v) = true
    · simp only [List.filter, hp, Store.wfFrom, Bool.and_eq_true, decide_eq_true_eq]
      exact ⟨⟨hk, hv⟩, ih hr⟩
    · simp only [List.filter, hp]
      exact Store.wfFrom_mono (by omega) (ih hr)

theorem Store.wf_filter {m : Store α} (p : Nat × α → Bool) (hw : Store.wf z m = true) : Store.wf z (m.filter p) = true :=
  Store.wfFrom_filter p hw

theorem Store.wf_dropKeys {m : Store α} (p : Nat → Bool) (hw : Store.wf z m = true) : Store.wf z (Store.dropKeys m p) = true :=
  Store.wf_filter _ hw

/-- Writing a list of entries keeps the form. -/
theorem Store.wf_foldr_set {m : Store α} (es : List (Nat × α)) (hw : Store.wf z m = true) :
    Store.wf z (es.foldr (fun e r => Store.set z r e.1 e.2) m) = true := by
  induction es with
  | nil => exact hw
  | cons e r ih => exact Store.wf_set _ _ ih

theorem Store.wf_splice {m : Store α} (lo hi : Nat) (es : Store α) (hw : Store.wf z m = true) : Store.wf z (Store.splice z m lo hi es) = true :=
  Store.wf_foldr_set _ (Store.wf_filter _ hw)

end

/-! ### Bytes -/

theorem wf_writeBytes {m : Store Byte} (a : Nat) (bs : List Byte) (hw : Memory.wf m = true) : Memory.wf (writeBytes m a bs) = true := by
  induction bs generalizing m a with
  | nil => exact hw
  | cons b r ih => exact ih _ (Store.wf_set _ _ hw)

/-- A byte after a write of some bytes: the byte written there, or what stood there. -/
theorem get_writeBytes {m : Store Byte} (a : Nat) (bs : List Byte) (j : Nat) (hw : Memory.wf m = true) :
    Store.get 0 (writeBytes m a bs) j = if a ≤ j ∧ j < a + bs.length then bs.getD (j - a) 0 else Store.get 0 m j := by
  induction bs generalizing m a with
  | nil =>
    have : ¬ (a ≤ j ∧ j < a + ([] : List Byte).length) := by simp
    simp only [writeBytes, this, if_false]
  | cons b r ih =>
    have hw' : Memory.wf (Store.set 0 m a b) = true := Store.wf_set a b hw
    simp only [writeBytes, ih (a + 1) hw', Store.get_set hw, List.length_cons]
    by_cases h : j = a
    · subst h
      have h0 : ¬ (j + 1 ≤ j ∧ j < j + 1 + r.length) := by omega
      rw [if_neg h0, if_pos rfl, if_pos (by omega)]
      simp
    · by_cases h1 : a + 1 ≤ j ∧ j < a + 1 + r.length
      · have h2 : a ≤ j ∧ j < a + (r.length + 1) := by omega
        simp only [h1, h2, and_self, if_true]
        obtain ⟨n, rfl⟩ : ∃ n, j = a + 1 + n := ⟨j - (a + 1), by omega⟩
        simp [show a + 1 + n - (a + 1) = n by omega, show a + 1 + n - a = n + 1 by omega]
      · have h2 : ¬ (a ≤ j ∧ j < a + (r.length + 1)) := by omega
        rw [if_neg h1, if_neg h2, if_neg h]

/-- What a written range reads as. -/
theorem readBytes_writeBytes {m : Store Byte} (a : Nat) (bs : List Byte) (hw : Memory.wf m = true) :
    readBytes (writeBytes m a bs) a bs.length = bs := by
  suffices ∀ (k : Nat) (ds : List Byte), (∀ i, i < ds.length → k + i - a < bs.length ∧ a ≤ k ∧ bs.getD (k + i - a) 0 = ds.getD i 0) →
      readBytes (writeBytes m a bs) k ds.length = ds from
    this a bs fun i hi => ⟨by omega, Nat.le_refl a, by simp⟩
  intro k ds
  induction ds generalizing k with
  | nil => intro _; rfl
  | cons d r ih =>
    intro h
    have h0 := h 0 (by simp)
    simp only [List.length_cons, readBytes]
    congr 1
    · rw [get_writeBytes a bs k hw]
      have h3 : a ≤ k ∧ k < a + bs.length := by omega
      simpa [h3] using h0.2.2
    · refine ih (k + 1) fun i hi => ?_
      have h4 := h (i + 1) (by simpa using hi)
      refine ⟨by omega, by omega, ?_⟩
      simpa [Nat.add_assoc, Nat.add_comm 1 i] using h4.2.2

/-- A physical byte written by its home keeps the memory's form. -/
theorem State.wf_setPhys (s : State) (k : Nat) (b : Byte) (hw : Memory.wf s.mem = true) : Memory.wf (s.setPhys k b).mem = true := by
  unfold State.setPhys
  split
  · split
    · exact hw
    · exact Store.wf_set _ _ hw
  · exact hw

/-- Module memory lists nothing after reset, which is the canonical form. -/
theorem reset_mem_wf : Memory.wf State.reset.mem = true := rfl

end Sys2Proof.Machine
end

