-- ==== Sys2Proof/Laws/Memory.lean ====
section
/-! SUPPORT. Every operation that changes the module's memory keeps its canonical form. -/
namespace Sys2Proof.Machine

/-- The memory of a state is in its canonical form. -/
abbrev State.memOk (s : State) : Prop := Memory.wf s.mem = true

theorem foldl_memOk {β : Type} (f : State → β → State) (hf : ∀ s x, s.memOk → (f s x).memOk) (l : List β) (s : State) (h : s.memOk) :
    (l.foldl f s).memOk := by
  induction l generalizing s with
  | nil => exact h
  | cons x r ih => exact ih _ (hf _ _ h)

@[simp] theorem State.count_mem (s : State) (u c n : Nat) : (s.count u c n).mem = s.mem := by
  unfold State.count; split <;> rfl
@[simp] theorem State.setChan_mem (s : State) (c : ChanId) (v : Chan) : (s.setChan c v).mem = s.mem := by
  unfold State.setChan; split <;> rfl
@[simp] theorem State.updChan_mem (s : State) (c : ChanId) (f : Chan → Chan) : (s.updChan c f).mem = s.mem := State.setChan_mem _ _ _
@[simp] theorem State.updThread_mem (s : State) (t : TeamId) (i : Nat) (f : Thread → Thread) : (s.updThread t i f).mem = s.mem := rfl
@[simp] theorem State.updPool_mem (s : State) (t p : Nat) (f : Pool → Pool) : (s.updPool t p f).mem = s.mem := rfl
@[simp] theorem State.nextStamp_mem (s : State) (o : Nat) : (s.nextStamp o).2.mem = s.mem := by
  unfold State.nextStamp; split <;> rfl
@[simp] theorem State.raise_mem (s : State) (h o n : Nat) : (s.raise h o n).mem = s.mem := by
  unfold State.raise; split <;> rfl
@[simp] theorem State.stampBytes_mem (s : State) (k n : Nat) (c : VC) : (s.stampBytes k n c).mem = s.mem := rfl
@[simp] theorem State.dropXlat_mem (s : State) (t a v n : Nat) : (s.dropXlat t a v n).mem = s.mem := rfl
/-- Memory stays in its canonical form where the blocks of a page expand to other bytes (R382). -/
theorem otherForm_wf {m : Store Byte} (f g frame size : Nat) (h : Memory.wf m = true) : Memory.wf (otherForm f g m frame size) = true := by
  unfold otherForm
  generalize dataBlocks frame size = bs
  suffices ∀ n : Store Byte, Memory.wf n = true → Memory.wf (bs.foldl (fun n b => writeBytes n (256 * b) ((Config.otherBlock f g (readBytes m (256 * b) 256)).take 256)) n) = true from this m h
  induction bs with
  | nil => exact fun _ h => h
  | cons b r ih => exact fun n h => ih _ (wf_writeBytes _ _ h)
theorem State.useForm_memOk {s : State} (n e lv : Nat) (h : s.memOk) : (s.useForm n e lv).memOk := by
  unfold State.useForm
  split
  · dsimp only; split
    · split
      · exact h
      · exact otherForm_wf _ _ _ _ h
    · exact h
  · exact h
theorem State.formMove_memOk {s t : State} (h : s.memOk) (e : s.formMove = some t) : t.memOk := by
  unfold State.formMove at e
  split at e
  · cases e; exact State.useForm_memOk _ _ _ h
  · split at e
    · cases e; exact State.useForm_memOk _ _ _ h
    · cases e
@[simp] theorem State.acquireCore_mem (s : State) (c : Nat) : (s.acquireCore c).mem = s.mem := rfl

theorem foldl_mem {β : Type} (f : State → β → State) (hf : ∀ s x, (f s x).mem = s.mem) (l : List β) (s : State) : (l.foldl f s).mem = s.mem := by
  induction l generalizing s with
  | nil => rfl
  | cons x r ih => rw [List.foldl_cons, ih, hf]

@[simp] theorem State.pushOne_mem (c : VC) (o st lo hi : Nat) (b : Bool) (s : State) (m : Mooring) : (State.pushOne c o st lo hi b s m).mem = s.mem := by
  unfold State.pushOne; split
  · dsimp only; split <;> simp
  · rfl
@[simp] theorem State.sendPushes_mem (s : State) (k n o st : Nat) (c : VC) (b : Bool) : (s.sendPushes k n o st c b).mem = s.mem :=
  foldl_mem _ (fun _ _ => State.pushOne_mem _ _ _ _ _ _ _ _) _ _
@[simp] theorem State.lookupLine_mem (d : Nat) (s : State) (n : Nat) : (State.lookupLine d s n).mem = s.mem := by
  unfold State.lookupLine; split <;> simp
@[simp] theorem State.lookup_mem (s : State) (k n : Nat) : (s.lookup k n).mem = s.mem := by
  unfold State.lookup; split
  · exact foldl_mem _ (fun _ _ => State.lookupLine_mem _ _ _) _ _
  · rfl
@[simp] theorem State.correct_mem (s : State) (k n : Nat) : (s.correct k n).mem = s.mem := by
  unfold State.correct; dsimp only; split
  · rfl
  · split <;> simp
@[simp] theorem State.homeRead_mem (s : State) (k n : Nat) : (s.homeRead k n).mem = s.mem := by simp [State.homeRead]
@[simp] theorem State.wakeThread_mem (s : State) (t : TeamId) (i : Nat) : (s.wakeThread t i).mem = s.mem := by
  unfold State.wakeThread; dsimp only; split
  · split <;> simp
  · rfl
@[simp] theorem State.wakeWhere_mem (s : State) (p : WaitKind → Bool) : (s.wakeWhere p).mem = s.mem := by
  unfold State.wakeWhere
  refine foldl_mem _ (fun s t => ?_) _ _
  split
  · rfl
  · refine foldl_mem _ (fun s h => ?_) _ _
    split
    · split <;> simp
    · rfl
@[simp] theorem State.landWrite_mem (s : State) (k n h o st : Nat) (c : VC) : (s.landWrite k n h o st c).mem = s.mem := by
  simp [State.landWrite]

/-! ### Writes of bytes -/

theorem State.setPhys_memOk {s : State} (k : Nat) (b : Byte) (h : s.memOk) : (s.setPhys k b).memOk := State.wf_setPhys s k b h
theorem State.setBytes_memOk {s : State} (k : Nat) (bs : List Byte) (h : s.memOk) : (s.setBytes k bs).memOk := by
  induction bs generalizing s k with
  | nil => exact h
  | cons b r ih => exact ih _ (State.setPhys_memOk k b h)
theorem State.setLoc_memOk {s : State} (k : Nat) (b : Byte) (h : s.memOk) : (s.setLoc k b).memOk := by
  unfold State.setLoc; split
  · dsimp only; split
    · simpa [State.memOk] using h
    · exact h
  · exact State.setPhys_memOk k b h
theorem State.setLocs_memOk {s : State} (k : Nat) (bs : List Byte) (h : s.memOk) : (s.setLocs k bs).memOk := by
  induction bs generalizing s k with
  | nil => exact h
  | cons b r ih => exact ih _ (State.setLoc_memOk k b h)
theorem State.setEntry_memOk {s : State} (t a v lv e : Nat) (h : s.memOk) : (s.setEntry t a v lv e).memOk := by
  unfold State.setEntry; split
  · simpa [State.memOk] using State.setBytes_memOk _ _ h
  · simpa [State.memOk] using h
theorem State.hubWrite_memOk {s : State} (k : Nat) (bs : List Byte) (c : VC) (h : s.memOk) : (s.hubWrite k bs c).memOk := by
  simpa [State.hubWrite, State.memOk] using State.setLocs_memOk (s := (s.nextStamp 4).2) k bs (by simpa [State.memOk] using h)
/-- A way to store bytes keeps memory in its canonical form. -/
abbrev KeepsMem (put : State → Nat → List Byte → Option State) : Prop := ∀ s t k bs, s.memOk → put s k bs = some t → t.memOk
theorem State.plainHub_memOk : KeepsMem State.plainHub := by
  intro s t k bs h e
  unfold State.plainHub at e
  split at e
  · cases e
  · cases e; exact State.hubWrite_memOk _ _ _ h
theorem State.writeRec_memOk {put : State → Nat → List Byte → Option State} (hp : KeepsMem put) {s : State} (t : Nat) (h : s.memOk) : (s.writeRec put t).memOk := by
  unfold State.writeRec
  dsimp only
  split
  · exact h
  · split
    · exact h
    · split
      · split
        · exact h
        · split
          · split
            · exact h
            · split
              · rename_i e
                obtain ⟨u, hu, hv⟩ := Option.bind_eq_some_iff.mp e
                have hk := hp _ _ _ _ (hp _ _ _ _ h hu) hv
                simpa [State.memOk] using hk
              · exact h
          · exact h
      · exact h
theorem State.flushRecs_memOk {put : State → Nat → List Byte → Option State} (hp : KeepsMem put) {s : State} (t n : Nat) (h : s.memOk) : (s.flushRecs put t n).memOk := by
  induction n generalizing s with
  | zero => exact h
  | succ n ih => exact ih (State.writeRec_memOk hp t h)
theorem State.makeRec_memOk {s : State} (t : Nat) (i : RecInfo) (h : s.memOk) : (s.makeRec t i).2.memOk := by
  unfold State.makeRec
  dsimp only
  split
  · simpa [State.memOk] using h
  · exact State.flushRecs_memOk State.plainHub_memOk _ _ (by simpa [State.memOk] using h)
theorem State.poolNotice_memOk {s : State} (t p : Nat) (h : s.memOk) : (s.poolNotice t p).memOk := by
  unfold State.poolNotice
  dsimp only
  split
  · exact State.makeRec_memOk _ _ (by simpa [State.memOk] using h)
  · exact h
theorem State.takeFrame_memOk {s t : State} {a p f : Nat} (h : s.memOk) (e : s.takeFrame a p = some (f, t)) : t.memOk := by
  unfold State.takeFrame at e
  split at e
  · cases e
  · cases e; exact State.poolNotice_memOk _ _ (by simpa [State.memOk] using h)
@[simp] theorem State.giveFrame_mem (s : State) (t p f : Nat) : (s.giveFrame t p f).mem = s.mem := rfl
theorem State.backPage_memOk {s : State} (r : Region) (i f : Nat) (h : s.memOk) : (s.backPage r i f).memOk :=
  State.setEntry_memOk _ _ _ _ _ (by simpa [State.memOk] using h)
theorem State.unbackPage_memOk {s : State} (r : Region) (i : Nat) (h : s.memOk) : (s.unbackPage r i).memOk :=
  State.setEntry_memOk _ _ _ _ _ (by simpa [State.memOk] using h)
theorem State.snapIncomplete_memOk {s : State} (l : Launch) (h : s.memOk) : (s.snapIncomplete l).memOk := by
  unfold State.snapIncomplete; split
  · exact h
  · exact State.makeRec_memOk _ _ (by simpa [State.memOk] using h)
theorem State.addSnap_memOk {s : State} (l : Option Nat) (e : Snap) (h : s.memOk) : (s.addSnap l e).memOk := by
  unfold State.addSnap; split
  · split
    · exact h
    · split
      · exact State.snapIncomplete_memOk _ h
      · simpa [State.memOk] using h
  · exact h
theorem State.unreserve_memOk {s : State} (l : Option Nat) (r : Region) (i : Nat) (h : s.memOk) : (s.unreserve l r i).memOk := by
  unfold State.unreserve; split
  · split
    · simpa [State.memOk] using h
    · exact h
  · exact h
@[simp] theorem State.keepFrame_mem (s : State) (l : Launch) (p f : Nat) : (s.keepFrame l p f).mem = s.mem := rfl
theorem State.releaseFrame_memOk {s : State} (r : Region) (i f : Nat) (l : Option Nat) (h : s.memOk) : (s.releaseFrame r i f l).memOk := by
  have hc : (s.count (8192 + r.home) 0x85 1).memOk := by simpa [State.memOk] using h
  unfold State.releaseFrame; dsimp only; split
  · split
    · simpa [State.memOk] using h
    · split
      · simpa [State.memOk] using h
      · split
        · exact State.addSnap_memOk _ _ hc
        · exact State.snapIncomplete_memOk _ hc
  · simpa [State.memOk] using h
theorem State.frameFor_memOk {s t : State} {l : Option Nat} {r : Region} {i f : Nat} (h : s.memOk) (e : s.frameFor l r i = some (f, t)) : t.memOk := by
  unfold State.frameFor at e
  split at e
  · split at e
    · cases e; simpa [State.memOk] using h
    · exact State.takeFrame_memOk h e
  · exact State.takeFrame_memOk h e

/-! ### Writes at their home -/

theorem State.applyDefault_memOk {s : State} (r : Region) (va : Nat) (bs : List Byte) (l : Option Nat) (h : s.memOk) :
    (s.applyDefault r va bs l).1.memOk := by
  unfold State.applyDefault
  dsimp only
  split
  · have h1 := State.setLocs_memOk (regionKey r.id.tenant r.id.asid va) bs (State.unreserve_memOk l r (r.pageOf va) h)
    split
    · exact State.releaseFrame_memOk _ _ _ _ (State.unbackPage_memOk r (r.pageOf va) h1)
    · simpa [State.memOk] using h1
  · split
    · exact h
    · split
      · simpa [State.memOk] using h
      · rename_i f s' e
        have h3 := State.frameFor_memOk h e
        have h4 : ∀ b : Bool, (if b = true then s' else s'.addSnap l (.allocated r.id (r.pageOf va))).memOk := by
          intro b; cases b
          · exact State.addSnap_memOk _ _ h3
          · exact h3
        simpa [State.memOk] using State.setLocs_memOk _ _ (State.backPage_memOk _ _ _ (h4 _))
theorem State.changeBytes_memOk {s : State} (k : Nat) (bs : List Byte) (c : VC) (l : Option Nat) (h : s.memOk) : (s.changeBytes k bs c l).1.memOk := by
  unfold State.changeBytes
  split
  · split
    · exact State.applyDefault_memOk _ _ _ _ h
    · simpa [State.applyAppend, State.memOk] using State.setLocs_memOk _ _ h
  · exact State.setLocs_memOk _ _ h
theorem State.applyAt_memOk {s : State} (k : Nat) (bs : List Byte) (sg : List (Nat × Nat)) (o st : Nat) (c : VC) (l : Option Nat) (h : s.memOk) :
    (s.applyAt k bs sg o st c l).1.memOk := by
  unfold State.applyAt
  dsimp only
  have h1 := State.changeBytes_memOk k (s.filled k bs sg) c l h
  split
  · rename_i s' e
    rw [e] at h1
    exact foldl_memOk _ (fun s x hs => by simpa [State.memOk] using hs) _ _ h1
  · rename_i s' _ e
    rw [e] at h1
    simpa [State.memOk] using h1
theorem State.applyWrite_memOk {s : State} (w : Write) (h : s.memOk) : (s.applyWrite w).1.memOk := State.applyAt_memOk _ _ _ _ _ _ _ h
theorem State.hubStore_memOk {s : State} (k : Nat) (bs : List Byte) (c : VC) (h : s.memOk) : (s.hubStore k bs c).memOk := by
  unfold State.hubStore
  split
  · exact State.applyAt_memOk _ _ _ _ _ _ _ (by simpa [State.memOk] using h)
  · exact State.hubWrite_memOk _ _ _ h

/-! ### An entropy table replaced -/

theorem State.setLocsAll_memOk {β : Type} (k : β → Nat) (bs : State → β → List Byte) (l : List β) {s : State} (h : s.memOk) :
    (l.foldl (fun s b => s.setLocs (k b) (bs s b)) s).memOk := by
  induction l generalizing s with
  | nil => exact h
  | cons b r ih => exact ih (State.setLocs_memOk _ _ h)
theorem State.recode_memOk {s : State} (tn n : Nat) (new : List Byte) (h : s.memOk) : (s.recode tn n new).memOk := by
  unfold State.recode
  dsimp only
  generalize List.filterMap _ s.forms = plain
  apply foldl_memOk
  · intro s r hs
    apply foldl_memOk _ _ _ _ hs
    intro s e hs
    split
    · exact State.setLocsAll_memOk _ _ _ hs
    · exact hs
  · apply foldl_memOk _ _ _ _ h
    intro s r hs
    exact State.setLocsAll_memOk _ _ _ hs

end Sys2Proof.Machine
end

