-- ==== Sys2Proof/Laws/Blocks.lean ====
section
/-! SUPPORT. The operations that write blocks of the module's memory keep its canonical form: images, loaded code and data, migrations, the pages of a region that goes, restored pages, boot. -/
namespace Sys2Proof.Machine

theorem State.writeImage_memOk {s : State} (a : Nat) (bs : List Byte) (h : s.memOk) : (s.writeImage a bs).memOk := Store.wf_splice _ _ _ h
theorem State.spillPage_memOk {s : State} (g : Region) (i : Nat) (p : Page) (h : s.memOk) : (s.spillPage g i p).memOk := Store.wf_splice _ _ _ h
theorem moveStore_wf {α : Type} [DecidableEq α] {z : α} (m : MovePlan) (a : Nat) {st : Store α} (h : Store.wf z st = true) : Store.wf z (moveStore z m a st) = true := by
  unfold moveStore
  have hk := Store.wf_filter (fun e => !(decide (a ≤ e.1) && decide (e.1 < a + m.bytes))) h
  generalize (st.filter fun e => decide (m.tr.key ≤ e.1) && decide (e.1 < m.tr.key + m.bytes)) = l
  dsimp only
  revert hk
  generalize (st.filter fun e => !(decide (a ≤ e.1) && decide (e.1 < a + m.bytes))) = k
  intro hk
  induction l generalizing k with
  | nil => exact hk
  | cons e r ih => exact ih _ (Store.wf_set _ _ hk)
@[simp] theorem State.lower_mem (s : State) (h o n : Nat) : (s.lower h o n).mem = s.mem := rfl
theorem State.moveOrdinary_memOk {s : State} (m : MovePlan) (a : Nat) (h : s.memOk) : (s.moveOrdinary m a).memOk := by
  refine moveStore_wf m a ?_
  rw [foldl_mem _ (fun _ _ => State.lower_mem _ _ _ _)]
  exact h
theorem State.storeAt_memOk {s : State} (t a va : Nat) (bs : List Byte) (h : s.memOk) : (s.storeAt t a va bs).memOk := by
  induction bs generalizing s va with
  | nil => exact h
  | cons b r ih =>
    unfold State.storeAt
    split
    · exact ih _ (State.hubStore_memOk _ _ _ h)
    · exact ih _ h
theorem State.keepImage_memOk {s : State} (r : LoadReq) (ps : List Placed) (h : s.memOk) : (s.keepImage r ps).memOk := by
  unfold State.keepImage
  dsimp only
  split
  · exact h
  · exact foldl_memOk _ (fun _ _ hs => State.storeAt_memOk _ _ _ _ hs) _ _ (wf_writeBytes _ _ h)
theorem execBoot_memOk {s t : State} (h : s.memOk) (e : execBoot s = .next t) : t.memOk := by
  unfold execBoot at e
  split at e
  · cases e; exact h
  · split at e
    · split at e <;> (cases e; exact h)
    · cases e; rfl
    all_goals (cases e; exact h)
theorem State.afterReset_memOk (s : State) (n : Nat) : (s.afterReset n).memOk := rfl

end Sys2Proof.Machine
end

