-- ==== Sys2Proof/Laws/Ops.lean ====
section
/-! SUPPORT. One law for each shared operation of the words: what it answers, and all that it can do. -/
namespace Sys2Proof.Machine

/-! ### Issue -/

theorem issue_none {len : Nat} {rs : List Nat} {s : State} {f : Ctx → State → State} (h : s.current = none) :
    issue len rs s f = .fault .noIssuingGroup := by simp [issue, h]

theorem any_not_below {rs : List Nat} {n : Nat} (h : ∀ r ∈ rs, r < n) : (rs.any fun r => decide (n ≤ r)) = false := by
  simp only [List.any_eq_false, decide_eq_true_eq]
  intro r hr; have := h r hr; omega

/-- With every register inside the allocation, a word has its effect. -/
theorem issue_next {len gid : Nat} {rs : List Nat} {s : State} {f : Ctx → State → State} (h : s.current = some gid)
    (hr : ∀ r ∈ rs, r < (s.ctx gid).l.nregs) : issue len rs s f = .next (f (s.ctx gid) s) := by
  simp only [issue, h, any_not_below hr]
  simp

/-- With a register beyond the allocation, the whole group parks. -/
theorem issue_beyond {len gid r : Nat} {rs : List Nat} {s : State} {f : Ctx → State → State} (h : s.current = some gid)
    (hm : r ∈ rs) (hr : (s.ctx gid).l.nregs ≤ r) :
    issue len rs s f = .next (s.parkWhole gid { cls := clsEnc, detail := 0, addr := 0, len := len }) := by
  have : (rs.any fun r => decide ((s.ctx gid).l.nregs ≤ r)) = true := by
    simp only [List.any_eq_true, decide_eq_true_eq]; exact ⟨r, hm, hr⟩
  simp only [issue, h, this, if_true]

/-- All that an issue can do. -/
theorem issue_cases {len : Nat} {rs : List Nat} {s t : State} {f : Ctx → State → State} (h : issue len rs s f = .next t) :
    ∃ gid, s.current = some gid ∧
      ((∃ r ∈ rs, (s.ctx gid).l.nregs ≤ r) ∧ t = s.parkWhole gid { cls := clsEnc, detail := 0, addr := 0, len := len } ∨
       (∀ r ∈ rs, r < (s.ctx gid).l.nregs) ∧ t = f (s.ctx gid) s) := by
  cases hc : s.current with
  | none => rw [issue_none hc] at h; cases h
  | some gid =>
    refine ⟨gid, rfl, ?_⟩
    by_cases hr : ∀ r ∈ rs, r < (s.ctx gid).l.nregs
    · rw [issue_next hc hr] at h; cases h; exact .inr ⟨hr, rfl⟩
    · have : ∃ r ∈ rs, (s.ctx gid).l.nregs ≤ r := by
        apply Classical.byContradiction
        intro hn
        exact hr fun r hm => Nat.lt_of_not_le fun hle => hn ⟨r, hm, hle⟩
      obtain ⟨r, hm, hle⟩ := this
      rw [issue_beyond hc hm hle] at h; cases h
      exact .inl ⟨⟨r, hm, hle⟩, rfl⟩

/-- A word of fixed latency: its whole effect. -/
theorem laneFixed_eq {len gid : Nat} {k : Ctl} {rs : List Nat} {s : State} {f : Thread → List Wr} (h : s.current = some gid)
    (hr : ∀ r ∈ rs, r < (s.ctx gid).l.nregs) (c : Ctx) (hc : s.ctx gid = c) :
    laneFixed len k rs s f = .next (((c.actors k).foldl (fun t x => t.pendTo c (c.receivers k x) (f x)) s).endWord c len) := by
  subst hc; exact issue_next h hr

/-- A word whose results are known at its issue: an operation that holds them, and the word passes on. -/
theorem laneVariable_eq {len cls gid : Nat} {k : Ctl} {rs : List Nat} {s : State} {f : Ctx → Thread → List Wr} (h : s.current = some gid)
    (hr : ∀ r ∈ rs, r < (s.ctx gid).l.nregs) (c : Ctx) (hc : s.ctx gid = c) :
    laneVariable len cls k rs s f = .next ((s.addOp { c.op cls .ready with
      results := (c.actors k).flatMap fun x => (c.receivers k x).flatMap fun i => (f c x).map fun w => (i, w), isReady := true }).endWord c len) := by
  subst hc; exact issue_next h hr

/-- A matrix word that acts once per issue: its effect by the leading active member. -/
theorem onceWord_eq {len gid : Nat} {k : Ctl} {rs : List Nat} {s : State} {f : Ctx → Thread → State → State} {x : Thread} (h : s.current = some gid)
    (hr : ∀ r ∈ rs, r < (s.ctx gid).l.nregs) (hx : (s.ctx gid).lead k = some x) :
    onceWord len k rs s f = .next (f (s.ctx gid) x s) := by
  rw [onceWord, issue_next h hr]; simp [hx]

/-- A word whose lanes all pass their checks. -/
theorem memWord_eq {len gid align size : Nat} {k : Ctl} {rs : List Nat} {s : State} {addr : Thread → Nat} {a : Access}
    {go : Ctx → List GoodLane → State → State} {good : List GoodLane} (h : s.current = some gid) (hr : ∀ r ∈ rs, r < (s.ctx gid).l.nregs)
    (hg : s.checkLanes (s.ctx gid) ((s.ctx gid).actors k) addr align size a = (good, [])) (hn : good ≠ [])
    (hrun : (s.keepXlats (s.ctx gid) good).running gid = true) :
    memWord len k rs s addr align size a go = .next (go (s.ctx gid) good (s.keepXlats (s.ctx gid) good)) := by
  have hgid : (s.ctx gid).gid = gid := rfl
  rw [memWord, issue_next h hr]
  simp only [hg, State.parkBad, hgid, hrun, List.isEmpty_iff, hn]
  simp

/-! ### The end of a word -/

/-- Where a word is not its clause's last, the group moves to the next word. -/
theorem State.endWord_inner (s : State) (c : Ctx) (len : Nat) (h : c.g.word + len < headerN c.g.header) :
    s.endWord c len = s.updGrp c.gid fun g => { g with word := c.g.word + len, fresh := false, resumed := false, doneLanes := [], held := 0 } := by
  simp [State.endWord, h]

/-- The last word of a clause ends it. -/
theorem State.endWord_last (s : State) (c : Ctx) (len : Nat) (h : headerN c.g.header ≤ c.g.word + len) :
    s.endWord c len = (s.closeClause c len).updGrp c.gid fun g => { g with pc := c.next } := by
  simp [State.endWord, Nat.not_lt.mpr h]

/-- Two states agree but for groups, threads of teams and quadrants: put those back, and the first state is there again. -/
def State.onlyIssue (s t : State) : Prop := { t with groups := s.groups, teams := s.teams, quads := s.quads } = s

theorem State.onlyIssue.trans {s t u : State} (h : s.onlyIssue t) (g : t.onlyIssue u) : s.onlyIssue u := by
  have e : ({ u with groups := s.groups, teams := s.teams, quads := s.quads } : State) =
      { ({ u with groups := t.groups, teams := t.teams, quads := t.quads } : State) with groups := s.groups, teams := s.teams, quads := s.quads } := rfl
  unfold State.onlyIssue at *
  rw [e, g, h]
theorem State.onlyIssue.refl (s : State) : s.onlyIssue s := rfl
theorem State.onlyIssue_updGrp (s : State) (g : Nat) (f : Grp → Grp) : s.onlyIssue (s.updGrp g f) := rfl
theorem State.onlyIssue_updQuad (s : State) (q : Nat) (f : Quad → Quad) : s.onlyIssue (s.updQuad q f) := rfl
theorem State.onlyIssue_updTeam (s : State) (i : TeamId) (f : Team → Team) : s.onlyIssue (s.updTeam i f) := rfl
theorem State.onlyIssue_updThreads (s : State) (i : TeamId) (l : List Nat) (f : Thread → Thread) : s.onlyIssue (s.updThreads i l f) := rfl
theorem State.onlyIssue_settleFlag (s : State) (g f : Nat) : s.onlyIssue (s.settleFlag g f) := by
  unfold State.settleFlag; split
  · exact State.onlyIssue.refl s
  · exact State.onlyIssue_updGrp _ _ _
theorem State.onlyIssue_foldl {β : Type} (f : State → β → State) (hf : ∀ s x, State.onlyIssue s (f s x)) (l : List β) (s : State) : s.onlyIssue (l.foldl f s) := by
  induction l generalizing s with
  | nil => exact State.onlyIssue.refl s
  | cons x r ih => exact (hf s x).trans (ih _)
theorem State.onlyIssue_closeClause (s : State) (c : Ctx) (len : Nat) : s.onlyIssue (s.closeClause c len) := by
  unfold State.closeClause
  dsimp only
  refine State.onlyIssue.trans ?_ (State.onlyIssue_updQuad _ _ _)
  split
  · exact ((State.onlyIssue_updGrp _ _ _).trans (State.onlyIssue_updThreads _ _ _ _)).trans (State.onlyIssue_settleFlag _ _ _)
  · exact (State.onlyIssue_updGrp _ _ _).trans (State.onlyIssue_updThreads _ _ _ _)

/-- The end of a word changes groups, threads of teams and quadrants, nothing else. -/
theorem State.onlyIssue_endWord (s : State) (c : Ctx) (len : Nat) : s.onlyIssue (s.endWord c len) := by
  unfold State.endWord
  split
  · exact State.onlyIssue_updGrp _ _ _
  · exact (State.onlyIssue_closeClause _ _ _).trans (State.onlyIssue_updGrp _ _ _)

/-- Results put in flight change threads of teams, nothing else. -/
theorem State.onlyIssue_pendTo (s : State) (c : Ctx) (is : List Nat) (ws : List Wr) : s.onlyIssue (s.pendTo c is ws) := State.onlyIssue_updThreads _ _ _ _

/-- A word of fixed latency that has its effect changes groups, threads of teams and quadrants, nothing else. -/
theorem laneFixed_frame {len gid : Nat} {k : Ctl} {rs : List Nat} {s t : State} {f : Thread → List Wr} (h : s.current = some gid)
    (hr : ∀ r ∈ rs, r < (s.ctx gid).l.nregs) (e : laneFixed len k rs s f = .next t) : s.onlyIssue t := by
  rw [laneFixed_eq h hr _ rfl] at e
  cases e
  exact (State.onlyIssue_foldl _ (fun _ _ => State.onlyIssue_pendTo _ _ _ _) _ _).trans (State.onlyIssue_endWord _ _ _)

end Sys2Proof.Machine
end

