-- ==== Sys2Proof/Safety.lean ====
section
/-! DEFINITION. What counts as a safe run: the machine goes on. A step of this model never stops with a refusal; a fault is the spec's own outcome only where Fault names it. -/

namespace Sys2Proof

/-- A state from which the next step goes on. -/
def StepsOn (s : Machine.State) : Prop := ∃ t, Machine.step s = .next t

/-- n steps all go on. -/
def SafeRun (n : Nat) (s : Machine.State) : Prop := ∃ t, Host.Core.run core n s = .next t

end Sys2Proof
end

