-- ==== Sys2Proof/Tests/Slice0.lean ====
section
/-! SUPPORT. The tests of the model: ill-formed terms that WellFormed refuses; words written out from the encodings of the spec and what they decode to; for every statement with hypotheses a named witness that meets them; and a few values of the spec's rules on one step. -/
namespace Sys2Proof.Tests
/-! Each theorem here is evaluated by the kernel; one after another they stay within memory. -/
set_option Elab.async false
open Sys2Proof Sys2Proof.Machine Sys2Proof.Claims

/-! ### Small states -/

/-- No marker bits; U = 1. -/
def k0 : Ctl := ⟨false, false, false⟩
def kU : Ctl := ⟨false, true, false⟩
/-- The team of the tests. -/
def tid : TeamId := ⟨1, 0, false⟩
/-- A thread in group 1: pairs v4 plain memory, v6 a PAGED region, v8 an APPEND region, v16 a code address; v10 a small number, v11 a scratchpad offset, v12 bytes. -/
def th (i : Nat) : Thread :=
  { idx := i, pc := 0x40, st := .issuing 1, sp := BitVec.ofNat 64 (0x2100 + 64 * i), preds := 5
    regs := [(4, BitVec.ofNat 32 (0x1000 + 16 * i)), (6, BitVec.ofNat 32 (0x11000 + 16 * i)), (8, 0x20080), (10, BitVec.ofNat 32 (i + 1)), (11, 0x100), (12, 8), (13, 128), (16, 0x80), (24, 2)] }
/-- An image of the native code class whose clause headers stand every 64 bytes. -/
def codeImage : Image := { no := 1, tenant := 0, asid := 0, digest := [], codeVa := 0, code := [], headers := (List.range 64).map (· * 64), kernels := [(0, 1, 64, false)] }
/-- A PAGED region on the second page, one page backed, and an APPEND region on the third. -/
def regP : Region := { id := ⟨0, 0, 3⟩, cls := 1, base := 65536, len := 65536, psize := 0, elem := 2, pool := 0, leaf := 3, dflt := 0, home := 1, pages := [(0, some { frame := 0x40000, data := [(0x1004, 7)] })] }
def regA : Region := { id := ⟨0, 0, 4⟩, cls := 2, base := 131072, len := 65536, psize := 0, elem := 2, pool := 0, leaf := 3, dflt := 0, home := 1, c := 128, t := 128, pages := [(0, some { frame := 0x50000 })] }
/-- Three pages as a core's translations hold them. -/
def tlb3 : Store (Option Xlat) := [(0, some { entry := 3 * 2 ^ 62 + 3 * 2 ^ 60 + 0x20000, level := 0 }), (1, some { entry := 3 * 2 ^ 62 + 3 * 2 ^ 60 + 0x40000 + 0x8003, level := 0 }), (2, some { entry := 2 ^ 62 + 4, level := 0 })]
/-- The group whose word is in issue, at the first word of a clause of two. -/
def g1 : Grp := { placedGroup with members := [0, 1], pc := 0x40, clause := 7, header := 0x00200002 }
/-- A state with a word of group 1 in issue; a third thread of its team issues elsewhere. -/
def sW : State := { State.reset.placed with
  current := some 1, nextId := 50, images := [codeImage], regions := [regP, regA], groups := [g1]
  launches := [placedLaunch]
  mem := [(0x21004, 9)]
  queues := [(0, { qctl := 0x80000000 }), (3, { qctl := 0x80000000 })]
  tenants := [(0, { winbase := [(0, 1)], winlim := [(0, 0x100000000)] })]
  cores := [(0, { free := (List.range 8).map (fun i => (i, 5)), tlb := tlb3 })]
  teams := [{ id := tid, core := 0, stamp := 1, threads := [th 0, th 1, { th 9 with st := .issuing 9 }]
              scratch := [(0x100, 3)], bufs := [{ handle := 0, core := 0, base := 0x8000, len := 128, rot := 0, cmp := false, st := 0 }]
              rejoin := [[0, 1], [0, 9], [], [], [], [], [], []], pending := [[0, 1], [0, 9], [], [], [], [], [], []] }] }
/-- The same with the declared buffer in another state, and with the APPEND region in another state. -/
def sBuf (st : Nat) : State := { sW with teams := sW.teams.map fun t => { t with bufs := t.bufs.map fun b => { b with st := st } } }
def sReg (st : Nat) : State := { sW with regions := [regP, { regA with st := st }] }

/-- The same launch as a pair of cores. -/
def sPair : State := { sW with launches := [{ placedLaunch with body := placedBody.take 0x14 ++ leBytes (1 + 64 + 64 * 2 ^ 25) 4 ++ placedBody.drop 0x18 }] }

/-! ### Ways to say what a witness meets -/

theorem issues_of {s : State} {gid : Nat} {regs : List Nat} (h : (s.current == some gid && regs.all fun r => decide (r < (s.ctx gid).l.nregs)) = true) : Issues s gid regs := by
  simp only [Bool.and_eq_true, beq_iff_eq, List.all_eq_true, decide_eq_true_eq] at h
  exact h
theorem allPass_of {s : State} {c : Ctx} {k : Ctl} {addr : Thread → Nat} {al sz : Nat} {a : Access}
    (h : (let p := s.checkLanes c (c.actors k) addr al sz a
          p.2.isEmpty && !p.1.isEmpty && (s.keepXlats c p.1).running c.gid) = true) :
    AllPass s c k addr al sz a (s.checkLanes c (c.actors k) addr al sz a).1 := by
  simp only [Bool.and_eq_true, List.isEmpty_iff, Bool.not_eq_true', List.isEmpty_eq_false_iff] at h
  exact ⟨Prod.ext rfl h.1.1, h.1.2, h.2⟩
theorem stands_sW : Stands sW 1 := ⟨⟨g1, by decide +kernel, rfl⟩, by decide +kernel, by decide +kernel⟩
/-- What an Except holds, else a default; it holds that where it is no error. -/
def okD {ε α : Type} (d : α) : Except ε α → α
  | .ok a => a
  | .error _ => d
theorem ok_okD {ε α : Type} {e : Except ε α} (d : α) (h : e.isOk = true) : e = .ok (okD d e) := by cases e with
  | ok a => rfl
  | error x => cases h
theorem ok_of {ε α : Type} [DecidableEq α] {e : Except ε α} {a : α} (h : (match e with | .ok r => decide (r = a) | .error _ => false) = true) : e = .ok a := by cases e with
  | ok r => exact congrArg _ (of_decide_eq_true h)
  | error x => cases h
/-- What a step leaves is a next state. -/
theorem next_of {o : Host.Outcome State Fault Refusal} (h : (match o with | .next _ => true | _ => false) = true) : ∃ t, o = .next t := by cases o with
  | next t => exact ⟨t, rfl⟩
  | _ => cases h

/-! ### Ill-formed terms, one or more for each check of WellFormed -/
/-- An odd register where the entry asks for a pair (R67). -/
theorem test_wf_pairs :
    wellFormed (.add64 k0 .wrap 3 4 6) = false ∧ wellFormed (.add64i k0 2 5 0) = false ∧ wellFormed (.sub64 k0 .wrap 2 4 7) = false ∧ wellFormed (.lea64 k0 2 5 1 false 0 0) = false ∧
    wellFormed (.mov64 k0 1 2) = false ∧ wellFormed (.icmpLt k0 .n64 .set 0 1 2) = false ∧ wellFormed (.icmpLt k0 .n32 .set 0 1 3) = true ∧ wellFormed (.unpack2 k0 .f16 1 0) = false ∧
    wellFormed (.ldN32 k0 1 3 0) = false ∧ wellFormed (.ldN64 k0 1 2 0) = false ∧ wellFormed (.stN64 k0 1 2 0) = false ∧ wellFormed (.stN8 k0 1 3 0) = false ∧ wellFormed (.ldline k0 1 3 0) = false ∧
    wellFormed (.stna k0 .n64 1 2 0 0) = false ∧ wellFormed (.lds k0 .n64 1 2 0) = false ∧ wellFormed (.atom k0 false 1 2 4 0 .add true .team .acqrel) = false ∧ wellFormed (.atom k0 false 2 3 4 0 .add false .team .acqrel) = false ∧
    wellFormed (.enumpgNext k0 1 2 3) = false ∧ wellFormed (.pgq k0 1 2) = false ∧ wellFormed (.sealRegion k0 1) = false ∧ wellFormed (.tlook k0 1 3) = false ∧ wellFormed (.brx k0 1) = false ∧
    wellFormed (.callx k0 1) = false ∧ wellFormed (.mwaitGe k0 2 3) = false ∧ wellFormed (.waittlQ k0 0 3) = false ∧ wellFormed (.wptr k0 1 0) = false ∧ wellFormed (.evrd k0 1 0) = false ∧
    wellFormed (.sread k0 1 .clock) = false ∧ wellFormed (.sread k0 1 .sp) = false ∧ wellFormed (.sread k0 1 .lane) = true ∧ wellFormed (.swrite k0 .sp 1) = false ∧ wellFormed (.dcflush k0 1 0) = false ∧ wellFormed (.icinv k0 1 0) = false ∧
    wellFormed (.cvt k0 1 0 .rne false 0 0 .i64 .f32) = false ∧ wellFormed (.wld k0 .m32x32 1 0 .bf16) = false ∧ wellFormed (.accld k0 0 1) = false ∧ wellFormed (.pgsel k0 .d32 2 0 3 false 1) = false := by decide
/-- A register that is no multiple of four where the entry asks for a quad (R67). -/
theorem test_wf_quads :
    wellFormed (.ldN128 k0 2 0 0) = false ∧ wellFormed (.stN128 k0 6 0 0) = false ∧ wellFormed (.ldw k0 .none 2 0 0 .n128 0) = false ∧ wellFormed (.cvt4x8Pack k0 1 2 .rne false .i8) = false ∧ wellFormed (.cvt4x8Unpack k0 2 1 .i8) = false ∧
    wellFormed (.append k0 2 4 6 0) = false ∧ wellFormed (.qappend k0 2 0 6 0) = false ∧ wellFormed (.copy k0 2 6 0) = false ∧ wellFormed (.copym k0 2 6 0) = false ∧ wellFormed (.xform k0 2 6 0) = false ∧
    wellFormed (.mma k0 .m32x32 0 2 false false 0 .bf16) = false ∧ wellFormed (.mma k0 .m32x32 0 2 false true 0 .bf16) = true := by decide
/-- Fields other than registers that hold what their entry excludes (R68 and the entries). -/
theorem test_wf_fields :
    wellFormed (.shli k0 0 0 32) = false ∧ wellFormed (.shri k0 0 0 32) = false ∧ wellFormed (.srai k0 0 0 255) = false ∧ wellFormed (.roli k0 0 0 32) = false ∧ wellFormed (.roli k0 0 0 31) = true ∧
    wellFormed (.bfe k0 0 0 false 0 3) = false ∧ wellFormed (.bfe k0 0 0 false 30 3) = false ∧ wellFormed (.bfi k0 0 0 1 29 3) = true ∧ wellFormed (.xred k0 .rtz 0 0 .add) = false ∧ wellFormed (.xscan k0 .rup 0 0 true .fmin) = false ∧ wellFormed (.xred k0 .rtz 0 0 .fadd) = true ∧
    wellFormed (.cvt k0 0 1 .rne false 2 0 .f16 .f32) = false ∧ wellFormed (.cvt k0 0 1 .rne false 0 1 .f16 .f32) = false ∧ wellFormed (.cvt k0 0 1 .rne false 3 0 .n8 .f32) = true ∧
    wellFormed (.ldw k0 .none 0 0 1 .n32 0) = false ∧ wellFormed (.stw k0 .zx 0 0 1 .i8 0) = false ∧ wellFormed (.stw k0 .zx 0 0 1 .i16 0) = false ∧ wellFormed (.stw k0 .zx 0 0 1 .n16 0) = true ∧
    wellFormed (.atom k0 true 1 0 0 0 .add false .team .acqrel) = false ∧ wellFormed (.atom k0 false 0 0 0 1 .add false .team .acqrel) = false ∧ wellFormed (.atom k0 false 0 0 0 0 .fadd true .team .acqrel) = false ∧ wellFormed (.atom k0 false 0 0 0 0 .add false .team .relaxed) = false ∧
    wellFormed (.wld k0 .m32x64 0 2 .bf16) = false ∧ wellFormed (.mma k0 .m64x64 0 0 false false 1 .bf16) = false ∧ wellFormed (.mma k0 .m64x64 1 0 false false 0 .bf16) = false ∧ wellFormed (.mmapr k0 1 0 false false .bf16) = false ∧
    wellFormed (.accz k0 .two 1) = false ∧ wellFormed (.accz k0 .four 2) = false ∧ wellFormed (.acccvt k0 0 0 .rne false 1 false .f16) = false ∧ wellFormed (.acccvt k0 0 0 .rne false 1 true .w4) = false ∧ wellFormed (.accadd k0 .rtz 0 1 true) = false ∧
    wellFormed (.pgsel k0 .d32 0 0 0 false 0) = false ∧ wellFormed (.pgsel k0 .d32 0 0 0 false 65) = false ∧ wellFormed (.pgsel k0 .d64 0 0 0 false 64) = true ∧ wellFormed (.swrite k0 .lane 0) = false := by decide
/-- Events that name a part the machine does not have (R4, R10). -/
theorem test_wf_events :
    wellFormed (.groupForm 3072) = false ∧ wellFormed (.groupForm 3071) = true ∧ wellFormed (.fairnessDemotion 3072) = false ∧ wellFormed (.stallEvent 3072) = false ∧ wellFormed (.watchdogSpin 3072) = false ∧ wellFormed (.teamPull 768) = false ∧ wellFormed (.teamStart 768) = false ∧
    wellFormed (.l1CleanTimeout 768 0) = false ∧ wellFormed (.selfTest 0 4 0) = false ∧ wellFormed (.packetTake 2048) = false ∧ wellFormed (.launch 2048) = false ∧ wellFormed (.transducerJobEnd 64) = false ∧ wellFormed (.tableFillDone 64) = false ∧
    wellFormed (.level2CountDecay 96) = false ∧ wellFormed (.level3CountDecay 8) = false ∧ wellFormed (.schedulingLoopStall 8) = false ∧ wellFormed (.watermarkReport 5 0) = false ∧ wellFormed (.tinvCommand 16 0) = false ∧ wellFormed (.treset 16) = false ∧ wellFormed (.poolAdd 0 16 0) = false ∧
    wellFormed (.winbaseWrite 0 8 0) = false ∧ wellFormed (.governorUpdate 4 0 0) = false ∧ wellFormed (.thermalThrottle 4) = false ∧ wellFormed (.supplyDroop 4 false) = false ∧ wellFormed (.replicaDrop 4 0) = false ∧
    wellFormed (.tailAdvance ⟨16, 0, 0⟩) = false ∧ wellFormed (.sealReached ⟨0, 16, 0⟩) = false ∧ wellFormed (.channelOpComplete (.core 768 0)) = false ∧ wellFormed (.channelOpComplete (.core 0 4)) = false ∧ wellFormed (.channelOpComplete (.die 0 16)) = false ∧
    wellFormed (.outriderFault (.system 0 2)) = false ∧ wellFormed (.registerWrite (.qbase 2048) 0) = false ∧ wellFormed (.registerWrite (.mquota 0 5) 0) = false ∧ wellFormed (.registerWrite (.troot 0 16) 0) = false ∧ wellFormed (.registerWrite (.winlim 0 8) 0) = false := by decide

/-! ### Words that no entry gives a meaning, each refused by name -/
/-- Why a decoding failed. -/
def refusalOf : Except DecErr (Instr × List Nat) → Option DecErr
  | .ok _ => none
  | .error e => some e
/-- Class 0b111 (R70), an opcode cell with a dash (R72), reserved bits set, a value the entry excludes, a register that is not aligned (R67), and a long word without its second. -/
theorem test_decode_refuses :
    refusalOf (decode [0x1C000000]) = some .classSeven ∧ refusalOf (decode [0x1FF00000, 0]) = some .classSeven ∧ refusalOf (decode [0x00E00000]) = some .unassigned ∧ refusalOf (decode [0x0BF00000]) = some .unassigned ∧
    refusalOf (decode [0x00700001]) = some .reserved ∧ refusalOf (decode [0x000C0000]) = some .reserved ∧ refusalOf (decode [0x01C00020]) = some .reserved ∧ refusalOf (decode [0x02000000, 0x01000022]) = some .reserved ∧
    refusalOf (decode [0x00A01000]) = some .misaligned ∧ refusalOf (decode [0x00400000]) = some .truncated ∧ refusalOf (decode []) = some .truncated ∧ refusalOf (decodeBytes [0, 0, 0]) = some .truncated := by decide +kernel
/-! ### Every hypothesis is met: words of fixed latency, and words whose results are known at issue -/

theorem witness_FixedWordResults : ∃ i x s gid, fixedRule i = some x ∧ wellFormed i = true ∧ Issues s gid x.regs ∧ s.findGrp gid ≠ none :=
  ⟨.add k0 .satI 14 10 12, _, sW, 1, rfl, by decide, issues_of (by decide +kernel), by decide +kernel⟩
theorem witness_FixedWordFrame : ∃ i x s gid, fixedRule i = some x ∧ wellFormed i = true ∧ Issues s gid x.regs ∧ s.findGrp gid ≠ none := witness_FixedWordResults
theorem witness_ResultsLandInTheirCycle : ∃ h : Thread, Store.wf 0 h.regs = true ∧ h.pend ≠ [] := ⟨{ th 0 with pend := [⟨4, 1, ⟨.reg 4, 7⟩⟩] }, by decide +kernel⟩
theorem witness_SpecialFunctionResults : ∃ i x s gid, sfuRule i = some x ∧ wellFormed i = true ∧ Issues s gid x.regs :=
  ⟨.frcp k0 14 10, _, sW, 1, rfl, by decide, issues_of (by decide +kernel)⟩
theorem witness_ShuffleResults : ∃ i x s gid, shuffleRule i = some x ∧ wellFormed i = true ∧ Issues s gid x.regs :=
  ⟨.xshfIdx k0 14 10 12, _, sW, 1, rfl, by decide, issues_of (by decide +kernel)⟩
theorem witness_ReductionAndVoteResults : ∃ i x s gid, reduceRule i = some x ∧ wellFormed i = true ∧ Issues s gid x.regs :=
  ⟨.xred k0 .rne 14 10 .add, _, sW, 1, rfl, by decide, issues_of (by decide +kernel)⟩
/-- A mask that has its register, and under W = 64 an odd pair that has none. -/
theorem witness_LaneMaskResults : ∃ i d x s gid, maskRule i = some (d, x) ∧ wellFormed i = true ∧ Issues s gid x.regs ∧ maskFits (s.ctx gid).l d :=
  ⟨.xmatchMembers k0 15, _, _, sW, 1, rfl, by decide, issues_of (by decide +kernel), Or.inl (by decide +kernel)⟩
theorem witness_LaneMaskResults_odd : ∃ i d x s gid, maskRule i = some (d, x) ∧ wellFormed i = true ∧ Issues s gid x.regs ∧ ¬maskFits (s.ctx gid).l d :=
  ⟨.xmatchMembers k0 15, _, _, { sW with launches := sW.launches.map fun l => { l with w := 64 } }, 1, rfl, by decide, issues_of (by decide +kernel), by unfold maskFits; decide +kernel⟩
theorem witness_QueryWordResults : ∃ i x s gid, queryRule s i = some x ∧ wellFormed i = true ∧ Issues s gid x.regs :=
  ⟨.bufq k0 14 10, _, sW, 1, rfl, by decide, issues_of (by decide +kernel)⟩

/-! ### Memory words -/

theorem witness_LoadsIssueOnce : ∃ i x s gid good, loadRule i = some x ∧ wellFormed i = true ∧ Issues s gid x.allRegs ∧ AllPass s (s.ctx gid) x.k (fun h => (x.addr h).toNat) x.size x.size .read good :=
  ⟨.ldN64 k0 14 4 0, _, sW, 1, _, rfl, by decide, issues_of (by decide +kernel), allPass_of (by decide +kernel)⟩
/-- A store to plain memory, and one into a region. -/
theorem witness_StoresGoOut : ∃ i x s gid good, storeRule i = some x ∧ wellFormed i = true ∧ Issues s gid x.allRegs ∧ AllPass s (s.ctx gid) x.k (fun h => (x.addr h).toNat) x.size x.size .write good ∧ (s.ctx gid).l.redundant = false ∧ inRegion good = false :=
  ⟨.stN64 k0 14 4 0, _, sW, 1, _, rfl, by decide, issues_of (by decide +kernel), allPass_of (by decide +kernel), by decide +kernel, by decide +kernel⟩
theorem witness_StoresGoOut_region : ∃ i x s gid good, storeRule i = some x ∧ wellFormed i = true ∧ Issues s gid x.allRegs ∧ AllPass s (s.ctx gid) x.k (fun h => (x.addr h).toNat) x.size x.size .write good ∧ (s.ctx gid).l.redundant = false ∧ inRegion good = true :=
  ⟨.stN64 k0 14 6 0, _, sW, 1, _, rfl, by decide, issues_of (by decide +kernel), allPass_of (by decide +kernel), by decide +kernel, by decide +kernel⟩
/-- The same launch as redundant teams, and the first page of memory as one under migration. -/
def sRd : State := { sW with launches := [{ placedLaunch with body := placedBody.take 0x14 ++ leBytes (1 + 2 ^ 9 + 64 * 2 ^ 25) 4 ++ placedBody.drop 0x18 }] }
def sMvg : State := { sW with cores := sW.cores.map fun e => (e.1, { e.2 with tlb := e.2.tlb.map fun x => if x.1 = 0 then (0, x.2.map fun y => { y with entry := y.entry + 2 ^ 52 }) else x }) }
theorem witness_StoresAreHeld : ∃ i x s gid good, storeRule i = some x ∧ wellFormed i = true ∧ Issues s gid x.allRegs ∧ AllPass s (s.ctx gid) x.k (fun h => (x.addr h).toNat) x.size x.size .write good ∧ (s.ctx gid).l.redundant = true ∧
    s.heldFull (s.grp gid).team = false ∧ (∀ e ∈ good, e.2.2.isDefault = false) ∧ s.findTeam (s.grp gid).team ≠ none :=
  ⟨.stN64 k0 14 4 0, _, sRd, 1, _, rfl, by decide, issues_of (by decide +kernel), allPass_of (by decide +kernel), by decide +kernel⟩
/-- One lane for all (U = 1), and every lane for itself. -/
theorem witness_MisalignedAccessParks : ∃ (i : Instr) (x : Access1) (s : State) (gid : Nat) (h : Thread) (rest : List Thread), (loadRule i = some x ∨ storeRule i = some x) ∧ wellFormed i = true ∧
    Issues s gid x.allRegs ∧ s.findGrp gid ≠ none ∧ (s.ctx gid).actors x.k = h :: rest ∧ (∀ y ∈ h :: rest, (x.addr y).toNat % x.size ≠ 0) ∧ x.k.u = true :=
  ⟨.ldw kU .none 14 4 0 .n32 2, _, sW, 1, (sW.ctx 1).members.headD (th 0), [], Or.inl rfl, by decide, issues_of (by decide +kernel), by decide +kernel, by decide +kernel, by decide +kernel, rfl⟩
theorem witness_MisalignedAccessParks_lanes : ∃ (i : Instr) (x : Access1) (s : State) (gid : Nat) (h : Thread) (rest : List Thread), (loadRule i = some x ∨ storeRule i = some x) ∧ wellFormed i = true ∧
    Issues s gid x.allRegs ∧ s.findGrp gid ≠ none ∧ (s.ctx gid).actors x.k = h :: rest ∧ (∀ y ∈ h :: rest, (x.addr y).toNat % x.size ≠ 0) ∧ (∀ j ∈ (s.grp gid).members, ∃ y ∈ h :: rest, y.idx = j) :=
  ⟨.stw k0 .none 14 4 0 .n32 2, _, sW, 1, (sW.ctx 1).members.headD (th 0), (sW.ctx 1).members.tail, Or.inr rfl, by decide, issues_of (by decide +kernel), by decide +kernel, by decide +kernel, by decide +kernel, by decide +kernel⟩
theorem witness_LineLoadIssues : ∃ k d a imm s gid good, wellFormed (.ldline k d a imm) = true ∧ Issues s gid ([a.toNat, a.toNat + 1] ++ lineRegs (s.ctx gid).l d) ∧ AllPass s (s.ctx gid) k (lineOf a imm) 1 128 .read good :=
  ⟨k0, 14, 4, 0, sW, 1, _, by decide, issues_of (by decide +kernel), allPass_of (by decide +kernel)⟩
theorem witness_LineStoreIssues : ∃ k d a imm s gid good, wellFormed (.stline k d a imm) = true ∧ Issues s gid ([a.toNat, a.toNat + 1] ++ lineRegs (s.ctx gid).l d) ∧ AllPass s (s.ctx gid) k (lineOf a imm) 1 128 .write good ∧
    (s.ctx gid).l.redundant = false ∧ (∀ e ∈ good, e.2.2.key % 128 = 0) ∧ (∀ e ∈ good, (s.ctx gid).lane e.1 < (s.ctx gid).l.w) ∧ inRegion good = false :=
  ⟨k0, 14, 4, 0, sW, 1, _, by decide, issues_of (by decide +kernel), allPass_of (by decide +kernel), by decide +kernel, by decide +kernel, by decide +kernel, by decide +kernel⟩
theorem witness_StnaIssues : ∃ (k : Ctl) (m : StnaSize) (d a : Reg) (disp : Bits16) (pd : Pred) (s : State) (gid : Nat) (good : List GoodLane), wellFormed (.stna k m d a disp pd) = true ∧
    Issues s gid ([a.toNat, a.toNat + 1] ++ (List.range ((m.bytes + 3) / 4)).map (· + d.toNat)) ∧ AllPass s (s.ctx gid) k (fun h => (P64 h a + disp.signExtend 64).toNat) m.bytes m.bytes .write good ∧ (s.ctx gid).l.redundant = false ∧ stays good = false :=
  ⟨k0, .n32, 14, 4, 0, 2, sW, 1, _, by decide, issues_of (by decide +kernel), allPass_of (by decide +kernel), by decide +kernel⟩
/-- The same words at a page under migration. -/
theorem witness_StnaIssues_moving : ∃ good, AllPass sMvg (sMvg.ctx 1) k0 (fun h => (P64 h 4 + (0 : Bits16).signExtend 64).toNat) 4 4 .write good ∧ (sMvg.ctx 1).l.redundant = false ∧ stays good = true :=
  ⟨_, allPass_of (by decide +kernel), by decide +kernel⟩
theorem witness_AtomIssues_moving : ∃ good, AllPass sMvg (sMvg.ctx 1) k0 (fun h => (P64 h 4).toNat) 8 8 .atomic good ∧ inRegion good = false ∧ stays good = true :=
  ⟨_, allPass_of (by decide +kernel), by decide +kernel⟩
theorem witness_AtomIssues : ∃ (k : Ctl) (noret : Bool) (d a b c : Reg) (op : AtomOp) (wide : Bool) (scope : Scope) (order : AtomOrder) (s : State) (gid : Nat) (good : List GoodLane),
    wellFormed (.atom k noret d a b c op wide scope order) = true ∧ Issues s gid (atomRegs noret wide d a b c op) ∧
    AllPass s (s.ctx gid) k (fun h => (P64 h a).toNat) (if wide then 8 else 4) (if wide then 8 else 4) .atomic good ∧ (s.ctx gid).l.redundant = false ∧ (s.grp gid).team.shadow = false ∧ inRegion good = false ∧ stays good = false :=
  ⟨k0, false, 14, 4, 10, 12, .cas, true, .die, .acqrel, sW, 1, _, by decide, issues_of (by decide +kernel), allPass_of (by decide +kernel), by decide +kernel⟩
theorem witness_AtomIssues_region : ∃ good, AllPass sW (sW.ctx 1) k0 (fun h => (P64 h 6).toNat) 4 4 .atomic good ∧ inRegion good = true :=
  ⟨_, allPass_of (by decide +kernel), by decide +kernel⟩

/-! ### Homes, standing loads, regions -/

/-- The state that a word leaves; its operation, an access of it, and the first write under way. -/
def nxt (o : Host.Outcome State Fault Refusal) : State := match o with | .next t => t | _ => State.reset
def opOf (s : State) : Op := s.ops.headD { id := 0, team := tid, core := 0, gids := [], flag := none, cls := 0, kind := .ready }
def accOf (s : State) : Acc := (opOf s).accs.headD { thread := 0, va := 0, key := 0, size := 0, home := 0, vec := {} }
def wrOf (s : State) : Write := s.writes.headD { id := 0, key := 0, bytes := [], origin := 0, stamp := 0, clk := {}, home := 0, l1 := none }
def sLd : State := nxt (exec (.ldI16 kU 14 4 0) sW)
def sQy : State := nxt (exec (.bufq k0 14 10) sW)
def sSt : State := nxt (exec (.stN64 kU 14 4 0) sW)
def sAt : State := nxt (exec (.atom kU false 14 4 10 12 .cas true .die .acqrel) sW)
def sAc : State := nxt (exec (.atom kU false 14 4 10 12 .cas true .die .acquire) sW)
def sLds : State := nxt (exec (.lds kU .n64 14 4 2) sW)
def sAp : State := nxt (exec (.append k0 14 8 12 12) sW)

theorem witness_HomeServesLoad : ∃ (s : State) (o : Op) (a : Acc), s.findOp o.id = some o ∧ o.isReady = false ∧ o.kind = .load 2 true ∧ o.accs = [] ++ [a] ∧ a.done = false ∧ (s.team o.team).held = [] ∧
    s.hasReplica o.core a.key = false ∧ s.behind o.team a.thread a.key a.size o.id = false ∧ (∀ i < a.size, s.homeReady (s.homeOf (a.key + i)) a.vec = true) ∧ s.poisoned o.core a.key a.size a.vec = false :=
  ⟨sLd, opOf sLd, accOf sLd, by decide +kernel⟩
theorem witness_OperationResultsWritten : ∃ (s : State) (o : Op), s.findOp o.id = some o ∧ s.opDone o = true ∧ (∀ m, o.kind ≠ .push m) ∧ (∀ u, o.kind ≠ .pop u) ∧ (∀ u r, o.kind ≠ .frame u r) ∧ o.final ≠ [] ∧ ∀ r ∈ o.final, ∃ h ∈ (s.team o.team).threads, h.idx = r.1 :=
  have ready : OpKind.ready = (opOf sQy).kind := by decide +kernel
  ⟨sQy, opOf sQy, by decide +kernel, by decide +kernel, fun _ h => OpKind.noConfusion (ready.trans h), fun _ h => OpKind.noConfusion (ready.trans h), fun _ _ h => OpKind.noConfusion (ready.trans h), by decide +kernel, by decide +kernel⟩
theorem witness_LoadedValuesExtend : ∃ (s : State) (o : Op) (a : Acc), s.findOp o.id = some o ∧ o.kind = .load 2 true ∧ o.accs = [a] ∧ o.results = [] ∧ o.all = [] ∧ a.done = true ∧ a.fault = 0 ∧ o.verdict = false ∧
    (s.team o.team).threads.any (fun h => h.idx == a.thread) = true ∧ s.findTeam o.team ≠ none ∧ Store.wf 0 (s.thread o.team a.thread).regs = true :=
  let o := { opOf sLd with all := [], accs := [{ accOf sLd with done := true, val := 0x8000 }] }
  ⟨{ sLd with ops := [o] }, o, { accOf sLd with done := true, val := 0x8000 }, by decide +kernel⟩
theorem witness_HomeAppliesWrite : ∃ (s : State) (w : Write), findBy (fun x : Write => x.id == w.id) s.writes = some w ∧ s.canApply w = true ∧ w.segs = [] ∧ Carries w ∧ Plain s w.key w.bytes.length ∧ Memory.wf s.mem = true ∧ Store.wf none s.outMem = true :=
  ⟨sSt, wrOf sSt, by decide +kernel, by decide +kernel, by decide +kernel, fun _ _ _ _ _ h => absurd ((show none = (wrOf sSt).ext by decide +kernel).trans h) nofun, by unfold Plain; decide +kernel, by decide +kernel, by decide +kernel⟩
theorem witness_AtomPerforms : ∃ (s : State) (o : Op) (a : Acc) (w : Write), s.findOp o.id = some o ∧ o.isReady = false ∧ o.kind = .atom .cas true false true 4 false ∧ o.accs = [] ++ [a] ∧ s.placeOf a = some w ∧ s.atomReady a w = true ∧ o.team.shadow = false ∧
    a.size = 64 / 8 ∧ a.opnd < 2 ^ 64 ∧ a.cmp < 2 ^ 64 ∧ a.fault = 0 ∧ s.poisoned o.core a.key a.size a.vec = false ∧ Plain s a.key a.size ∧ Memory.wf s.mem = true ∧ Store.wf none s.outMem = true :=
  ⟨sAc, opOf sAc, accOf sAc, wrOf sAc, by unfold Plain; decide +kernel⟩
theorem witness_LdsIssues : ∃ k sz d a pd s gid n good, wellFormed (.lds k sz d a pd) = true ∧ n = ldsBytes sz ∧ Issues s gid ([a.toNat, a.toNat + 1] ++ (List.range (n / 4)).map (· + d.toNat)) ∧
    AllPass s (s.ctx gid) k (fun h => (P64 h a).toNat) n n .read good ∧ (∀ h ∈ (s.ctx gid).actors k, slotOf h d < (s.ctx gid).l.slots) :=
  ⟨k0, .n64, 14, 4, 2, sW, 1, 8, _, by decide, rfl, issues_of (by decide +kernel), allPass_of (by decide +kernel), by decide +kernel⟩
theorem witness_LdsPerforms : ∃ (s : State) (o : Op) (a : Acc), s.findOp o.id = some o ∧ o.isReady = false ∧ o.kind = .lds true ∧ o.accs = [] ++ [a] ∧ a.done = false ∧ s.homeReady a.home a.vec = true ∧ s.poisoned o.core a.key a.size a.vec = false ∧ o.team.shadow = false ∧ s.behind o.team a.thread a.key a.size o.id = false ∧ s.ldsPending o.team o.core a.opnd o.id = false ∧
    (s.launch o.team.launch).redundant = false ∧ s.mooringOf o.team o.core a.opnd = none ∧ s.findTeam o.team ≠ none ∧ Memory.wf (s.team o.team).scratch = true :=
  ⟨sLds, opOf sLds, accOf sLds, by decide +kernel⟩
theorem witness_UnslIssues : ∃ k a s gid, wellFormed (.unsl k a) = true ∧ Issues s gid [a.toNat] ∧ s.findGrp gid ≠ none ∧ (s.grp gid).park = none ∧ (s.grp gid).members ≠ [] ∧ (s.ctx gid).actors k ≠ [] ∧
    (∀ h ∈ (s.ctx gid).actors k, slotOf h a < (s.ctx gid).l.slots) :=
  ⟨k0, 10, sW, 1, by decide, issues_of (by decide +kernel), by decide +kernel⟩
/-- pgq on any page; enumpg on a region's page, its map inside the scratchpad. -/
theorem witness_RegionQueriesIssue : ∃ k d a s gid good, AllPass s (s.ctx gid) k (fun h => (P64 h a).toNat) 1 1 .read good ∧ wellFormed (.pgq k d a) = true ∧ Issues s gid [a.toNat, a.toNat + 1, d.toNat, d.toNat + 1] :=
  ⟨k0, 14, 4, sW, 1, _, allPass_of (by decide +kernel), by decide, issues_of (by decide +kernel)⟩
theorem witness_RegionQueriesIssue_enum : ∃ (k : Ctl) (d a b c0 : Reg) (words : Bits8) (s : State) (gid : Nat) (good : List GoodLane), AllPass s (s.ctx gid) k (fun h => (P64 h a).toNat) 1 1 .read good ∧
    wellFormed (.enumpgNext k d a b) = true ∧ Issues s gid [a.toNat, a.toNat + 1, d.toNat, d.toNat + 1, b.toNat] ∧ (∀ e ∈ good, e.2.2.region ≠ none) ∧
    wellFormed (.enumpgMap k a b c0 words) = true ∧ Issues s gid [a.toNat, a.toNat + 1, b.toNat, c0.toNat] ∧
    ∀ e ∈ good, (V e.1 c0).toNat % 4 = 0 ∧ (V e.1 c0).toNat + 4 * (words.toNat + 1) ≤ padTop (s.ctx gid).l ∧ NoBuffer (s.ctx gid) (V e.1 c0).toNat ((V e.1 c0).toNat + 4 * (words.toNat + 1)) :=
  ⟨k0, 14, 6, 10, 11, 255, sW, 1, _, allPass_of (by decide +kernel), by decide, issues_of (by decide +kernel), by decide +kernel, by decide, issues_of (by decide +kernel), by unfold NoBuffer; decide +kernel⟩
theorem witness_AppendIssues : ∃ (k : Ctl) (d a b c0 : Reg) (s : State) (gid : Nat) (h : Thread) (rest : List Thread) (tr : Tr), wellFormed (.append k d a b c0) = true ∧
    Issues s gid ([d.toNat, d.toNat + 1, a.toNat, a.toNat + 1] ++ (List.range 4).map (· + b.toNat) ++ [c0.toNat]) ∧ s.findGrp gid ≠ none ∧ (s.grp gid).park = none ∧ (s.grp gid).members ≠ [] ∧
    (s.ctx gid).actors k = h :: rest ∧ (∀ x ∈ h :: rest, (V x c0).toNat ≤ 16) ∧ (s.ctx gid).l.redundant = false ∧ (s.grp gid).team.shadow = false ∧
    s.checkAppend (s.core (s.ctx gid).core).tlb (s.ctx gid).l.tenant (s.ctx gid).l.asid (P64 h a).toNat = .ok tr :=
  ⟨k0, 14, 8, 12, 12, sW, 1, (sW.ctx 1).members.headD (th 0), (sW.ctx 1).members.tail, _, by decide, issues_of (by decide +kernel), by decide +kernel, by decide +kernel, by decide +kernel, by decide +kernel, by decide +kernel, by decide +kernel, by decide +kernel, rfl⟩
/-- An open region, and one in each other state: seal and free of each. -/
theorem witness_SealAndFreeAct (st : Fin 4) : ∃ (k : Ctl) (a : Reg) (s : State) (gid : Nat) (h : Thread) (tr : Tr) (r : Region), Issues s gid [a.toNat, a.toNat + 1] ∧ ((s.ctx gid).active k).head? = some h ∧
    s.checkAppend (s.core (s.ctx gid).core).tlb (s.ctx gid).l.tenant (s.ctx gid).l.asid (P64 h a).toNat = .ok tr ∧ tr.region = some r ∧ s.findRegion r.id = some r ∧ (s.ctx gid).l.redundant = false ∧ s.findGrp gid ≠ none ∧ (∀ x ∈ s.ops, x.id ≠ s.nextId) ∧
    s.findLaunch (s.ctx gid).l.id = some (s.ctx gid).l ∧ (s.ctx gid).l.replayable = false ∧ r.st = st.val ∧ wellFormed (.sealRegion k a) = true ∧ wellFormed (.freeRegion k a) = true :=
  match st with
  | 0 => ⟨k0, 8, sReg 0, 1, (sW.ctx 1).members.headD (th 0), _, { regA with st := 0 }, issues_of (by decide +kernel), by decide +kernel, rfl, by decide +kernel⟩
  | 1 => ⟨k0, 8, sReg 1, 1, (sW.ctx 1).members.headD (th 0), _, { regA with st := 1 }, issues_of (by decide +kernel), by decide +kernel, rfl, by decide +kernel⟩
  | 2 => ⟨k0, 8, sReg 2, 1, (sW.ctx 1).members.headD (th 0), _, { regA with st := 2 }, issues_of (by decide +kernel), by decide +kernel, rfl, by decide +kernel⟩
  | 3 => ⟨k0, 8, sReg 3, 1, (sW.ctx 1).members.headD (th 0), _, { regA with st := 3 }, issues_of (by decide +kernel), by decide +kernel, rfl, by decide +kernel⟩

/-! ### Scratchpad, tags, buffers -/

theorem witness_ScratchStores : ∃ k d a imm s gid, wellFormed (.stsc k d a imm) = true ∧ Issues s gid [a.toNat, d.toNat] ∧ s.findGrp gid ≠ none ∧ (s.grp gid).park = none ∧ (s.grp gid).members ≠ [] ∧ s.findTeam (s.grp gid).team ≠ none ∧
    ∀ h ∈ (s.ctx gid).actors k, padOff h a imm % 4 = 0 ∧ padOff h a imm + 4 ≤ padTop (s.ctx gid).l ∧ NoBuffer (s.ctx gid) (padOff h a imm) (padOff h a imm + 4) :=
  ⟨k0, 12, 11, -1, sW, 1, by decide, issues_of (by decide +kernel), by decide +kernel, by decide +kernel, by decide +kernel, by decide +kernel, by unfold NoBuffer; decide +kernel⟩
/-- The last word of the mooring area may be read. -/
theorem witness_ScratchLoads : ∃ k d a imm s gid, wellFormed (.ldsc k d a imm) = true ∧ Issues s gid [a.toNat, d.toNat] ∧ s.findGrp gid ≠ none ∧ (s.grp gid).park = none ∧ (s.grp gid).members ≠ [] ∧ (s.ctx gid).actors k ≠ [] ∧
    ∀ h ∈ (s.ctx gid).actors k, padOff h a imm % 4 = 0 ∧ padOff h a imm + 4 ≤ (s.ctx gid).l.scratch ∧ NoBuffer (s.ctx gid) (padOff h a imm) (padOff h a imm + 4) ∧
      (s.team (s.grp gid).team).badBytes (half (s.ctx gid)) (padOff h a imm) (padOff h a imm + 4) = false :=
  let top : BitVec 32 := BitVec.ofNat 32 ((sW.ctx 1).l.scratch - 4)
  let s : State := { sW with teams := sW.teams.map fun t => { t with threads := t.threads.map fun h => { h with regs := Store.set 0 h.regs 11 top } } }
  ⟨k0, 14, 11, 0, s, 1, by decide, issues_of (by decide +kernel), by decide +kernel, by decide +kernel, by decide +kernel, by decide +kernel, by unfold NoBuffer; decide +kernel⟩
theorem witness_TagWordsWrite : ∃ k d a b s gid, s.findGrp gid ≠ none ∧ (s.grp gid).park = none ∧ (s.grp gid).members ≠ [] ∧ s.findTeam (s.grp gid).team ≠ none ∧ wellFormed (.tset k d a b) = true ∧ Issues s gid [d.toNat, a.toNat, a.toNat + 1, b.toNat] ∧
    (∀ h ∈ (s.ctx gid).actors k, (V h d).toNat % 512 < (s.ctx gid).l.tagCount) ∧ wellFormed (.tclr k d) = true ∧ wellFormed (.tclrAll k) = true ∧ (s.ctx gid).active k ≠ [] :=
  ⟨k0, 10, 4, 12, sW, 1, by decide +kernel, by decide +kernel, by decide +kernel, by decide +kernel, by decide, issues_of (by decide +kernel), by decide +kernel⟩
theorem witness_BufferDeclarations : ∃ k d a b rot cmp s gid h, wellFormed (.bufdecl k d a b rot cmp) = true ∧ Issues s gid [d.toNat, a.toNat, b.toNat] ∧ ((s.ctx gid).active k).head? = some h ∧
    (V h a).toNat % 128 = 0 ∧ (V h b).toNat % 128 = 0 ∧ (V h b).toNat ≠ 0 ∧ (V h b).toNat ≤ 2 ^ 19 ∧ (V h a).toNat + (V h b).toNat ≤ padTop (s.ctx gid).l ∧ NoBuffer (s.ctx gid) (V h a).toNat ((V h a).toNat + (V h b).toNat) :=
  ⟨k0, 14, 11, 13, 0, false, sW, 1, (sW.ctx 1).members.headD (th 0), by decide, issues_of (by decide +kernel), by decide +kernel, by decide +kernel, by decide +kernel, by decide +kernel, by decide +kernel, by decide +kernel, by unfold NoBuffer; decide +kernel⟩
/-- Each state of the named buffer, with nothing that may fill or consume it. -/
theorem witness_BufferMarks : ∀ st < 4, Issues (sBuf st) 1 [14] ∧ ((sBuf st).ctx 1).t.buf ((sBuf st).ctx 1).core 0 = some { handle := 0, core := 0, base := 0x8000, len := 128, rot := 0, cmp := false, st := st } ∧
    (((sBuf st).ctx 1).active k0).head? = ((sBuf st).ctx 1).members.head? ∧ ((sBuf st).ctx 1).members.map (fun h => V h 14) = [0, 0] ∧
    ∀ f, (sBuf st).bufBusy tid { handle := 0, core := 0, base := 0x8000, len := 128, rot := 0, cmp := false, st := st } f = false := by unfold Issues; decide +kernel
/-- A group held at its bufmark.full of a FILLING buffer, and at its bufmark.empty of a DRAINING one; its clause is fetched. -/
def gHeld (w : Nat) : Grp := { g1 with held := 10, word := 0, header := 0x00200021, words := [0x00200021, w], pc := 0x40 }
def sHeld (st w : Nat) : State := { sBuf st with current := none, groups := [gHeld w] }
theorem witness_BufferTransitions : ∃ (k : Ctl) (a : Reg) (s : State) (gid : Nat) (g : Grp) (n : Next) (h : Thread) (b : Buf), let u : State := { s with current := some gid }
    s.findGrp gid = some g ∧ g.held = 10 ∧ s.nextWord g = .ok (some n) ∧ Issues u gid [a.toNat] ∧ ((u.ctx gid).active k).head? = some h ∧ (u.ctx gid).t.buf (u.ctx gid).core (V h a).toNat = some b ∧
    n.instr g.word = some (.bufmarkFull k a) ∧ b.st = 1 ∧ u.bufBusy (u.ctx gid).g.team b true = false :=
  ⟨k0, 14, sHeld 1 0x0A440380, 1, gHeld 0x0A440380, ⟨0x00200021, 0x0A440380, none⟩, (sW.ctx 1).members.headD (th 0), _, rfl, rfl, rfl, issues_of (by decide +kernel), by decide +kernel, rfl, by decide +kernel, by decide +kernel, by decide +kernel⟩
theorem witness_BufferTransitions_empty : ∃ (k : Ctl) (a : Reg) (s : State) (gid : Nat) (g : Grp) (n : Next) (h : Thread) (b : Buf), let u : State := { s with current := some gid }
    s.findGrp gid = some g ∧ g.held = 10 ∧ s.nextWord g = .ok (some n) ∧ Issues u gid [a.toNat] ∧ ((u.ctx gid).active k).head? = some h ∧ (u.ctx gid).t.buf (u.ctx gid).core (V h a).toNat = some b ∧
    n.instr g.word = some (.bufmarkEmpty k a) ∧ (b.st = 2 ∨ b.st = 3) ∧ u.bufBusy (u.ctx gid).g.team b false = false :=
  ⟨k0, 14, sHeld 3 0x0A480380, 1, gHeld 0x0A480380, ⟨0x00200021, 0x0A480380, none⟩, (sW.ctx 1).members.headD (th 0), _, rfl, rfl, rfl, issues_of (by decide +kernel), by decide +kernel, rfl, by decide +kernel, by decide +kernel, by decide +kernel⟩

/-! ### Channels, queues, control -/

/-- A channel with room for both lanes, and one with one place left. -/
def cop (n : Nat) : ChOp := { bytes := [], seq := n, tenant := 0, asid := 0, launch := 1, team := tid, core := 0, obs := {} }
def sCh (n : Nat) : State := { sW with chans := [(.core 0 1, { lastSeq := 5, timeline := 4, ops := List.replicate n (cop 5) })] }
theorem witness_ChannelSubmissions (n : Fin 2) : ∃ (i : Instr) (want ch : Nat) (k : Ctl) (d a : Reg) (s : State) (gid : Nat) (left : List Thread), submitRule i = some (want, k, d, a, ch) ∧ wellFormed i = true ∧
    Issues s gid ([d.toNat, d.toNat + 1] ++ (List.range 16).map (· + a.toNat)) ∧ Stands s gid ∧ left = ((s.ctx gid).actors k).filter (fun x => !(s.grp gid).doneLanes.contains x.idx) ∧
    (∀ o ∈ s.ops, ∀ m, o.kind ≠ .matrix m) ∧ (want = 3 → ∀ j < 8, min left.length (16 - (s.chan (.core (s.ctx gid).core ch)).ops.length) ≤ Store.get 0 (s.core (s.ctx gid).core).free j) ∧ (s.ctx gid).l.redundant = false ∧
    (∀ o ∈ (s.chan (.core (s.ctx gid).core ch)).ops, o.seq ≤ (s.chan (.core (s.ctx gid).core ch)).lastSeq) ∧ decide (min left.length (16 - (s.chan (.core (s.ctx gid).core ch)).ops.length) = left.length) = decide (n = 0) :=
  match n with
  | 0 => ⟨.copym k0 28 32 1, 3, 1, k0, 28, 32, sCh 14, 1, _, rfl, by decide, issues_of (by decide +kernel), ⟨⟨g1, by decide +kernel, rfl⟩, by decide +kernel, by decide +kernel⟩, rfl, fun _ h => absurd h (List.not_mem_nil (α := Op)), by decide +kernel⟩
  | 1 => ⟨.copym k0 28 32 1, 3, 1, k0, 28, 32, sCh 15, 1, _, rfl, by decide, issues_of (by decide +kernel), ⟨⟨g1, by decide +kernel, rfl⟩, by decide +kernel, by decide +kernel⟩, rfl, fun _ h => absurd h (List.not_mem_nil (α := Op)), by decide +kernel⟩
theorem witness_QueueAppendIssues : ∃ k d a b pd s gid, wellFormed (.qappend k d a b pd) = true ∧ Issues s gid ([d.toNat, d.toNat + 1, a.toNat] ++ (List.range 16).map (· + b.toNat)) ∧ Stands s gid ∧
    (s.ctx gid).actors k ≠ [] ∧ (∀ h ∈ (s.ctx gid).actors k, s.queueOpen (s.ctx gid).l.tenant ((V h a).toNat % 2048) = true) ∧ (s.grp gid).team.shadow = false :=
  ⟨k0, 14, 28, 32, 2, sW, 1, by decide, issues_of (by decide +kernel), stands_sW, by decide +kernel⟩
theorem witness_TimelineAndSlotWords : ∃ k d a b s gid, Stands s gid ∧ wellFormed (.tlrdQ k d a) = true ∧ Issues s gid [d.toNat, d.toNat + 1, a.toNat] ∧ (∀ h ∈ (s.ctx gid).actors k, bitsOf (s.queue ((V h a).toNat % 2048)).qctl.toNat 24 4 = (s.ctx gid).l.tenant) ∧
    wellFormed (.relslot k a b) = true ∧ Issues s gid [a.toNat, b.toNat] :=
  ⟨k0, 14, 28, 12, sW, 1, stands_sW, by decide, issues_of (by decide +kernel), by decide +kernel, by decide, issues_of (by decide +kernel)⟩
/-- A branch to a clause header, one to no header, and one by a register; a divergent one, with Gd = 1 and one guard false. -/
theorem witness_Branches : ∃ k off s gid, Stands s gid ∧ wellFormed (.bra k off) = true ∧ Issues s gid [] ∧ s.isHeader (s.ctx gid).l.tenant (s.ctx gid).l.asid (directTarget s gid off) = true :=
  ⟨k0, 31, sW, 1, stands_sW, by decide, issues_of (by decide +kernel), by decide +kernel⟩
theorem witness_Branches_bad : ∃ k off s gid, Stands s gid ∧ wellFormed (.bra k off) = true ∧ wellFormed (.call k off) = true ∧ Issues s gid [] ∧ s.isHeader (s.ctx gid).l.tenant (s.ctx gid).l.asid (directTarget s gid off) = false :=
  ⟨k0, 32, sW, 1, stands_sW, by decide, by decide, issues_of (by decide +kernel), by decide +kernel⟩
/-- The second lane's pair names no header. -/
def sMiss : State := { sW with teams := sW.teams.map fun t => { t with threads := t.threads.map fun h => if h.idx = 1 then { h with regs := Store.set 0 h.regs 16 0x84 } else h } }
theorem witness_Branches_missed : ∃ (k : Ctl) (a : Reg) (s : State) (gid : Nat) (ok : List Thread) (h : Thread) (rest : List Thread), Stands s gid ∧ wellFormed (.brx k a) = true ∧ wellFormed (.callx k a) = true ∧ Issues s gid [a.toNat, a.toNat + 1] ∧
    (s.ctx gid).actors k = ok ++ h :: rest ∧ ok ≠ [] ∧ (∀ x ∈ ok, Target s gid (P64 x a).toNat) ∧ ¬Target s gid (P64 h a).toNat :=
  ⟨k0, 16, sMiss, 1, (sMiss.ctx 1).members.take 1, (sMiss.ctx 1).members.getD 1 (th 0), [], ⟨⟨g1, by decide +kernel, rfl⟩, by decide +kernel, by decide +kernel⟩, by decide, by decide, issues_of (by decide +kernel), by decide +kernel, by decide +kernel, by unfold Target; decide +kernel, by unfold Target; decide +kernel⟩
theorem witness_Branches_register : ∃ k a s gid, Stands s gid ∧ wellFormed (.brx k a) = true ∧ Issues s gid [a.toNat, a.toNat + 1] ∧ ∀ h ∈ (s.ctx gid).actors k, Target s gid (P64 h a).toNat :=
  ⟨k0, 16, sW, 1, stands_sW, by decide, issues_of (by decide +kernel), by unfold Target; decide +kernel⟩
def sGd : State := { sW with teams := sW.teams.map fun t => { t with threads := t.threads.map fun h => { h with guard := decide (h.idx = 0) } } }
theorem witness_Branches_divergent : Stands sGd 1 ∧ Splits sGd 1 (moved sGd 1 ⟨false, false, true⟩) (fun _ => directTarget sGd 1 31) ∧ sGd.isHeader 0 0 (directTarget sGd 1 31) = true :=
  ⟨⟨⟨g1, by decide +kernel, rfl⟩, by decide +kernel, by decide +kernel⟩, ⟨0, by decide +kernel, by decide +kernel, 1, by decide +kernel, Or.inl (by decide +kernel)⟩, by decide +kernel⟩
theorem witness_Calls : ∃ (k : Ctl) (off : Off20) (a : Reg) (s : State) (gid : Nat) (good : List GoodLane), Stands s gid ∧ AllPass s (s.ctx gid) k (fun h => (h.sp - 8).toNat) 8 8 .write good ∧ inRegion good = false ∧ (s.ctx gid).l.redundant = false ∧
    wellFormed (.call k off) = true ∧ Issues s gid [] ∧ s.isHeader (s.ctx gid).l.tenant (s.ctx gid).l.asid (directTarget s gid off) = true ∧
    wellFormed (.callx k a) = true ∧ Issues s gid [a.toNat, a.toNat + 1] ∧ ∀ h ∈ (s.ctx gid).actors k, Target s gid (P64 h a).toNat :=
  ⟨k0, 31, 16, sW, 1, _, stands_sW, allPass_of (by decide +kernel), by decide +kernel, by decide +kernel, by decide, issues_of (by decide +kernel), by decide +kernel, by decide, issues_of (by decide +kernel), by unfold Target; decide +kernel⟩
/-- Return addresses 0x80 on both stacks; in memory, and dirty in the core's L1. -/
def sRet : State := { sW with mem := [(0x21004, 9), (0x22100, 0x80), (0x22140, 0x80)] }
def retWrite (n key : Nat) : Write := { id := n, key := key, bytes := leBytes 0x80 8, origin := 0, stamp := 0, clk := {}, home := 0, l1 := some 0 }
def sNear : State := { sW with writes := [retWrite 30 0x22100, retWrite 31 0x22140] }
theorem witness_Returns : ∃ (k : Ctl) (s : State) (gid : Nat) (good : List GoodLane), wellFormed (.ret k) = true ∧ Issues s gid [] ∧ Stands s gid ∧ AllPass s (s.ctx gid) k (fun h => h.sp.toNat) 8 8 .read good ∧
    ∀ a ∈ loadsOf s (s.ctx gid) good, a.done = true ∧ Target s gid a.val :=
  ⟨k0, sNear, 1, _, by decide, issues_of (by decide +kernel), ⟨⟨g1, by decide +kernel, rfl⟩, by decide +kernel, by decide +kernel⟩, allPass_of (by decide +kernel), by unfold Target; decide +kernel⟩
theorem witness_Returns_far : ∃ (k : Ctl) (s : State) (gid : Nat) (good : List GoodLane), wellFormed (.ret k) = true ∧ Issues s gid [] ∧ Stands s gid ∧ AllPass s (s.ctx gid) k (fun h => h.sp.toNat) 8 8 .read good ∧
    ∃ a ∈ loadsOf s (s.ctx gid) good, a.done = false :=
  ⟨k0, sRet, 1, _, by decide, issues_of (by decide +kernel), ⟨⟨g1, by decide +kernel, rfl⟩, by decide +kernel, by decide +kernel⟩, allPass_of (by decide +kernel), by decide +kernel⟩
/-- The loads of a ret, or the frame loads of a tret, that have all been served. -/
def awaiting (s : State) (f : Acc → Acc) : State := { s with ops := s.ops.map fun o => { o with accs := o.accs.map fun a => f { a with done := true } } }
theorem awaited_of {s : State} {o : Op} {gid : Nat} {u : Bool} (st : Stands s gid)
    (ofOp : s.findOp o.id = some o ∧ o.verdict = true ∧ o.gids = [gid] ∧ o.team = (s.grp gid).team ∧ o.all = (if u then (s.grp gid).members else []) ∧ o.results = [] ∧ o.accs ≠ [])
    (ofAccs : ∀ a ∈ o.accs, (a.done = true ∧ a.fault = 0) ∧ a.thread ∈ (s.grp gid).members)
    (ofGrp : (s.grp gid).regroup = false ∧ ∀ i ∈ (s.grp gid).members, (s.thread (s.grp gid).team i).st = .issuing gid) : Awaited s o gid u :=
  have ⟨op, verdict, gids, team, all, results, some_⟩ := ofOp
  { op, verdict, gids, team, all, results, some_, stands := st, served := fun a m => (ofAccs a m).1, ofMembers := fun a m => (ofAccs a m).2, regroup := ofGrp.1, issuing := ofGrp.2 }
def sPop : State := awaiting (nxt (exec (.ret k0) sRet)) fun a => { a with val := 0x80 }
theorem witness_Returns_served : ∃ (s : State) (o : Op) (gid : Nat) (u : Bool), Awaited s o gid u ∧ o.kind = .pop u ∧ (o.accs.map (·.thread)).Nodup ∧ ∀ a ∈ o.accs, Target s gid a.val :=
  ⟨sPop, opOf sPop, 1, false, awaited_of ⟨⟨sPop.grp 1, by decide +kernel, by decide +kernel⟩, by decide +kernel, by decide +kernel⟩ (by decide +kernel) (by decide +kernel) (by decide +kernel), by decide +kernel, by decide +kernel, by unfold Target; decide +kernel⟩

/-! ### Joins, barriers, waits -/

theorem witness_JoinSetAndPassingWords : ∃ k j s gid, Stands s gid ∧ Issues s gid [] ∧ wellFormed (.jset k j) = true ∧ wellFormed (.nop k) = true ∧ wellFormed (.icsync k) = true ∧ Store.wf {} s.quads = true :=
  ⟨k0, 7, sW, 1, stands_sW, issues_of (by decide +kernel), by decide, by decide, by decide, by decide +kernel⟩
/-- Another thread is pending on mask 1; none is on mask 0. -/
theorem witness_JoinWaits : ∃ k j s gid, wellFormed (.jwait k j) = true ∧ Issues s gid [] ∧ Stands s gid ∧ ∃ x ∈ (s.team (s.grp gid).team).pending.getD j.toNat [], x ∉ ((s.ctx gid).actors k).map (·.idx) :=
  ⟨k0, 1, sW, 1, by decide, issues_of (by decide +kernel), stands_sW, by decide +kernel⟩
theorem witness_JoinWaits_last : ∃ k j s gid, wellFormed (.jwait k j) = true ∧ Issues s gid [] ∧ Stands s gid ∧ (∀ x ∈ (s.team (s.grp gid).team).pending.getD j.toNat [], x ∈ ((s.ctx gid).actors k).map (·.idx)) ∧
    ∃ x ∈ ((s.ctx gid).actors k).map (·.idx), x ∈ (s.team (s.grp gid).team).rejoin.getD j.toNat [] :=
  ⟨k0, 0, sW, 1, by decide, issues_of (by decide +kernel), stands_sW, by decide +kernel⟩
theorem busy_sW : ∃ h ∈ (sW.team tid).threads, h.idx ∉ (sW.grp 1).members ∧ ∃ g, h.st = .issuing g := ⟨{ th 9 with st := .issuing 9 }, by decide +kernel, by decide +kernel, 9, rfl⟩
theorem witness_BarrierArrivals : ∃ k s gid, Issues s gid [] ∧ Stands s gid ∧ (∃ h ∈ (s.team (s.grp gid).team).threads, h.idx ∉ (s.grp gid).members ∧ ∃ g, h.st = .issuing g) ∧ wellFormed (.tbar k) = true ∧ wellFormed (.pbar k) = true ∧ (s.ctx gid).l.pair = false :=
  ⟨k0, sW, 1, issues_of (by decide +kernel), stands_sW, busy_sW, by decide, by decide, by decide +kernel⟩
theorem witness_BarrierArrivals_pair : ∃ k s gid, Issues s gid [] ∧ Stands s gid ∧ (∃ h ∈ (s.team (s.grp gid).team).threads, h.idx ∉ (s.grp gid).members ∧ ∃ g, h.st = .issuing g) ∧ wellFormed (.pbar k) = true ∧ (s.ctx gid).l.pair = true :=
  ⟨k0, sPair, 1, issues_of (by decide +kernel), ⟨⟨g1, by decide +kernel, rfl⟩, by decide +kernel, by decide +kernel⟩, ⟨{ th 9 with st := .issuing 9 }, by decide +kernel, by decide +kernel, 9, rfl⟩, by decide, by decide +kernel⟩
/-- Two threads wait at the barrier and the third has ended. -/
def sBar : State := { sW with current := none, groups := [], teams := sW.teams.map fun t => { t with threads := [{ th 0 with st := .waiting .tbar 0x80 }, { th 1 with st := .waiting .tbar 0xC0 }, { th 9 with st := .exited }] } }
theorem witness_TeamBarrierReleases : ∃ (s : State) (id : TeamId), s.findTeam id ≠ none ∧ (s.launch id.launch).redundant = false ∧ (∀ o ∈ s.ops, o.team ≠ id) ∧ (∃ h ∈ (s.team id).threads, h.st ≠ .exited) ∧
    (∀ h ∈ (s.team id).threads, h.st = .exited ∨ ∃ next, h.st = .waiting .tbar next) ∧ ((s.team id).threads.map (·.idx)).Nodup ∧ ∃ h ∈ (s.team id).threads, h.st = .waiting .tbar 0xC0 := by
  refine ⟨sBar, tid, by decide +kernel, by decide +kernel, by decide +kernel, by decide +kernel, ?_, by decide +kernel, by decide +kernel⟩
  have e : (sBar.team tid).threads = [{ th 0 with st := .waiting .tbar 0x80 }, { th 1 with st := .waiting .tbar 0xC0 }, { th 9 with st := .exited }] := by decide +kernel
  simp only [e, List.mem_cons, List.not_mem_nil, or_false, forall_eq_or_imp, forall_eq]
  exact ⟨Or.inr ⟨_, rfl⟩, Or.inr ⟨_, rfl⟩, Or.inl trivial⟩
theorem witness_ExitsEnd : ∃ k s gid, wellFormed (.exit k) = true ∧ Issues s gid [] ∧ Stands s gid ∧ (∃ h ∈ (s.team (s.grp gid).team).threads, h.idx ∉ (s.grp gid).members ∧ ∃ g, h.st = .issuing g) ∧
    ∀ h ∈ (s.team (s.grp gid).team).threads, ∀ n j, h.st ≠ .waiting (.join j) n := by
  refine ⟨k0, sW, 1, by decide, issues_of (by decide +kernel), stands_sW, busy_sW, ?_⟩
  have e : (sW.team (sW.grp 1).team).threads = [th 0, th 1, { th 9 with st := .issuing 9 }] := by decide +kernel
  simp only [e, List.mem_cons, List.not_mem_nil, or_false, forall_eq_or_imp, forall_eq, th]
  exact ⟨nofun, nofun, nofun⟩
/-- A word that is as great as asked already, a slot whose count differs already, and a timeline that has not come so far. -/
theorem witness_MemoryWaits : ∃ (i : Instr) (k : Ctl) (regs : List Nat) (w : Thread → WaitKind) (may : Thread → Bool) (s : State) (gid : Nat), waitRule s (s.ctx gid) i = some (k, regs, w, may) ∧ wellFormed i = true ∧ Issues s gid regs ∧ Stands s gid ∧
    CachesOk s (s.ctx gid).core ∧ (∀ h ∈ (s.ctx gid).actors k, may h = true) ∧ s.acquired (s.grp gid).team 0 s.nextId = true ∧ WaitOver s (s.ctx gid).l (s.ctx gid).t (s.thread tid 0) (w (th 0)) :=
  ⟨.mwaitGe k0 4 28, _, _, _, _, sW, 1, rfl, by decide, issues_of (by decide +kernel), stands_sW, ⟨by decide +kernel, by decide +kernel⟩, by decide +kernel, by decide +kernel, by
    dsimp only [WaitOver]; exact ⟨_, rfl, by decide +kernel, by decide +kernel, by decide +kernel⟩⟩
theorem witness_MemoryWaits_slot : ∃ (i : Instr) (k : Ctl) (regs : List Nat) (w : Thread → WaitKind) (may : Thread → Bool) (s : State) (gid : Nat), waitRule s (s.ctx gid) i = some (k, regs, w, may) ∧ wellFormed i = true ∧ Issues s gid regs ∧ Stands s gid ∧
    CachesOk s (s.ctx gid).core ∧ (∀ h ∈ (s.ctx gid).actors k, may h = true) ∧ s.acquired (s.grp gid).team 0 s.nextId = true ∧ WaitOver s (s.ctx gid).l (s.ctx gid).t (s.thread tid 0) (w (th 0)) :=
  ⟨.mwaitSlot k0 28 12, _, _, _, _, sW, 1, rfl, by decide, issues_of (by decide +kernel), stands_sW, ⟨by decide +kernel, by decide +kernel⟩, by decide +kernel, by decide +kernel, by
    dsimp only [WaitOver]; decide +kernel⟩
theorem witness_MemoryWaits_not : ∃ (i : Instr) (k : Ctl) (regs : List Nat) (w : Thread → WaitKind) (may : Thread → Bool) (s : State) (gid : Nat), waitRule s (s.ctx gid) i = some (k, regs, w, may) ∧ wellFormed i = true ∧ Issues s gid regs ∧ Stands s gid ∧
    CachesOk s (s.ctx gid).core ∧ (∀ h ∈ (s.ctx gid).actors k, may h = true) ∧ ¬WaitOver s (s.ctx gid).l (s.ctx gid).t (s.thread tid 0) (w (th 0)) :=
  ⟨.waittlQ k0 28 12, _, _, _, _, sW, 1, rfl, by decide, issues_of (by decide +kernel), stands_sW, ⟨by decide +kernel, by decide +kernel⟩, by decide +kernel, by
    dsimp only [WaitOver]; decide +kernel⟩
theorem witness_PrefixesFault : ∃ s gid, Issues s gid [] := ⟨sW, 1, issues_of (by decide +kernel)⟩

/-! ### The matrix array -/

/-- A team whose core holds a bf16 binding on sub-array 0 and its fusing modes; as a pair, one of pair mode. -/
def bind (mode : Nat) : Binding := { serial := mode, core := 0, lo := 0, hi := 0, fmt := 0, mode := mode, sel := 0 }
def withBinds (s : State) : State := { s with teams := s.teams.map fun t => { t with bindings := [bind 0] } }
def withPairBind (s : State) : State := { s with teams := s.teams.map fun t => { t with bindings := [bind 3] } }
/-- A word of the array passes its checks in a state. -/
def arrayFits (s : State) (len : Nat) (i : Instr) : Bool :=
  match arrayRule s (s.ctx 1) i with
  | some (n, regs, ok) => ok && !(s.ctx 1).t.badTile (half (s.ctx 1)) (tileReads (s.ctx 1).l.w i) && decide (n = len) && wellFormed i && s.current == some 1 && regs.all fun r => decide (r < (s.ctx 1).l.nregs)
  | none => false
theorem witness_ArrayWordsGoOut : Stands (withBinds sW) 1 ∧ (∀ i ∈ [Instr.accz k0 .four 60, .accadd k0 .rne 63 0 false, .acctr k0 63 0, .accld k0 0 28, .accst k0 0 28, .accmovGet k0 63 14 10, .accmovPut k0 63 14 10], arrayFits (withBinds sW) 1 i = true) ∧
    ∀ i ∈ [Instr.wld k0 .m64x64 28 0 .i8, .mma k0 .m32x32 63 28 false true 0 .bf16, .mma k0 .m32x32 63 48 true false 0 .bf16, .acccvt k0 0 28 .rne false 0 false .bf16, .pgsel k0 .d32 4 32 28 false 64], arrayFits (withBinds sW) 2 i = true :=
  ⟨⟨⟨g1, by decide +kernel, rfl⟩, by decide +kernel, by decide +kernel⟩, by decide +kernel, by decide +kernel⟩
theorem witness_ArrayWordsGoOut_pair : Stands (withPairBind sPair) 1 ∧ ∀ i ∈ [Instr.wldpr k0 28 .bf16, .mmapr k0 62 28 false true .bf16], arrayFits (withPairBind sPair) 2 i = true :=
  ⟨⟨⟨g1, by decide +kernel, rfl⟩, by decide +kernel, by decide +kernel⟩, by decide +kernel⟩
/-- A pair word in a launch of single cores; an mma with no binding. -/
theorem witness_ArrayWordsFault : ∃ (k : Ctl) (m : MxMode) (t : Tile) (a : Reg) (z : Bool) (sel : Bits2) (fmt : MxFmt) (s : State) (gid : Nat), wellFormed (.wldpr k a fmt) = true ∧ wellFormed (.mmapr k t a z true fmt) = true ∧ Issues s gid [a.toNat, a.toNat + 1] ∧ (s.ctx gid).active k ≠ [] ∧ (s.ctx gid).lead k ≠ none ∧ (s.ctx gid).l.pair = false ∧
    wellFormed (.mma k m t a z false sel fmt) = true ∧ Issues s gid [a.toNat] ∧ t.toNat % (nbOf (modeCode m) * if (s.ctx gid).l.w = 64 then 2 else 1) = 0 ∧ a.toNat + 16 * kbOf (modeCode m) ≤ (s.ctx gid).l.nregs ∧
    s.comboCase (s.ctx gid) (modeCode m) sel.toNat (fmtCode fmt) false ≠ 0 :=
  ⟨k0, .m32x32, 0, 28, false, 3, .bf16, sW, 1, by decide, by decide, issues_of (by decide +kernel), by decide +kernel, by decide +kernel, by decide +kernel, by decide, issues_of (by decide +kernel), by decide +kernel⟩
/-- The leader core of a pair: an mmapr of src = 1 with no binding; and an mma of src = 1, no member active, whose formats no unit implements together. -/
theorem witness_ArrayWordsFault_pair : ∃ (h : Thread), wellFormed (.mmapr k0 0 28 false true .bf16) = true ∧ Issues sPair 1 [28, 29] ∧ (sPair.ctx 1).l.pair = true ∧ half (sPair.ctx 1) = 0 ∧ (sPair.ctx 1).lead k0 = some h ∧ (descOf h 28).ok = true ∧ sPair.comboCase (sPair.ctx 1) 3 0 0 true ≠ 0 :=
  ⟨(sPair.ctx 1).members.headD (th 0), by decide, issues_of (by decide +kernel), by decide +kernel⟩
def sIdle : State := { withBinds sW with teams := (withBinds sW).teams.map fun t => { t with threads := t.threads.map fun h => { h with guard := false } } }
theorem witness_ArrayWordsFault_none : wellFormed (.mma ⟨false, false, true⟩ .m32x32 0 28 false true 0 .i8) = true ∧ Issues sIdle 1 [28, 29] ∧ (sIdle.ctx 1).lead ⟨false, false, true⟩ = none ∧ findBinding (sIdle.ctx 1).t (sIdle.ctx 1).core (modeCode .m32x32) 0 = some (bind 0) ∧ pairOkFmt (fmtCode .i8) (bind 0).fmt = false :=
  ⟨by decide, issues_of (by decide +kernel), by decide +kernel⟩
def sMx (i : Instr) : State := nxt (exec i sW)
theorem witness_ArrayWordsRetireInOrder : ∃ (s : State) (o : Op) (i : Instr), s.findOp o.id = some o ∧ o.kind = .matrix i ∧ s.portHead o = true ∧ quiet i = true ∧ o.results = [] :=
  ⟨sMx (.accst k0 0 28), opOf (sMx (.accst k0 0 28)), .accst k0 0 28, by decide +kernel⟩
theorem witness_TileWordsRetire : ∃ (s : State) (o : Op) (n : AcczCount) (t0 : Tile), s.findOp o.id = some o ∧ s.findTeam o.team ≠ none ∧ Store.wf 0 (s.team o.team).tiles = true ∧ t0.toNat + acczTiles n ≤ 64 ∧ o.kind = .matrix (.accz k0 n t0) ∧ s.portHead o = true :=
  ⟨sMx (.accz k0 .four 60), opOf (sMx (.accz k0 .four 60)), .four, 60, by decide +kernel⟩
theorem witness_TileWordsRetire_others : ∀ i ∈ [Instr.accadd k0 .rne 63 0 false, .accadd k0 .rne 63 0 true, .acctr k0 63 0], let s := sMx i
    s.findOp (opOf s).id = some (opOf s) ∧ s.findTeam (opOf s).team ≠ none ∧ Store.wf 0 (s.team (opOf s).team).tiles = true ∧ (opOf s).kind = .matrix i ∧ s.portHead (opOf s) = true := by decide +kernel
theorem witness_TileMovesRetire : ∀ i ∈ [Instr.accmovGet kU 63 14 10, .accmovPut kU 63 14 10], let s := { (sMx i) with ops := [{ opOf (sMx i) with all := [] }] }
    s.findOp (opOf s).id = some (opOf s) ∧ s.findTeam (opOf s).team ≠ none ∧ (opOf s).accs = [accOf s] ∧ (opOf s).all = [] ∧ 63 + (accOf s).d / 32 < 64 ∧ (accOf s).cmp < 32 ∧ s.portHead (opOf s) = true ∧ (opOf s).kind = .matrix i ∧
    Store.wf 0 (s.thread (opOf s).team (accOf s).thread).regs = true ∧ (∃ h ∈ (s.team (opOf s).team).threads, h.idx = (accOf s).thread) ∧ Store.wf 0 (s.team (opOf s).team).tiles = true := by decide +kernel
theorem witness_ArrayStatusWords : ∃ i k a v s gid, mstatRule s (s.ctx gid) i = some (k, a, v) ∧ wellFormed i = true ∧ Issues s gid [a.toNat] ∧ s.findGrp gid ≠ none :=
  ⟨.mstatBind k0 14, _, _, _, sW, 1, rfl, by decide, issues_of (by decide +kernel), by decide +kernel⟩

/-! ### Fences and system words -/

theorem witness_FencesIssue : ∃ k order scope s gid, wellFormed (.fence k order scope) = true ∧ Issues s gid [] ∧ s.findGrp gid ≠ none ∧ (s.ctx gid).actors k ≠ [] :=
  ⟨k0, .sc, .fabric, sW, 1, by decide, issues_of (by decide +kernel), by decide +kernel⟩
theorem witness_ReleasesWait : ∃ (s : State) (o : Op), o.kind = .fence 1 4 ∧ s.opDone o = true ∧ o.accs ≠ [] := ⟨sMx (.fence k0 .rel .die), opOf (sMx (.fence k0 .rel .die)), by decide +kernel⟩
theorem witness_SpecialRegisterWords : ∃ k d a s gid, wellFormed (.sread k d .clock) = true ∧ Issues s gid [d.toNat, d.toNat + 1] ∧ wellFormed (.swrite k .sp a) = true ∧ Issues s gid [a.toNat, a.toNat + 1] ∧ wellFormed (.swrite k .fsr a) = true :=
  ⟨k0, 14, 4, sW, 1, by decide, issues_of (by decide +kernel), by decide, issues_of (by decide +kernel), by decide⟩
/-- Every member traps; one of two (Gd = 1, one guard false); none (Gd = 1, every guard false). -/
def sNo : State := { sW with teams := sW.teams.map fun t => { t with threads := t.threads.map fun h => { h with guard := false } } }
theorem witness_TrapWordsPark : ∃ (k : Ctl) (code : Bits6) (s : State) (gid : Nat), Issues s gid [] ∧ Stands s gid ∧ moved s gid k ≠ [] ∧ (∀ j ∈ (s.grp gid).members, j ∈ moved s gid k) ∧ wellFormed (.trap k code) = true ∧ wellFormed (.brk k code) = true ∧ (s.ctx gid).l.attached = false :=
  ⟨k0, 63, sW, 1, issues_of (by decide +kernel), stands_sW, by decide +kernel⟩
theorem witness_TrapWordsPark_some : Issues sGd 1 [] ∧ Stands sGd 1 ∧ moved sGd 1 ⟨false, false, true⟩ ≠ [] ∧ ∃ j ∈ (sGd.grp 1).members, j ∉ moved sGd 1 ⟨false, false, true⟩ :=
  ⟨issues_of (by decide +kernel), ⟨⟨g1, by decide +kernel, rfl⟩, by decide +kernel, by decide +kernel⟩, by decide +kernel⟩
theorem witness_TrapWordsPark_none : Issues sNo 1 [] ∧ Stands sNo 1 ∧ moved sNo 1 ⟨false, false, true⟩ = [] :=
  ⟨issues_of (by decide +kernel), ⟨⟨g1, by decide +kernel, rfl⟩, by decide +kernel, by decide +kernel⟩, by decide +kernel⟩
theorem witness_BreakpointsHalt : ∃ (k : Ctl) (code : Bits6) (s : State) (gid : Nat), wellFormed (.brk k code) = true ∧ Issues s gid [] ∧ Stands s gid ∧ moved s gid k ≠ [] ∧ (s.ctx gid).l.attached = true :=
  ⟨k0, 0, { sW with launches := [{ placedLaunch with attached := true }] }, 1, by decide, issues_of (by decide +kernel), ⟨⟨g1, by decide +kernel, rfl⟩, by decide +kernel, by decide +kernel⟩, by decide +kernel⟩
/-- Both threads in their handler, a frame on each stack: pc 0x80, guard true, sp 0x3000; in memory, and dirty in the core's L1. -/
def frame0 : Nat := 0x80 + 2 ^ 72 + 0x3000 * 2 ^ 192
def inTrap (s : State) : State := { s with teams := s.teams.map fun t => { t with threads := t.threads.map fun h => { h with fsr := 0x80000000, inHandler := true } } }
def sTr : State := inTrap { sW with mem := [(0x21004, 9)] ++ (([0x22100, 0x22140]).flatMap fun a => [(a, 0x80), (a + 9, 1), (a + 25, 0x30)]) }
def sTrN : State := inTrap { sW with writes := [{ retWrite 30 0x22100 with bytes := leBytes frame0 32 }, { retWrite 31 0x22140 with bytes := leBytes frame0 32 }] }
def frames (s : State) (h : Thread) : List GoodLane := okD [] (s.frameLoads (s.ctx 1) h 4 h.sp.toNat)
theorem frames_of {s : State} (h : ((s.ctx 1).actors k0).all (fun h => (s.frameLoads (s.ctx 1) h 4 h.sp.toNat).isOk && h.fsr.getLsbD 31) = true) :
    ∀ h ∈ (s.ctx 1).actors k0, s.frameLoads (s.ctx 1) h 4 h.sp.toNat = .ok (frames s h) ∧ h.fsr.getLsbD 31 = true := by
  intro x hx
  have e := List.all_eq_true.mp h x hx
  rw [Bool.and_eq_true] at e
  exact ⟨ok_okD _ e.1, e.2⟩
theorem witness_TrapReturns (retry : Bool) : ∃ (k : Ctl) (s : State) (gid : Nat) (loads : Thread → List GoodLane) (dest : Nat × Nat), wellFormed (if retry then .tretRetry k else .tretSkip k) = true ∧ Issues s gid [] ∧ Stands s gid ∧
    (s.ctx gid).actors k ≠ [] ∧ (∀ j ∈ (s.grp gid).members, j ∈ moved s gid k) ∧ (∀ h ∈ (s.ctx gid).actors k, s.frameLoads (s.ctx gid) h 4 h.sp.toNat = .ok (loads h) ∧ h.fsr.getLsbD 31 = true) ∧
    (∀ a ∈ loadsOf s (s.ctx gid) (((s.ctx gid).actors k).flatMap loads), a.done = true) ∧ FramesLead s gid k.u retry (loadsOf s (s.ctx gid) (((s.ctx gid).actors k).flatMap loads)) dest :=
  ⟨k0, sTrN, 1, frames sTrN, sTrN.retTarget (sTrN.ctx 1) retry (frameOf frame0), by cases retry <;> decide, issues_of (by decide +kernel), ⟨⟨g1, by decide +kernel, rfl⟩, by decide +kernel, by decide +kernel⟩, by decide +kernel, by decide +kernel,
    frames_of (by decide +kernel), by decide +kernel, by cases retry <;> (unfold FramesLead Target; decide +kernel)⟩
theorem witness_TrapReturns_far : ∃ (k : Ctl) (s : State) (gid : Nat) (loads : Thread → List GoodLane), wellFormed (.tretRetry k) = true ∧ wellFormed (.tretSkip k) = true ∧ Issues s gid [] ∧ Stands s gid ∧
    (s.ctx gid).actors k ≠ [] ∧ (∀ j ∈ (s.grp gid).members, j ∈ moved s gid k) ∧ (∀ h ∈ (s.ctx gid).actors k, s.frameLoads (s.ctx gid) h 4 h.sp.toNat = .ok (loads h) ∧ h.fsr.getLsbD 31 = true) ∧
    ∃ a ∈ loadsOf s (s.ctx gid) (((s.ctx gid).actors k).flatMap loads), a.done = false :=
  ⟨k0, sTr, 1, frames sTr, by decide, by decide, issues_of (by decide +kernel), ⟨⟨g1, by decide +kernel, rfl⟩, by decide +kernel, by decide +kernel⟩, by decide +kernel, by decide +kernel, frames_of (by decide +kernel), by decide +kernel⟩
/-- The frames' loads after they have been served. -/
def sFr : State := awaiting (nxt (exec (.tretSkip k0) sTr)) fun a => { a with val := sTr.locNat a.key 8 }
theorem witness_TrapReturns_served : ∃ (s : State) (o : Op) (gid : Nat) (u retry : Bool) (dest : Nat × Nat), Awaited s o gid u ∧ o.kind = .frame u retry ∧ (u = true → ∀ a ∈ o.accs, ∀ b ∈ o.accs, a.thread = b.thread) ∧
    (∀ j ∈ (s.grp gid).members, u = true ∨ ∃ a ∈ o.accs, a.thread = j) ∧ FramesLead s gid u retry o.accs dest :=
  ⟨sFr, opOf sFr, 1, false, false, sFr.retTarget (sFr.ctx 1) false (frameOf frame0), awaited_of ⟨⟨sFr.grp 1, by decide +kernel, by decide +kernel⟩, by decide +kernel, by decide +kernel⟩ (by decide +kernel) (by decide +kernel) (by decide +kernel), by decide +kernel, nofun, by decide +kernel, by unfold FramesLead Target; decide +kernel⟩
theorem witness_CacheWords : ∃ k a b s gid, Issues s gid [a.toNat, a.toNat + 1, b.toNat] ∧ s.findGrp gid ≠ none ∧ wellFormed (.icinv k a b) = true ∧ wellFormed (.dcinv k a b) = true ∧ wellFormed (.dcflush k a b) = true ∧ ((s.ctx gid).active k).head? ≠ none :=
  ⟨k0, 4, 12, sW, 1, issues_of (by decide +kernel), by decide +kernel, by decide, by decide, by decide, by decide +kernel⟩
/-- A dcinv waits for a dirty line it names, and has none to wait for. -/
theorem witness_CacheWords_waits : let s := nxt (exec (.dcinv kU 4 12) sSt
      ) ; let o := s.ops.getLastD (opOf s)
    ∃ (ws : List Nat) (spans : Option (List (Nat × Nat))), s.findOp o.id = some o ∧ o.kind = .flush ws true spans ∧ o.verdict = false ∧ o.waitsFed = false ∧ ∃ w ∈ s.writes, w.id ∈ ws :=
  ⟨[(wrOf sSt).id], flushSpans sSt (sSt.ctx 1) ((sSt.ctx 1).members.headD (th 0)) 4 12, by decide +kernel⟩
theorem witness_CacheWords_done : let s := nxt (exec (.dcinv kU 4 12) sW)
    ∃ (ws : List Nat) (spans : Option (List (Nat × Nat))), s.findOp (opOf s).id = some (opOf s) ∧ (opOf s).kind = .flush ws true spans ∧ (opOf s).verdict = false ∧ ∀ w ∈ s.writes, w.id ∉ ws :=
  ⟨[], flushSpans sW (sW.ctx 1) ((sW.ctx 1).members.headD (th 0)) 4 12, by decide +kernel⟩

/-! ### The machine as a whole -/

/-- Team 3 of a launch of eight teams of one kernel is pulled for core 0. -/
def lStart : Launch := { placedLaunch with body := placedBody.take 0x38 ++ leBytes (40 + 2 ^ 12 + 2 ^ 24) 8, pulled := [(0, 3)], running := 0 }
def sStart : State := { State.reset.placed with launches := [lStart], teams := [], groups := [], images := [codeImage] }
theorem witness_ThreadsStart : ∃ (s : State) (core team : Nat) (l : Launch), s.pulledFor core = some (l, team) ∧ (s.die (core / 192)).stagger = 0 ∧ s.findLaunch l.id = some l ∧ s.findTeam ⟨l.id, team, false⟩ = none ∧ 0 < l.w ∧
    (s.updLaunch l.id fun l => l.unpull core team).hasRoom l core = true ∧ l.size = 40 :=
  ⟨sStart, 0, 3, lStart, by decide +kernel⟩
theorem witness_DecodedWordsAreTheEncoding : ∃ ws rest i, decode ws = .ok (i, rest) := ⟨[0x00043042, 5], [5], .add k0 .satI 3 1 2, ok_of (by decide +kernel)⟩
theorem witness_EncodedWordsDecode : isWord (.movi k0 7 4 2 0x345678) = true ∧ wellFormed (.movi k0 7 4 2 0x345678) = true := by decide
/-- A placed word, and the move that a step makes of it. -/
def sStep : State := State.reset.withFetchWord 32 0x00043042
def nStep : Next := ⟨0x20780001, 0x00043042, none⟩
theorem witness_StepRunsWord : ∃ (s u : State) (q : Nat) (g : Grp) (n : Next) (i : Instr) (rest : List Nat), IssuesNext s u q g ∧ u.nextWord g = .ok (some n) ∧ headerOk n.header = true ∧
    decode (wordsAt n) = .ok (i, rest) ∧ bitsOf n.w 26 3 = bitsOf n.header 4 3 ∧ bitsOf n.w 26 3 ≠ 7 ∧ g.word + (wordsAt n).length ≤ headerN n.header ∧ (isControl (opcodeOf n.w) = true → g.word + (wordsAt n).length = headerN n.header) ∧
    (∀ j ∈ g.members, (u.thread g.team j).bad = false) ∧ ((u.prepared g.gid n).partBad g.gid (wordsAt n).length).running g.gid = true :=
  ⟨sStep, sStep.yieldMid 0, 0, ((sStep.yieldMid 0).picked 0).getD placedGroup, nStep, .add k0 .satI 3 1 2, [], ⟨by decide +kernel, by decide +kernel, by decide +kernel, by decide +kernel, rfl, by decide +kernel, by decide +kernel⟩, ok_of (by decide +kernel), by decide +kernel, ok_of (by decide +kernel), by decide +kernel, by decide +kernel, by decide +kernel, by decide +kernel, by decide +kernel, by decide +kernel⟩
theorem witness_StepRunsWord_agenda : ∃ (s : State) (i : Instr) (r : List Instr), s.agenda = i :: r := ⟨{ State.reset with agenda := [.boot] }, .boot, [], rfl⟩
/-- The same with a header of no words, and with one of flag 13. -/
def sHdr (h : Nat) : State := sStep.placeWords 0 0 0 0 [h, 0x00043042]
def gHdr (h : Nat) : Grp := (((sHdr h).yieldMid 0).picked 0).getD placedGroup
def HdrFault (s u : State) (q : Nat) (g : Grp) (n : Next) : Prop := IssuesNext s u q g ∧ g.word = 0 ∧ u.nextWord g = .ok (some n) ∧
    (n.header % 16 = 0 ∨ n.header / 16 % 8 = 7 ∨ (12 ≤ n.header / 2 ^ 19 % 16 ∧ n.header / 2 ^ 19 % 16 ≤ 14))
theorem witness_IllegalHeadersFault : HdrFault (sHdr 0x20780000) ((sHdr 0x20780000).yieldMid 0) 0 (gHdr 0x20780000) ⟨0x20780000, 0, none⟩ :=
  ⟨⟨by decide +kernel, by decide +kernel, by decide +kernel, by decide +kernel, rfl, by decide +kernel, by decide +kernel⟩, by decide +kernel, ok_of (by decide +kernel), by decide⟩
theorem witness_IllegalHeadersFault_flag : HdrFault (sHdr 0x20680001) ((sHdr 0x20680001).yieldMid 0) 0 (gHdr 0x20680001) ⟨0x20680001, 0, none⟩ :=
  ⟨⟨by decide +kernel, by decide +kernel, by decide +kernel, by decide +kernel, rfl, by decide +kernel, by decide +kernel⟩, by decide +kernel, ok_of (by decide +kernel), by decide⟩
/-- A clause of one add at 0x80 on the plain page. -/
def gFetch : Grp := { g1 with pc := 0x80, clause := 0, header := 0, words := [] }
def sFetch : State := { sW with
  current := none, cores := [(0, { tlb := [(0, some { entry := 31 * 2 ^ 59 + 0x20000, level := 0 })] })], mem := [(0x20080, 1), (0x20084, 0x42), (0x20085, 0x30), (0x20086, 0x04)], groups := [gFetch] }
def trFetch : Tr := match sFetch.check (sFetch.core 0).tlb 0 0 (canonOf 0x80) 4 .fetch with
  | .ok t => t
  | .error _ => ⟨0, 0, 0, none, false, false, false, false, false, false⟩
theorem witness_FetchReadsMemory : ∃ (s : State) (g : Grp) (tr : Tr), FetchesLine s g tr :=
  ⟨sFetch, gFetch, trFetch, ⟨⟨rfl, rfl⟩, by decide +kernel, by decide +kernel, by decide +kernel, by decide +kernel, by decide +kernel, ok_of (by decide +kernel), by decide +kernel, by decide +kernel, by decide +kernel⟩⟩
theorem witness_EveryStepGoesOn : ∃ s : State, s.agenda ≠ [] ∧ ∀ i ∈ s.agenda, isWord i = false := ⟨{ State.reset with agenda := [.boot, .powerLoss] }, by decide +kernel⟩
/-- A loop range is captured in quadrant 0, and the group is inside it. -/
def sLoop : State := { State.reset.placed with quads := [(0, { loop := some { base := 0, words := [0x20000011, 0x140FFFFF], tenant := 0, asid := 0 } })] }
theorem witness_LoopsStayInUse : ∃ s : State, Between s ∧ (s.quad 0).loop ≠ none ∧ ∃ t, step s = .next t := by
  refine ⟨sLoop, ⟨rfl, fun q b h => ?_⟩, by decide +kernel, ?_⟩
  · have e : q = 0 ∨ (sLoop.quad q).loop = none := by
      by_cases h0 : q = 0
      · exact Or.inl h0
      · refine Or.inr ?_
        simp [State.quad, sLoop, Store.get, h0]
    cases e with
    | inl e => subst e; exact ⟨placedGroup, by decide +kernel, by rw [show b = { base := 0, words := [0x20000011, 0x140FFFFF], tenant := 0, asid := 0 } from (Option.some.inj (h.symm.trans (by decide +kernel)))]; decide +kernel⟩
    | inr e => rw [e] at h; cases h
  · exact next_of (by decide +kernel)

/-! ### Groups, parked groups and teams -/

/-- A launch of one 64-thread team; a module with one team of it on core 0, its pages walked from a table of one level. -/
def wBody : List Byte := leBytes 0 20 ++ leBytes (1 + 64 * 2 ^ 25) 4 ++ leBytes (512 * 2 ^ 17) 4 ++ leBytes (256 + 4096 * 2 ^ 9) 4 ++ leBytes 0 16 ++ leBytes (2 + 2 ^ 32 + 2 ^ 48) 8 ++ leBytes (40 + 2 ^ 12 + 2 ^ 24) 8
/-- The body with other words at 0x14 and 0x1C, less scratchpad and fewer threads. -/
def body2 (w14 threads : Nat) : List Byte := wBody.take 0x14 ++ leBytes w14 4 ++ leBytes 0 8 ++ (wBody.drop 0x20).take 24 ++ leBytes (threads + 2 ^ 12 + 2 ^ 24) 8
def pages : List (Nat × Byte) := [(0x1001, 0x20), (0x1007, 0x80), (0x2001, 0x30), (0x2007, 0x80), (0x3007, 0xF8)]
def ten : Tenant := { winbase := [(0, 1)], winlim := [(0, 0x100000000)], tvec := [(0, 0x400)], tmask := [(0, 0x3F)], troot := [(0, 0x1001)], roots := [(0, 0x1001)] }
def l1 : Launch := { placedLaunch with body := wBody }
def th2 (i : Nat) (st : ThSt) : Thread := { th i with st := st }
def base : State := { State.reset.placed with
  launches := [l1], nextId := 50, images := [{ codeImage with headers := [0x40, 0x80, 0x400] }], dies := [(0, { clock := 1000 })], hub := 5000, tenants := [(0, ten)], mem := pages
  groups := [], teams := [{ id := tid, core := 0, stamp := 1, threads := [] }] }
def withT (s : State) (hs : List Thread) : State := { s with teams := s.teams.map fun t => { t with threads := hs } }

/-- Threads of home groups 0 and 4, both of quadrant 0, LOOSE at one place. -/
def sForm : State := withT base [th2 0 (.loose 2), th2 1 (.loose 2), th2 128 (.loose 3)]
theorem witness_GroupsForm : (sForm.quad 0).formed ≤ sForm.now 0 ∧ sForm.releasedOn 0 = none ∧ (sForm.nextKey 0).map (fun k => k.cands.map fun c => c.1.idx) = some [0, 1, 128] := by decide +kernel
/-- A demoted holder with its group there, and with no such group. -/
def sFair (b : Bool) : State := { withT base [th2 0 (.issuing 9), th2 1 (.issuing 9)] with launches := [{ l1 with body := body2 (1 + 128) 40 }]
                                                                                           groups := if b then [{ g1 with gid := 9 }] else [], quads := [(0, { holder := some (tid, [0, 1]), fair := 600 })] }
theorem witness_SchedulingMoves_fairness (b : Bool) : ((sFair b).quad 0).holder = some (tid, [0, 1]) ∧ ((sFair b).launch 1).promise = true ∧ ((sFair b).launch 1).fairT ≤ ((sFair b).quad 0).fair ∧ ((sFair b).exactly 0 (tid, [0, 1])).isSome = b := by
  cases b <;> decide +kernel
theorem witness_SchedulingMoves_stall : ∃ s : State, s.eligibles 0 = [] ∧ s.populated 0 = true ∧ (s.units 0).length = 1 := ⟨withT base [th2 0 (.waiting (.slot 0 0) 0x80)], by decide +kernel⟩
/-- A wait whose timeline has come so far, one whose timeline has not, and one on a word that carries an error. -/
def sWait (n : Nat) : State := { withT base [th2 0 (.waiting (.coreChan 1 n) 0x80)] with chans := [(.core 0 1, { timeline := 5 })] }
theorem witness_SchedulingMoves_over : ∃ (s : State) (id : TeamId) (i next : Nat) (k : WaitKind) (c : VC), (s.team id).saved = none ∧ s.findTeam id ≠ none ∧ (∃ h ∈ (s.team id).threads, h.idx = i) ∧ (s.thread id i).st = .waiting k next ∧
    s.waitsBad id i = none ∧ (s.acquired id i s.nextId = true ∧ WaitOver s (s.launch id.launch) (s.team id) (s.thread id i) k) ∧ s.waitHolds (s.launch id.launch) (s.team id) (s.thread id i) k = some c :=
  ⟨sWait 5, tid, 0, 0x80, .coreChan 1 5, {}, by dsimp only [WaitOver]; decide +kernel⟩
theorem witness_SchedulingMoves_not : ∃ (s : State) (id : TeamId) (i next : Nat) (k : WaitKind), (s.team id).saved = none ∧ s.findTeam id ≠ none ∧ (∃ h ∈ (s.team id).threads, h.idx = i) ∧ (s.thread id i).st = .waiting k next ∧
    s.waitsBad id i = none ∧ ¬(s.acquired id i s.nextId = true ∧ WaitOver s (s.launch id.launch) (s.team id) (s.thread id i) k) :=
  ⟨sWait 6, tid, 0, 0x80, .coreChan 1 6, by dsimp only [WaitOver]; decide +kernel⟩
theorem witness_SchedulingMoves_bad : ∃ (s : State) (id : TeamId) (i next va : Nat) (k : WaitKind), (s.team id).saved = none ∧ s.findTeam id ≠ none ∧ (∃ h ∈ (s.team id).threads, h.idx = i) ∧ (s.thread id i).st = .waiting k next ∧ s.waitsBad id i = some va ∧
    (s.tenant (s.launch id.launch).tenant).fcctl.toNat.testBit 31 = false :=
  ⟨{ withT base [th2 0 (.waiting (.wordGe 0x5000 9) 0x80)] with poison := [(0x5003, true)] }, tid, 0, 0x80, 0x5000, .wordGe 0x5000 9, by decide +kernel⟩
/-- A parked sub-group of two with its flags clear. -/
def pk : Park := { cls := 9, detail := 3, addr := 5 }
def gPark (p : Park) : Grp := { g1 with gid := 9, clause := 0, word := 1, header := 0x20000005, park := some p }
def sPark (p : Park) : State := { withT base [th2 0 (.parked 9), th2 1 (.parked 9)] with groups := [gPark p] }
theorem parkedIdle_sPark (p : Park) : ParkedIdle (sPark p) 9 (gPark p) p := by
  have e : ((sPark p).team (gPark p).team).threads = [th2 0 (.parked 9), th2 1 (.parked 9)] := rfl
  refine ⟨rfl, rfl, rfl, rfl, ⟨by simp [gPark, g1], ?_⟩⟩
  rw [e]
  exact (by decide : ∀ i ∈ [0, 1], ∃ h ∈ [th2 0 (.parked 9), th2 1 (.parked 9)], h.idx = i)
theorem witness_ParkedGroupsGoOn : ∃ s sid g p, ParkedIdle s sid g p ∧ p.toTrap = false ∧ p.answer ≠ 0 ∧ p.wait = none := ⟨_, 9, _, { pk with answer := 1 }, parkedIdle_sPark _, rfl, by decide, rfl⟩
theorem witness_ParkedGroupsGoOn_waitSkipped : ∃ s sid g p ks next, ParkedIdle s sid g p ∧ p.toTrap = false ∧ p.answer ≠ 0 ∧ p.wait = some (ks, next) ∧ p.answer = 2 := ⟨_, 9, _, { pk with answer := 2, wait := some ([(0, .tbar)], 0x80) }, _, _, parkedIdle_sPark _, rfl, by decide, rfl, rfl⟩
theorem witness_ParkedGroupsGoOn_waitAgain : ∃ s sid g p ks next, ParkedIdle s sid g p ∧ p.toTrap = false ∧ p.answer ≠ 0 ∧ p.wait = some (ks, next) ∧ p.byTrap = false ∧ p.answer ≠ 2 ∧ (ks.map (·.1)).Nodup ∧ ∀ e ∈ ks, ∃ h ∈ (s.team g.team).threads, h.idx = e.1 :=
  ⟨_, 9, _, { pk with answer := 1, wait := some ([(0, .tbar), (1, .slot 0 0)], 0x80) }, _, _, parkedIdle_sPark _, rfl, by decide, rfl, rfl, by decide, by decide, by decide +kernel⟩
theorem witness_ParkedGroupsGoOn_unanswered : ∃ s sid g p, ParkedIdle s sid g p ∧ p.toTrap = false ∧ p.answer = 0 := ⟨_, 9, _, pk, parkedIdle_sPark _, rfl, rfl⟩
theorem witness_ParkedGroupsGoOn_route : ∃ s sid g p n, ParkedIdle s sid g p ∧ p.toTrap = false ∧ p.route = some n ∧ n ≤ s.hub := ⟨_, 9, _, { pk with route := some 5000 }, 5000, parkedIdle_sPark _, rfl, rfl, by decide⟩
theorem witness_ParkedGroupsGoOn_routeEarly : ∃ s sid g p n, ParkedIdle s sid g p ∧ p.toTrap = false ∧ p.route = some n ∧ s.hub < n := ⟨_, 9, _, { pk with route := some 5001 }, 5001, parkedIdle_sPark _, rfl, rfl, by decide⟩
def sEnter : State := sPark { pk with toTrap := true }
def uEnter : State := (sEnter.updThreads tid [0, 1] (Thread.trapGuard 0x20000005)).updThreads tid [0, 1] Thread.settled
theorem witness_TrapsEnterTheHandler : ∃ s u v sid g p, ParkedIdle s sid g p ∧ p.toTrap = true ∧ s.vectorOk (s.launch g.team.launch) (Store.get 0 (s.tenant (s.launch g.team.launch).tenant).tvec (s.launch g.team.launch).asid).toNat = true ∧
    u = (s.updThreads g.team g.members (Thread.trapGuard g.header)).updThreads g.team g.members Thread.settled ∧ framesFit g p u g.members = some v ∧ g.members.Nodup := by
  have e : (framesFit (gPark { pk with toTrap := true }) { pk with toTrap := true } uEnter [0, 1]).isSome = true := by decide +kernel
  obtain ⟨v, hv⟩ := Option.isSome_iff_exists.mp e
  exact ⟨sEnter, uEnter, v, 9, gPark { pk with toTrap := true }, { pk with toTrap := true }, parkedIdle_sPark _, rfl, by decide +kernel, rfl, hv, by decide⟩

/-! ### Teams -/

def sPull (tk : Store (Nat × Nat)) : State := { base with teams := [], launches := [{ l1 with tickets := tk, body := wBody.take 0x14 ++ leBytes (7 + 64 * 2 ^ 25) 4 ++ wBody.drop 0x18 }] }
theorem witness_TeamsArePulled : ∃ (s : State) (core : Nat) (l : Launch), s.nextPuller (core / 192) = some core ∧ s.pullFor core = some l ∧ s.findLaunch l.id = some l ∧ Store.wf (0, 0) l.tickets = true ∧ (counter l 0).1 < (counter l 0).2 ∧ core / 192 = 0 :=
  ⟨sPull [(0, (3, 4)), (1, (4, 9))], ((sPull [(0, (3, 4)), (1, (4, 9))]).nextPuller 0).getD 0, ((sPull [(0, (3, 4)), (1, (4, 9))]).pullFor 0).getD l1, by decide +kernel⟩
theorem witness_TeamsArePulled_victim : ∃ (s : State) (core : Nat) (l : Launch) (v : Nat), s.nextPuller (core / 192) = some core ∧ s.pullFor core = some l ∧ s.findLaunch l.id = some l ∧ Store.wf (0, 0) l.tickets = true ∧ (counter l (core / 192)).2 ≤ (counter l (core / 192)).1 ∧ v ≠ core / 192 ∧
    (victims (core / 192)).find? (fun v => bitAt l.dieMask v && decide ((counter l v).1 < (counter l v).2)) = some v :=
  ⟨sPull [(0, (4, 4)), (1, (4, 9))], ((sPull [(0, (4, 4)), (1, (4, 9))]).nextPuller 0).getD 0, ((sPull [(0, (4, 4)), (1, (4, 9))]).pullFor 0).getD l1, 1, by decide +kernel⟩
theorem witness_TeamsEndOrAreStopped : ∃ (s : State) (l : Launch) (n : Nat), s.findLaunch l.id = some l ∧ (∀ id ∈ copiesOf l n, s.canEnd l id = true) ∧ (s.team ⟨l.id, n, false⟩).threads ≠ [] := ⟨withT base [th2 0 .exited, th2 1 .exited], l1, 0, by decide +kernel⟩
/-- A launch of higher priority has waited 4,096 cycles for room. -/
def lHi : Launch := { l1 with id := 2, prio := 5, tickets := [(0, (0, 1))], anyTeam := false, startedAt := 5, body := body2 (1 + 127 * 2 ^ 25) 40, running := 0 }
def sPre : State := { withT base [th2 0 (.waiting .tbar 0x40)] with launches := [{ l1 with prio := 1, body := body2 1 40 }, lHi], tenants := [(0, { ten with ctxbase := 0x100001, ctxsize := 0x1000000 })] }
theorem witness_TeamsEndOrAreStopped_preempt : ∃ (s : State) (l : Launch), s.findLaunch l.id = some l ∧ s.preemptDue l = true ∧ (s.victim l).isSome = true := ⟨sPre, lHi, by decide +kernel⟩
/-- A stopped team of two threads, with a context area and with none. -/
def tSave : Team := { id := tid, core := 0, stamp := 1, saving := true, threads := [th2 0 (.waiting (.coreChan 1 9) 0x80), th2 1 (.loose 3)] }
def sSave (area : Bool) : State := { base with launches := [{ l1 with body := body2 1 2, nregs := 4 }], tenants := [(0, { ten with ctxbase := if area then 0x100001 else 0, ctxsize := 0x1000000 })], teams := [tSave] }
/-- Work of a system channel that is done. -/
def sysDoneOp (j : SysJob) (src size : Nat) : SysOp := { die := 0, chan := 0, job := j, tenant := 0, src := src, size := size, done := size }
def imageLen : Nat := (((sSave true).stoppedTeam tSave).image ((sSave true).launch 1) ((sSave true).parksOf tid) false).length
theorem witness_ContextsAreSaved (n : Fin 3) : ∃ (s : State) (x : Team), s.findTeam x.id = some x ∧ x.saving = true ∧ s.saveReady x = true ∧ Store.wf 0 s.mem = true ∧
    (s.imagePlace (s.launch x.id.launch).tenant ((s.stoppedTeam x).image (s.launch x.id.launch) (s.parksOf x.id) ((s.stoppedTeam x).threads.any fun h => h.halted || h.haltedInHandler)).length).isSome = decide (n ≠ 0) ∧ s.sysDone (.save x.id) = decide (n = 2) :=
  match n with
  | 0 => ⟨sSave false, tSave, by decide +kernel⟩
  | 1 => ⟨sSave true, tSave, by decide +kernel⟩
  | 2 => ⟨{ sSave true with sys := [sysDoneOp (.save tid) 0 64] }, tSave, by decide +kernel⟩
/-- The team saved, its image (of the model's generation) where it lies, or as if moved to an address with no image. -/
def sSaved : State := { sSave true with mem := pages ++ [(0x100004, 1), (0x100006, 0x40), (0x100007, 0x46)], teams := [{ tSave with saving := false, saved := some ⟨0x100000, imageLen, false⟩ }] }
def sLost : State := sSaved.updTeam tid fun t => { t with saved := t.saved.map fun v => { v with addr := 0 } }
theorem witness_ContextsReturn (d : Bool) : ∃ (s : State) (x : Team) (l : Launch) (v : Saved) (core : Nat), s.findTeam x.id = some x ∧ s.findLaunch x.id.launch = some l ∧ l.id = x.id.launch ∧ x.saved = some v ∧ s.mayRestore l core = true ∧ s.imagePoisoned v = false ∧ s.restoreFits l x v.addr core = true ∧ s.sysDone (.back x.id core) = d :=
  match d with
  | false => ⟨sSaved, sSaved.team tid, sSaved.launch 1, (sSaved.team tid).saved.getD ⟨0, 0, false⟩, 7, by decide +kernel⟩
  | true => ⟨{ sSaved with sys := [sysDoneOp (.back tid 7) 0x100000 64] }, sSaved.team tid, sSaved.launch 1, (sSaved.team tid).saved.getD ⟨0, 0, false⟩, 7, by decide +kernel⟩
theorem witness_ContextsReturn_not : ∃ (s : State) (x : Team) (l : Launch) (v : Saved) (core : Nat), s.findTeam x.id = some x ∧ s.findLaunch x.id.launch = some l ∧ l.id = x.id.launch ∧ x.saved = some v ∧ s.mayRestore l core = true ∧ s.imagePoisoned v = false ∧ s.restoreFits l x v.addr core = false :=
  ⟨sLost, sLost.team tid, sLost.launch 1, (sLost.team tid).saved.getD ⟨0, 0, false⟩, 7, by decide +kernel⟩
/-- A replayable launch that has been replayed n times; two copies of a team, of equal or different signatures; a write that a snapshot holds. -/
def lRep (n : Nat) : Launch := { l1 with replays := n, body := body2 (1 + 2 ^ 10) 2 }
def sRep (n : Nat) : State := { sSave false with launches := [lRep n], rollbacks := [(1, 13)] }
theorem witness_RollbacksReplay_abort : ∃ (s : State) (l : Launch) (c : Nat), s.findLaunch l.id = some l ∧ (l.id, c) ∈ s.rollbacks ∧ (s.tenant l.tenant).recctl.toNat % 16 ≤ l.replays ∧ l.aborted = none := ⟨sRep 3, lRep 3, 13, by decide +kernel⟩
/-- An operation submitted by a team of the launch is still on a channel; none is, and the snapshot set has yet to be restored, or has been. -/
def sRepOp : State := { sRep 2 with chans := [(.core 0 1, { ops := [{ bytes := [], seq := 5, tenant := 0, asid := 0, launch := 1, team := tid, core := 0, obs := {} }] })] }
theorem witness_RollbacksReplay_dropped : ∃ (s : State) (l : Launch) (c : Nat), s.findLaunch l.id = some l ∧ (l.id, c) ∈ s.rollbacks ∧ l.aborted ≠ none := ⟨{ sRep 0 with launches := [{ lRep 0 with aborted := some 13 }] }, { lRep 0 with aborted := some 13 }, 13, by decide +kernel⟩
theorem witness_RollbacksReplay_waits : ∃ (s : State) (l : Launch) (c : Nat), s.findLaunch l.id = some l ∧ (l.id, c) ∈ s.rollbacks ∧ l.replays < (s.tenant l.tenant).recctl.toNat % 16 ∧ l.aborted = none ∧ l.incomplete = false ∧ l.replayable = true ∧ ∃ e ∈ s.chans, ∃ o ∈ e.2.ops, o.pkt = none ∧ o.launch = l.id := ⟨sRepOp, lRep 2, 13, by decide +kernel⟩
theorem witness_RollbacksReplay (d : Bool) : ∃ (s : State) (l : Launch) (c : Nat), s.findLaunch l.id = some l ∧ (l.id, c) ∈ s.rollbacks ∧ l.replays < (s.tenant l.tenant).recctl.toNat % 16 ∧ l.aborted = none ∧ l.incomplete = false ∧ l.replayable = true ∧ (∀ e ∈ s.chans, ∀ o ∈ e.2.ops, o.pkt = none → o.launch ≠ l.id) ∧
    (s.sysOf (.undo l.id)).isNone = !d ∧ s.sysDone (.undo l.id) = d :=
  match d with
  | false => ⟨sRep 2, lRep 2, 13, by decide +kernel⟩
  | true => ⟨{ sRep 2 with sys := [sysDoneOp (.undo 1) 0 0] }, lRep 2, 13, by decide +kernel⟩
def sSig (y : Nat) : State := { base with launches := [{ l1 with body := body2 (1 + 2 ^ 9) 2 }]
                                          teams := [{ id := tid, core := 0, stamp := 1, threads := [{ th2 0 .exited with sig := 3 }] }, { id := ⟨1, 0, true⟩, core := 20, stamp := 1, threads := [{ th2 0 .exited with sig := y }] }] }
theorem witness_CopiesCompare (y : Fin 2) : ∃ (s : State) (a b : Team) (is : List Nat), s.copies 1 0 = some (a, b) ∧ is = (if s.allCompare a b then a.threads.map (·.idx) else (a.threads.map (·.idx)).filter fun i => atFence s a.id i && atFence s b.id i) ∧
    s.allCompare a b = true ∧ s.launchStopped 1 = false ∧ a.held = [] ∧ b.held = [] ∧ sigsAgree a b is = decide (y = 0) :=
  match y with
  | 0 => ⟨sSig 3, (sSig 3).team tid, (sSig 3).team ⟨1, 0, true⟩, [0], by decide +kernel⟩
  | 1 => ⟨sSig 4, (sSig 4).team tid, (sSig 4).team ⟨1, 0, true⟩, [0], by decide +kernel⟩
/-- Two copies, one thread of each at a fence and another at none. -/
def fenceOp (n : Nat) (shadow : Bool) : Op := { id := n, team := ⟨1, 0, shadow⟩, core := 0, gids := [], flag := none, cls := 2, kind := .fence 1 4, accs := [{ thread := 0, va := 0, key := 0, size := 0, home := 0, vec := {}, ok := false }] }
def sFence (y : Nat) : State := { sSig y with
  ops := [fenceOp 3 false, fenceOp 4 true]
  teams := (sSig y).teams.map fun t => { t with threads := t.threads.map (fun h => { h with st := .issuing 1 }) ++ [{ th2 1 (.issuing 1) with sig := t.core }] } }
theorem witness_CopiesCompare_fence (y : Fin 2) : ∃ (s : State) (a b : Team) (is : List Nat), s.copies 1 0 = some (a, b) ∧ is = (if s.allCompare a b then a.threads.map (·.idx) else (a.threads.map (·.idx)).filter fun i => atFence s a.id i && atFence s b.id i) ∧
    s.allCompare a b = false ∧ is = [0] ∧ s.launchStopped 1 = false ∧ sigsAgree a b is = decide (y = 0) :=
  match y with
  | 0 => ⟨sFence 3, (sFence 3).team tid, (sFence 3).team ⟨1, 0, true⟩, [0], by decide +kernel⟩
  | 1 => ⟨sFence 4, (sFence 4).team tid, (sFence 4).team ⟨1, 0, true⟩, [0], by decide +kernel⟩
theorem witness_TeamsEndOrAreStopped_copies : ∃ (s : State) (l : Launch) (n : Nat), s.findLaunch l.id = some l ∧ l.redundant = true ∧ (∀ id ∈ copiesOf l n, s.canEnd l id = true) ∧ (s.team ⟨l.id, n, false⟩).threads ≠ [] :=
  let s := { sSig 3 with teams := (sSig 3).teams.map fun t => { t with threads := t.threads.map fun h => { h with sig := 0 } } }
  ⟨s, s.launch 1, 0, by decide +kernel⟩
/-- A copied page of module memory, with a frame for it in pool 0 and room in the set, or with neither. -/
def sCopied (b : Bool) : State := { sRep 0 with rollbacks := [], sys := [sysDoneOp (.snapshot 1 0x20000) 0x20000 65536], tenants := [(0, { ten with snapcfg := if b then 16 else 0, pools := [(0, { cfg := 1, frames := if b then [0x60000] else [] })] })] }
theorem witness_SnapshotCopies (b : Bool) : ∃ (s : State) (l : Launch) (page : Nat) (o : SysOp), s.sysOf (.snapshot l.id page) = some o ∧ s.sysDone (.snapshot l.id page) = true ∧ s.findLaunch l.id = some l ∧ l.replayable = true ∧
    o.ended = false ∧ s.snapRoom l = b ∧ (s.pool l.tenant ((s.tenant l.tenant).snapcfg.toNat % 16)).frames = (if b then [0x60000] else []) ∧ (s.tenant l.tenant).fcctl.toNat.testBit 31 = false :=
  ⟨sCopied b, lRep 0, 0x20000, sysDoneOp (.snapshot 1 0x20000) 0x20000 65536, by cases b <;> decide +kernel⟩
/-- A page of a region, backed, in the same way. -/
theorem witness_SnapshotCopies_region : let s := { sCopied true with regions := [regP], sys := [sysDoneOp (.snapshot 1 (regionKey 0 0 65536)) (regionKey 0 0 65536) 65536] }
    s.sysDone (.snapshot 1 (regionKey 0 0 65536)) = true ∧ s.regionOfKey (regionKey 0 0 65536) = some regP ∧ (regP.page (regP.pageOf (keyVa (regionKey 0 0 65536)))).isSome = true := by decide +kernel
/-! ### Regions, caches, queues and channels -/

def regW : Region := { regA with c := 160, claims := [⟨128, 144, 0⟩, ⟨144, 160, 8⟩] }
def sRgn (r : Region) : State := { withT base [th2 0 (.waiting (.wordGe 131072 129) 0x80)] with regions := [r]
                                                                                                ops := [{ id := 3, team := tid, core := 0, gids := [9], flag := none, cls := 0, kind := .seal regW.id }, { id := 4, team := tid, core := 0, gids := [9], flag := none, cls := 0, kind := .free regW.id }] }
theorem witness_RegionEventsMove_tail : (sRgn regW).findRegion regW.id = some regW ∧ regW.freeWait = false ∧ (sRgn regW).tailDue regW = true := by decide +kernel
theorem witness_RegionEventsMove_seal : ∃ r : Region, (sRgn r).findRegion r.id = some r ∧ r.freeWait = false ∧ (sRgn r).sealDue r = true := ⟨{ regW with st := 1, t := 160, claims := [] }, by decide +kernel⟩
theorem witness_RegionEventsMove_free : ∃ r : Region, (sRgn r).findRegion r.id = some r ∧ r.freeWait = false ∧ (sRgn r).freeDue r = true ∧ r.freeLaunch = none ∧ Store.wf none r.pages = true ∧ r.pages ≠ [] ∧ (∀ g ∈ (sRgn r).regions, g.id = r.id → g = r) ∧
    (∀ e ∈ r.pages, ∀ a, (sRgn r).pageEntry r.id.tenant r.id.asid (r.base + e.1 * pageBytes r.psize) (pageLevel r.psize) = some a → Plain (sRgn r) a 8) ∧ Memory.wf (sRgn r).mem = true ∧ Store.wf none (sRgn r).outMem = true :=
  ⟨{ regW with st := 3, t := 160, claims := [] }, by unfold Plain; decide +kernel⟩
theorem witness_RegionEventsMove_replica : ∃ s : State, (5, 0x70000) ∈ (s.die 2).replicas ∧ Store.wf {} s.dies = true ∧ s.findRegion regW.id = some regW := ⟨{ sRgn regW with dies := [(2, { replicas := [(5, 0x70000), (6, 0x80000)] })] }, by decide +kernel⟩
/-- An append of 4 and 8 bytes: on an open region that they just fill up to a page's end, and on a sealed one. -/
def acA (i n : Nat) : Acc := { thread := i, va := 0, key := tailKey regW, size := n, home := 1, vec := {}, region := some regW.id }
def sClaim (r : Region) : State := { sRgn r with ops := [{ id := 5, team := tid, core := 0, gids := [9], flag := none, cls := 0, kind := .append, accs := [acA 0 4, acA 1 8] }] }
def opened : Region := { regW with c := 65524, claims := [] }
theorem witness_ClaimsAreTaken : ∃ (s : State) (o : Op) (a : Acc) (rest : List Acc) (r : Region), s.findOp o.id = some o ∧ o.kind = .append ∧ o.isReady = false ∧ o.accs = a :: rest ∧ a.done = false ∧ a.region = some r.id ∧ s.findRegion r.id = some r ∧
    s.homeReady a.home (VC.maxAll (o.accs.map (·.vec))) = true ∧ o.waitsFed = false ∧ r.st = 0 ∧ r.freeWait = false ∧ 0 < total o.accs ∧ r.c + total o.accs ≤ r.len ∧
    ∀ i, r.c / pageBytes r.psize ≤ i → i ≤ (r.c + total o.accs - 1) / pageBytes r.psize → (r.page i).isSome = true :=
  ⟨sClaim opened, opOf (sClaim opened), acA 0 4, [acA 1 8], opened, by
    simp only [← and_assoc]
    exact ⟨by decide +kernel, fun i _ h => by rw [Nat.le_zero.mp (Nat.le_trans h (by decide +kernel))]; decide +kernel⟩⟩
theorem witness_ClaimsAreTaken_not : ∃ (s : State) (o : Op) (a : Acc) (rest : List Acc) (r : Region), s.findOp o.id = some o ∧ o.kind = .append ∧ o.isReady = false ∧ o.accs = a :: rest ∧ a.done = false ∧ a.region = some r.id ∧ s.findRegion r.id = some r ∧
    s.homeReady a.home (VC.maxAll (o.accs.map (·.vec))) = true ∧ o.waitsFed = false ∧ r.st ≠ 0 :=
  ⟨sClaim { regW with st := 1 }, opOf (sClaim { regW with st := 1 }), acA 0 4, [acA 1 8], { regW with st := 1 }, by decide +kernel⟩
/-- A push for the second slot of a team with one more slot, its count above the record's, and one not above it. -/
def lSlot : Launch := { l1 with body := body2 1 2 |>.set 0x1C 4 |>.set 0x1D 8 }
def push1 (n : Nat) : Push := { pid := 8, mid := 1, team := tid, core := 0, slot := 1, val := 7, count := n, clk := {} }
def sPush (n mid : Nat) (v : Option Saved) : State :=
  let s := withT base [th2 0 (.waiting (.slot 1 1) 0x80)]
  { s with launches := [lSlot], pushes := [push1 n], moorings := [{ mid := 1, home := 1, key := 5, size := 8, tenant := 0, core := 0, team := tid, slot := 1 }]
           teams := s.teams.map fun t => { t with saved := v, slotMid := [(1, mid)] } }
theorem witness_PushesLand : ∀ n ∈ [0, 1], let s := sPush n 1 none
    findBy (fun x : Push => x.pid == (push1 n).pid) s.pushes = some (push1 n) ∧ s.pushReady (push1 n) = true ∧ s.slotOwner (push1 n).team (push1 n).core (push1 n).slot = (push1 n).mid ∧ (s.launch (push1 n).team.launch).redundant = false ∧
    s.findTeam (push1 n).team ≠ none ∧ (push1 n).core = (s.team (push1 n).team).core ∧ (s.team (push1 n).team).saved = none ∧ Memory.wf (s.team (push1 n).team).scratch = true := by decide +kernel
/-- The record a later mooring or lds has written, and the record of a saved team. -/
theorem witness_PushesLand_other : let s := sPush 1 2 none
    findBy (fun x : Push => x.pid == (push1 1).pid) s.pushes = some (push1 1) ∧ s.pushReady (push1 1) = true ∧ s.slotOwner (push1 1).team (push1 1).core (push1 1).slot ≠ (push1 1).mid := by decide +kernel
theorem witness_PushesLand_saved : ∀ n ∈ [0, 1], let s := sPush n 1 (some ⟨0x100000, 4096, false⟩)
    findBy (fun x : Push => x.pid == (push1 n).pid) s.pushes = some (push1 n) ∧ s.pushReady (push1 n) = true ∧ s.slotOwner (push1 n).team (push1 n).core (push1 n).slot = (push1 n).mid ∧ (s.launch (push1 n).team.launch).redundant = false ∧
    s.findTeam (push1 n).team ≠ none ∧ (push1 n).core = (s.team (push1 n).team).core ∧ (s.team (push1 n).team).saved ≠ none ∧ Plain s (s.shadowPlace (push1 n).team (push1 n).core (push1 n).slot) 16 ∧ Memory.wf s.mem = true ∧ Store.wf none s.outMem = true := by unfold Plain; decide +kernel
/-- An unsl of one thread before its slot's mooring has ended, and after. -/
def sUnsl : State := { sMx (.unsl k0 10) with ops := (sMx (.unsl k0 10)).ops.map fun o => { o with accs := o.accs.take 1 } }
theorem witness_PushesLand_unsl : ∃ (s : State) (o : Op) (a : Acc), s.findOp o.id = some o ∧ o.kind = .unsl ∧ o.waitsFed = false ∧ o.accs = [a] ∧ a.done = false ∧ a.val = 0 ∧ s.ldsPending o.team o.core a.opnd o.id = false :=
  ⟨sUnsl, opOf sUnsl, (opOf sUnsl).accs.headD (acA 0 0), by decide +kernel⟩
theorem witness_PushesLand_unslDone : ∃ (s : State) (o : Op), s.findOp o.id = some o ∧ o.kind = .unsl ∧ o.waitsFed = false ∧ o.accs ≠ [] ∧ (∀ a ∈ o.accs, a.done = true ∨ a.val ≠ 0) ∧ ∀ a ∈ o.accs, ∀ p ∈ s.pushes, p.mid ≠ a.cmp := ⟨nxt (exec (.unslDone (opOf sUnsl).id) sUnsl), opOf (nxt (exec (.unslDone (opOf sUnsl).id) sUnsl)), by decide +kernel⟩
/-- A core with a clean line, a dirty one, and a sub-array in use. -/
def wDirty : Write := { id := 7, key := 0x20010, bytes := [1, 2, 3], origin := 0, stamp := 3, clk := {}, home := 0, l1 := some 0 }
def sCore : State := { base with cores := [(0, { l1 := [(4, some { bytes := [1] })], fenced := 1, latch := [(2, some (tid, 4))] })], launches := [{ l1 with used := [(0, 2), (0, 1)] }], writes := [wDirty] }
theorem witness_CachesAndSelfTests : Store.wf {} sCore.cores = true ∧ Store.wf none (sCore.core 0).l1 = true ∧ (sCore.writes.filter fun x => x.l1 == some 0 && decide (x.key / 128 = wDirty.key / 128)) = [wDirty] ∧ findBy (fun x : Write => x.id == wDirty.id) sCore.writes = some wDirty ∧ sCore.canApply wDirty = true ∧
    wDirty.segs = [] ∧ wDirty.ext = none ∧ Plain sCore wDirty.key wDirty.bytes.length ∧ Memory.wf sCore.mem = true ∧ Store.wf none sCore.outMem = true ∧ Store.wf 0 sCore.watermark = true ∧ (sCore.core 0).fenced.getLsbD 3 = false ∧ Store.wf none (sCore.core 0).latch = true ∧ sCore.pendingFor 0 0 = [wDirty] ∧ sCore.pendingFor 4 0 = [] := by
  unfold Plain; decide +kernel

/-! ### Queues and packets -/

/-- A queue with a packet in its ring; the pages of 64 KiB that its tenant has. -/
def queue1 : Queue := { qctl := 0x80000004, qbase := 0x20000, qindex := 0x28000, rpos := 1, due := true }
def pages64 : List (Nat × Byte) :=
  [(0x1001, 0x20), (0x1007, 0x80), (0x2001, 0x30), (0x2007, 0x80), (0x3001, 0x40), (0x3007, 0x80), (0x4001, 0x50), (0x4007, 0x80), (0x5012, 2), (0x5017, 0xF8), (0x501A, 3), (0x501F, 0xF8), (0x5020, 4), (0x5021, 0x80), (0x5022, 5), (0x5027, 0xF8)]
def regQ : Region := { regA with base := 0x40000, c := 160, claims := [⟨144, 160, 8⟩] }
def sQue (k : Queue) (w : Byte) : State := { base with queues := [(3, k)], mem := pages64 ++ [(0x20040, 7), (0x20101, 9), (0x28000, w), (0x28008, 1)], regions := [regQ] }
theorem witness_QueuesMoveOn_off : ((sQue queue1 2).queue 3).qctl.getLsbD 31 = true ∧ ((sQue queue1 2).tenant ((sQue queue1 2).queue 3).tenant).busy = false ∧ Store.wf {} (sQue queue1 2).queues = true := by decide +kernel
theorem witness_QueuesMoveOn_on : ∃ (s : State) (v : DWord) (r : Nat), (s.queue 3).qctl.getLsbD 31 = false ∧ (s.tenant (s.queue 3).tenant).busy = false ∧ v.getLsbD 31 = true ∧ Store.wf {} s.queues = true ∧
    s.ringOk (v.toNat / 2 ^ 24 % 16) (v.toNat / 2 ^ 20 % 16) (s.queue 3).qbase.toNat (s.queue 3).qindex.toNat (v.toNat % 32) 4096 = some r ∧ (s.queue 3).timeline ≤ r := ⟨sQue { queue1 with qctl := 0 } 1, 0x80000004, 1, by decide +kernel⟩
theorem witness_QueuesMoveOn_unfit : ∃ (s : State) (v : DWord), (s.queue 3).qctl.getLsbD 31 = false ∧ (s.tenant (s.queue 3).tenant).busy = false ∧ v.getLsbD 31 = true ∧ s.ringOk (v.toNat / 2 ^ 24 % 16) (v.toNat / 2 ^ 20 % 16) (s.queue 3).qbase.toNat (s.queue 3).qindex.toNat (v.toNat % 32) 4096 = none :=
  ⟨sQue { queue1 with qctl := 0 } 2, 0x80000004, by decide +kernel⟩
theorem witness_QueuesMoveOn_take : ∃ (s u v : State) (ks kr : Nat), (s.queue 3).enabled = true ∧ (s.queue 3).faultSeq = 0 ∧ (s.queue 3).due = true ∧ (s.queue 3).step = 0 ∧ s.nextSlot (s.queue 3) = .ok (.packet ks) ∧ s.homeReady (s.homeOf ks) ((s.locClk ks).max (s.queue 3).clk) = true ∧
    u = (s.readerReads (s.queue 3) (s.nextSlot (s.queue 3))).tookPacket 3 ks ∧ v = u.clearType 3 ∧ u.readerKey (u.queue 3) ((s.queue 3).slotVa (s.queue 3).rpos) 1 1 .write = .ok ks ∧ ReaderMay u 3 ks ∧ v.readerKey (v.queue 3) ((s.queue 3).qindex.toNat + 8) 8 8 .write = .ok kr ∧ ReaderMay v 3 kr ∧
    Plain s ks 1 ∧ Plain s kr 8 ∧ ¬(kr ≤ ks ∧ ks < kr + 8) ∧ Memory.wf s.mem = true ∧ Store.wf none s.outMem = true ∧ (s.queue 3).rpos < 2 ^ 64 - 1 :=
  ⟨sQue queue1 2, _, _, 0x20040, 0x28008, by decide +kernel, by decide +kernel, by decide +kernel, by decide +kernel, ok_of (by decide +kernel), by decide +kernel, rfl, rfl, ok_of (by decide +kernel), by unfold ReaderMay; decide +kernel, ok_of (by decide +kernel), by unfold ReaderMay; decide +kernel, by unfold Plain; decide +kernel⟩
/-- The reader has a slot's type byte to clear, or the read index to store, in a page that is not there. -/
theorem err_of {ε α : Type} {e : Except ε α} (h : e.isOk = false) : ∃ x, e = .error x := by cases e with
  | error x => exact ⟨x, rfl⟩
  | ok a => cases h
theorem witness_QueuesMoveOn_clearFault : ∃ (s : State) (e : Nat × Nat), (s.queue 3).enabled = true ∧ (s.queue 3).faultSeq = 0 ∧ (s.queue 3).step = 1 ∧ s.readerKey (s.queue 3) ((s.queue 3).slotVa ((s.queue 3).rpos - 1)) 1 1 .write = .error e :=
  let s := sQue { queue1 with rpos := 2, step := 1, qbase := 0x4000020000 } 2
  have ⟨e, h⟩ := err_of (show (s.readerKey (s.queue 3) ((s.queue 3).slotVa ((s.queue 3).rpos - 1)) 1 1 .write).isOk = false by decide +kernel)
  ⟨s, e, by decide +kernel, by decide +kernel, by decide +kernel, h⟩
theorem witness_QueuesMoveOn_indexFault : ∃ (s : State) (e : Nat × Nat), (s.queue 3).enabled = true ∧ (s.queue 3).faultSeq = 0 ∧ (s.queue 3).step = 2 ∧ s.readerKey (s.queue 3) ((s.queue 3).qindex.toNat + 8) 8 8 .write = .error e :=
  let s := sQue { queue1 with rpos := 2, step := 2, qindex := 0x4000028000 } 2
  have ⟨e, h⟩ := err_of (show (s.readerKey (s.queue 3) ((s.queue 3).qindex.toNat + 8) 8 8 .write).isOk = false by decide +kernel)
  ⟨s, e, by decide +kernel, by decide +kernel, by decide +kernel, h⟩
theorem witness_QueuesMoveOn_empty : (sQue queue1 1).nextSlot queue1 = .ok .empty ∧ (sQue queue1 1).queue 3 = queue1 := ⟨ok_of (by decide +kernel), by decide +kernel⟩
/-- A slot claimed and not yet written; a reader to which no push has come. -/
theorem witness_QueuesMoveOn_claimed : (sQue { queue1 with rpos := 2 } 3).nextSlot ((sQue { queue1 with rpos := 2 } 3).queue 3) = .ok (.claimed 0x20080) ∧ ((sQue { queue1 with rpos := 2 } 3).queue 3).enabled = true ∧ ((sQue { queue1 with rpos := 2 } 3).queue 3).faultSeq = 0 :=
  ⟨ok_of (by decide +kernel), by decide +kernel⟩
theorem witness_QueuesMoveOn_sleeps : Store.wf {} (sQue { queue1 with due := false } 2).queues = true ∧ ((sQue { queue1 with due := false } 2).queue 3).due = false := by decide +kernel
theorem witness_QueuesMoveOn_fault : ∃ (s : State) (e : Nat × Nat), (s.queue 3).enabled = true ∧ (s.queue 3).faultSeq = 0 ∧ (s.queue 3).due = true ∧ (s.queue 3).step = 0 ∧ s.nextSlot (s.queue 3) = .error e :=
  let s := sQue { queue1 with qindex := 0x4000028000 } 2
  have ⟨e, h⟩ := err_of (show (s.nextSlot (s.queue 3)).isOk = false by decide +kernel)
  ⟨s, e, by decide +kernel, by decide +kernel, by decide +kernel, by decide +kernel, h⟩
def pDone (n : Nat) : Pkt := { seq := n, bytes := List.replicate 64 0, clk := {}, started := true, result := some (0, 0, 0) }
/-- A packet that ends in its turn, and one that ends before the one in front of it. -/
theorem witness_QueuesMoveOn_done (n : Fin 2) : ∃ (s : State) (p : Pkt), pktOf s 3 p.seq = some p ∧ p.result = some (0, 0, 0) ∧ (p.bytes.getD 1 0).getLsbD 0 = false ∧ (s.queue 3).fin = [] ∧ p.seq = n.val + 1 ∧ (s.queue 3).timeline = 0 :=
  match n with
  | 0 => ⟨sQue { queue1 with pkts := [pDone 1] } 2, pDone 1, by decide +kernel⟩
  | 1 => ⟨sQue { queue1 with pkts := [{ pDone 1 with result := none }, pDone 2] } 2, pDone 2, by decide +kernel⟩

def hdr (ty : Nat) (r : List Byte) : List Byte := let b := leBytes ty 16 ++ r; b ++ List.replicate (64 - b.length) 0
def pkt (b : List Byte) : Pkt := { seq := 2, bytes := b, clk := {} }
def sPkt (b : List Byte) : State := sQue { queue1 with pkts := [pkt b], rpos := 2 } 2
theorem starts_of {s : State} {ty : Nat} {p : Pkt} (h : s.starting 3 ty = some p ∧ pktOf s 3 p.seq = some p ∧ s.pktBad (s.queue 3) p = [] ∧ p.result = none) : Starts s 3 ty p := ⟨h.1, h.2.1, h.2.2.1, h.2.2.2⟩
def launchBytes : List Byte := hdr 1 (leBytes 0x1000 4 ++ leBytes (15 + 2 ^ 25) 4 ++ leBytes 512 4 ++ leBytes (4 + 4 * 2 ^ 9) 4 ++ leBytes 0x10 8 ++ leBytes (65536 + 1) 8 ++ leBytes 10 4 ++ leBytes (1 + 65536) 4 ++ leBytes (4 + 2 ^ 12 + 2 ^ 24) 8)
def sLaunch : State := { sPkt launchBytes with images := [{ codeImage with codeVa := 0x40000, kernels := [(0x40, 1, 4, false)] }] }
theorem witness_WorkPacketsStart_launch : ∃ p, Starts sLaunch 3 1 p ∧ sLaunch.launchBad 3 (sLaunch.queue 3) p = [] ∧ (sLaunch.kernelOf 0 (fieldAt p.bytes 0x10 4)).isSome = true := ⟨pkt launchBytes, starts_of (by decide +kernel), by decide +kernel⟩
def chanBytes (ty : Nat) : List Byte := hdr ty (leBytes 0x20100 8 ++ leBytes 0x20200 8 ++ List.replicate 16 0 ++ (if ty = 3 then [8, 0] else []))
theorem witness_WorkPacketsStart_channels : ∀ ty ∈ [2, 3, 4], let s := sPkt (chanBytes ty)
    s.starting 3 ty = some (pkt (chanBytes ty)) ∧ pktOf s 3 2 = some (pkt (chanBytes ty)) ∧ s.pktBad (s.queue 3) (pkt (chanBytes ty)) = [] ∧ chanBody ty (chanBytes ty) = [] ∧ ∀ e ∈ s.chans, ∀ o ∈ e.2.ops, o.seq ≤ e.2.lastSeq := by decide +kernel
def tableBytes (lanes fl : Nat) : List Byte := hdr 5 (leBytes 0x20100 8 ++ leBytes 256 4 ++ leBytes lanes 2 ++ leBytes fl 1)
theorem witness_WorkPacketsStart_lanes : ∃ s p, Starts s 3 5 p ∧ tableBad p.bytes = [] ∧ (p.bytes.getD 0x1E 0).getLsbD 2 = false ∧ tableLanes p.bytes = [0, 1, 9] ∧ (tableLanes p.bytes).Nodup := ⟨sPkt (tableBytes 0x203 0), pkt (tableBytes 0x203 0), starts_of (by decide +kernel), by decide +kernel⟩
theorem witness_WorkPacketsStart_entropy : ∃ s p bs, Starts s 3 5 p ∧ tableBad p.bytes = [] ∧ (p.bytes.getD 0x1E 0).getLsbD 2 = true ∧ s.pktMay (s.queue 3) p = true ∧ (s.startPkt 3 p).pktRead (s.queue 3) p (fieldAt p.bytes 0x10 8) 256 = .ok bs ∧ bs ≠ [] ∧ NoneCoded s 0 (4 + (p.bytes.getD 0x1E 0).toNat / 8 % 4) :=
  ⟨sPkt (tableBytes 0 12), pkt (tableBytes 0 12), _, starts_of (by decide +kernel), by decide +kernel, by decide +kernel, by decide +kernel, ok_okD [] (by decide +kernel), by decide +kernel, ⟨fun e h => (List.not_mem_nil (show e ∈ ([] : List _) from h)).elim, by decide +kernel⟩⟩
def signalBytes (op : Nat) : List Byte := hdr 6 (leBytes 0x20100 8 ++ leBytes 0x55 8 ++ leBytes op 1)
def tr0 : Tr := { key := 0, entry := 0, level := 0, region := none, backed := true, r := true, w := true, x := true, moving := false, metadata := false }
def trSignal (op : Nat) : Tr := okD tr0 ((sPkt (signalBytes op)).check [] 0 0 0x20100 8 (if op = 1 then .atomic else .write))
theorem witness_OrderPacketsStart_signal (op : Fin 2) : ∃ (s : State) (p : Pkt) (tr : Tr), Starts s 3 6 p ∧ signalBad p.bytes = [] ∧ fieldAt p.bytes 0x20 1 = op.val ∧ s.writeWaits (s.queue 3) p (fieldAt p.bytes 0x10 8) = false ∧ s.pktMay (s.queue 3) p = true ∧
    s.check [] (s.queue 3).tenant p.asid (fieldAt p.bytes 0x10 8) 8 (if op.val = 1 then .atomic else .write) = .ok tr ∧ s.linkDown tr.key = false ∧ s.poison = [] ∧ Plain s tr.key 8 ∧ Memory.wf s.mem = true ∧ Store.wf none s.outMem = true :=
  match op with
  | 0 => ⟨sPkt (signalBytes 0), pkt (signalBytes 0), trSignal 0, starts_of (by decide +kernel), by decide +kernel, by decide +kernel, by decide +kernel, by decide +kernel, ok_of (by decide +kernel), by unfold Plain; decide +kernel⟩
  | 1 => ⟨sPkt (signalBytes 1), pkt (signalBytes 1), trSignal 1, starts_of (by decide +kernel), by decide +kernel, by decide +kernel, by decide +kernel, by decide +kernel, ok_of (by decide +kernel), by unfold Plain; decide +kernel⟩
def waitBytes (n : Nat) : List Byte := hdr 7 (leBytes n 8 ++ leBytes 0 2 ++ leBytes 4 2)
theorem witness_OrderPacketsStart_wait : ∃ s p, Starts s 3 7 p ∧ s.waitBad (s.queue 3) p.bytes = [] := ⟨sPkt (waitBytes 5), pkt (waitBytes 5), starts_of (by decide +kernel), by decide +kernel⟩
/-- A WAIT that has started, for a value that queue 4's timeline has come to, and for the one after it. -/
def pWait (n : Nat) : Pkt := { pkt (waitBytes n) with started := true }
def sWaitP (n : Nat) : State := { sPkt (waitBytes n) with queues := [(3, { queue1 with pkts := [pWait n], rpos := 2 }), (4, { timeline := 5 })] }
theorem witness_OrderPacketsStart_waitDone : ∀ n ∈ [5, 6], ((sWaitP n).queue 3).blocker = some (pWait n) ∧ pktOf (sWaitP n) 3 2 = some (pWait n) ∧ fieldAt (pWait n).bytes 0x18 1 = 0 ∧ fieldAt (pWait n).bytes 0x10 8 = n ∧ ((sWaitP n).queue (fieldAt (pWait n).bytes 0x1A 2)).timeline = 5 := by decide +kernel
def sealBytes (va op : Nat) : List Byte := hdr 8 (leBytes va 8 ++ leBytes op 1)
theorem witness_OrderPacketsStart_seal (op : Fin 2) : ∃ (s : State) (p : Pkt) (r : Region), Starts s 3 8 p ∧ (p.bytes.getD 0x18 0).toNat = op.val ∧ (p.bytes.drop 0x19).all (· == 0) = true ∧ s.sealTarget (s.queue 3) p = some r ∧ s.findRegion r.id = some r :=
  match op with
  | 0 => ⟨sPkt (sealBytes 0x40010 0), pkt (sealBytes 0x40010 0), regQ, starts_of (by decide +kernel), by decide +kernel⟩
  | 1 => ⟨sPkt (sealBytes 0x40010 1), pkt (sealBytes 0x40010 1), regQ, starts_of (by decide +kernel), by decide +kernel⟩
theorem witness_OrderPacketsStart_sealOther : ∃ (s : State) (p : Pkt), Starts s 3 8 p ∧ (p.bytes.getD 0x18 0).toNat ≤ 1 ∧ (p.bytes.drop 0x19).all (· == 0) = true ∧ s.sealTarget (s.queue 3) p = none := ⟨sPkt (sealBytes 0x20000 0), pkt (sealBytes 0x20000 0), starts_of (by decide +kernel), by decide +kernel⟩
def badBytes (ty fl : Nat) : List Byte := leBytes (ty + fl * 256) 64
/-- A flag byte of 4 for every type; a SIGNAL of a priority above its queue's, one with a byte at 3, and one with an address where it asks for no record. -/
theorem witness_OrderPacketsStart_rejected : ∀ ty ∈ [1, 2, 3, 4, 5, 6, 7, 8, 9], (sPkt (badBytes ty 4)).starting 3 ty = some (pkt (badBytes ty 4)) ∧ pktOf (sPkt (badBytes ty 4)) 3 2 = some (pkt (badBytes ty 4)) ∧ fieldAt (badBytes ty 4) 1 1 = 4 := by decide +kernel
theorem witness_OrderPacketsStart_rejectedLater : ∀ fl ∈ [2 ^ 8, 2 ^ 16, 2 ^ 60], let s := sPkt (badBytes 6 fl); let b := badBytes 6 fl
    s.starting 3 6 = some (pkt b) ∧ pktOf s 3 2 = some (pkt b) ∧ fieldAt b 1 1 < 4 ∧
    (decide ((s.queue 3).qctl.toNat / 2 ^ 18 % 4 < fieldAt b 2 1 % 4 ∨ fieldAt b 2 1 / 4 % 4 ≠ 0 ∨ (Store.get 0 (s.tenant (s.queue 3).tenant).troot (fieldAt b 2 1 / 16)).getLsbD 0 = false) = decide (fl = 2 ^ 8)) ∧
    (decide (fieldAt b 3 5 ≠ 0) = decide (fl = 2 ^ 16)) ∧ (decide (fieldAt b 8 8 ≠ 0) = decide (fl = 2 ^ 60)) := by decide +kernel

/-! ### Migrations, channels and lanes -/

def moveBytes (va tier : Nat) : List Byte := hdr 9 (leBytes va 8 ++ leBytes tier 1)
def sMove (va tier : Nat) : State := { sPkt (moveBytes va tier) with tenants := [(0, { ten with pools := [(0, { cfg := 1, frames := [0x60000] }), (1, { cfg := 1 + 4, frames := [0x4000000000] })] })] }
def mvOf (va tier : Nat) : MovePlan := okD ⟨tr0, 0, 0, 0, 0⟩ ((sMove va tier).movePlan ((sMove va tier).queue 3) (pkt (moveBytes va tier)))
/-- What a MIGRATE of an address and tier meets before its clauses part. -/
structure Moves (va tier : Nat) : Prop where
  plan : (sMove va tier).movePlan ((sMove va tier).queue 3) (pkt (moveBytes va tier)) = .ok (mvOf va tier)
  starts : Starts (sMove va tier) 3 9 (pkt (moveBytes va tier))
  body : ((pkt (moveBytes va tier)).bytes.getD 0x18 0).toNat < 8 ∧ ((pkt (moveBytes va tier)).bytes.drop 0x19).all (· == 0) = true
  free : (mvOf va tier).tr.moving = false
theorem witness_MigrationsMovePages_unaligned : Moves 0x20010 1 ∧ fieldAt (pkt (moveBytes 0x20010 1)).bytes 0x10 8 % (mvOf 0x20010 1).bytes ≠ 0 := ⟨⟨ok_okD _ (by decide +kernel), starts_of (by decide +kernel), by decide +kernel, by decide +kernel⟩, by decide +kernel⟩
theorem witness_MigrationsMovePages_ends : Moves 0x20000 0 ∧ ((sMove 0x20000 0).moveEnds ((sMove 0x20000 0).queue 3) (mvOf 0x20000 0) (pkt (moveBytes 0x20000 0))).isSome = true := ⟨⟨ok_okD _ (by decide +kernel), starts_of (by decide +kernel), by decide +kernel, by decide +kernel⟩, by decide +kernel⟩
theorem witness_MigrationsMovePages_frame : Moves 0x20000 1 ∧ (sMove 0x20000 1).moveEnds ((sMove 0x20000 1).queue 3) (mvOf 0x20000 1) (pkt (moveBytes 0x20000 1)) = none ∧
    (sMove 0x20000 1).poolFor 0 (mvOf 0x20000 1).die (mvOf 0x20000 1).tier (mvOf 0x20000 1).size (mvOf 0x20000 1).tr.region = some 1 ∧ ((sMove 0x20000 1).pool 0 1).frames = 0x4000000000 :: [] ∧
    (((sMove 0x20000 1).startPkt 3 (pkt (moveBytes 0x20000 1))).takeFrame 0 1).isSome = true :=
  ⟨⟨ok_okD _ (by decide +kernel), starts_of (by decide +kernel), by decide +kernel, by decide +kernel⟩, by decide +kernel⟩
/-- The page moves; a system channel has its copy to make, or has made it. -/
def sMoving : State := nxt (exec (.migrate 3) (sMove 0x20000 1))
def sysMove (n : Nat) : SysOp := { die := 0, chan := 0, job := .move 3 2, tenant := 0, src := 0x30000, size := 65536, done := n }
theorem witness_MigrationsMovePages_copy (d : Bool) : ∃ (s : State) (p : Pkt) (m : MovePlan), (s.queue 3).mover = some p ∧ s.movePlan (s.queue 3) p = .ok m ∧ pktOf s 3 p.seq = some p ∧ m.tr.moving = true ∧ s.moveCopied 3 p = d :=
  match d with
  | false => ⟨{ sMoving with sys := [sysMove 0] }, ((sMoving.queue 3).mover).getD (pkt []), _, by decide +kernel, ok_okD (mvOf 0x20000 1) (by decide +kernel), by decide +kernel⟩
  | true => ⟨{ sMoving with sys := [sysMove 65536] }, ((sMoving.queue 3).mover).getD (pkt []), _, by decide +kernel, ok_okD (mvOf 0x20000 1) (by decide +kernel), by decide +kernel⟩
/-- Its leaf no longer says that the page moves. -/
theorem witness_MigrationsMovePages_gone : ∃ (s : State) (p : Pkt) (m : MovePlan), (s.queue 3).mover = some p ∧ s.movePlan (s.queue 3) p = .ok m ∧ pktOf s 3 p.seq = some p ∧ m.tr.moving = false :=
  ⟨{ sMoving with mem := (sMove 0x20000 1).mem }, ((sMoving.queue 3).mover).getD (pkt []), _, by decide +kernel, ok_okD (mvOf 0x20000 1) (by decide +kernel), by decide +kernel⟩
def dch : ChanId := .die 0 3
def copyBytes (dst pad : Nat) : List Byte := hdr 2 (leBytes 0x20100 8 ++ leBytes dst 8 ++ leBytes 5 4 ++ leBytes 0 13 ++ leBytes pad 1)
def opC (b : List Byte) (page : Nat) : ChOp := { cop 4 with bytes := b, launch := 0, pkt := some (3, 2), page := page }
def sChan (b : List Byte) (page : Nat) : State := { sPkt (chanBytes 2) with chans := [(dch, { ops := [opC b page], lastSeq := 5, timeline := 3 })] }
theorem not_system (c : Nat) : ∀ d n, ChanId.die 0 c ≠ .system d n := fun _ _ h => by cases h
theorem witness_ChannelsMoveOn : ∃ (s : State) (ch : ChanId) (o x : ChOp) (rest : List ChOp) (st d : Nat), (∀ d n, ch ≠ .system d n) ∧ (s.chan ch).ops = o :: rest ∧ s.headRuns ch o = true ∧
    let u := (s.outriderOn ch o).1
    (u.chan ch).head = some x ∧ x.pkt ≠ none ∧ ((u.captureBank ch x).runHead ch x).status = some (st, d) ∧ (((u.captureBank ch x).runHead ch x).x.s.chan ch).ops = x :: rest ∧ (((u.captureBank ch x).runHead ch x).x.s.chan ch).timeline = (s.chan ch).timeline :=
  ⟨sChan (copyBytes 0x20204 0) 0, dch, opC (copyBytes 0x20204 0) 0, opC (copyBytes 0x20204 0) 1, [], 0, 0, not_system 3, by decide +kernel⟩
theorem witness_ChannelsMoveOn_rejected : ∃ (s : State) (ch : ChanId) (o : ChOp) (rest : List ChOp) (off : Nat), (∀ d n, ch ≠ .system d n) ∧ (s.chan ch).ops = o :: rest ∧ s.headRuns ch o = true ∧ o.ended = none ∧ o.lane = none ∧ o.claim = none ∧ chanReject (chanIsCore ch) 3 o.bytes = some off ∧ (o.bytes.getD 1 0).getLsbD 0 = false :=
  ⟨sChan (copyBytes 0x20204 15) 0, dch, opC (copyBytes 0x20204 15) 0, [], (chanReject false 3 (copyBytes 0x20204 15)).getD 0, not_system 3, by decide +kernel⟩
/-- The five bytes up to a line's end are copied. -/
def trCopy (va : Nat) (a : Access) : Tr := okD tr0 ((sChan (copyBytes 0x2027B 0) 1).check [] 0 0 va 1 a)
theorem witness_ChannelsMoveOn_line : ∃ (s : State) (ch : ChanId) (o : ChOp) (rest : List ChOp) (a b : Nat) (x : Nat × Nat), (∀ d n, ch ≠ .system d n) ∧ (s.chan ch).ops = o :: rest ∧ s.headRuns ch o = true ∧ OneLine s ch o a b ∧ o.pkt = some x :=
  ⟨sChan (copyBytes 0x2027B 0) 1, dch, opC (copyBytes 0x2027B 0) 1, [], 0x20100, 0x2027B, (3, 2), not_system 3, by decide +kernel, by decide +kernel,
    ⟨by decide +kernel, by decide +kernel, by decide +kernel, by decide +kernel, ⟨trCopy 0x20100 .read, ok_of (by decide +kernel), by decide +kernel⟩, ⟨trCopy 0x2027B .write, ok_of (by decide +kernel), by decide +kernel⟩, by decide +kernel, by decide +kernel, by unfold Plain; decide +kernel⟩, rfl⟩
/-- An outrider that meets a page with no translation, and one that meets none. -/
theorem witness_ChannelsMoveOn_outrider (f : Bool) : ∃ (s : State) (ch : ChanId) (o : ChOp) (rest : List ChOp), (∀ d n, ch ≠ .system d n) ∧ (s.chan ch).ops = o :: rest ∧ s.headRuns ch o = true ∧ (s.outriderOn ch o).2.isSome = f :=
  match f with
  | false => ⟨sChan (copyBytes 0x20204 0) 0, dch, opC (copyBytes 0x20204 0) 0, [], not_system 3, by decide +kernel⟩
  | true => ⟨sChan (copyBytes 0x60000 0) 0, dch, opC (copyBytes 0x60000 0) 0, [], not_system 3, by decide +kernel⟩
/-- A system channel with a page's copy begun. -/
theorem witness_ChannelsMoveOn_system : ∃ (s : State) (d n : Nat) (o : SysOp), s.sysHead d n = some o ∧ s.sysOf o.job = some o ∧ o.waitSeq = 0 ∧ o.ended = false ∧ o.done < o.size ∧ s.sysWaits o = false ∧ s.poison = [] := ⟨{ sMoving with sys := [sysMove 4096] }, 0, 0, sysMove 4096, by decide +kernel⟩
/-- A table to be loaded, the last lane's or one of three, in either free bank. -/
def sFill (left cur : Nat) : State := { sPkt (tableBytes 0x203 0) with queues := [(3, { queue1 with pkts := [{ pkt (tableBytes 0x203 0) with started := true, left := left }], rpos := 2 })]
                                                                       lanes := [(1, { fills := [(3, 2, none)], cur := cur, bank0 := [(5, 5)], bank1 := [(6, 6)] })] }
theorem witness_ChannelsMoveOn_table : ∀ left ∈ [1, 3], ∀ cur ∈ [0, 1], ∃ p ∈ ((sFill left cur).queue 3).pkts, ((sFill left cur).lane 1).fills = [(3, 2, none)] ∧ ((sFill left cur).lane 1).fillBank = some (1 - cur) ∧ pktOf (sFill left cur) 3 2 = some p ∧ (sFill left cur).mayRun 4 p.clk = true ∧ p.result = none ∧ p.left = left ∧
    Store.wf {} (sFill left cur).lanes = true ∧ ((sFill left cur).pktRead ((sFill left cur).queue 3) p (fieldAt p.bytes 0x10 8) (fieldAt p.bytes 0x18 4)).isOk = true := by decide +kernel

/-! ### Registers of the host, watchdogs, debug, platform, loader -/

/-- A queue that is on; a tenant that is being reset, and one that is not. -/
def sHost : State := { sQue queue1 2 with tenants := [(0, ten), (2, { busy := true })] }
theorem witness_RegistersTakeTheirFields : (sHost.queue 3).qctl.getLsbD 31 = true ∧ Store.wf {} sHost.tenants = true ∧ (sHost.tenant 0).busy = false ∧ (sHost.tenant 2).busy = true ∧ Store.wf 0 (sHost.tenant 0).tvec = true ∧ Store.wf 0 (sHost.tenant 0).rgcount = true := by decide +kernel
/-- A queue that is off; pools with a frame, and with a region that names one; a register of a tenant's page, and one of no tenant's. -/
theorem witness_RegistersTakeTheirFields_off : (sHost.queue 5).qctl.getLsbD 31 = false ∧ Store.wf {} sHost.queues = true ∧ regPage (.wdctl 2) = some 2 ∧ regPage .wdesc ≠ some 2 := by decide +kernel
theorem witness_RegistersTakeTheirFields_pools : ∀ p ∈ [0, 1], let s : State := { base with regions := [{ regQ with pool := 1 }], tenants := [(0, { ten with pools := [(0, { cfg := 5, frames := [0x60000] })] })] }
    (s.tenant 0).busy = false ∧ ((s.pool 0 p).frames ≠ [] ∨ (∃ g ∈ s.regions, g.id.tenant = 0 ∧ g.pool = p)) ∧ Store.wf {} s.tenants = true ∧ Store.wf {} (s.tenant 0).pools = true := by decide +kernel
/-- A descriptor of an APPEND region at index 4 of its table. -/
def descBytes (cls : Nat) : List (Nat × Byte) := ((leBytes 0x40000 8 ++ leBytes 0x10000 8 ++ leBytes (cls + 3 * 2 ^ 16) 4).zipIdx 0x20480).filterMap fun e => if e.1 = 0 then none else some (e.2, e.1)
def sDesc (cls : Nat) : State := { base with mem := (pages64.filter fun e => e.1 < 0x5020) ++ descBytes cls
                                             tenants := [(0, { ten with tinva := 0x10000, rgbase := [(0, 0x20400)], rgcount := [(0, 8)], pools := [(0, { cfg := 1 + 4, frames := [0x60000] }), (1, { cfg := 1 })] })]
                                             cores := [(0, { tlb := [(0, some ⟨31 * 2 ^ 59 + 0x20000, 0, {}, true⟩), (1, some ⟨31 * 2 ^ 59 + 0x30000, 0, {}, true⟩)] })], arMin := [(3, 5)], verified := [(3, 9)] }
/-- The index of a page that is one, and an address that is no multiple of a 2 MiB page. -/
theorem witness_CommandsOfTheHost_invalidate : ((sDesc 2).tenant 0).busy = false ∧ ((sDesc 2).tenant 0).tinvBusy = false ∧ (0x80000000 : DWord).getLsbD 31 = true ∧ ((sDesc 2).tenant 0).tinva.toNat % pageBytes ((0x80000000 : DWord).toNat / 2 ^ 22 % 4) = 0 ∧
    (0x80000000 : DWord).toNat % 2 ^ 20 = 0 ∧ Store.wf {} (sDesc 2).cores = true ∧ Store.wf none ((sDesc 2).core 0).tlb = true ∧ ((sDesc 2).tenant 0).tinva.toNat % pageBytes ((0x80400000 : DWord).toNat / 2 ^ 22 % 4) ≠ 0 := by decide +kernel
theorem witness_CommandsOfTheHost_load : ((0x40004000 : DWord).toNat / 2 ^ 30 % 4 = 1 ∧ (sDesc 2).loadStatus (regcmdId 0 (0x40004000 : DWord).toNat) = 0 ∧ ((sDesc 2).descriptor (regcmdId 0 (0x40004000 : DWord).toNat)).isSome = true) ∧ (sDesc 2).loadStatus (regcmdId 0 (0x40009000 : DWord).toNat) ≠ 0 := by decide +kernel
theorem witness_CommandsOfTheHost_remove : let s := { (sDesc 2) with regions := [{ regQ with pages := [], c := 128, claims := [] }] }
    (0x80004000 : DWord).toNat / 2 ^ 30 % 4 = 2 ∧ s.removeStatus (regcmdId 0 (0x80004000 : DWord).toNat) = 0 ∧ s.removeStatus (regcmdId 0 (0x80005000 : DWord).toNat) ≠ 0 := by decide +kernel
theorem witness_CommandsOfTheHost_pools : (sDesc 2).frameOk 0 1 0x80000 = true ∧ (sDesc 2).frameOk 0 1 0x80001 = false ∧ Store.wf 0 (sDesc 2).arMin = true := by decide +kernel
/-- A fault ring and a context area, off and on, one with an image in it. -/
def sArea (fc cb : DWord) (kept : List (Nat × Nat × Nat)) : State := { base with mem := pages64, tenants := [(0, { ten with fcctl := fc, fcbase := 0x20000, fcidx := 0x28000, ctxbase := cb, ctxsize := 0x10000, kept := kept, winlim := [(0, 0x100000000), (1, 0x400000)] })] }
theorem witness_AreasAreEnabled_off : let s := sArea 0 0 []
    (s.tenant 0).busy = false ∧ Store.wf {} s.tenants = true ∧ (s.tenant 0).recs = [] ∧ (s.tenant 0).fcctl.getLsbD 31 = false ∧ (s.tenant 0).ctxbase.getLsbD 0 = false ∧ s.imagesOf 0 = [] ∧ Store.wf 0 (s.tenant 0).winbase = true := by decide +kernel
theorem witness_AreasAreEnabled : let s := sArea 0x80000004 0x100001 []
    (s.tenant 0).busy = false ∧ Store.wf {} s.tenants = true ∧ (s.tenant 0).recs = [] ∧ (s.tenant 0).fcctl.getLsbD 31 = true ∧ (s.tenant 0).ctxbase.getLsbD 0 = true ∧ s.imagesOf 0 = [] ∧ Store.wf 0 (s.tenant 0).winbase = true := by decide +kernel
theorem witness_AreasAreEnabled_kept : ((sArea 0 0x100001 [(1, 0x100000, 256)]).tenant 0).ctxbase.getLsbD 0 = true ∧ ((sArea 0 0x100001 [(1, 0x100000, 256)]).imagesOf 0).isEmpty = false := by decide +kernel
/-- What may be enabled: the ring fits, and the area lies in the tenant's window. -/
theorem witness_AreasAreEnabled_fit : ((sArea 0 0 []).ringOk 0 0 0x20000 0x28000 4 4096).isSome = true ∧ (sArea 0 0 []).areaHeld 0 0x100000 0x10000 = true := by decide +kernel
/-- Two tenants with a launch and a team each. -/
def sTwo : State := { sSave false with launches := [{ l1 with body := body2 1 2 }, { l1 with id := 7, tenant := 2 }], teams := [tSave, { tSave with id := ⟨7, 0, false⟩, core := 9 }] }
theorem witness_TenantResets_none : ¬Submitted sTwo 0 := by
  rintro (⟨e, he, -⟩ | ⟨w, hw, -⟩)
  · cases he
  · cases hw
theorem witness_TenantResets_busy : Submitted { sTwo with chans := [(dch, { ops := [cop 4] })] } (cop 4).tenant ∧ Store.wf {} sTwo.tenants = true := by
  refine ⟨Or.inl ⟨(dch, { ops := [cop 4] }), ?_, cop 4, ?_, rfl, rfl, rfl⟩, rfl⟩ <;> exact List.mem_cons_self
theorem witness_TenantResets_write : Submitted { sTwo with writes := [{ retWrite 30 (regionKey 0 0 65536) with tenant := 0 }] } 0 := Or.inr ⟨_, List.mem_cons_self, rfl, by decide +kernel, by decide⟩
theorem witness_TenantResets : (∀ x ∈ sTwo.teams, sTwo.findLaunch x.id.launch ≠ none) ∧ (sTwo.launches.map (·.id)).Nodup ∧ Store.wf {} sTwo.tenants = true := by decide +kernel

/-- A record waits for the ring, which has its last place free. -/
def sRec : State := { base with mem := pages64 ++ [(0x28000, 16), (0x28008, 1)], tenants := [(0, { ten with fcctl := 0x80000004, fcbase := 0x20000, fcidx := 0x28000, recs := [⟨4, leBytes 0x1234 64⟩] })] }
/-- Records 5, 6, 7 and 8 are a sub-group's, a channel's, a queue's and a system channel's. -/
def sAns : State := { sPark { pk with seq := 5 } with chans := [(dch, { ops := [{ cop 4 with waitSeq := 6 }] })], queues := [(3, { queue1 with faultSeq := 7 })], sys := [{ sysMove 4096 with waitSeq := 8 }] }
theorem witness_AnswersReachTheirFault_busy : (sHost.tenant 2).busy = true ∧ (sAns.tenant 0).busy = false ∧ (sRec.tenant 0).busy = false := by decide +kernel
theorem witness_AnswersReachTheirFault : (sAns.recordGrp 0 99 = none ∧ sAns.recordChan 0 99 = none ∧ sAns.recordQueue 0 99 = none ∧ sAns.recordSys 0 99 = none) ∧ (sAns.recordGrp 0 5 = some (gPark { pk with seq := 5 }) ∧ sAns.findGrp 9 = some (gPark { pk with seq := 5 }) ∧ sAns.findLaunch 1 = some l1 ∧ l1.aborted = none) ∧
    (sAns.recordGrp 0 6 = none ∧ sAns.recordChan 0 6 = some dch ∧ (sAns.chan dch).ops = [{ cop 4 with waitSeq := 6 }]) ∧ (sAns.recordGrp 0 7 = none ∧ sAns.recordChan 0 7 = none ∧ sAns.recordQueue 0 7 = some 3 ∧ Store.wf {} sAns.queues = true) ∧ (sAns.recordGrp 0 8 = none ∧ sAns.recordChan 0 8 = none ∧ sAns.recordQueue 0 8 = none ∧ (sAns.recordSys 0 8).isSome = true) ∧ (sAns.tenant 0).recs = [] := by decide +kernel
theorem witness_AnswersReachTheirFault_record : ∃ (r : Rec) (wk rk k : Nat), (sRec.tenant 0).recs = [r] ∧ (sRec.tenant 0).fcctl.getLsbD 31 = true ∧ sRec.hubKey 0 0 0x28000 8 .write = .ok wk ∧ sRec.hubKey 0 0 0x28008 8 .read = .ok rk ∧ sRec.locNat wk 8 - sRec.locNat rk 8 < 2 ^ 4 ∧
    sRec.hubKey 0 0 (0x20000 + 64 * (sRec.locNat wk 8 % 2 ^ 4)) 8 .write = .ok k ∧ sRec.movingKey k = false ∧ sRec.movingKey wk = false ∧ Plain sRec k r.bytes.length ∧ Plain sRec wk 8 ∧ k + r.bytes.length ≤ wk ∧ sRec.locNat wk 8 < 2 ^ 64 - 1 ∧ Memory.wf sRec.mem = true ∧ Store.wf none sRec.outMem = true ∧ Store.wf {} sRec.tenants = true :=
  ⟨⟨4, leBytes 0x1234 64⟩, 0x28000, 0x28008, 0x20000, by decide +kernel, by decide +kernel, ok_of (by decide +kernel), ok_of (by decide +kernel), by decide +kernel, ok_of (by decide +kernel), by unfold Plain; decide +kernel⟩

/-- A spin and a wait are due, in a clause or not; a handler has run its time, its thread's halt pending. -/
def sDog (clause : Nat) : State :=
  { base with tenants := [(0, { ten with tmask := [], wdctl := 0x0000000100000000 })], quads := [(0, { prev := some (tid, [0, 1]), spin := 65536 })], level2 := [(0, { count := 2, last := 3 })], level3 := [(1, { count := 1, last := 3 })], wdesc := 0x00040010
              teams := [{ id := tid, core := 0, stamp := 1, waitCount := [(0, 1024)], threads := [th2 0 (.issuing 10), th2 1 (.loose 3), th2 2 (.waiting .tbar 0x80), { th2 4 (.issuing 11) with haltPending := true, inHandler := true }] }]
              groups := [{ g1 with gid := 10, members := [0], clause := clause, word := 0 }, { g1 with gid := 11, members := [4], clause := 0, handler := 65536 }] }
theorem witness_WatchdogsExpire_spin : ∀ c ∈ [0, 1], ((sDog c).quad 0).prev = some (tid, [0, 1]) ∧ countLimit (sDog c) ((sDog c).launch 1).tenant ≤ ((sDog c).quad 0).spin ∧ (sDog c).wdesc.toNat % 2 ^ 16 > (Store.get {} (sDog c).level2 (0 / 32)).count + 1 ∧ (sDog c).inClause 0 (tid, [0, 1]) = decide (c = 1) ∧
    (sDog c).findTeam tid ≠ none ∧ (sDog c).launchStopped 1 = false ∧ ((sDog c).thread tid 0).goesOn = true := by decide +kernel
theorem witness_WatchdogsExpire_wait : ((sDog 0).tenant ((sDog 0).launch 1).tenant).wdctl.toNat / 2 ^ 32 ≠ 0 ∧ ((sDog 0).tenant ((sDog 0).launch 1).tenant).wdctl.toNat / 2 ^ 32 * 1024 ≤ (Store.get 0 ((sDog 0).team tid).waitCount 0).toNat ∧ (sDog 0).launchStopped 1 = false ∧ (sDog 0).findTeam tid ≠ none ∧ (((sDog 0).team tid).threads.map (·.idx)).Nodup ∧ ((sDog 0).launch 1).homeGroup 2 = 0 := by decide +kernel
theorem witness_WatchdogsExpire_handler : ∃ g ∈ (sDog 0).groups, (sDog 0).findGrp g.gid = some g ∧ countLimit (sDog 0) ((sDog 0).launch g.team.launch).tenant ≤ g.handler.toNat ∧ (sDog 0).wdesc.toNat % 2 ^ 16 > (Store.get {} (sDog 0).level2 (g.quad / 32)).count + 1 ∧
    ((sDog 0).tenant ((sDog 0).launch g.team.launch).tenant).recs.length < 64 ∧ ((sDog 0).tenant ((sDog 0).launch g.team.launch).tenant).fcctl.toNat.testBit 31 = false ∧ (sDog 0).launchStopped ((sDog 0).launch g.team.launch).id = false ∧ ∃ i ∈ g.members, ((sDog 0).thread g.team i).haltPending = true := by decide +kernel
/-- The cycle in which a count falls, and the one before. -/
theorem witness_WatchdogsExpire_decay : ∀ n ∈ [2 ^ 24 + 2, 2 ^ 24 + 3], let s := { sDog 0 with dies := [(0, { clock := n })] }
    (Store.get ({} : Level) s.level2 0).count ≠ 0 ∧ Store.wf ({} : Level) s.level2 = true ∧ decide ((Store.get ({} : Level) s.level2 0).last + 2 ^ 24 ≤ (s.die (0 / 24)).clock) = decide (n = 2 ^ 24 + 3) := by decide +kernel
theorem witness_WatchdogsExpire_decay3 : ∀ n ∈ [2 ^ 28 + 2, 2 ^ 28 + 3], let s := { sDog 0 with hub := n }
    (Store.get ({} : Level) s.level3 1).count ≠ 0 ∧ Store.wf ({} : Level) s.level3 = true ∧ decide ((Store.get ({} : Level) s.level3 1).last + 2 ^ 28 ≤ s.hub) = decide (n = 2 ^ 28 + 3) ∧ (Store.get ({} : Level) s.level3 1).count + 1 < s.wdesc.toNat / 2 ^ 16 % 2 ^ 16 := by decide +kernel
theorem witness_WatchdogsExpire_sweep : Store.wf 0 (sDog 0).evLive = true ∧ Store.wf 0 (sDog 0).evTotal = true := by decide +kernel
/-- A selection of the one team, of nothing; its threads free or halted. -/
def tDbg (halted : Bool) : Team := { id := tid, core := 0, stamp := 1, threads := [{ th2 0 (.loose 3) with halted := halted }, { th2 1 (.loose 3) with inHandler := !halted, halted := halted }] }
def sDbg (sel : DWord) (halted : Bool) : State :=
  { base with tenants := [(0, { ten with dbgsel := sel, ctxbase := 0x100001, ctxsize := 0x1000000 })], launches := [{ l1 with body := body2 1 2, nregs := 4 }], teams := [tDbg halted] }
theorem witness_DebugCommandsAct_none : ((sDbg 0x900000000 false).tenant 0).busy = false ∧ (sDbg 0x900000000 false).dbgFound 0 = false := by decide +kernel
theorem witness_DebugCommandsAct : ∃ l ∈ (sDbg 0x100000000 false).launches, (sDbg 0x100000000 false).dbgFound 0 = true ∧ (∀ x ∈ (sDbg 0x100000000 false).teams, x.saved = none) ∧ (sDbg 0x100000000 false).dbgLaunch 0 = some l ∧
    ∃ x ∈ (sDbg 0x100000000 false).dbgTeams 0, ∃ h ∈ x.threads, (sDbg 0x100000000 false).threadStopped h = false := by decide +kernel
/-- Halted teams: one that is not ready, one whose image's writing is to begin, one with no place, and one whose image is written. -/
def sKept (n : Nat) : State :=
  let s := sDbg 0x100000000 true
  match n with
  | 0 => { s with writes := [{ retWrite 30 0x22100 with by_ := some (tid, 0) }] }
  | 1 => s
  | 2 => { s with tenants := s.tenants.map fun e => (e.1, { e.2 with ctxbase := 0 }) }
  | _ => { s with sys := [sysDoneOp (.save tid) 0 64] }
theorem witness_DebugCommandsAct_save : ∀ n ∈ [0, 1, 2, 3], (sKept n).dbgFound 0 = true ∧ (sKept n).keepable 0 = [tDbg true] ∧ (∀ h ∈ (tDbg true).threads, (sKept n).threadStopped h = true) ∧ (sKept n).saveReady (tDbg true) = decide (n ≠ 0) ∧ Store.wf 0 (sKept n).mem = true ∧
    ((sKept n).imagePlace 0 (((sKept n).stoppedTeam (tDbg true)).image ((sKept n).launch 1) ((sKept n).parksOf tid) true).length).isSome = decide (n ≠ 2) ∧ (sKept n).sysDone (.save tid) = decide (n = 3) := by decide +kernel
theorem witness_DebugCommandsAct_reached : ∀ b ∈ [false, true], ((sDbg 0x100000000 b).tenant 0).dbgctl.getLsbD 17 = false ∧ (sDbg 0x100000000 b).allHalted 0 = b := by decide +kernel

/-- A window open to the host and to peers, and one open to neither; bytes at no region's frame, up to the window's end and past it. -/
def sWin (bits : DWord) : State := { base with tenants := [(0, { ten with winbase := [(0, 1 + bits)], winlim := [(0, 0xF0000)] })] }
theorem witness_OutsideAccesses : ∀ b ∈ [1, 2], Arrives (sWin 6) b 0xFFFFD 3 ∧ Placed (sWin 6) 0xFFFFD [1, 2, 3] ∧ (sWin 6).openTo b 0xFFFFE 3 = false ∧ (sWin 0).openTo b 0xFFFFD 3 = false ∧ Memory.wf (sWin 6).mem = true ∧ Store.wf none (sWin 6).outMem = true ∧ (sWin 6).poison = [] ∧
    ∀ w ∈ (sWin 6).writes, w.l1 = none := fun b hb =>
  ⟨⟨by revert b; decide +kernel, by decide +kernel, by decide +kernel, by decide +kernel⟩, Or.inl (by unfold Plain; decide +kernel), by revert b; decide +kernel⟩
/-- A frame of an APPEND region, and one of a DEFAULT region whose page holds one element that is not the default. -/
def regD : Region := { regP with pages := [(0, some { frame := 0x40000, count := 1, data := [(0x1004, 7)] })] }
def sBack : State := { sWin 6 with regions := [regD, regA] }
theorem witness_OutsideAccesses_append : ∀ b ∈ [1, 2], Arrives sBack b 0x50080 4 ∧ Placed sBack 0x50080 [1, 2, 3, 4] := fun b hb =>
  ⟨⟨by revert b; decide +kernel, by decide +kernel, by decide +kernel, by decide +kernel⟩, Or.inr ⟨regA, 0, { frame := 0x50000 }, by decide +kernel, by decide +kernel, by decide +kernel, by decide +kernel, by decide +kernel⟩⟩
theorem witness_OutsideAccesses_default : ∀ b ∈ [1, 2], Arrives sBack b 0x41008 4 ∧ Placed sBack 0x41008 [1, 2, 3, 4] := fun b hb =>
  ⟨⟨by revert b; decide +kernel, by decide +kernel, by decide +kernel, by decide +kernel⟩, Or.inr ⟨regD, 0, { frame := 0x40000, count := 1, data := [(0x1004, 7)] }, by decide +kernel, by decide +kernel, by decide +kernel, by decide +kernel, by decide +kernel⟩⟩
/-- A word for an atomic that the window holds, one it does not, and one that is not aligned. -/
theorem witness_OutsideAccesses_atomic : ∀ b ∈ [1, 2], Arrives (sWin 6) b 0xFFFF8 8 ∧ 0xFFFF8 % 8 = 0 ∧ Placed (sWin 6) 0xFFFF8 (leBytes 5 8) ∧ (sWin 6).openTo b 0x100000 8 = false ∧ 0xFFFFC % 8 ≠ 0 := fun b hb =>
  ⟨⟨by revert b; decide +kernel, by decide +kernel, by decide +kernel, by decide +kernel⟩, by decide, Or.inl (by unfold Plain; decide +kernel), by revert b; decide +kernel, by decide⟩
theorem witness_PlatformMoves : Store.wf {} base.dies = true ∧ Store.wf {} base.cores = true := by decide +kernel
theorem witness_BootSequence : State.reset.bootStep < 7 ∧ State.reset.bootFail = 0 ∧ State.reset.bootStep ≠ 1 := by decide +kernel

/-- A row of an image's section table; an image of one clause with an exit; what a request for it says. -/
def sectionRow (ty off len al : Nat) : List Byte := leBytes ty 8 ++ leBytes off 8 ++ leBytes len 8 ++ leBytes al 8
def tiny (minor : Nat) : List Byte := [0x57, 0x4D, 0x48, 0x4E] ++ leBytes 1 2 ++ leBytes 1 2 ++ leBytes minor 4 ++ leBytes 7 4 ++ leBytes 1 8 ++ leBytes (0x68 + 512) 8 ++ leBytes 1 32 ++ sectionRow 1 0x60 8 2 ++ leBytes 0x14500000 4 ++ leBytes 0x14700000 4 ++ leBytes 0 512
def request (minor : Nat) : LoadReq := ⟨0, 0, 0x2000000, 0x3000000, tiny minor⟩
theorem witness_LoadRequests_refused : State.reset.refuses (request 2).image ≠ 1 ∧ State.reset.refuses (request 3).image ≠ 0 ∧ State.reset.refuses [] = 1 := by
  refine ⟨?_, ?_, by decide +kernel⟩ <;> unfold State.refuses <;> cases signatureVerifies _ <;> decide +kernel
theorem tiny_passes (h : signatureVerifies (tiny 2) = true) (s : State) (a : s.arMin = []) : s.refuses (request 2).image = 0 := by
  unfold State.refuses
  rw [a, show (request 2).image = tiny 2 from rfl, h]
  decide +kernel
/-- The public keys are a free value; where they make the signature fit, the image passes and is kept. -/
theorem witness_LoadRequests (h : signatureVerifies (tiny 2) = true) : ∃ (s : State) (r : LoadReq) (ps qs : List Placed), s.refuses r.image = 0 ∧ placeAll r.image r.codeVa r.dataVa = .ok ps ∧ applyRels r.image ps ((relsOf r.image).foldr relInsert []) = .ok qs ∧
    NewImage s r ∧ (s.keepImage r qs).images.length ≠ s.images.length :=
  ⟨State.reset, request 2, _, _, tiny_passes h _ rfl, ok_okD [] (by decide +kernel), ok_okD [] (by decide +kernel), by unfold NewImage; decide +kernel, by decide +kernel⟩
/-- One whose digest a kept image carries. -/
theorem witness_LoadRequests_kept (h : signatureVerifies (tiny 2) = true) : ∃ (s : State) (r : LoadReq) (im : Image), s.refuses r.image = 0 ∧ findBy (fun im : Image => im.digest == sha512 r.image) s.images = some im :=
  let im : Image := { no := 0, tenant := 2, asid := 0, digest := sha512 (tiny 2), codeVa := 0, code := [], headers := [], kernels := [] }
  ⟨{ State.reset with images := [im] }, request 2, im, tiny_passes h _ rfl, by simp only [findBy, im, show (request 2).image = tiny 2 from rfl, beq_self_eq_true, if_true]⟩
/-! ### Values of the rules on one step -/
/-- The state with these registers in every thread. -/
def withRegs (r : List (Nat × BitVec 32)) : State := { sW with teams := sW.teams.map fun t => { t with threads := t.threads.map fun h => { h with regs := r.foldl (fun m e => Store.set 0 m e.1 e.2) [] } } }
/-- What a word sends to the registers and predicates of thread 0, at once or through an operation. -/
def sent (i : Instr) (r : List (Nat × BitVec 32)) : List (Dst × Nat) :=
  match exec i (withRegs r) with
  | .next t => ((t.thread tid 0).pend.map fun p => (p.wr.dst, p.wr.val)) ++ t.ops.flatMap fun o => (o.results.filter fun x => x.1 == 0).map fun x => (x.2.dst, x.2.val)
  | _ => []
/-- R127, R130, R184: sums wrap or saturate, neg of the least number, and the dot product of the entry's example. -/
theorem test_wrap_and_saturate :
    sent (.add k0 .wrap 14 10 12) [(10, 0x7FFFFFFF), (12, 1)] = [(.reg 14, 0x80000000)] ∧
    sent (.add k0 .satI 14 10 12) [(10, 0x7FFFFFFF), (12, 1)] = [(.reg 14, 0x7FFFFFFF)] ∧
    sent (.sub k0 .satN 14 10 12) [(10, 3), (12, 5)] = [(.reg 14, 0)] ∧
    sent (.sub k0 .wrap 14 10 12) [(10, 3), (12, 5)] = [(.reg 14, 0xFFFFFFFE)] ∧
    sent (.neg k0 .wrap 14 10) [(10, 0x80000000)] = [(.reg 14, 0x80000000)] ∧
    sent (.neg k0 .sat 14 10) [(10, 0x80000000)] = [(.reg 14, 0x7FFFFFFF)] ∧
    sent (.mulhi k0 .inn 14 10 12) [(10, 0xFFFFFFFF), (12, 0xFFFFFFFF)] = [(.reg 14, 0xFFFFFFFF)] ∧
    sent (.mulhi k0 .nn 14 10 12) [(10, 0xFFFFFFFF), (12, 0xFFFFFFFF)] = [(.reg 14, 0xFFFFFFFE)] ∧
    sent (.mad k0 .satI 14 10 12 24) [(10, 0x10000), (12, 0x10000), (24, 0x80000000)] = [(.reg 14, 0x7FFFFFFF)] ∧
    sent (.add64 k0 .wrap 14 10 12) [(10, 0xFFFFFFFF), (12, 1)] = [(.reg 14, 0), (.reg 15, 1)] ∧
    sent (.lea64 k0 14 10 12 true 3 0xFFFF) [(10, 0x20), (12, 0xFFFFFFFF)] = [(.reg 14, 0x17), (.reg 15, 0)] ∧
    sent (.dp4 k0 true true 14 10 12 24 true) [(10, 0x7F7F7F7F), (12, 0x7F7F7F7F), (24, 0x7FFFF000)] = [(.reg 14, 0x7FFFFFFF)] ∧
    sent (.dp4 k0 true true 14 10 12 24 false) [(10, 0x7F7F7F7F), (12, 0x7F7F7F7F), (24, 0x7FFFF000)] = [(.reg 14, 0x8000EC04)] := by decide +kernel
/-- R132 to R136: the table of lop3, shifts at and past the width, a sign-extended field, counts of zero. -/
theorem test_logic_and_fields :
    sent (.andi k0 14 10 0xF0) [(10, 0x12345678)] = [(.reg 14, 0x12345670)] ∧
    sent (.lop3 k0 14 10 12 24 0xE8) [(10, 12), (12, 10), (24, 9)] = [(.reg 14, 8)] ∧
    sent (.lop3 k0 14 10 12 24 0xFE) [(10, 12), (12, 2), (24, 1)] = [(.reg 14, 15)] ∧
    sent (.shl k0 14 10 12) [(10, 1), (12, 32)] = [(.reg 14, 0)] ∧
    sent (.sra k0 14 10 12) [(10, 0x80000000), (12, 200)] = [(.reg 14, 0xFFFFFFFF)] ∧
    sent (.rol k0 14 10 12) [(10, 0x80000001), (12, 33)] = [(.reg 14, 3)] ∧
    sent (.shr k0 14 10 12) [(10, 0x80000000), (12, 0x11F)] = [(.reg 14, 1)] ∧
    sent (.bfe k0 14 10 true 4 8) [(10, 0xF00)] = [(.reg 14, 0xFFFFFFFF)] ∧
    sent (.bfi k0 14 10 12 4 8) [(10, 0xFFFF), (12, 0x12)] = [(.reg 14, 0xF2FF)] ∧
    sent (.clz k0 14 10) [(10, 0)] = [(.reg 14, 32)] ∧
    sent (.ffs k0 14 10) [(10, 0x50)] = [(.reg 14, 4)] ∧
    sent (.brev k0 14 10) [(10, 1)] = [(.reg 14, 0x80000000)] := by decide +kernel
/-- R66, R137 to R141, R174, R175: the type of a compare, the combinations (the thread's p0 and p2 are 1), a NaN compares as unequal only. -/
theorem test_predicates :
    sent (.icmpLt k0 .i32 .set 3 10 12) [(10, 0xFFFFFFFF), (12, 0)] = [(.pred 3, 1)] ∧
    sent (.icmpLt k0 .n32 .set 3 10 12) [(10, 0xFFFFFFFF), (12, 0)] = [(.pred 3, 0)] ∧
    sent (.icmpGe k0 .i64 .and 2 10 12) [(10, 0), (11, 0x80000000), (12, 0), (13, 0)] = [(.pred 2, 0)] ∧
    sent (.icmpEq k0 .i32 .xor 0 10 12) [(10, 5), (12, 5)] = [(.pred 0, 0)] ∧
    sent (.pand k0 true false .or 1 1 2) [] = [(.pred 1, 1)] ∧
    sent (.p2vAll k0 14) [] = [(.reg 14, 5)] ∧
    sent (.sel k0 14 10 12 2 true) [(10, 7), (12, 8)] = [(.reg 14, 8)] ∧
    sent (.fcmpNe k0 .set 3 10 10) [(10, 0x7FC00000)] = [(.pred 3, 1)] ∧
    sent (.fcmpEq k0 .set 3 10 12) [(10, 0x80000000), (12, 0)] = [(.pred 3, 1)] ∧
    sent (.fclass k0 0 .set 3 10 0x10) [(10, 0x80000001)] = [(.pred 3, 1)] := by decide +kernel
/-- R169 to R178: opposite infinities, one rounding of a product and sum, signed zeros, and the examples of frint, expins and expext. -/
theorem test_float_values :
    sent (.fadd k0 .rne 14 10 12) [(10, 0x7F800000), (12, 0xFF800000)] = [(.reg 14, 0x7FC00000)] ∧
    sent (.fadd k0 .rup 14 10 12) [(10, 0x3F800000), (12, 1)] = [(.reg 14, 0x3F800001)] ∧
    sent (.fsub k0 .rdn 14 10 10) [(10, 0x3F800000)] = [(.reg 14, 0x80000000)] ∧
    sent (.ffma k0 false true .rne 14 10 10 12) [(10, 0x3F800001), (12, 0x3F800002)] = [(.reg 14, 0x28800000)] ∧
    sent (.fmin k0 .num 14 10 12) [(10, 0), (12, 0x80000000)] = [(.reg 14, 0x80000000)] ∧
    sent (.fmax k0 .num 14 10 12) [(10, 0x7F800001), (12, 0x3F800000)] = [(.reg 14, 0x3F800000)] ∧
    sent (.frint k0 .rne 14 10) [(10, 0xBECCCCCD)] = [(.reg 14, 0x80000000)] ∧
    sent (.frint k0 .rne 14 10) [(10, 0x40200000)] = [(.reg 14, 0x40000000)] ∧
    sent (.fsatUnit k0 14 10) [(10, 0x7FC00000)] = [(.reg 14, 0)] ∧
    sent (.expins k0 .rne 14 10 12) [(10, 0x3FC00000), (12, 0xFFFFFF73)] = [(.reg 14, 0x180)] ∧
    sent (.expins k0 .rne 14 10 12) [(10, 0x3FA00000), (12, 0xFFFFFF6C)] = [(.reg 14, 2)] ∧
    sent (.expins k0 .rup 14 10 12) [(10, 0x3FA00000), (12, 0xFFFFFF6C)] = [(.reg 14, 3)] ∧
    sent (.expextExp k0 14 10) [(10, 1)] = [(.reg 14, 0xFFFFFF6B)] ∧
    sent (.expextSig k0 14 10) [(10, 0xC0C00000)] = [(.reg 14, 0xBFC00000)] := by decide +kernel
/-- R95, R109, R186 to R188: f16 generated NaN, NaN payloads both ways, one element alone written, a 64-bit integer rounded once, e4m3 at its end. -/
theorem test_conversions :
    sent (.hmul2 k0 .f16 14 10 12) [(10, 0x7C003C00), (12, 0x00004000)] = [(.reg 14, 0x7E004000)] ∧
    sent (.cvt k0 14 10 .rne false 1 0 .f16 .f32) [(10, 0x7FC02000), (14, 0x1234)] = [(.part 14 16 16, 0x7E01)] ∧
    sent (.cvt k0 14 10 .rne false 0 0 .f32 .i64) [(10, 3), (11, 0x100)] = [(.reg 14, 0x53800000)] ∧
    sent (.cvt k0 14 10 .rne false 0 0 .e4m3 .f32) [(10, 0x43E80000)] = [(.part 14 0 8, 0x7E)] ∧
    sent (.cvt k0 14 10 .rne false 0 0 .e4m3 .f32) [(10, 0x44000000)] = [(.part 14 0 8, 0x7F)] ∧
    sent (.unpack2 k0 .f16 14 10) [(10, 0x3C007E01)] = [(.reg 14, 0x7FC02000), (.reg 15, 0x3F800000)] ∧
    sent (.pack2 k0 14 10 12 .rne false .bf16) [(10, 0x3F800000), (12, 0xC0000000)] = [(.reg 14, 0xC0003F80)] := by decide +kernel
/-- R179, R180: the exact results, and the domains. -/
theorem test_special_functions :
    sent (.fexp k0 14 10) [(10, 0x40000000)] = [(.reg 14, 0x40000000)] ∧
    sent (.flog k0 14 10) [(10, 0x41000000)] = [(.reg 14, 0x40400000)] ∧
    sent (.frcp k0 14 10) [(10, 0x80000000)] = [(.reg 14, 0xFF800000)] ∧
    sent (.frsq k0 14 10) [(10, 0x40800000)] = [(.reg 14, 0x3F000000)] ∧
    sent (.fsqrt k0 .rne 14 10) [(10, 0xBF800000)] = [(.reg 14, 0x7FC00000)] ∧
    sent (.fsin k0 14 10) [(10, 0x3F000000)] = [(.reg 14, 0x3F800000)] ∧
    sent (.fcos k0 14 10) [(10, 0x3F800000)] = [(.reg 14, 0xBF800000)] := by decide +kernel
/-- R191 to R196: both threads hold the same value; lane 5 is absent and gives one's own; a scan starts at the identity; the masks name lanes 0 and 1. -/
theorem test_lanes :
    sent (.xshfIdx k0 14 10 12) [(10, 9), (12, 5)] = [(.reg 14, 9)] ∧
    sent (.xred k0 .rne 14 10 .add) [(10, 9)] = [(.reg 14, 18)] ∧
    sent (.xscan k0 .rne 14 10 true .minI) [(10, 9)] = [(.reg 14, 0x7FFFFFFF)] ∧
    sent (.xvoteAll k0 .set 3 1) [] = [(.pred 3, 0)] ∧
    sent (.xmatchEq k0 14 10) [(10, 9)] = [(.reg 14, 3)] ∧
    sent (.xmatchMembers k0 14) [] = [(.reg 14, 3)] := by decide +kernel
/-- The words of opcodes 000 to 00F, each written out from its entry's fields. -/
theorem test_decode_integer_add :
    decodeTableWord 32 0xA007462C = some (.add ⟨true, false, true⟩ .satI 52 24 44) ∧
    decodeTableWord 32 0x601B462C = some (.sub ⟨false, true, true⟩ .satN 52 24 44) ∧
    decodeTableWord 32 0xC027462C = some (.mullo ⟨true, true, false⟩ .satI 52 24 44) ∧
    decodeTableWord 32 0xA03B462C = some (.mulhi ⟨true, false, true⟩ .inn 52 24 44) ∧
    decodeTableWord 64 0x300000006047462C = some (.mad ⟨false, true, true⟩ .satI 52 24 44 12) ∧
    decodeTableWord 32 0xC057462C = some (.min ⟨true, true, false⟩ .n32 52 24 44) ∧
    decodeTableWord 32 0xA067462C = some (.max ⟨true, false, true⟩ .n32 52 24 44) ∧
    decodeTableWord 32 0x60774600 = some (.neg ⟨false, true, true⟩ .sat 52 24) ∧
    decodeTableWord 32 0xC08B4625 = some (.addi ⟨true, true, false⟩ 52 24 165) ∧
    decodeTableWord 32 0xA09B4625 = some (.muli ⟨true, false, true⟩ 52 24 165) ∧
    decodeTableWord 32 0x60A7462C = some (.add64 ⟨false, true, true⟩ .satI 52 24 44) ∧
    decodeTableWord 32 0xC0BB4625 = some (.add64i ⟨true, true, false⟩ 52 24 165) ∧
    decodeTableWord 32 0xA0C7462C = some (.sub64 ⟨true, false, true⟩ .satI 52 24 44) ∧
    decodeTableWord 64 0xB0D0B3C560D34600 = some (.lea64 ⟨false, true, true⟩ 52 24 44 true 5 46021) := by decide +kernel

/-- The words of opcodes 010 to 01F, each written out from its entry's fields. -/
theorem test_decode_logic_shift :
    decodeTableWord 32 0xC103462C = some (.and ⟨true, true, false⟩ 52 24 44) ∧
    decodeTableWord 32 0xA113462C = some (.or ⟨true, false, true⟩ 52 24 44) ∧
    decodeTableWord 32 0x6123462C = some (.xor ⟨false, true, true⟩ 52 24 44) ∧
    decodeTableWord 32 0xC1334600 = some (.not ⟨true, true, false⟩ 52 24) ∧
    decodeTableWord 32 0xA14B4625 = some (.andi ⟨true, false, true⟩ 52 24 165) ∧
    decodeTableWord 32 0x615B4625 = some (.ori ⟨false, true, true⟩ 52 24 165) ∧
    decodeTableWord 32 0xC16B4625 = some (.xori ⟨true, true, false⟩ 52 24 165) ∧
    decodeTableWord 64 0x30000096A173462C = some (.lop3 ⟨true, false, true⟩ 52 24 44 12 150) ∧
    decodeTableWord 32 0x6183462C = some (.shl ⟨false, true, true⟩ 52 24 44) ∧
    decodeTableWord 32 0xC193462C = some (.shr ⟨true, true, false⟩ 52 24 44) ∧
    decodeTableWord 32 0xA1A3462C = some (.sra ⟨true, false, true⟩ 52 24 44) ∧
    decodeTableWord 32 0x61B3462C = some (.rol ⟨false, true, true⟩ 52 24 44) ∧
    decodeTableWord 32 0xC1C34615 = some (.shli ⟨true, true, false⟩ 52 24 21) ∧
    decodeTableWord 32 0xA1D34615 = some (.shri ⟨true, false, true⟩ 52 24 21) ∧
    decodeTableWord 32 0x61E34615 = some (.srai ⟨false, true, true⟩ 52 24 21) ∧
    decodeTableWord 32 0xC1F34615 = some (.roli ⟨true, true, false⟩ 52 24 21) := by decide +kernel

/-- The words of opcodes 020 to 02F, each written out from its entry's fields. -/
theorem test_decode_bits_compare :
    decodeTableWord 64 0x00800229A2034600 = some (.bfe ⟨true, false, true⟩ 52 24 true 17 9) ∧
    decodeTableWord 64 0x000002296213462C = some (.bfi ⟨false, true, true⟩ 52 24 44 17 9) ∧
    decodeTableWord 32 0xC2234600 = some (.popc ⟨true, true, false⟩ 52 24) ∧
    decodeTableWord 32 0xA2334600 = some (.clz ⟨true, false, true⟩ 52 24) ∧
    decodeTableWord 32 0x62434600 = some (.brev ⟨false, true, true⟩ 52 24) ∧
    decodeTableWord 32 0xC2534600 = some (.ffs ⟨true, true, false⟩ 52 24) ∧
    decodeTableWord 32 0xA285DD18 = some (.icmpEq ⟨true, false, true⟩ .n32 .and 13 52 24) ∧
    decodeTableWord 32 0x629ADD18 = some (.icmpNe ⟨false, true, true⟩ .i64 .or 13 52 24) ∧
    decodeTableWord 32 0xC2A5DD18 = some (.icmpLt ⟨true, true, false⟩ .n32 .and 13 52 24) ∧
    decodeTableWord 32 0xA2BADD18 = some (.icmpLe ⟨true, false, true⟩ .i64 .or 13 52 24) ∧
    decodeTableWord 32 0x62C5DD18 = some (.icmpGt ⟨false, true, true⟩ .n32 .and 13 52 24) ∧
    decodeTableWord 32 0xC2DADD18 = some (.icmpGe ⟨true, true, false⟩ .i64 .or 13 52 24) ∧
    decodeTableWord 32 0xA2E5DD18 = some (.ptest ⟨true, false, true⟩ .z .and 13 52 24) := by decide +kernel

/-- The words of opcodes 030 to 037, each written out from its entry's fields. -/
theorem test_decode_predicates_moves :
    decodeTableWord 32 0x630ED18B = some (.pand ⟨false, true, true⟩ true true .or 13 6 11) ∧
    decodeTableWord 32 0xC31DD18B = some (.por ⟨true, true, false⟩ true true .and 13 6 11) ∧
    decodeTableWord 32 0xA32ED18B = some (.pxor ⟨true, false, true⟩ true true .or 13 6 11) ∧
    decodeTableWord 32 0x6331D180 = some (.pnot ⟨false, true, true⟩ .and 13 6) ∧
    decodeTableWord 32 0xC3434340 = some (.p2v ⟨true, true, false⟩ 52 13) ∧
    decodeTableWord 32 0xA3474000 = some (.p2vAll ⟨true, false, true⟩ 52) ∧
    decodeTableWord 32 0x6352DD00 = some (.v2p ⟨false, true, true⟩ .or 13 52) ∧
    decodeTableWord 32 0xC3540D00 = some (.v2pAll ⟨true, true, false⟩ 52) ∧
    decodeTableWord 64 0x34000001A363462C = some (.sel ⟨true, false, true⟩ 52 24 44 13 true) ∧
    decodeTableWord 32 0x63734600 = some (.mov ⟨false, true, true⟩ 52 24) ∧
    decodeTableWord 32 0xC3774600 = some (.mov64 ⟨true, true, false⟩ 52 24) := by decide +kernel

/-- The words of opcodes 038 to 03E, each written out from its entry's fields. -/
theorem test_decode_lanes :
    decodeTableWord 32 0xA383462C = some (.xshfIdx ⟨true, false, true⟩ 52 24 44) ∧
    decodeTableWord 32 0x6387462C = some (.xshfUp ⟨false, true, true⟩ 52 24 44) ∧
    decodeTableWord 32 0xC38B462C = some (.xshfDown ⟨true, true, false⟩ 52 24 44) ∧
    decodeTableWord 32 0xA38F462C = some (.xshfXor ⟨true, false, true⟩ 52 24 44) ∧
    decodeTableWord 32 0x6393462D = some (.xbcastLane ⟨false, true, true⟩ 52 24 45) ∧
    decodeTableWord 32 0xC397462C = some (.xbcastReg ⟨true, true, false⟩ 52 24 44) ∧
    decodeTableWord 32 0xA39B4600 = some (.xbcastLead ⟨true, false, true⟩ 52 24) ∧
    decodeTableWord 32 0x63AB4608 = some (.xred ⟨false, true, true⟩ .rdn 52 24 .fadd) ∧
    decodeTableWord 32 0xC3B74628 = some (.xscan ⟨true, true, false⟩ .rtz 52 24 true .fadd) ∧
    decodeTableWord 32 0xA3C2D180 = some (.xvoteAny ⟨true, false, true⟩ .or 13 6) ∧
    decodeTableWord 32 0x63C5D180 = some (.xvoteAll ⟨false, true, true⟩ .and 13 6) ∧
    decodeTableWord 32 0xC3CAD180 = some (.xvoteUni ⟨true, true, false⟩ .or 13 6) ∧
    decodeTableWord 32 0xA3D34600 = some (.xmatchEq ⟨true, false, true⟩ 52 24) ∧
    decodeTableWord 32 0x63D74340 = some (.xmatchBallot ⟨false, true, true⟩ 52 13) ∧
    decodeTableWord 32 0xC3DB4000 = some (.xmatchMembers ⟨true, true, false⟩ 52) ∧
    decodeTableWord 64 0xB4C35A69A3EB4000 = some (.movi ⟨true, false, true⟩ 52 45 2 12802665) := by decide +kernel

/-- The words of opcodes 040 to 04F, each written out from its entry's fields. -/
theorem test_decode_float :
    decodeTableWord 32 0x6407462C = some (.fadd ⟨false, true, true⟩ .rtz 52 24 44) ∧
    decodeTableWord 32 0xC41B462C = some (.fsub ⟨true, true, false⟩ .rdn 52 24 44) ∧
    decodeTableWord 32 0xA427462C = some (.fmul ⟨true, false, true⟩ .rtz 52 24 44) ∧
    decodeTableWord 64 0x32000000643F462C = some (.ffma ⟨false, true, true⟩ true true .rdn 52 24 44 12) ∧
    decodeTableWord 32 0xC447462C = some (.fmin ⟨true, true, false⟩ .nan 52 24 44) ∧
    decodeTableWord 32 0xA457462C = some (.fmax ⟨true, false, true⟩ .nan 52 24 44) ∧
    decodeTableWord 32 0x64634600 = some (.fabs ⟨false, true, true⟩ 52 24) ∧
    decodeTableWord 32 0xC4734600 = some (.fneg ⟨true, true, false⟩ 52 24) ∧
    decodeTableWord 32 0xA481DD18 = some (.fcmpEq ⟨true, false, true⟩ .and 13 52 24) ∧
    decodeTableWord 32 0x6486DD18 = some (.fcmpLt ⟨false, true, true⟩ .or 13 52 24) ∧
    decodeTableWord 32 0xC489DD18 = some (.fcmpLe ⟨true, true, false⟩ .and 13 52 24) ∧
    decodeTableWord 32 0xA48EDD18 = some (.fcmpNe ⟨true, false, true⟩ .or 13 52 24) ∧
    decodeTableWord 32 0x6499DD2D = some (.fclass ⟨false, true, true⟩ 2 .and 13 52 45) ∧
    decodeTableWord 32 0xC4AB4600 = some (.frint ⟨true, true, false⟩ .rdn 52 24) ∧
    decodeTableWord 32 0xA4B34600 = some (.fsatUnit ⟨true, false, true⟩ 52 24) ∧
    decodeTableWord 32 0x64B74600 = some (.fsatSym ⟨false, true, true⟩ 52 24) ∧
    decodeTableWord 32 0xC4C7462C = some (.expins ⟨true, true, false⟩ .rtz 52 24 44) ∧
    decodeTableWord 32 0xA4D34600 = some (.expextExp ⟨true, false, true⟩ 52 24) ∧
    decodeTableWord 32 0x64D74600 = some (.expextSig ⟨false, true, true⟩ 52 24) := by decide +kernel

/-- The words of opcodes 050 to 05F, each written out from its entry's fields. -/
theorem test_decode_float_special :
    decodeTableWord 32 0xC5034600 = some (.fexp ⟨true, true, false⟩ 52 24) ∧
    decodeTableWord 32 0xA5134600 = some (.flog ⟨true, false, true⟩ 52 24) ∧
    decodeTableWord 32 0x65234600 = some (.frcp ⟨false, true, true⟩ 52 24) ∧
    decodeTableWord 32 0xC5334600 = some (.frsq ⟨true, true, false⟩ 52 24) ∧
    decodeTableWord 32 0xA54B4600 = some (.fsqrt ⟨true, false, true⟩ .rdn 52 24) ∧
    decodeTableWord 32 0x65534600 = some (.fsin ⟨false, true, true⟩ 52 24) ∧
    decodeTableWord 32 0xC5634600 = some (.fcos ⟨true, true, false⟩ 52 24) ∧
    decodeTableWord 32 0xA587462C = some (.hadd2 ⟨true, false, true⟩ .bf16 52 24 44) ∧
    decodeTableWord 32 0x6597462C = some (.hsub2 ⟨false, true, true⟩ .bf16 52 24 44) ∧
    decodeTableWord 32 0xC5A7462C = some (.hmul2 ⟨true, true, false⟩ .bf16 52 24 44) ∧
    decodeTableWord 64 0x32000000A5B7462C = some (.hfma2 ⟨true, false, true⟩ .bf16 .rdn 52 24 44 12) ∧
    decodeTableWord 32 0x65C7462C = some (.hmin2 ⟨false, true, true⟩ .bf16 52 24 44) ∧
    decodeTableWord 32 0xC5D7462C = some (.hmax2 ⟨true, true, false⟩ .bf16 52 24 44) ∧
    decodeTableWord 32 0xA5E5BD18 = some (.hcmp2 ⟨true, false, true⟩ .lt .and 5 .bf16 52 24) := by decide +kernel

/-- The words of opcodes 060 to 06F, each written out from its entry's fields. -/
theorem test_decode_conversions :
    decodeTableWord 64 0x0200A81566034600 = some (.cvt ⟨false, true, true⟩ 52 24 .rdn true 1 1 .i16 .n16) ∧
    decodeTableWord 64 0x01000003C613462C = some (.pack2 ⟨true, true, false⟩ 52 24 44 .rtz true .bf16) ∧
    decodeTableWord 32 0xA6274600 = some (.unpack2 ⟨true, false, true⟩ .bf16 52 24) ∧
    decodeTableWord 64 0x0100000566334600 = some (.cvt4x8Pack ⟨false, true, true⟩ 52 24 .rtz true .e5m2) ∧
    decodeTableWord 64 0x0000000AC6334600 = some (.cvt4x8Unpack ⟨true, true, false⟩ 52 24 .i8) ∧
    decodeTableWord 64 0x30000001A64F462C = some (.dp4 ⟨true, false, true⟩ true true 52 24 44 12 true) ∧
    decodeTableWord 64 0x320000006657462C = some (.fdot2 ⟨false, true, true⟩ .bf16 .rdn 52 24 44 12) := by decide +kernel

/-- The words of opcodes 080 to 08F, each written out from its entry's fields. -/
theorem test_decode_loads_stores :
    decodeTableWord 32 0xC80B4625 = some (.ldN8 ⟨true, true, false⟩ 52 24 165) ∧
    decodeTableWord 32 0xA81B4625 = some (.ldI8 ⟨true, false, true⟩ 52 24 165) ∧
    decodeTableWord 32 0x682B4625 = some (.ldN16 ⟨false, true, true⟩ 52 24 165) ∧
    decodeTableWord 32 0xC83B4625 = some (.ldI16 ⟨true, true, false⟩ 52 24 165) ∧
    decodeTableWord 32 0xA84B4625 = some (.ldN32 ⟨true, false, true⟩ 52 24 165) ∧
    decodeTableWord 32 0x685B4625 = some (.ldN64 ⟨false, true, true⟩ 52 24 165) ∧
    decodeTableWord 32 0xC86B4625 = some (.ldN128 ⟨true, true, false⟩ 52 24 165) ∧
    decodeTableWord 64 0x009A5C3DA877462C = some (.ldw ⟨true, false, true⟩ .zx 52 24 44 .n32 1727549) ∧
    decodeTableWord 32 0x688B4625 = some (.stN8 ⟨false, true, true⟩ 52 24 165) ∧
    decodeTableWord 32 0xC89B4625 = some (.stN16 ⟨true, true, false⟩ 52 24 165) ∧
    decodeTableWord 32 0xA8AB4625 = some (.stN32 ⟨true, false, true⟩ 52 24 165) ∧
    decodeTableWord 32 0x68BB4625 = some (.stN64 ⟨false, true, true⟩ 52 24 165) ∧
    decodeTableWord 32 0xC8CB4625 = some (.stN128 ⟨true, true, false⟩ 52 24 165) ∧
    decodeTableWord 64 0x00BA5C3DA8DB462C = some (.stw ⟨true, false, true⟩ .sx 52 24 44 .n64 1727549) ∧
    decodeTableWord 32 0x68EB4625 = some (.ldline ⟨false, true, true⟩ 52 24 165) ∧
    decodeTableWord 32 0xC8FB4625 = some (.stline ⟨true, true, false⟩ 52 24 165) := by decide +kernel

/-- The words of opcodes 090 to 095, each written out from its entry's fields. -/
theorem test_decode_scratch_atoms :
    decodeTableWord 32 0xA90B4625 = some (.ldsc ⟨true, false, true⟩ 52 24 165) ∧
    decodeTableWord 32 0x691B4625 = some (.stsc ⟨false, true, true⟩ 52 24 165) ∧
    decodeTableWord 64 0x309CC000C923462C = some (.atom ⟨true, true, false⟩ false 52 24 44 12 .cas true .die .acqrel) ∧
    decodeTableWord 64 0x00B3C50DA93B4600 = some (.stna ⟨true, false, true⟩ .n32 52 24 46021 13) ∧
    decodeTableWord 32 0x6947460D = some (.lds ⟨false, true, true⟩ .n64 52 24 13) ∧
    decodeTableWord 32 0xC9500D00 = some (.unsl ⟨true, true, false⟩ 52) := by decide +kernel

/-- The words of opcodes 098 to 09F, each written out from its entry's fields. -/
theorem test_decode_pages_regions :
    decodeTableWord 64 0x00000000A983462C = some (.enumpgNext ⟨true, false, true⟩ 52 24 44) ∧
    decodeTableWord 64 0xB096000069840D18 = some (.enumpgMap ⟨false, true, true⟩ 52 24 44 150) ∧
    decodeTableWord 32 0xC9934600 = some (.pgq ⟨true, true, false⟩ 52 24) ∧
    decodeTableWord 64 0x30000000A9A3462C = some (.append ⟨true, false, true⟩ 52 24 44 12) ∧
    decodeTableWord 32 0x69B00D00 = some (.sealRegion ⟨false, true, true⟩ 52) ∧
    decodeTableWord 32 0xC9C00D00 = some (.freeRegion ⟨true, true, false⟩ 52) := by decide +kernel

/-- The words of opcodes 0A0 to 0A6, each written out from its entry's fields. -/
theorem test_decode_buffers :
    decodeTableWord 32 0xAA034600 = some (.tlook ⟨true, false, true⟩ 52 24) ∧
    decodeTableWord 32 0x6A13462C = some (.tset ⟨false, true, true⟩ 52 24 44) ∧
    decodeTableWord 32 0xCA200D00 = some (.tclr ⟨true, true, false⟩ 52) ∧
    decodeTableWord 32 0xAA240000 = some (.tclrAll ⟨true, false, true⟩) ∧
    decodeTableWord 64 0x0000000B6A33462C = some (.bufdecl ⟨false, true, true⟩ 52 24 44 5 true) ∧
    decodeTableWord 64 0x00000000CA340D00 = some (.bufdeclRel ⟨true, true, false⟩ 52) ∧
    decodeTableWord 32 0xAA400D00 = some (.bufmarkFill ⟨true, false, true⟩ 52) ∧
    decodeTableWord 32 0x6A440D00 = some (.bufmarkFull ⟨false, true, true⟩ 52) ∧
    decodeTableWord 32 0xCA480D00 = some (.bufmarkEmpty ⟨true, true, false⟩ 52) ∧
    decodeTableWord 32 0xAA534600 = some (.bufq ⟨true, false, true⟩ 52 24) ∧
    decodeTableWord 32 0x6A641000 = some (.fence ⟨false, true, true⟩ .rel .group) := by decide +kernel

/-- The words of opcodes 0C0 to 0C7, each written out from its entry's fields. -/
theorem test_decode_matrix :
    decodeTableWord 64 0x0000000ACC040D00 = some (.wld ⟨true, true, false⟩ .m32x64 52 1 .e4m3) ∧
    decodeTableWord 64 0x00000001AC100D00 = some (.wldpr ⟨true, false, true⟩ 52 .f16) ∧
    decodeTableWord 64 0x0000006A6C274600 = some (.mma ⟨false, true, true⟩ .m32x64 52 24 true true 1 .e4m3) ∧
    decodeTableWord 64 0x00000061CC334600 = some (.mmapr ⟨true, true, false⟩ 52 24 true true .f16) ∧
    decodeTableWord 32 0xAC474000 = some (.accz ⟨true, false, true⟩ .two 52) ∧
    decodeTableWord 32 0x6C534600 = some (.accld ⟨false, true, true⟩ 52 24) ∧
    decodeTableWord 32 0xCC634600 = some (.accst ⟨true, true, false⟩ 52 24) ∧
    decodeTableWord 64 0x010000C5AC734600 = some (.acccvt ⟨true, false, true⟩ 52 24 .rtz true 2 false .w4) := by decide +kernel

/-- The words of opcodes 0C8 to 0CF, each written out from its entry's fields. -/
theorem test_decode_matrix_rest :
    decodeTableWord 32 0x6C83462C = some (.accmovGet ⟨false, true, true⟩ 52 24 44) ∧
    decodeTableWord 32 0xCC87462C = some (.accmovPut ⟨true, true, false⟩ 52 24 44) ∧
    decodeTableWord 32 0xAC9B4600 = some (.accadd ⟨true, false, true⟩ .rdn 52 24 false) ∧
    decodeTableWord 32 0x6CA34600 = some (.acctr ⟨false, true, true⟩ 52 24) ∧
    decodeTableWord 32 0xCCB00D00 = some (.mstatStat ⟨true, true, false⟩ 52) ∧
    decodeTableWord 32 0xACB40D00 = some (.mstatBind ⟨true, false, true⟩ 52) ∧
    decodeTableWord 32 0x6CB80D00 = some (.mstatTheta ⟨false, true, true⟩ 52) ∧
    decodeTableWord 64 0xB00000A5CCC40D18 = some (.pgsel ⟨true, true, false⟩ .d64 52 24 44 true 37) := by decide +kernel

/-- The words of opcodes 100 to 107, each written out from its entry's fields. -/
theorem test_decode_queues :
    decodeTableWord 64 0x0000000DB003462C = some (.qappend ⟨true, false, true⟩ 52 24 44 13) ∧
    decodeTableWord 64 0x0000000270134600 = some (.copy ⟨false, true, true⟩ 52 24 2) ∧
    decodeTableWord 64 0x00000002D0234600 = some (.copym ⟨true, true, false⟩ 52 24 2) ∧
    decodeTableWord 64 0x00000002B0334600 = some (.xform ⟨true, false, true⟩ 52 24 2) ∧
    decodeTableWord 32 0x70400D18 = some (.relslot ⟨false, true, true⟩ 52 24) ∧
    decodeTableWord 32 0xD0534600 = some (.wptr ⟨true, true, false⟩ 52 24) ∧
    decodeTableWord 32 0xB0634600 = some (.tlrdQ ⟨true, false, true⟩ 52 24) ∧
    decodeTableWord 32 0x70674600 = some (.tlrdCh ⟨false, true, true⟩ 52 24) ∧
    decodeTableWord 32 0xD06B4600 = some (.tlrdDch ⟨true, true, false⟩ 52 24) ∧
    decodeTableWord 32 0xB0734600 = some (.chq ⟨true, false, true⟩ 52 24) := by decide +kernel

/-- The words of opcodes 140 to 147, each written out from its entry's fields. -/
theorem test_decode_control :
    decodeTableWord 32 0x7409C3A7 = some (.bra ⟨false, true, true⟩ 639911) ∧
    decodeTableWord 32 0xD419C3A7 = some (.call ⟨true, true, false⟩ 639911) ∧
    decodeTableWord 32 0xB4200000 = some (.ret ⟨true, false, true⟩) ∧
    decodeTableWord 32 0x74300D00 = some (.brx ⟨false, true, true⟩ 52) ∧
    decodeTableWord 32 0xD4400D00 = some (.callx ⟨true, true, false⟩ 52) ∧
    decodeTableWord 32 0xB4500000 = some (.exit ⟨true, false, true⟩) ∧
    decodeTableWord 32 0x74680025 = some (.spadj ⟨false, true, true⟩ 165) ∧
    decodeTableWord 32 0xD4700000 = some (.nop ⟨true, true, false⟩) := by decide +kernel

/-- The words of opcodes 148 to 150, each written out from its entry's fields. -/
theorem test_decode_waits :
    decodeTableWord 32 0xB4800140 = some (.jset ⟨true, false, true⟩ 5) ∧
    decodeTableWord 32 0x74900140 = some (.jwait ⟨false, true, true⟩ 5) ∧
    decodeTableWord 32 0xD4A00000 = some (.tbar ⟨true, true, false⟩) ∧
    decodeTableWord 32 0xB4B00000 = some (.pbar ⟨true, false, true⟩) ∧
    decodeTableWord 32 0x74C00D18 = some (.mwaitSlot ⟨false, true, true⟩ 52 24) ∧
    decodeTableWord 32 0xD4C40D18 = some (.mwaitGe ⟨true, true, false⟩ 52 24) ∧
    decodeTableWord 32 0xB4C80D18 = some (.mwaitNe ⟨true, false, true⟩ 52 24) ∧
    decodeTableWord 32 0x74D00D18 = some (.waittlQ ⟨false, true, true⟩ 52 24) ∧
    decodeTableWord 32 0xD4D40D18 = some (.waittlCh ⟨true, true, false⟩ 52 24) ∧
    decodeTableWord 32 0xB4D80D18 = some (.waittlDch ⟨true, false, true⟩ 52 24) ∧
    decodeTableWord 32 0x14E00000 = some (.yield) ∧
    decodeTableWord 32 0x14F4D000 = some (.guard true 13) ∧
    decodeTableWord 32 0xB5000000 = some (.icsync ⟨true, false, true⟩) := by decide +kernel

/-- The words of opcodes 180 to 189, each written out from its entry's fields. -/
theorem test_decode_system :
    decodeTableWord 32 0x78034040 = some (.sread ⟨false, true, true⟩ 52 .tidY) ∧
    decodeTableWord 32 0xD810DD00 = some (.swrite ⟨true, true, false⟩ .sp 52) ∧
    decodeTableWord 32 0xB820002D = some (.trap ⟨true, false, true⟩ 45) ∧
    decodeTableWord 32 0x7830002D = some (.brk ⟨false, true, true⟩ 45) ∧
    decodeTableWord 32 0xD8400000 = some (.tretRetry ⟨true, true, false⟩) ∧
    decodeTableWord 32 0xB8440000 = some (.tretSkip ⟨true, false, true⟩) ∧
    decodeTableWord 32 0x78500D18 = some (.icinv ⟨false, true, true⟩ 52 24) ∧
    decodeTableWord 32 0xD8634600 = some (.evrd ⟨true, true, false⟩ 52 24) ∧
    decodeTableWord 32 0xB8800D18 = some (.dcinv ⟨true, false, true⟩ 52 24) ∧
    decodeTableWord 32 0x78900D18 = some (.dcflush ⟨false, true, true⟩ 52 24) := by decide +kernel

end Sys2Proof.Tests
end

section
/-! PROOFS. A tenant's reset (R2, R443, R458): what it holds of the launches, teams, queues and regions goes, and nothing of another tenant does. -/
namespace Sys2Proof.Machine

/-! ### Lists changed element by element -/

/-- An element that a `mapIf` leaves alone is still there. -/
theorem mem_mapIf_of_not {α : Type} {p : α → Bool} {f : α → α} {x : α} {l : List α} (hx : x ∈ l) (hp : p x = false) : x ∈ mapIf p f l := by
  induction l with
  | nil => cases hx
  | cons y r ih =>
    rcases List.mem_cons.mp hx with rfl | hr
    · simp [mapIf, hp]
    · exact List.mem_cons_of_mem _ (ih hr)

/-- Every element after a `mapIf` is a changed one, or one that it leaves alone. -/
theorem mem_mapIf_cases {α : Type} {p : α → Bool} {f : α → α} {x : α} {l : List α} (hx : x ∈ mapIf p f l) :
    (x ∈ l ∧ p x = false) ∨ ∃ y ∈ l, p y = true ∧ x = f y := by
  induction l with
  | nil => cases hx
  | cons y r ih =>
    rcases List.mem_cons.mp hx with rfl | hr
    · by_cases hp : p y = true
      · exact .inr ⟨y, List.mem_cons_self, hp, by simp [hp]⟩
      · exact .inl (by simp [hp])
    · rcases ih hr with ⟨hm, hp⟩ | ⟨z, hz, hp, rfl⟩
      · exact .inl ⟨List.mem_cons_of_mem _ hm, hp⟩
      · exact .inr ⟨z, List.mem_cons_of_mem _ hz, hp, rfl⟩

/-- `findBy` gives an element of the list that passes the test. -/
theorem findBy_some {α : Type} {p : α → Bool} {x : α} {l : List α} (h : findBy p l = some x) : x ∈ l ∧ p x = true := by
  induction l with
  | nil => cases h
  | cons y r ih =>
    by_cases hp : p y = true
    · simp only [findBy, hp, if_true, Option.some.injEq] at h
      subst h
      exact ⟨List.mem_cons_self, hp⟩
    · simp only [findBy, hp] at h
      exact ⟨List.mem_cons_of_mem _ (ih h).1, (ih h).2⟩

/-- A test that everything passes leaves a list as it is. -/
theorem filter_all_pass {α : Type} (l : List α) : (l.filter fun _ => true) = l := List.filter_eq_self.mpr fun _ _ => rfl

/-- Elements of a list that bear different names are told apart by their names. -/
theorem eq_of_map_nodup {α β : Type} {f : α → β} {l : List α} (h : (l.map f).Nodup) {x y : α} (hx : x ∈ l) (hy : y ∈ l) (e : f x = f y) : x = y := by
  induction l with
  | nil => cases hx
  | cons z r ih =>
    obtain ⟨hz, hr⟩ := List.nodup_cons.mp h
    rcases List.mem_cons.mp hx with rfl | hxr
    · rcases List.mem_cons.mp hy with rfl | hyr
      · rfl
      · exact absurd (e ▸ List.mem_map_of_mem hyr) hz
    · rcases List.mem_cons.mp hy with rfl | hyr
      · exact absurd (e ▸ List.mem_map_of_mem hxr) hz
      · exact ih hr hxr hyr

/-- Where the values of a store are changed in place, a key reads as the change of what it read as, or as nothing listed. -/
theorem Store.get_map_values {α : Type} (z : α) (f : α → α) (m : Store α) (i : Nat) :
    Store.get z (m.map fun e => (e.1, f e.2)) i = f (Store.get z m i) ∨ Store.get z (m.map fun e => (e.1, f e.2)) i = z := by
  induction m with
  | nil => exact .inr rfl
  | cons e r ih =>
    obtain ⟨k, v⟩ := e
    by_cases h1 : i = k
    · exact .inl (by simp [Store.get, h1])
    · by_cases h2 : i < k
      · exact .inr (by simp [Store.get, h1, h2])
      · simpa [Store.get, h1, h2] using ih

/-- A launch found under an identifier is one of the state's, and bears it. -/
theorem State.findLaunch_some {s : State} {i : Nat} {l : Launch} (h : s.findLaunch i = some l) : l ∈ s.launches ∧ l.id = i := by
  obtain ⟨hl, hi⟩ := findBy_some h
  exact ⟨hl, by simpa using hi⟩

/-- Where a launch is listed under an identifier, the launch read there is a listed one that bears it. -/
theorem State.launch_mem {s : State} {i : Nat} (h : s.findLaunch i ≠ none) : s.launch i ∈ s.launches ∧ (s.launch i).id = i := by
  obtain ⟨l, hl⟩ := Option.ne_none_iff_exists'.mp h
  simpa [State.launch, hl] using State.findLaunch_some hl

/-- With one launch to an identifier, launches of one identifier are one. -/
theorem State.launch_unique {s : State} (h : (s.launches.map (·.id)).Nodup) {l k : Launch} (hl : l ∈ s.launches) (hk : k ∈ s.launches)
    (e : l.id = k.id) : l = k := eq_of_map_nodup h hl hk e

/-! ### What tenants hold -/

/-- What the statement of a reset speaks of, but for the registers of tenants. -/
structure Holdings where
  launches : List Launch
  teams : List Team
  groups : List Grp
  moorings : List Mooring
  pushes : List Push
  queues : Store Queue
  regions : List Region

/-- What the tenants of a state hold. -/
def State.holdings (s : State) : Holdings := ⟨s.launches, s.teams, s.groups, s.moorings, s.pushes, s.queues, s.regions⟩

/-- A change of the state that reaches, of what tenants hold and their registers, one tenant's registers alone. What each part of a reset does is said by it: which plain update of the state the part amounts to, up to this. -/
structure State.OwnRegisters (n : Nat) (s t : State) : Prop where
  held : t.holdings = s.holdings
  wf : Store.wf {} s.tenants = true → Store.wf {} t.tenants = true
  others : Store.wf {} s.tenants = true → ∀ m, m ≠ n → t.tenant m = s.tenant m

namespace State.OwnRegisters

variable {n : Nat} {s t u : State}

theorem of_eq (h : t.holdings = s.holdings) (ht : t.tenants = s.tenants) : OwnRegisters n s t :=
  ⟨h, fun hw => ht ▸ hw, fun _ m _ => by simp [State.tenant, ht]⟩

theorem refl (s : State) : OwnRegisters n s s := of_eq rfl rfl

theorem trans (h : OwnRegisters n s t) (g : OwnRegisters n t u) : OwnRegisters n s u :=
  ⟨g.held.trans h.held, fun hw => g.wf (h.wf hw), fun hw m hm => (g.others (h.wf hw) m hm).trans (h.others hw m hm)⟩

theorem foldl {β : Type} {f : State → β → State} (hf : ∀ s x, OwnRegisters n s (f s x)) (l : List β) (s : State) :
    OwnRegisters n s (l.foldl f s) := by
  induction l generalizing s with
  | nil => exact refl s
  | cons x r ih => exact (hf s x).trans (ih _)

theorem updTenant (s : State) (f : Tenant → Tenant) : OwnRegisters n s (s.updTenant n f) :=
  ⟨rfl, Store.wf_upd n f, fun hw _ hm => Store.get_set_ne hw hm⟩

theorem giveFrame (s : State) (p f : Nat) : OwnRegisters n s (s.giveFrame n p f) := updTenant s _

theorem dropWrite (s : State) (w : Write) : OwnRegisters n s (s.dropWrite w) := by
  unfold State.dropWrite State.raise
  split <;> exact of_eq rfl rfl

theorem count (s : State) (unit code k : Nat) : OwnRegisters n s (s.count unit code k) := by
  unfold State.count
  split <;> exact of_eq rfl rfl

/-- What a snapshot entry holds goes to pools of its tenant (R395). -/
theorem dropSnap (s : State) (e : Snap) : OwnRegisters n s (s.dropSnap n e) := by
  cases e with
  | copy => exact giveFrame s _ _
  | allocated => exact refl s
  | released r _ f =>
    simp only [State.dropSnap]
    split
    · exact giveFrame s _ _
    · exact refl s
  | append r _ _ _ _ _ pages =>
    simp only [State.dropSnap]
    split
    · refine foldl (fun s p => ?_) _ s
      split
      · exact giveFrame s _ _
      · exact refl s
    · exact refl s

theorem dropReplicas (s : State) (g : Region) : OwnRegisters n s (s.dropReplicas g) := by
  unfold State.dropReplicas
  refine trans ?_ (foldl (fun t d => count t _ _ _) _ _)
  exact of_eq rfl rfl

theorem clearFree (s : State) (core : Nat) : OwnRegisters n s (s.clearFree core) := by
  unfold State.clearFree
  refine trans ?_ (foldl (fun t i => ?_) _ _)
  · exact of_eq rfl rfl
  · exact of_eq rfl rfl

/-- Operations of words and of system channels go. -/
theorem dropOps (s : State) (ops : List Op) (p : SysJob → Bool) : OwnRegisters n s (({ s with ops := ops } : State).sweepSlaved.sysDrop p) := of_eq rfl rfl

end State.OwnRegisters

/-! ### Launches are retired -/

/-- A copy of a team that none of some launches takes with it. -/
def State.outlives (s : State) (ls : List Launch) (id : TeamId) : Bool := s.teams.all fun x => x.id != id || ls.all fun l => x.id.launch != l.id

/-- The state without the copies of teams of some launches, and the groups and moorings of those. -/
def State.withoutTeams (s : State) (ls : List Launch) : State :=
  { s with teams := s.teams.filter fun x => ls.all fun l => x.id.launch != l.id
           groups := s.groups.filter fun g => s.outlives ls g.team
           moorings := s.moorings.filter fun m => s.outlives ls m.team }

/-- The state with some of its launches alone. -/
def State.keepLaunches (s : State) (p : Launch → Bool) : State := { s with launches := s.launches.filter p }

/-- The state without some launches and their copies of teams. -/
def State.without (s : State) (ls : List Launch) : State := (s.withoutTeams ls).keepLaunches fun x => ls.all fun l => x.id != l.id

theorem State.outlives_iff {s : State} {ls : List Launch} {id : TeamId} :
    s.outlives ls id = true ↔ ∀ x ∈ s.teams, x.id = id → ∀ l ∈ ls, x.id.launch ≠ l.id := by
  simp only [outlives, List.all_eq_true, Bool.or_eq_true, bne_iff_ne, ne_eq, Classical.or_iff_not_imp_left, Classical.not_not]

/-- A copy outlives launches that go one after another where it outlives each. -/
theorem State.outlives_cons (s : State) (l : Launch) (ls : List Launch) (id : TeamId) :
    (s.outlives [l] id && (s.without [l]).outlives ls id) = s.outlives (l :: ls) id := by
  rw [Bool.eq_iff_iff, Bool.and_eq_true]
  simp only [outlives_iff, without, withoutTeams, keepLaunches, List.mem_filter, List.forall_mem_cons]
  grind

/-- To go without launches one after another is to go without all of them. -/
theorem State.without_cons (s : State) (l : Launch) (ls : List Launch) : (s.without [l]).without ls = s.without (l :: ls) := by
  have h (id : TeamId) := (Bool.and_comm _ _).trans (s.outlives_cons l ls id)
  simp only [without, withoutTeams, keepLaunches] at h ⊢
  simp only [List.filter_filter, h]
  simp [Bool.and_comm]

theorem State.without_nil (s : State) : s.without [] = s := by
  have h (id : TeamId) : s.outlives [] id = true := outlives_iff.mpr (by simp)
  simp only [without, withoutTeams, keepLaunches, h, List.all_nil, filter_all_pass]

theorem State.OwnRegisters.keepLaunches {n : Nat} {s t : State} (h : OwnRegisters n s t) (p : Launch → Bool) : OwnRegisters n (s.keepLaunches p) (t.keepLaunches p) := by
  obtain ⟨held, wf, others⟩ := h
  refine ⟨?_, wf, others⟩
  simp only [holdings, Holdings.mk.injEq] at held ⊢
  simp [State.keepLaunches, held]

theorem State.OwnRegisters.without {n : Nat} {s t : State} (h : OwnRegisters n s t) (ls : List Launch) : OwnRegisters n (s.without ls) (t.without ls) := by
  obtain ⟨held, wf, others⟩ := h
  refine ⟨?_, wf, others⟩
  simp only [holdings, Holdings.mk.injEq] at held ⊢
  simp [State.without, State.withoutTeams, State.keepLaunches, State.outlives, held]

/-- The state without a copy of a team: its groups and moorings go with it (R50). -/
theorem State.removeCopy_own (n : Nat) (s : State) (l : Launch) (id : TeamId) :
    OwnRegisters n { s with teams := s.teams.filter fun t => t.id != id, groups := s.groups.filter fun g => g.team != id, moorings := s.moorings.filter fun m => m.team != id }
      (s.removeCopy l id) := by
  unfold State.removeCopy
  refine .trans ?_ (.foldl (fun t c => .clearFree t c) _ _)
  exact .of_eq rfl rfl

/-- Copies of teams leave their cores one after another. -/
def State.removeCopies (s : State) (l : Launch) (ts : List Team) : State := ts.foldl (fun s t => s.removeCopy l t.id) s

theorem State.removeCopies_own (n : Nat) (s : State) (l : Launch) (ts : List Team) :
    OwnRegisters n { s with
        teams := s.teams.filter fun x => ts.all fun t => x.id != t.id
        groups := s.groups.filter fun g => ts.all fun t => g.team != t.id
        moorings := s.moorings.filter fun m => ts.all fun t => m.team != t.id }
      (s.removeCopies l ts) := by
  induction ts generalizing s with
  | nil => exact .of_eq (by simp only [removeCopies, holdings, List.foldl_nil, List.all_nil, filter_all_pass]) rfl
  | cons t r ih =>
    obtain ⟨h1, w1, o1⟩ := removeCopy_own n s l t.id
    obtain ⟨h2, w2, o2⟩ := ih (s.removeCopy l t.id)
    simp only [holdings, Holdings.mk.injEq] at h1 h2
    refine ⟨?_, fun hw => w2 (w1 hw), fun hw m hm => (o2 (w1 hw) m hm).trans (o1 hw m hm)⟩
    simp only [holdings, Holdings.mk.injEq]
    simp only [h1, List.filter_filter] at h2
    simpa [removeCopies, Bool.and_comm] using h2

/-- The copies of teams of a launch are the ones it takes with it. -/
theorem State.outlives_singleton (s : State) (l : Launch) (id : TeamId) :
    ((s.teams.filter fun t => t.id.launch == l.id).all fun t => id != t.id) = s.outlives [l] id := by
  rw [Bool.eq_iff_iff, outlives_iff]
  simp only [List.all_eq_true, List.mem_filter]
  grind

/-- The copies of teams that outlive a launch are those of other launches. -/
theorem State.teams_outlive (s : State) (l : Launch) :
    (s.teams.filter fun x => s.outlives [l] x.id) = s.teams.filter fun x => [l].all fun l => x.id.launch != l.id := by
  refine List.filter_congr fun x hx => ?_
  rw [Bool.eq_iff_iff, outlives_iff, List.all_eq_true]
  grind

theorem State.removeCopies_withoutTeams (s : State) (l : Launch) (n : Nat) :
    OwnRegisters n (s.withoutTeams [l]) (s.removeCopies l (s.teams.filter fun t => t.id.launch == l.id)) := by
  have h := s.removeCopies_own n l (s.teams.filter fun t => t.id.launch == l.id)
  simp only [outlives_singleton, teams_outlive] at h
  exact h

/-- A launch that is retired takes its copies of teams with it, and what it has of frames goes to its tenant's pools (R443, R395). -/
theorem State.retireLaunch_own (s : State) (l : Launch) : OwnRegisters l.tenant (s.without [l]) (s.retireLaunch l) := by
  unfold State.retireLaunch
  extract_lets copies writes ops sys reserved snaps kept registers
  have hcopies : OwnRegisters l.tenant (s.withoutTeams [l]) copies := s.removeCopies_withoutTeams l _
  have hwrites : OwnRegisters l.tenant copies writes := .foldl (fun t w => .dropWrite t w) _ _
  have hsys : OwnRegisters l.tenant writes sys := .dropOps writes _ _
  have hreserved : OwnRegisters l.tenant sys reserved := by
    refine .foldl (fun t e => ?_) _ _
    split
    · exact .giveFrame t _ _
    · exact .refl t
  have hsnaps : OwnRegisters l.tenant reserved snaps := .foldl (fun t e => .dropSnap t e) _ _
  have hkept : OwnRegisters l.tenant snaps kept := .foldl (fun t f => .giveFrame t _ _) _ _
  have hregisters : OwnRegisters l.tenant (s.withoutTeams [l]) registers :=
    hcopies.trans (hwrites.trans (hsys.trans (hreserved.trans (hsnaps.trans (hkept.trans (.updTenant kept _))))))
  refine (hregisters.keepLaunches fun x => [l].all fun l => x.id != l.id).trans (.of_eq ?_ rfl)
  simp [holdings, keepLaunches]

/-- Launches of one tenant are retired one after another. -/
theorem State.retireLaunches_own {n : Nat} (ls : List Launch) (h : ∀ l ∈ ls, l.tenant = n) (s : State) :
    OwnRegisters n (s.without ls) (ls.foldl (fun s l => s.retireLaunch l) s) := by
  induction ls generalizing s with
  | nil => exact .of_eq (by simp [without_nil]) rfl
  | cons l r ih =>
    have hl : OwnRegisters n (s.without [l]) (s.retireLaunch l) := h l List.mem_cons_self ▸ s.retireLaunch_own l
    rw [← without_cons]
    exact (hl.without r).trans (ih (fun k hk => h k (List.mem_cons_of_mem _ hk)) _)

/-! ### Regions are dropped -/

/-- The state with some of its regions alone. -/
def State.keepRegions (s : State) (p : Region → Bool) : State := { s with regions := s.regions.filter p }

theorem State.OwnRegisters.keepRegions {n : Nat} {s t : State} (h : OwnRegisters n s t) (p : Region → Bool) : OwnRegisters n (s.keepRegions p) (t.keepRegions p) := by
  obtain ⟨held, wf, others⟩ := h
  refine ⟨?_, wf, others⟩
  simp only [holdings, Holdings.mk.injEq] at held ⊢
  simp [State.keepRegions, held]

/-- The state without a region: its bytes stay in its frames (R458). -/
theorem State.dropRegion_own (n : Nat) (s : State) (g : Region) : OwnRegisters n (s.keepRegions fun r => r.id != g.id) (s.dropRegion g) := by
  unfold State.dropRegion
  refine .trans ?_ (.dropReplicas _ g)
  refine .trans (.keepRegions (.foldl (fun t e => ?_) g.pages s) _) (.of_eq rfl rfl)
  split <;> exact .of_eq rfl rfl

theorem State.dropRegions_own (n : Nat) (gs : List Region) (s : State) :
    OwnRegisters n (s.keepRegions fun r => gs.all fun g => r.id != g.id) (gs.foldl State.dropRegion s) := by
  induction gs generalizing s with
  | nil => exact .of_eq (by simp only [holdings, keepRegions, List.foldl_nil, List.all_nil, filter_all_pass]) rfl
  | cons g r ih =>
    have h := ((s.dropRegion_own n g).keepRegions _).trans (ih (s.dropRegion g))
    simpa [keepRegions, List.filter_filter, Bool.and_comm] using h

theorem State.dropRegionsOf_own (n : Nat) (s : State) :
    OwnRegisters n (s.keepRegions fun r => r.id.tenant != n) ((s.regions.filter fun g => g.id.tenant == n).foldl State.dropRegion s) := by
  have h := s.dropRegions_own n (s.regions.filter fun g => g.id.tenant == n)
  have e : (s.keepRegions fun r => (s.regions.filter fun g => g.id.tenant == n).all fun g => r.id != g.id) = s.keepRegions fun r => r.id.tenant != n := by
    unfold keepRegions
    congr 1
    refine List.filter_congr fun r hr => ?_
    rw [Bool.eq_iff_iff]
    simp only [List.all_eq_true, List.mem_filter]
    grind
  rwa [e] at h

/-! ### The two moves of a reset -/

theorem exec_treset (n : Nat) (s : State) : exec (.treset n) s = execTreset n s := rfl

/-- A reset waits for exactly what the tenant's cores have submitted (R443). -/
theorem State.resetWaits_iff (s : State) (n : Nat) : s.resetWaits n = true ↔ Submitted s n := by
  simp [resetWaits, Submitted, and_assoc]

/-- While something submitted runs on, a reset halts the tenant and shows BUSY. -/
theorem execTreset_waits {s : State} {n : Nat} (h : Submitted s n) :
    execTreset n s = .next ((s.haltTenant n fun o => o.pkt.isSome).updTenant n fun t => { t with busy := true }) := by
  simp [execTreset, (s.resetWaits_iff n).mpr h]

/-- The launches of a tenant. -/
def State.launchesOf (s : State) (n : Nat) : List Launch := s.launches.filter fun l => l.tenant == n

theorem State.mem_launchesOf {s : State} {n : Nat} {l : Launch} : l ∈ s.launchesOf n ↔ l ∈ s.launches ∧ l.tenant = n := by
  simp [launchesOf]

/-- A tenant that is stopped: its queues and launches halted, its launches and their pushes gone (R443, R458). -/
def State.stoppedOf (s : State) (n : Nat) : State :=
  State.without { s.haltTenant n fun _ => true with pushes := s.pushes.filter fun p => !(s.launchesOf n).any fun l => l.id == p.team.launch } (s.launchesOf n)

theorem State.stopTenant_own (s : State) (n : Nat) : OwnRegisters n (s.stoppedOf n) (s.stopTenant n) := by
  unfold State.stopTenant
  refine .trans ?_ (retireLaunches_own _ (fun l hl => (mem_launchesOf.mp hl).2) _)
  exact .of_eq rfl rfl

/-- The moorings, seals, frees and noted sub-arrays of a tenant go (R458). -/
def State.dropUses (s : State) (n : Nat) : State :=
  { s with
    moorings := s.moorings.filter fun m => m.tenant != n
    ops := s.ops.filter fun o => match o.kind with
      | .seal r => r.tenant != n
      | .free r => r.tenant != n
      | _ => true
    doneUses := s.doneUses.filter fun u => u.2.1 != n }

/-- What is left of a stopped tenant goes: its writes to regions, its uses, its translations and its regions (R458). -/
def State.dropTenant (s : State) (n : Nat) : State :=
  let u := (s.writes.filter fun w => w.tenant == n && isRegionKey w.key).foldl State.dropWrite s
  let v := (List.range 16).foldl (fun s asid => s.dropXlat n asid 0 (2 ^ 57)) (u.dropUses n)
  (v.regions.filter fun g => g.id.tenant == n).foldl State.dropRegion v

/-- The registers of a tenant at their reset values (R458). -/
def State.resetRegisters (s : State) (n : Nat) : State := { s with tenants := Store.set {} s.tenants n {} }

/-- With nothing submitted left, a reset stops the tenant, drops what is left of it and gives its registers their reset values. -/
theorem execTreset_done {s : State} {n : Nat} (h : ¬Submitted s n) : execTreset n s = .next (((s.stopTenant n).dropTenant n).resetRegisters n) :=
  if_neg fun e => h ((s.resetWaits_iff n).mp e)

/-- Where one tenant's registers alone have changed and take their reset values, every other tenant's are as they were. -/
theorem State.OwnRegisters.resetRegisters {n : Nat} {s t : State} (h : OwnRegisters n s t) :
    (t.resetRegisters n).holdings = s.holdings ∧
      (Store.wf {} s.tenants = true → (t.resetRegisters n).tenant n = {} ∧ ∀ m, m ≠ n → (t.resetRegisters n).tenant m = s.tenant m) :=
  ⟨h.held, fun wf => ⟨Store.get_set_self (h.wf wf), fun m hm => (Store.get_set_ne (h.wf wf) hm).trans (h.others wf m hm)⟩⟩

theorem State.OwnRegisters.dropUses {n : Nat} {s t : State} (h : OwnRegisters n s t) (k : Nat) : OwnRegisters n (s.dropUses k) (t.dropUses k) := by
  obtain ⟨held, wf, others⟩ := h
  refine ⟨?_, wf, others⟩
  simp only [holdings, Holdings.mk.injEq] at held ⊢
  simp [State.dropUses, held]

theorem State.dropTenant_own (s : State) (n : Nat) : OwnRegisters n ((s.dropUses n).keepRegions fun r => r.id.tenant != n) (s.dropTenant n) := by
  have hu := (OwnRegisters.foldl (n := n) (fun t w => .dropWrite t w) (s.writes.filter fun w => w.tenant == n && isRegionKey w.key) s).dropUses n
  have hv := hu.trans (.foldl (f := fun s asid => s.dropXlat n asid 0 (2 ^ 57)) (fun t a => .of_eq rfl rfl) (List.range 16) _)
  exact (hv.keepRegions _).trans (dropRegionsOf_own n _)

/-- What a reset leaves standing, but for the tenant's registers (R458). -/
def State.leftByReset (s : State) (n : Nat) : State := ((s.stoppedOf n).dropUses n).keepRegions fun r => r.id.tenant != n

theorem State.leftByReset_tenants (s : State) (n : Nat) : (s.leftByReset n).tenants = s.tenants := by
  simp only [leftByReset, keepRegions, dropUses, stoppedOf, without, withoutTeams, keepLaunches, haltTenant]

theorem State.dropTenant_stopTenant_own (s : State) (n : Nat) : OwnRegisters n (s.leftByReset n) ((s.stopTenant n).dropTenant n) :=
  (((s.stopTenant_own n).dropUses n).keepRegions _).trans ((s.stopTenant n).dropTenant_own n)

/-! ### A halted tenant -/

section
variable (s : State) (n : Nat) (ends : ChOp → Bool)

theorem State.haltTenant_aborted {l : Launch} (hl : l ∈ (s.haltTenant n ends).launches) (hn : l.tenant = n) : l.aborted ≠ none := by
  rcases mem_mapIf_cases hl with ⟨-, hp⟩ | ⟨k, -, -, rfl⟩
  · simp [hn] at hp
  · simp

/-- A launch of another tenant stays as it was when a tenant is halted. -/
theorem State.mem_haltTenant_launches {l : Launch} (hl : l ∈ s.launches) (hn : l.tenant ≠ n) : l ∈ (s.haltTenant n ends).launches :=
  mem_mapIf_of_not hl (by simpa using hn)

/-- The launches of a state whose tenant is halted bear the identifiers and tenants that they bore. -/
theorem State.haltTenant_launch_named {l : Launch} (hl : l ∈ (s.haltTenant n ends).launches) : ∃ k ∈ s.launches, k.id = l.id ∧ k.tenant = l.tenant := by
  rcases mem_mapIf_cases hl with ⟨hm, -⟩ | ⟨k, hk, -, rfl⟩
  · exact ⟨l, hm, rfl, rfl⟩
  · exact ⟨k, hk, rfl, rfl⟩

/-- A channel keeps the operations that are not to end when a tenant is halted. -/
theorem State.mem_haltTenant_ops {e : ChanId × Chan} {o : ChOp} (he : e ∈ s.chans) (ho : o ∈ e.2.ops) (hk : ends o = false) :
    ∃ f ∈ (s.haltTenant n ends).chans, f.1 = e.1 ∧ o ∈ f.2.ops :=
  ⟨_, List.mem_map_of_mem he, rfl, mem_mapIf_of_not ho (by simp [hk])⟩

/-- A queue when a tenant is halted: disabled and empty where it is that tenant's. -/
def Queue.haltedFor (k : Queue) (n : Nat) : Queue :=
  if k.tenant = n then { k with qctl := BitVec.ofNat 64 (k.qctl.toNat % 2 ^ 31), pkts := [], faultSeq := 0 } else k

theorem State.haltTenant_queues : (s.haltTenant n ends).queues = s.queues.map fun e => (e.1, e.2.haltedFor n) := by
  refine List.map_congr_left fun e _ => ?_
  unfold Queue.haltedFor
  split <;> rfl

/-- A queue halted for its own tenant is disabled and has no packet. -/
theorem Queue.haltedFor_own {k : Queue} (h : k.tenant = n) : (k.haltedFor n).pkts = [] ∧ (k.haltedFor n).enabled = false := by
  have hbit : k.qctl.toNat % 2 ^ 31 % 2 ^ 64 / 2 ^ 31 % 2 = 0 := by omega
  simpa [haltedFor, h, enabled, bitAt] using hbit

/-- A queue of a halted tenant is disabled and has no packet. -/
theorem State.haltTenant_queue {q : Nat} (hq : (s.queue q).tenant = n) :
    ((s.haltTenant n ends).queue q).pkts = [] ∧ ((s.haltTenant n ends).queue q).enabled = false := by
  have own := Queue.haltedFor_own n hq
  simp only [State.queue, haltTenant_queues] at own ⊢
  rcases Store.get_map_values {} (fun k : Queue => k.haltedFor n) s.queues q with h | h
  · rw [h]
    exact own
  · rw [h]
    exact ⟨rfl, by decide⟩

end

/-! ### What a reset leaves -/

section
variable {s : State} {n : Nat}

theorem State.leftByReset_launches {l : Launch} (hl : l ∈ (s.leftByReset n).launches) : l.tenant ≠ n := by
  obtain ⟨hm, hout⟩ := List.mem_filter.mp hl
  obtain ⟨k, hk, hid, ht⟩ := s.haltTenant_launch_named n (fun _ => true) hm
  intro hn
  have hne := List.all_eq_true.mp hout k (mem_launchesOf.mpr ⟨hk, ht.trans hn⟩)
  simp [hid] at hne

theorem State.mem_leftByReset_launches (nodup : (s.launches.map (·.id)).Nodup) {l : Launch} (hl : l ∈ s.launches) (hn : l.tenant ≠ n) :
    l ∈ (s.leftByReset n).launches := by
  refine List.mem_filter.mpr ⟨s.mem_haltTenant_launches n (fun _ => true) hl hn, List.all_eq_true.mpr fun k hk => ?_⟩
  obtain ⟨hm, ht⟩ := mem_launchesOf.mp hk
  have hne : l.id ≠ k.id := fun e => hn (launch_unique nodup hl hm e ▸ ht)
  simpa using hne

/-- A team is of none of a tenant's launches exactly where its launch is another tenant's. -/
theorem State.launch_tenant_ne_iff (nodup : (s.launches.map (·.id)).Nodup) {i : Nat} (h : s.findLaunch i ≠ none) :
    (s.launch i).tenant ≠ n ↔ ∀ l ∈ s.launchesOf n, i ≠ l.id := by
  obtain ⟨hm, hid⟩ := launch_mem h
  refine ⟨fun hn l hl e => ?_, fun hall hn => hall _ (mem_launchesOf.mpr ⟨hm, hn⟩) hid.symm⟩
  obtain ⟨hl, ht⟩ := mem_launchesOf.mp hl
  exact hn (launch_unique nodup hm hl (hid.trans e) ▸ ht)

/-- The teams that are left are those of other tenants' launches. -/
theorem State.mem_leftByReset_teams (nodup : (s.launches.map (·.id)).Nodup) (found : ∀ x ∈ s.teams, s.findLaunch x.id.launch ≠ none) {x : Team} :
    x ∈ (s.leftByReset n).teams ↔ x ∈ s.teams ∧ (s.launch x.id.launch).tenant ≠ n := by
  have e : x ∈ (s.leftByReset n).teams ↔ x ∈ s.teams ∧ ∀ l ∈ s.launchesOf n, x.id.launch ≠ l.id := by
    simp [leftByReset, keepRegions, dropUses, stoppedOf, without, withoutTeams, keepLaunches, haltTenant]
  rw [e]
  exact and_congr_right fun hx => (launch_tenant_ne_iff nodup (found x hx)).symm

/-- A group that is left is of no team of the tenant. -/
theorem State.leftByReset_groups (nodup : (s.launches.map (·.id)).Nodup) (found : ∀ x ∈ s.teams, s.findLaunch x.id.launch ≠ none)
    {g : Grp} (hg : g ∈ (s.leftByReset n).groups) {x : Team} (hx : x ∈ s.teams) (hid : x.id = g.team) : (s.launch x.id.launch).tenant ≠ n :=
  (launch_tenant_ne_iff nodup (found x hx)).mpr (outlives_iff.mp (List.mem_filter.mp hg).2 x hx hid)

theorem State.leftByReset_moorings {m : Mooring} (hm : m ∈ (s.leftByReset n).moorings) : m.tenant ≠ n := by
  simpa using (List.mem_filter.mp hm).2

/-- A push that is left is for no launch of the tenant. -/
theorem State.leftByReset_pushes {p : Push} (hp : p ∈ (s.leftByReset n).pushes) {l : Launch} (hl : l ∈ s.launches) (hid : l.id = p.team.launch) : l.tenant ≠ n := by
  intro hn
  have h := (List.mem_filter.mp hp).2
  have : (s.launchesOf n).any (fun l => l.id == p.team.launch) = true :=
    List.any_eq_true.mpr ⟨l, mem_launchesOf.mpr ⟨hl, hn⟩, by simpa using hid⟩
  simp [this] at h

theorem State.mem_leftByReset_regions {r : Region} : r ∈ (s.leftByReset n).regions ↔ r ∈ s.regions ∧ r.id.tenant ≠ n := by
  simp [leftByReset, keepRegions, dropUses, stoppedOf, without, withoutTeams, keepLaunches, haltTenant]

end

/-! ### The obligation -/

/-- The first move of a reset: the tenant is halted and BUSY, what its cores have submitted goes on (R443). -/
theorem execTreset_submitted {s : State} {n : Nat} (h : Submitted s n) :
    ∃ t, exec (.treset n) s = .next t ∧ (Store.wf {} s.tenants = true → t.tenant n = { s.tenant n with busy := true } ∧ ∀ m, m ≠ n → t.tenant m = s.tenant m) ∧
      (∀ l ∈ t.launches, l.tenant = n → l.aborted ≠ none) ∧ (∀ q, (s.queue q).tenant = n → (t.queue q).pkts = [] ∧ (t.queue q).enabled = false) ∧
      (∀ e ∈ s.chans, ∀ o ∈ e.2.ops, o.pkt = none → ∃ f ∈ t.chans, f.1 = e.1 ∧ o ∈ f.2.ops) ∧ t.teams = s.teams ∧ t.groups = s.groups ∧ Claims.MemorySame s t :=
  ⟨_, (exec_treset n s).trans (execTreset_waits h), fun wf => ⟨Store.get_set_self wf, fun _ hm => Store.get_set_ne wf hm⟩,
    fun _ hl hn => s.haltTenant_aborted n (fun o => o.pkt.isSome) hl hn, fun _ hq => s.haltTenant_queue n (fun o => o.pkt.isSome) hq,
    fun _ he _ ho hk => s.mem_haltTenant_ops n _ he ho (by simp [hk]), rfl, rfl, rfl, rfl, rfl, rfl⟩

/-- The last move of a reset: the machine holds what the reset leaves, and the tenant's registers are at their reset values (R458). -/
theorem execTreset_leaves {s : State} {n : Nat} (h : ¬Submitted s n) :
    ∃ t, exec (.treset n) s = .next t ∧ t.holdings = (s.leftByReset n).holdings ∧
      (Store.wf {} s.tenants = true → t.tenant n = {} ∧ ∀ m, m ≠ n → t.tenant m = s.tenant m) := by
  rw [exec_treset, execTreset_done h]
  have h := (s.dropTenant_stopTenant_own n).resetRegisters
  simp only [State.tenant, State.leftByReset_tenants] at h
  exact ⟨_, rfl, h⟩

/-- Settles O55: while something submitted runs on a reset halts the tenant alone, and with none left what stands is what the reset leaves of other tenants. -/
theorem tenantResets : Obligations.TenantResets := by
  refine ⟨fun s n h => execTreset_submitted h, fun s n h found nodup => ?_⟩
  obtain ⟨t, ht, held, registers⟩ := execTreset_leaves h
  simp only [State.holdings, Holdings.mk.injEq] at held
  obtain ⟨hlaunches, hteams, hgroups, hmoorings, hpushes, hqueues, hregions⟩ := held
  refine ⟨t, ht, registers, ?_, ?_, ?_, ?_, ?_, ?_, ?_, ?_, ?_, ?_⟩
  · exact fun l hl => State.leftByReset_launches (hlaunches ▸ hl)
  · exact fun x hx => ((State.mem_leftByReset_teams nodup found).mp (hteams ▸ hx)).2
  · exact fun r hr => (State.mem_leftByReset_regions.mp (hregions ▸ hr)).2
  · exact fun m hm => State.leftByReset_moorings (hmoorings ▸ hm)
  · exact fun g hg x hx hid => State.leftByReset_groups nodup found (hgroups ▸ hg) hx hid
  · exact fun p hp l hl hid => State.leftByReset_pushes (hpushes ▸ hp) hl hid
  · intro q hq
    have e : t.queue q = (s.haltTenant n fun _ => true).queue q := congrArg (fun m => Store.get ({} : Queue) m q) hqueues
    exact e ▸ s.haltTenant_queue n _ hq
  · exact fun l hl hn => ⟨l, hlaunches ▸ State.mem_leftByReset_launches nodup hl hn, rfl, rfl, rfl⟩
  · exact fun r hr hn => hregions ▸ State.mem_leftByReset_regions.mpr ⟨hr, hn⟩
  · exact fun x hx hn => hteams ▸ (State.mem_leftByReset_teams nodup found).mpr ⟨hx, hn⟩

end Sys2Proof.Machine
end

section
/-! PROOFS. What chq answers of a channel that holds more than sixteen operations (R351, R374), as the submissions of a redundant team can leave one when they are released together (R375). -/
namespace Sys2Proof.Machine
open Sys2Proof.Claims

/-! ### The depth that a status word shows (R374, bits 28 to 24) -/

/-- The model's status word shows at most sixteen operations. -/
theorem Chan.word_depth (x : Chan) : x.word % 2 ^ 32 / 2 ^ 24 % 32 = min 16 x.ops.length := by
  have flag (b : Bool) : bit b ≤ 1 := by cases b <;> decide
  have depth : Nat.min 16 x.ops.length = min 16 x.ops.length := rfl
  unfold Chan.word
  rw [depth]
  split
  next o _ _ => have := flag (decide (o.waitSeq ≠ 0)); omega
  next => have := flag false; omega

/-- The claim's status word shows all of the channel's operations, modulo 32. -/
theorem chanStatus_depth (x : Chan) : (chanStatus x).toNat / 2 ^ 24 % 32 = x.ops.length % 32 := by
  unfold chanStatus
  rw [BitVec.toNat_ofNat]
  split <;> omega

/-! ### The newest outstanding operation -/

/-- Where only groups, teams and quadrants differ, the outstanding operations are the same. -/
theorem State.onlyIssue.ops {s t : State} (h : s.onlyIssue t) : t.ops = s.ops := by
  have same : { t with groups := s.groups, teams := s.teams, quads := s.quads } = s := h
  exact (congrArg State.ops same :)

/-- The first result that the newest outstanding operation holds. -/
def State.newestResult (s : State) : Option (Nat × Wr) := s.ops.getLast?.bind fun o => o.results.head?

section
variable {k : Ctl} {d a : Reg} {s : State} {gid : Nat} {h : Thread} {hs : List Thread}

/-- A word whose results are known at its issue, and whose actors receive their own, leaves the first actor's first result first. -/
theorem Known.done_newestResult {x : Known} {c : Ctx} {w : Wr} {ws : List Wr} (own : x.k.u = false)
    (acts : c.actors x.k = h :: hs) (results : x.res c h = w :: ws) : (x.done s c).newestResult = some (h.idx, w) := by
  simp [State.newestResult, Known.done, (State.onlyIssue_endWord _ _ _).ops, Ctx.receivers, own, acts, results]

theorem exec_chq : exec (.chq k d a) s = execChq k d a s := rfl

/-- chq leaves first the status word of the channel that its first actor names. -/
theorem exec_chq_newestResult (issues : Issues s gid [d.toNat, a.toNat]) (own : k.u = false) (acts : (s.ctx gid).actors k = h :: hs) :
    ∃ t, exec (.chq k d a) s = .next t ∧
      t.newestResult = some (h.idx, ⟨.reg d.toNat, (s.chan (.core (s.ctx gid).core (h.v a % 4))).word % 2 ^ 32⟩) := by
  obtain ⟨current, inside⟩ := issues
  refine ⟨_, exec_chq.trans (laneVariable_eq current inside _ rfl), ?_⟩
  simp [State.newestResult, (State.onlyIssue_endWord _ _ _).ops, State.addOp, Ctx.receivers, own, acts, wreg]

/-- chq answers as the claim says only where the channel that its first actor names shows all of its operations. -/
theorem depth_of_chq {x : Known} {n : Nat} (rule : queryRule s (.chq k d a) = some x) (issues : Issues s gid [d.toNat, a.toNat]) (own : k.u = false)
    (acts : (s.ctx gid).actors k = h :: hs) (holds : (s.chan (.core (s.ctx gid).core (h.v a % 4))).ops.length = n)
    (claimed : exec (.chq k d a) s = .next (x.done s (s.ctx gid))) : min 16 n = n % 32 := by
  obtain ⟨t, answered, model⟩ := exec_chq_newestResult issues own acts
  cases rule
  cases answered.symm.trans claimed
  rw [Known.done_newestResult own acts rfl] at model
  injection model with model
  injection model with _ model
  injection model with _ model
  rw [← holds, ← Chan.word_depth, ← chanStatus_depth, ← model]
  rfl

end

/-! ### Seventeen submissions released together -/

/-- The shadow of the placed team (R448). -/
def shadowId : TeamId := ⟨1, 0, true⟩
/-- Seventeen copy words to channel 0 of a thread's core, held back (R375). -/
def heldCopies : List Held := (List.range 17).map fun n => { id := n, thread := 0, va := n + 1, bytes := leBytes 2 64, submit := some (2, 0) }
/-- A redundant launch whose two copies each hold them back; a chq of the primary's group is in issue. -/
def copiesHeld : State := { State.reset.placed with
  current := some 1
  launches := [{ placedLaunch with body := placedBody.take 0x14 ++ leBytes (1 + 2 ^ 9 + 64 * 2 ^ 25) 4 ++ placedBody.drop 0x18 }]
  teams := [{ placedTeam with held := heldCopies }, { placedTeam with id := shadowId, core := 1, held := heldCopies, threads := [{ idx := 0, pc := 0, st := .issuing 2, sp := 0 }] }]
  groups := [{ placedGroup with clause := 1, header := loneHeader 4 1 }, { placedGroup with gid := 2, team := shadowId, quad := 4 }]
  chans := [(.core 0 0, { lastSeq := 17 }), (.core 1 0, { lastSeq := 17 })] }
/-- The same once both copies have matched and the primary has submitted all that it held (R449). -/
def copiesReleased : State := copiesHeld.release placedTeam.id shadowId [0]

/-- No marker bits: each active member acts and receives its own. -/
def unmarked : Ctl := ⟨false, false, false⟩

theorem copiesReleased_issues : Issues copiesReleased 1 [(0 : Reg).toNat, (1 : Reg).toNat] := by unfold Issues; decide +kernel
theorem copiesReleased_acts : (copiesReleased.ctx 1).actors unmarked ≠ [] := by decide +kernel
theorem copiesReleased_depth : ∀ h ∈ (copiesReleased.ctx 1).actors unmarked,
    (copiesReleased.chan (.core (copiesReleased.ctx 1).core (h.v 1 % 4))).ops.length = 17 := by decide +kernel

/-- Refutes O4: with seventeen operations on its channel chq answers a depth of sixteen, the most that R374 allows, where the claim's status word gives seventeen. -/
theorem not_knownWordResults : ¬ Obligations.KnownWordResults := by
  rintro ⟨-, -, -, -, queries⟩
  obtain ⟨h, hs, acts⟩ := List.exists_cons_of_ne_nil copiesReleased_acts
  have claimed := queries (.chq unmarked 0 1) _ copiesReleased 1 rfl (by decide) copiesReleased_issues
  have seventeen := copiesReleased_depth h (acts ▸ List.mem_cons_self)
  exact absurd (depth_of_chq rfl copiesReleased_issues rfl acts seventeen claimed) (by decide)

end Sys2Proof.Machine
end

section
/-! PROOFS. A report to the home whose number stands for every home (R314), and an accmov.get that retires in the cycle in which a result of fixed latency lands (R65, R223). -/
namespace Sys2Proof.Machine
open Sys2Proof.Claims

/-! ### A report that names no home (R314) -/

/-- No watermark rises at the number that a write bears whose home is not known yet. -/
theorem exec_watermarkReport_anyHome (origin : Nat) (s : State) : exec (.watermarkReport origin anyHome) s = .next s := by
  change Host.Outcome.next (s.raise anyHome origin (s.originCounter origin)) = .next s
  simp [State.raise]

/-- The hub has stamped one write, which has been applied. -/
def oneHubWrite : State := { State.reset with hubCounter := 1 }

/-- Refutes O48: its home may be any number, also the one that stands for every home, and a report to that raises no watermark to what its origin has counted. -/
theorem not_cachesAndSelfTests : ¬ Obligations.CachesAndSelfTests := by
  intro h
  obtain ⟨-, -, reports, -, -⟩ := h oneHubWrite 0 rfl rfl
  obtain ⟨t, reported, -, -, arrives, -⟩ := reports 4 anyHome rfl
  cases reported.symm.trans (exec_watermarkReport_anyHome 4 oneHubWrite)
  have rises : 1 ≤ oneHubWrite.arrived anyHome 4 := arrives rfl
  exact absurd rises (by decide)

/-! ### A get that retires as another result lands (R65, R223) -/

/-- The next word of its core's port retires. -/
theorem exec_matrixRetire {s : State} {o : Op} {i : Instr} (found : s.findOp o.id = some o) (kind : o.kind = .matrix i) (head : s.portHead o = true) :
    exec (.matrixRetire o.id) s = .next (s.retireMatrix o i).barriers := by
  change execMatrixRetire o.id s = _
  simp [execMatrixRetire, found, kind, head]

/-- The access of an accmov.get of the placed thread, for column 0 of its row. -/
def getAcc : Acc := { thread := 0, va := 0, key := 0, size := 0, home := 0, vec := {} }
/-- An accmov.get of tile 0 to v5, by v6, of the placed thread's group. -/
def getOp : Op := { id := 2, team := placedTeam.id, core := 0, gids := [1], flag := none, cls := 3, kind := .matrix (.accmovGet unmarked 0 5 6), accs := [getAcc] }
/-- It is the next word of the port, and a 1 for v9, sent in cycle 0 by a word of fixed latency, lands in the cycle under way. -/
def resultDue : State := { State.reset.placed with
  dies := [(0, { clock := 3 })]
  teams := [{ placedTeam with threads := [{ idx := 0, pc := 0, st := .issuing 1, sp := 0, pend := [⟨0 + Config.latency, 1, ⟨.reg 9, 1⟩⟩] }] }]
  ops := [getOp] }

/-- The get's result is written behind the one that lands (R65), so that v9 changes with v5. -/
theorem resultDue_retired_raw :
    ((resultDue.retireMatrix getOp (.accmovGet unmarked 0 5 6)).barriers.thread getOp.team getAcc.thread).raw 9 = 1 := by decide +kernel

/-- Refutes O27: as an accmov.get retires, a result of fixed latency that is due lands first, in another register than the get's. -/
theorem not_arrayWordsRetire : ¬ Obligations.ArrayWordsRetire := by
  rintro ⟨-, -, moves⟩
  have head : resultDue.portHead getOp = true := by decide +kernel
  obtain ⟨get, -⟩ := moves resultDue getOp unmarked 0 5 6 getAcc rfl (by decide) rfl rfl (by decide) (by decide) head
  obtain ⟨t, retired, only⟩ := get rfl rfl ⟨_, List.mem_cons_self, rfl⟩
  cases retired.symm.trans (exec_matrixRetire (s := resultDue) (o := getOp) rfl rfl head)
  have kept : (resultDue.thread getOp.team getAcc.thread).raw 9 = 1 := (only 9).symm.trans resultDue_retired_raw
  exact absurd kept (by decide)

end Sys2Proof.Machine
end

section
/-! PROOFS. The words of the matrix array at their issue (R202, R210 to R224, R234 to R236, R512): what the end of a word leaves as it was, what a word of the array starts, and when it faults. -/
namespace Sys2Proof.Machine
open Sys2Proof.Claims

/-! ### Elements found in a list that a change keeps in place -/

/-- A change that keeps what a search tests changes what the search finds, and nothing else. -/
theorem findBy_mapIf {α : Type} {p q : α → Bool} {f : α → α} (keeps : ∀ x, p (f x) = p x) (l : List α) :
    findBy p (mapIf q f l) = (findBy p l).map fun x => if q x then f x else x := by
  induction l with
  | nil => rfl
  | cons x r ih =>
    have tested : p (if q x then f x else x) = p x := by split <;> simp [keeps]
    by_cases hp : p x = true
    · simp [mapIf, findBy, tested, hp]
    · simp [mapIf, findBy, tested, hp, ih]

/-- A part of an element that a change leaves alone is found as it was. -/
theorem findBy_mapIf_part {α β : Type} {p q : α → Bool} {f : α → α} (part : α → β) (keeps : ∀ x, p (f x) = p x) (same : ∀ x, part (f x) = part x)
    (l : List α) (absent : α) : part ((findBy p (mapIf q f l)).getD absent) = part ((findBy p l).getD absent) := by
  rw [findBy_mapIf keeps]
  cases findBy p l with
  | none => rfl
  | some x => simp only [Option.map_some, Option.getD_some]; split <;> simp [same]

section
variable (s : State) {β : Type}

theorem State.findGrp_updGrp (g h : Nat) {f : Grp → Grp} (keeps : ∀ x, (f x).gid = x.gid := by intro _; rfl) :
    (s.updGrp g f).findGrp h = (s.findGrp h).map fun x => if x.gid == g then f x else x :=
  findBy_mapIf (fun x => by simp [keeps]) _

theorem State.grp_updGrp_ne {g h : Nat} (ne : h ≠ g) {f : Grp → Grp} (keeps : ∀ x, (f x).gid = x.gid := by intro _; rfl) : (s.updGrp g f).grp h = s.grp h := by
  rw [grp, grp, s.findGrp_updGrp g h keeps]
  cases found : s.findGrp h with
  | none => rfl
  | some x =>
    have named : x.gid = h := by simpa using (findBy_some found).2
    simp [named, ne]

/-- A part of every team that an update of one leaves alone. -/
theorem State.team_updTeam_part (part : Team → β) (i j : TeamId) {f : Team → Team} (keeps : ∀ x, (f x).id = x.id := by intro _; rfl)
    (same : ∀ x, part (f x) = part x := by intro _; rfl) :
    part ((s.updTeam i f).team j) = part (s.team j) :=
  findBy_mapIf_part part (fun x => by simp [keeps]) same _ _

/-- A part of every thread that an update of some leaves alone. -/
theorem State.thread_updThreads_part (part : Thread → β) (i j : TeamId) (is : List Nat) (n : Nat) {f : Thread → Thread}
    (keeps : ∀ x, (f x).idx = x.idx := by intro _; rfl) (same : ∀ x, part (f x) = part x := by intro _; rfl) : part ((s.updThreads i is f).thread j n) = part (s.thread j n) :=
  s.team_updTeam_part (fun x => part (x.thread n)) i j (same := fun _ => findBy_mapIf_part part (fun x => by simp [keeps]) same _ _)

end

/-! ### What the end of a word leaves as it was (R56 to R58) -/

/-- Nothing but a group, and of threads the cycle of their next issue, differs. -/
structure State.EndsAs (gid : Nat) (s t : State) : Prop where
  others : OthersSame s t gid
  threads : ThreadsSame s t
  tiles : ∀ id, (t.team id).tiles = (s.team id).tiles
  scratch : ∀ id, (t.team id).scratch = (s.team id).scratch

namespace State.EndsAs
variable {gid : Nat} {s t u : State}

theorem of_eq (groups : t.groups = s.groups) (teams : t.teams = s.teams) : EndsAs gid s t := by
  have grp (g : Nat) : t.grp g = s.grp g := by simp [State.grp, State.findGrp, groups]
  have team (id : TeamId) : t.team id = s.team id := by simp [State.team, State.findTeam, teams]
  exact ⟨fun g _ => grp g, fun i n => by simp [State.thread, team], fun i => by rw [team], fun i => by rw [team]⟩

theorem trans (h : EndsAs gid s t) (k : EndsAs gid t u) : EndsAs gid s u :=
  ⟨fun g ne => (k.others g ne).trans (h.others g ne), fun i n => (k.threads i n).trans (h.threads i n),
    fun i => (k.tiles i).trans (h.tiles i), fun i => (k.scratch i).trans (h.scratch i)⟩

theorem updGrp (s : State) {f : Grp → Grp} (keeps : ∀ x, (f x).gid = x.gid := by intro _; rfl) : EndsAs gid s (s.updGrp gid f) :=
  ⟨fun _ ne => s.grp_updGrp_ne ne keeps, fun _ _ => rfl, fun _ => rfl, fun _ => rfl⟩

theorem updThreads (s : State) (i : TeamId) (is : List Nat) {f : Thread → Thread} (keeps : ∀ x, (f x).idx = x.idx := by intro _; rfl)
    (same : ∀ x, bare (f x) = bare x := by intro _; rfl) : EndsAs gid s (s.updThreads i is f) :=
  ⟨fun _ _ => rfl, fun j n => s.thread_updThreads_part bare i j is n keeps same, s.team_updTeam_part Team.tiles i, s.team_updTeam_part Team.scratch i⟩

theorem settleFlag (s : State) (f : Nat) : EndsAs gid s (s.settleFlag gid f) := by
  unfold State.settleFlag
  split
  · exact of_eq rfl rfl
  · exact updGrp s fun x => by split <;> rfl

theorem closeClause (s : State) (c : Ctx) (len : Nat) : EndsAs c.gid s (s.closeClause c len) := by
  unfold State.closeClause
  extract_lets due opened dued settled
  have hdued : EndsAs c.gid s dued := (updGrp s).trans (updThreads opened c.g.team c.g.members)
  have hsettled : EndsAs c.gid dued settled := by
    cases h : c.g.flag with
    | none => simpa [settled, h] using of_eq rfl rfl
    | some f => simpa [settled, h] using settleFlag dued f
  exact (hdued.trans hsettled).trans (of_eq rfl rfl)

theorem endWord (s : State) (c : Ctx) (len : Nat) : EndsAs c.gid s (s.endWord c len) := by
  unfold State.endWord
  split
  · exact updGrp s
  · exact (closeClause s c len).trans (updGrp _)

end State.EndsAs

/-! ### The group passes its word -/

section
variable {s : State} {x : Grp}

theorem State.grp_of_findGrp {gid : Nat} (found : s.findGrp gid = some x) : s.grp gid = x := by simp [State.grp, found]

theorem State.findGrp_updGrp_self {gid : Nat} (found : s.findGrp gid = some x) {f : Grp → Grp} (keeps : ∀ y, (f y).gid = y.gid := by intro _; rfl) :
    (s.updGrp gid f).findGrp gid = some (f x) := by
  have named : x.gid = gid := by simpa using (findBy_some found).2
  simp [s.findGrp_updGrp gid gid keeps, found, named]

/-- A flag that settles changes the flags of a group alone. -/
theorem State.findGrp_settleFlag {gid f : Nat} (found : s.findGrp gid = some x) : ∃ flags, (s.settleFlag gid f).findGrp gid = some { x with flags := flags } := by
  unfold State.settleFlag
  split
  · exact ⟨x.flags, found⟩
  · rw [State.findGrp_updGrp_self found fun y => by split <;> rfl]
    split
    · exact ⟨x.flags, rfl⟩
    · exact ⟨_, rfl⟩

/-- A group whose clause closes is at no word of one. -/
theorem State.findGrp_closeClause {c : Ctx} {len : Nat} (found : s.findGrp c.gid = some x) :
    ∃ y, (s.closeClause c len).findGrp c.gid = some y ∧ y.members = x.members ∧ y.word = 0 ∧ y.clause = 0 := by
  unfold State.closeClause
  extract_lets due opened dued settled
  have hdued : dued.findGrp c.gid = some _ := State.findGrp_updGrp_self found
  cases h : c.g.flag with
  | none =>
    have unflagged : settled = dued := by simp only [settled, h]
    exact ⟨_, (congrArg (State.findGrp · c.gid) unflagged).trans hdued, rfl, rfl, rfl⟩
  | some f =>
    have flagged : settled = dued.settleFlag c.gid f := by simp only [settled, h]
    obtain ⟨flags, hflags⟩ := State.findGrp_settleFlag (f := f) hdued
    exact ⟨_, (congrArg (State.findGrp · c.gid) flagged).trans hflags, rfl, rfl, rfl⟩

/-- The group of a word that ends has passed it. -/
theorem State.endWord_passed {c : Ctx} {len : Nat} (found : s.findGrp c.gid = some c.g) : Passed s (s.endWord c len) c.gid len := by
  unfold Passed
  rw [State.grp_of_findGrp found]
  by_cases inner : c.g.word + len < headerN c.g.header
  · rw [State.endWord_inner s c len inner, State.grp_of_findGrp (State.findGrp_updGrp_self found)]
    simp [inner]
  · obtain ⟨y, closed, members, word, clause⟩ := State.findGrp_closeClause (len := len) found
    rw [State.endWord_last s c len (Nat.le_of_not_lt inner), State.grp_of_findGrp (State.findGrp_updGrp_self closed)]
    simp [inner, members, word, clause, Ctx.next]

end

/-! ### An operation joins and the word ends -/

/-- Where only groups, teams and quadrants differ, memory is as it was. -/
theorem State.onlyIssue.memorySame {s t : State} (h : s.onlyIssue t) : MemorySame s t := by
  have same : { t with groups := s.groups, teams := s.teams, quads := s.quads } = s := h
  exact ⟨(congrArg State.mem same :), (congrArg State.outMem same :), (congrArg State.regions same :), (congrArg State.writes same :)⟩

/-- What a word of the array does before its operation joins the port: it may take names, count events, set its buffers and bindings, and slave the follower's array. -/
structure State.Readied (s u : State) : Prop where
  groups : u.groups = s.groups
  ops : u.ops = s.ops
  names : s.nextId ≤ u.nextId
  memory : MemorySame s u
  threads : ∀ id, (u.team id).threads = (s.team id).threads
  tiles : ∀ id, (u.team id).tiles = (s.team id).tiles
  scratch : ∀ id, (u.team id).scratch = (s.team id).scratch

namespace State.Readied
variable {s t u : State}

theorem refl (s : State) : Readied s s := ⟨rfl, rfl, Nat.le_refl _, ⟨rfl, rfl, rfl, rfl⟩, fun _ => rfl, fun _ => rfl, fun _ => rfl⟩

theorem trans (h : Readied s t) (k : Readied t u) : Readied s u := by
  obtain ⟨mem, outMem, regions, writes⟩ := h.memory
  obtain ⟨mem', outMem', regions', writes'⟩ := k.memory
  exact ⟨k.groups.trans h.groups, k.ops.trans h.ops, Nat.le_trans h.names k.names, ⟨mem'.trans mem, outMem'.trans outMem, regions'.trans regions, writes'.trans writes⟩,
    fun i => (k.threads i).trans (h.threads i), fun i => (k.tiles i).trans (h.tiles i), fun i => (k.scratch i).trans (h.scratch i)⟩

theorem takeName (s : State) : Readied s { s with nextId := s.nextId + 1 } :=
  ⟨rfl, rfl, Nat.le_succ _, ⟨rfl, rfl, rfl, rfl⟩, fun _ => rfl, fun _ => rfl, fun _ => rfl⟩

theorem updCore (s : State) (n : Nat) (f : Core → Core) : Readied s (s.updCore n f) :=
  ⟨rfl, rfl, Nat.le_refl _, ⟨rfl, rfl, rfl, rfl⟩, fun _ => rfl, fun _ => rfl, fun _ => rfl⟩

theorem count (s : State) (unit code n : Nat) : Readied s (s.count unit code n) := by
  unfold State.count
  split
  · exact refl s
  · exact ⟨rfl, rfl, Nat.le_refl _, ⟨rfl, rfl, rfl, rfl⟩, fun _ => rfl, fun _ => rfl, fun _ => rfl⟩

theorem countSums (s : State) (c : Ctx) (loads : List Acc) : Readied s (s.countSums c loads) := (count s _ _ _).trans (count _ _ _ _)

theorem updTeam (s : State) (i : TeamId) {f : Team → Team} (name : ∀ x, (f x).id = x.id := by intro _; rfl)
    (threads : ∀ x, (f x).threads = x.threads := by intro _; rfl) (tiles : ∀ x, (f x).tiles = x.tiles := by intro _; rfl)
    (scratch : ∀ x, (f x).scratch = x.scratch := by intro _; rfl) : Readied s (s.updTeam i f) :=
  ⟨rfl, rfl, Nat.le_refl _, ⟨rfl, rfl, rfl, rfl⟩, fun j => s.team_updTeam_part Team.threads i j name threads,
    fun j => s.team_updTeam_part Team.tiles i j name tiles, fun j => s.team_updTeam_part Team.scratch i j name scratch⟩

/-- A word of pair mode slaves the follower's array (R201). -/
theorem slave (s : State) (mode core : Nat) : Readied s (if mode = 3 then s.updCore (core + 1) fun x => { x with slaved := true } else s) := by
  split
  · exact updCore s _ _
  · exact refl s

end State.Readied

/-- What the issue of an operation leaves as it was, once its word has ended. -/
structure Issued (s t : State) (gid len : Nat) : Prop where
  threads : ThreadsSame s t
  memory : MemorySame s t
  others : OthersSame s t gid
  passed : Passed s t gid len
  tiles : ∀ id, (t.team id).tiles = (s.team id).tiles
  scratch : ∀ id, (t.team id).scratch = (s.team id).scratch

section
variable {s u : State} {gid len : Nat}

/-- Its operation joins the outstanding ones, and the word ends. -/
theorem State.Readied.issued (ready : s.Readied u) (found : s.findGrp gid ≠ none) (o : Op) : Issued s ((u.addOp o).endWord (s.ctx gid) len) gid len := by
  obtain ⟨x, hx⟩ := Option.ne_none_iff_exists'.mp found
  have grp (g : Nat) : (u.addOp o).findGrp g = s.findGrp g := congrArg (findBy _) ready.groups
  have same (g : Nat) : (u.addOp o).grp g = s.grp g := by rw [State.grp, State.grp, grp]
  have ends := State.EndsAs.endWord (u.addOp o) (s.ctx gid) len
  obtain ⟨mem, outMem, regions, writes⟩ := ready.memory
  obtain ⟨mem', outMem', regions', writes'⟩ := (State.onlyIssue_endWord (u.addOp o) (s.ctx gid) len).memorySame
  have passed : Passed (u.addOp o) ((u.addOp o).endWord (s.ctx gid) len) gid len :=
    State.endWord_passed ((grp gid).trans (hx.trans (congrArg some (State.grp_of_findGrp hx).symm)))
  refine ⟨fun i n => ?_, ⟨mem'.trans mem, outMem'.trans outMem, regions'.trans regions, writes'.trans writes⟩, fun g ne => (ends.others g ne).trans (same g), ?_,
    fun i => (ends.tiles i).trans (ready.tiles i), fun i => (ends.scratch i).trans (ready.scratch i)⟩
  · refine (ends.threads i n).trans ?_
    have kept : u.thread i n = s.thread i n := by simp [State.thread, Team.thread, ready.threads]
    exact congrArg bare kept
  · simpa only [Passed, same] using passed

/-- The operation that joins is one of the issuing group, counted in the flag of its clause. -/
theorem State.Readied.adds (ready : s.Readied u) {o : Op} (team : o.team = (s.grp gid).team) (gids : o.gids = [gid]) (flag : o.flag = (s.grp gid).flag) :
    Adds s ((u.addOp o).endWord (s.ctx gid) len) gid { o with id := u.nextId } := by
  refine ⟨?_, ready.names, team, gids, flag⟩
  rw [(State.onlyIssue_endWord _ _ _).ops]
  simp [State.addOp, ready.ops]

end

/-! ### mstat (R234, R235) -/

theorem mstatWord_issues {s : State} {gid : Nat} {k : Ctl} {a : Reg} {i : Instr} {v : Ctx → Nat} (issues : Issues s gid [a.toNat]) (found : s.findGrp gid ≠ none) :
    ∃ t o, mstatWord k a s i v = .next t ∧ Adds s t gid o ∧ o.kind = .matrix i ∧
      o.results = ((s.ctx gid).actors k).flatMap (fun h => ((s.ctx gid).receivers k h).flatMap fun m => (wreg a (v (s.ctx gid))).map fun w => (m, w)) ∧ Issued s t gid 1 :=
  ⟨_, _, issue_next issues.1 issues.2, (State.Readied.refl s).adds rfl rfl rfl, rfl, rfl, (State.Readied.refl s).issued found _⟩

/-- A result of 32 bits as the claims and as the model write it. -/
theorem toReg_ofNat (a : Reg) (n : Nat) : toReg a (BitVec.ofNat 32 n) = wreg a n := by simp [toReg, wreg]

theorem toReg_ofInt (a : Reg) (x : Int) : toReg a (BitVec.ofInt 32 x) = wreg a (wrapTo 32 x) := by
  simp only [toReg, wreg, wrapTo, BitVec.toNat_ofInt]
  congr 2
  omega

/-- The base threshold of an approximation class is the one that the claims name (R229). -/
theorem toReg_theta (a : Reg) (cls : Nat) (delta : Nat) :
    toReg a (if cls = 0 then 0x80000000 else BitVec.ofInt 32 ((if cls = 1 then -64 else if cls = 2 then -56 else -48) + (delta : Int))) =
      wreg a (if cls = 0 then 2 ^ 31 else wrapTo 32 (theta0 cls + delta)) := by
  split
  · rfl
  · exact toReg_ofInt a _

theorem toReg_bindBytes (a : Reg) (w x y z : Nat) :
    toReg a (BitVec.ofNat 32 (w + 2 ^ 8 * x + 2 ^ 16 * y + 2 ^ 24 * z)) = wreg a (w + x * 2 ^ 8 + y * 2 ^ 16 + z * 2 ^ 24) := by
  rw [toReg_ofNat, Nat.mul_comm (2 ^ 8), Nat.mul_comm (2 ^ 16), Nat.mul_comm (2 ^ 24)]

/-- The model's mstat words are those of the claim: a word of the array with the value that the claim names. -/
theorem exec_mstat {i : Instr} {k : Ctl} {a : Reg} {v : BitVec 32} {s : State} {c : Ctx} (rule : mstatRule s c i = some (k, a, v)) :
    ∃ f : Ctx → Nat, exec i s = mstatWord k a s i f ∧ toReg a v = wreg a (f c) := by
  unfold mstatRule at rule
  split at rule
  · cases rule
    exact ⟨fun c => s.mxstat c.core, rfl, toReg_ofNat _ _⟩
  · cases rule
    exact ⟨fun c => bindByte c.t c.core 0 + bindByte c.t c.core 1 * 2 ^ 8 + bindByte c.t c.core 2 * 2 ^ 16 + bindByte c.t c.core 3 * 2 ^ 24, rfl,
      toReg_bindBytes _ _ _ _ _⟩
  · cases rule
    exact ⟨fun c => if c.l.cls = 0 then 2 ^ 31 else wrapTo 32 (theta0 c.l.cls + (s.die c.die).delta), rfl, toReg_theta _ _ _⟩
  · cases rule

theorem arrayStatusWords : ArrayStatusWords := by
  intro i k a v s gid rule _ issues found
  obtain ⟨f, model, value⟩ := exec_mstat rule
  obtain ⟨t, o, done, adds, kind, results, issued⟩ := mstatWord_issues (i := i) (v := f) (k := k) issues found
  rw [value]
  exact ⟨t, o, model.trans done, adds, kind, results, issued.threads, issued.memory, issued.passed⟩

/-! ### The arms of the array's words -/

section
variable (s : State) (k : Ctl) (t : Tile) (a : Reg) (m : MxMode) (fmt : MxFmt) (sel : Bits2) (rnd : Round) (z src isI sat : Bool) (tgt : CvtTarget)

theorem exec_wld : exec (.wld k m a sel fmt) s = execWld k m a sel fmt s := rfl
theorem exec_wldpr : exec (.wldpr k a fmt) s = execWldpr k a fmt s := rfl
theorem exec_mma : exec (.mma k m t a z src sel fmt) s = execMma k m t a z src sel fmt s := rfl
theorem exec_mmapr : exec (.mmapr k t a z src fmt) s = execMmapr k t a z src fmt s := rfl
theorem exec_accld : exec (.accld k t a) s = execAccld k t a s := rfl
theorem exec_accst : exec (.accst k t a) s = execAccst k t a s := rfl
theorem exec_acccvt : exec (.acccvt k t a rnd isI sel sat tgt) s = execAcccvt k t a rnd isI sel sat tgt s := rfl

end

/-! ### Words that pass their checks start in the array (R213 to R224, R236) -/

/-- A word of the array has passed its checks: once it is readied, its operation joins the array's port. -/
def State.Starts (s : State) (c : Ctx) (i : Instr) (len : Nat) (t : State) : Prop :=
  ∃ u accs all bind, s.Readied u ∧ t = u.startMatrix c i len accs all bind

section
variable {s : State} {c : Ctx} {i : Instr}

/-- A check that succeeds has an answer. -/
theorem isOk_iff {ε α : Type} {x : Except ε α} : x.isOk = true ↔ ∃ a, x = .ok a := by cases x <;> simp [Except.isOk, Except.toBool]

theorem descFits_iff {write : Bool} {d : Desc} {ranges : List (Nat × Nat)} :
    descFits c write d ranges = true ↔ d.ok = true ∧ ∃ bs, checkDesc c write d ranges = .ok bs := by
  rw [descFits, Bool.and_eq_true, isOk_iff]

theorem State.descWord_starts {h : Thread} {len t n : Nat} {write : Bool} {d : Desc} {ranges : List (Nat × Nat)} (inside : t + n ≤ c.l.tiles)
    (fits : descFits c write d ranges = true) : s.Starts c i len (s.descWord c h i len t n write d ranges) := by
  obtain ⟨ok, bs, checked⟩ := descFits_iff.mp fits
  have started : s.descWord c h i len t n write d ranges =
      (s.updTeam c.g.team fun x => { x with bufs := bs }).startMatrix c i len [laneArg c h d.lo d.hi] [] none := by
    simp [descWord, ok, spanOk, inside, checked]
  exact ⟨_, _, _, _, Readied.updTeam s _, started⟩

theorem State.startWld_starts {h : Thread} {mode sel fmt : Nat} {d : Desc} (available : s.modeOk c.core mode sel = true)
    (fits : descFits c false d (d.ranges 32 (nbOf mode * kbOf mode) (rowLen fmt)) = true) : s.Starts c i 2 (s.startWld c h i mode sel fmt d) := by
  obtain ⟨ok, bs, checked⟩ := descFits_iff.mp fits
  unfold startWld
  simp only [ok, available, checked]
  exact ⟨_, _, _, _, ((Readied.takeName s).trans (.updTeam _ _)).trans (.slave _ mode c.core), rfl⟩

/-- An mma starts by its lanes' fragments or by a descriptor (R214, R215). -/
theorem State.startMma_starts {k : Ctl} {mode sel fmt : Nat} {t : Tile} {a : Reg} {src : Bool} (legal : mode = 3 → pairIllegal c = false)
    (fits : mmaFits s c k mode sel fmt t a src = true) : s.Starts c i 2 (s.startMma c k i mode sel fmt t a src) := by
  unfold mmaFits at fits
  unfold startMma
  extract_lets span at fits
  extract_lets -merge span' kb go
  obtain ⟨front, operands⟩ := Bool.and_eq_true_iff.mp fits
  obtain ⟨spans, tiles⟩ := Bool.and_eq_true_iff.mp front
  obtain ⟨multiple, together⟩ := Bool.and_eq_true_iff.mp spans
  have aligned : t.toNat % span' = 0 := of_decide_eq_true multiple
  have combo : s.comboCase c mode sel fmt src = 0 := of_decide_eq_true together
  have inside : spanOk c t.toNat span' = true := tiles
  have goes {u : State} (accs : List Acc) (ready : s.Readied u) : s.Starts c i 2 (go u accs) :=
    ⟨_, _, _, _, ready.trans (.slave u mode c.core), rfl⟩
  clear_value span' go
  cases src with
  | false =>
    simp only [Bool.false_eq_true, if_false, Bool.and_eq_true, decide_eq_true_eq, Bool.not_eq_true'] at operands
    obtain ⟨registers, acting⟩ := operands
    simpa [aligned, combo, inside, Nat.not_lt.mpr registers, kb, acting] using goes _ (.refl s)
  | true =>
    cases lead : c.lead k with
    | none => simp [lead] at operands
    | some h =>
      simp only [lead, if_true] at operands
      obtain ⟨ok, bs, checked⟩ := descFits_iff.mp operands
      have pair : (decide (mode = 3) && pairIllegal c) = false := by simpa using legal
      simpa [aligned, combo, inside, pair, ok, kb, checked] using goes _ (Readied.updTeam s _)

/-- A pair as the claims and as the model read it (R92). -/
theorem P64_toNat (h : Thread) (r : Reg) : (P64 h r).toNat = h.pair r := by
  have low := (h.raw r.toNat).isLt
  rw [P64, BitVec.toNat_append, ← Nat.shiftLeft_add_eq_or_of_lt low, Nat.shiftLeft_eq, Thread.pair, Thread.vn, Thread.vn]
  omega

/-- A word on tiles that are the team's. -/
theorem tileWord_starts {gid : Nat} {k : Ctl} {ts : List (Nat × Nat)} (issues : Issues s gid []) (leads : ((s.ctx gid).lead k).isSome = true)
    (inside : ∀ e ∈ ts, e.1 + e.2 ≤ (s.ctx gid).l.tiles) : ∃ t, tileWord k s i ts = .next t ∧ s.Starts (s.ctx gid) i 1 t := by
  obtain ⟨h, lead⟩ := Option.isSome_iff_exists.mp leads
  refine ⟨_, onceWord_eq issues.1 issues.2 lead, ?_⟩
  have all : (ts.all fun e => spanOk (s.ctx gid) e.1 e.2) = true := by simpa [spanOk] using fun a b m => inside (a, b) m
  simp only [all]
  exact ⟨_, _, _, _, .refl s, rfl⟩

/-- accmov with a participant, on tiles that are the team's. -/
theorem movWord_starts {gid : Nat} {k : Ctl} {regs : List Nat} {t : Tile} {x y : Thread → Nat} {get : Bool} (issues : Issues s gid regs)
    (acts : (!((s.ctx gid).actors k).isEmpty) = true)
    (spans : (if (s.ctx gid).l.w = 64 then t.toNat % 2 = 0 && decide (t.toNat + 2 ≤ (s.ctx gid).l.tiles) else decide (t.toNat < (s.ctx gid).l.tiles)) = true) :
    ∃ u, movWord k regs s i t x y get = .next u ∧ s.Starts (s.ctx gid) i 1 u := by
  have acting : (s.ctx gid).actors k ≠ [] := by simpa using acts
  refine ⟨_, issue_next issues.1 issues.2, ?_⟩
  have starts : s.Starts (s.ctx gid) i 1 (s.startMatrix (s.ctx gid) i 1 (((s.ctx gid).actors k).map fun h => laneArg (s.ctx gid) h (x h) (y h))
      (if get then (s.ctx gid).spread k else []) none) := ⟨_, _, _, _, .refl s, rfl⟩
  by_cases wide : (s.ctx gid).l.w = 64
  · obtain ⟨even, inside⟩ : t.toNat % 2 = 0 ∧ t.toNat + 2 ≤ (s.ctx gid).l.tiles := by simpa [wide] using spans
    simpa [wide, even, spanOk, inside, acting] using starts
  · have inside : t.toNat < (s.ctx gid).l.tiles := by simpa [wide] using spans
    simpa [wide, Nat.mod_one, spanOk, Nat.succ_le_of_lt inside, acting] using starts

/-- pgsel whose output and summaries pass their checks (R236, R237). -/
theorem execPgsel_starts {gid : Nat} {k : Ctl} {m : PgselDim} {a b c0 : Reg} {scores : Bool} {kn : Bits7} {len : Nat} {regs : List Nat}
    (rule : arrayRule s (s.ctx gid) (.pgsel k m a b c0 scores kn) = some (len, regs, true)) (issues : Issues s gid regs) :
    ∃ t, execPgsel k m a b c0 scores kn s = .next t ∧ s.Starts (s.ctx gid) (.pgsel k m a b c0 scores kn) len t := by
  simp only [arrayRule, Option.some.injEq, Prod.mk.injEq, Option.any_eq_true] at rule
  obtain ⟨rfl, rfl, h, lead, fits⟩ := rule
  obtain ⟨front, summed⟩ := Bool.and_eq_true_iff.mp fits
  obtain ⟨placed, filled⟩ := Bool.and_eq_true_iff.mp front
  obtain ⟨inside, multiple⟩ := Bool.and_eq_true_iff.mp placed
  obtain ⟨bs, used⟩ := isOk_iff.mp filled
  obtain ⟨loads, summed⟩ := isOk_iff.mp summed
  have below : h.vn (c0.toNat + 1) + kn.toNat * (if scores then 8 else 4) ≤ (s.ctx gid).l.scratchTop := of_decide_eq_true inside
  have aligned : h.vn (c0.toNat + 1) % 4 = 0 := of_decide_eq_true multiple
  rw [P64_toNat] at summed
  refine ⟨_, onceWord_eq issues.1 issues.2 lead, ?_⟩
  dsimp only [Thread.vn, Thread.v, V] at below aligned summed used ⊢
  simp only [Nat.not_lt.mpr below, aligned, used, summed, if_false, ne_eq, not_true_eq_false]
  exact ⟨_, _, _, _, (State.Readied.countSums s _ _).trans (.updTeam _ _), rfl⟩

theorem modeCode_ne_three (m : MxMode) : modeCode m ≠ 3 := by cases m <;> decide

/-- The leader core of a pair launch may issue words of pair mode (R201). -/
theorem pairLegal (pair : c.l.pair = true) (leader : Claims.half c = 0) : pairIllegal c = false := by
  have leader : c.half = 0 := leader
  simp [pairIllegal, pair, leader]

theorem pairIllegal_of_claim (outside : c.l.pair = false ∨ Claims.half c ≠ 0) : pairIllegal c = true := by
  have outside : c.l.pair = false ∨ c.half ≠ 0 := outside
  simpa [pairIllegal] using outside

/-- An mma whose registers lie in the allocation begins its checks. -/
theorem exec_mma_issues {gid : Nat} {k : Ctl} {m : MxMode} {t : Tile} {a : Reg} {z src : Bool} {sel : Bits2} {fmt : MxFmt}
    (issues : Issues s gid (a.toNat :: if src then [a.toNat + 1] else [])) : exec (.mma k m t a z src sel fmt) s =
      .next (s.startMma (s.ctx gid) k (.mma k m t a z src sel fmt) (modeCode m) sel.toNat (fmtCode fmt) t a src) := by
  cases src <;> exact (exec_mma ..).trans (issue_next issues.1 issues.2)

theorem exec_mmapr_issues {gid : Nat} {k : Ctl} {t : Tile} {a : Reg} {z src : Bool} {fmt : MxFmt}
    (issues : Issues s gid (a.toNat :: if src then [a.toNat + 1] else [])) : exec (.mmapr k t a z src fmt) s =
      .next (if !src && pairIllegal (s.ctx gid) then s.matrixFault (s.ctx gid) 2 clsEnc 0
        else s.startMma (s.ctx gid) k (.mmapr k t a z src fmt) 3 0 (fmtCode fmt) t a src) := by
  cases src <;> exact (exec_mmapr ..).trans (issue_next issues.1 issues.2)

section
variable {gid len : Nat} {regs : List Nat}

/-- A descriptor word of an active member on a tile of the team's. -/
theorem descWord_leads {k : Ctl} {t : Tile} {write : Bool} {d : Thread → Desc} {ranges : Thread → List (Nat × Nat)} (len : Nat)
    (inside : t.toNat < (s.ctx gid).l.tiles) (fits : ((s.ctx gid).lead k).any (fun h => descFits (s.ctx gid) write (d h) (ranges h)) = true) :
    ∃ h, (s.ctx gid).lead k = some h ∧ (d h).ok = true ∧
      s.Starts (s.ctx gid) i len (s.descWord (s.ctx gid) h i len t.toNat 1 write (d h) (ranges h)) := by
  obtain ⟨h, lead, fits⟩ := (Option.any_eq_true _ _).mp fits
  exact ⟨h, lead, (descFits_iff.mp fits).1, s.descWord_starts inside fits⟩

/-- A word of the array that passes its checks starts. -/
theorem arrayRule_starts (rule : arrayRule s (s.ctx gid) i = some (len, regs, true)) (issues : Issues s gid regs) :
    ∃ t, exec i s = .next t ∧ s.Starts (s.ctx gid) i len t := by
  have whole := rule
  unfold arrayRule at rule
  split at rule <;> simp only [Option.some.injEq, Prod.mk.injEq, Bool.and_eq_true, decide_eq_true_eq, reduceCtorEq] at rule
  case h_1 k m a sel fmt => -- wld
    obtain ⟨rfl, rfl, leads⟩ := rule
    obtain ⟨h, lead, fits⟩ := (Option.any_eq_true _ _).mp leads
    obtain ⟨available, fits⟩ := Bool.and_eq_true_iff.mp fits
    exact ⟨_, (exec_wld ..).trans (onceWord_eq issues.1 issues.2 lead), s.startWld_starts available fits⟩
  case h_2 k a fmt => -- wldpr
    obtain ⟨rfl, rfl, ⟨pair, leader⟩, leads⟩ := rule
    obtain ⟨h, lead, fits⟩ := (Option.any_eq_true _ _).mp leads
    obtain ⟨available, fits⟩ := Bool.and_eq_true_iff.mp fits
    refine ⟨_, (exec_wldpr ..).trans (onceWord_eq issues.1 issues.2 lead), ?_⟩
    rw [pairLegal pair leader]
    exact s.startWld_starts available fits
  case h_3 k m t a z src sel fmt => -- mma
    obtain ⟨rfl, rfl, fits⟩ := rule
    exact ⟨_, exec_mma_issues issues, s.startMma_starts (fun three => absurd three (modeCode_ne_three m)) fits⟩
  case h_4 k t a z src fmt => -- mmapr
    obtain ⟨rfl, rfl, ⟨pair, leader⟩, fits⟩ := rule
    refine ⟨_, exec_mmapr_issues issues, ?_⟩
    rw [pairLegal pair leader, Bool.and_false, if_neg Bool.false_ne_true]
    exact s.startMma_starts (fun _ => pairLegal pair leader) fits
  case h_5 k m t => -- accz
    obtain ⟨rfl, rfl, leads, inside⟩ := rule
    exact tileWord_starts issues leads (by simpa using inside)
  case h_6 k m t src isI => -- accadd
    obtain ⟨rfl, rfl, ⟨leads, inside⟩, source⟩ := rule
    exact tileWord_starts issues leads (by simpa using ⟨inside, source⟩)
  case h_7 k t src => -- acctr
    obtain ⟨rfl, rfl, ⟨leads, inside⟩, source⟩ := rule
    exact tileWord_starts issues leads (by simpa using ⟨inside, source⟩)
  case h_8 k t a => -- accld
    obtain ⟨rfl, rfl, inside, fits⟩ := rule
    obtain ⟨h, lead, -, starts⟩ := descWord_leads 1 inside fits
    exact ⟨_, (exec_accld ..).trans (onceWord_eq issues.1 issues.2 lead), starts⟩
  case h_9 k t a => -- accst
    obtain ⟨rfl, rfl, inside, fits⟩ := rule
    obtain ⟨h, lead, -, starts⟩ := descWord_leads 1 inside fits
    exact ⟨_, (exec_accst ..).trans (onceWord_eq issues.1 issues.2 lead), starts⟩
  case h_10 k t a rnd isI wt sat tgt => -- acccvt
    obtain ⟨rfl, rfl, ⟨together, inside⟩, fits⟩ := rule
    obtain ⟨h, lead, ok, starts⟩ := descWord_leads 2 inside fits
    refine ⟨_, (exec_acccvt ..).trans (issue_next issues.1 issues.2), ?_⟩
    have together : (isI && decide (tgt = .w4)) = false := by simpa only [Bool.not_eq_true'] using together
    simpa [lead, Bool.and_assoc, together] using starts
  case h_11 k t a b => -- accmov.get
    obtain ⟨rfl, rfl, acting, inside⟩ := rule
    exact movWord_starts issues acting inside
  case h_12 k t a b => -- accmov.put
    obtain ⟨rfl, rfl, acting, inside⟩ := rule
    exact movWord_starts issues acting inside
  case h_13 k m a b c0 scores kn => -- pgsel
    exact execPgsel_starts whole issues

/-- A word that has started and reads no bad tile has an operation at the array's port, and has passed (R202, R444). -/
theorem State.Starts.goesOut {t : State} (starts : s.Starts (s.ctx gid) i len t) (sound : (s.ctx gid).t.badTile (Claims.half (s.ctx gid)) (tileReads (s.ctx gid).l.w i) = false)
    (found : s.findGrp gid ≠ none) : ∃ o, Adds s t gid o ∧ o.kind = .matrix i ∧ o.cls = 3 ∧ o.core = (s.ctx gid).core ∧ Issued s t gid len := by
  obtain ⟨u, accs, all, bind, ready, rfl⟩ := starts
  have sound : (s.ctx gid).t.badTile (s.ctx gid).half (tileReads (s.ctx gid).l.w i) = false := sound
  simp only [startMatrix, sound, Bool.false_eq_true, if_false]
  exact ⟨_, ready.adds rfl rfl rfl, rfl, rfl, rfl, ready.issued found _⟩

theorem arrayWordsGoOut : ArrayWordsGoOut := by
  intro i len regs s gid rule sound _ issues ⟨⟨g, found, _⟩, _⟩
  obtain ⟨t, done, starts⟩ := arrayRule_starts rule issues
  obtain ⟨o, adds, kind, cls, core, issued⟩ := starts.goesOut sound (by simp [found])
  exact ⟨t, o, done, adds, kind, cls, core, issued.threads, issued.memory, issued.others, issued.passed, issued.tiles _, issued.scratch _⟩

/-! ### Words that fault (R201, R210, R219, R512) -/

/-- Pair mode outside a pair launch's leader core is an encoding fault of an mmapr, whichever check comes to it (R219). -/
theorem State.startMma_pairIllegal {k : Ctl} {sel fmt : Nat} {t : Tile} {a : Reg} (illegal : pairIllegal c = true) (leads : c.lead k ≠ none) :
    s.startMma c k i 3 sel fmt t a true = s.matrixFault c 2 clsEnc 0 := by
  obtain ⟨h, lead⟩ := Option.ne_none_iff_exists'.mp leads
  simp [startMma, lead, illegal]

/-- A mode, formats or binding that do not go together park an mma whose encoding is good, with the case as detail (R210, R219). -/
theorem State.startMma_combo {k : Ctl} {mode sel fmt : Nat} {t : Tile} {a : Reg} {src : Bool} (legal : mode = 3 → pairIllegal c = false)
    (aligned : t.toNat % (nbOf mode * if !src && c.l.w = 64 then 2 else 1) = 0) (registers : src = false → a.toNat + 16 * kbOf mode ≤ c.l.nregs)
    (leads : src = true → ∃ h, c.lead k = some h ∧ (descOf h a).ok = true) (combo : s.comboCase c mode sel fmt src ≠ 0) :
    s.startMma c k i mode sel fmt t a src = s.matrixFault c 2 clsCombo (s.comboCase c mode sel fmt src) := by
  unfold startMma
  extract_lets span kb go
  have encoded : t.toNat % span = 0 := aligned
  clear_value span
  cases src with
  | false => simp [encoded, kb, Nat.not_lt.mpr (registers rfl), combo]
  | true =>
    obtain ⟨h, lead, ok⟩ := leads rfl
    have pair : (decide (mode = 3) && pairIllegal c) = false := by simpa using legal
    simp [encoded, lead, pair, ok, combo]

/-- With no active member an mma of src = 1 still faults where no unit implements its formats together (R512). -/
theorem State.startMma_idle {k : Ctl} {mode sel fmt : Nat} {t : Tile} {a : Reg} {b : Binding}
    (aligned : t.toNat % (nbOf mode * if !true && c.l.w = 64 then 2 else 1) = 0) (idle : c.lead k = none)
    (bound : findBinding c.t c.core mode sel = some b) (apart : pairOkFmt fmt b.fmt = false) :
    s.startMma c k i mode sel fmt t a true = s.matrixFault c 2 clsCombo 1 := by
  have bad : pairBad c mode sel fmt = true := by simp [pairBad, bound, apart]
  unfold startMma
  extract_lets span kb go
  have encoded : t.toNat % span = 0 := aligned
  clear_value span
  simp [encoded, idle, bad]

theorem Ctx.lead_ne_none {k : Ctl} (active : c.active k ≠ []) : c.lead k ≠ none := by simpa [Ctx.lead] using active

/-- An mma, and an mmapr on the leader core of a pair launch, go straight to their checks (R214). -/
theorem mma_begins {k : Ctl} {m : MxMode} {t : Tile} {a : Reg} {z src : Bool} {sel : Bits2} {fmt : MxFmt} {mode n : Nat}
    (word : (i = .mma k m t a z src sel fmt ∧ mode = modeCode m ∧ n = sel.toNat) ∨
      (i = .mmapr k t a z src fmt ∧ mode = 3 ∧ n = 0 ∧ (s.ctx gid).l.pair = true ∧ Claims.half (s.ctx gid) = 0))
    (issues : Issues s gid (a.toNat :: if src then [a.toNat + 1] else [])) :
    (mode = 3 → pairIllegal (s.ctx gid) = false) ∧ exec i s = .next (s.startMma (s.ctx gid) k i mode n (fmtCode fmt) t a src) := by
  obtain ⟨rfl, rfl, rfl⟩ | ⟨rfl, rfl, rfl, pair, leader⟩ := word
  · exact ⟨fun three => absurd three (modeCode_ne_three m), exec_mma_issues issues⟩
  · have legal := pairLegal pair leader
    refine ⟨fun _ => legal, ?_⟩
    rw [exec_mmapr_issues issues, legal, Bool.and_false, if_neg Bool.false_ne_true]

theorem arrayWordsFault : ArrayWordsFault := by
  intro k m t a z src sel fmt s gid
  dsimp only
  refine ⟨fun _ issues active outside => ?_, fun _ issues leads outside => ?_, fun i mode n word _ issues aligned registers => ?_⟩
  · obtain ⟨h, lead⟩ := Option.ne_none_iff_exists'.mp (Ctx.lead_ne_none active)
    refine ((exec_wldpr ..).trans (onceWord_eq issues.1 issues.2 lead)).trans ?_
    rw [pairIllegal_of_claim outside, if_pos rfl]
    rfl
  · have illegal := pairIllegal_of_claim outside
    rw [exec_mmapr_issues issues, illegal]
    cases src with
    | false => rfl
    | true => exact congrArg Host.Outcome.next (State.startMma_pairIllegal illegal (leads rfl))
  · obtain ⟨legal, begins⟩ := mma_begins word issues
    refine ⟨fun leads combo => ?_, fun b one idle bound apart => ?_⟩
    · exact begins.trans (congrArg Host.Outcome.next (State.startMma_combo legal aligned registers leads combo))
    · subst one
      exact begins.trans (congrArg Host.Outcome.next (State.startMma_idle aligned idle bound apart))

end

end

/-- Settles O26: every word of the array that passes its checks readies the state and starts in the array, and the claimed faults are those that its checks come to. -/
theorem arrayWordsIssue : Obligations.ArrayWordsIssue := ⟨arrayWordsGoOut, arrayWordsFault, arrayStatusWords⟩

end Sys2Proof.Machine
end
